-- ==== Sys2Proof/Word.lean ====
section
/-! DEFINITION. The word types of the Glaorn D2 (R4, R55, R102): plain names for the bit vectors the spec treats as bits. -/
namespace Sys2Proof

/-- A 64-bit x register, address or CSR value (XLEN is 64, R4). -/
abbrev Word := BitVec 64

/-- A byte of memory. -/
abbrev Byte := BitVec 8

/-- A 32-bit instruction word, f register or FP32 pattern (FLEN is 32, R4). -/
abbrev Word32 := BitVec 32

/-- The 512 bytes of a vector register (R102). -/
abbrev VBits := BitVec 4096

/-- The 1,024 bits of a predicate register (R102). -/
abbrev PBits := BitVec 1024

/-- A number of an x, f or vector register. -/
abbrev XReg := Fin 32

/-- A number of a predicate register. -/
abbrev PReg := Fin 16

end Sys2Proof
end

