-- ==== Sys2Proof/Syntax.lean ====
section
/-! DEFINITION. The syntax: the ONE inductive Instr, one constructor per row of spec/opcode_table.json. The first
156 or so constructors are instruction words; the others are the commands, events and requests that the spec lists
as the part's steps (spec/95_what_each_step_holds.md), with what the environment supplies as operands. -/
namespace Sys2Proof

/-! ### Operands of the standard majors (R4, R29) -/

/-- Forms of a standard scalar load, `flw` included (R4, R6). -/
inductive LoadKind where
  | lb | lh | lw | ld | lbu | lhu | lwu | flw
  deriving DecidableEq, Repr

/-- Forms of a standard scalar store, `fsw` included. -/
inductive StoreKind where
  | sb | sh | sw | sd | fsw
  deriving DecidableEq, Repr

/-- Width of LR, SC and an AMO: funct3 0b010 or 0b011 (R30). -/
inductive AmoWidth where
  | word | dword
  deriving DecidableEq, Repr

/-- The nine standard AMO operations. -/
inductive AmoOp where
  | swap | add | xor | and | or | min | max | minu | maxu
  deriving DecidableEq, Repr

/-- The operation of a floating-point AMO (R81). -/
inductive FAmoOp where
  | add | min | max | minnum | maxnum
  deriving DecidableEq, Repr

/-- The six CSR forms (R30). -/
inductive CsrOp where
  | rw | rs | rc | rwi | rsi | rci
  deriving DecidableEq, Repr

/-- Conditions of the BRANCH major. -/
inductive BrCond where
  | beq | bne | blt | bge | bltu | bgeu
  deriving DecidableEq, Repr

/-- Functions of the OP major: I, M and Zba. -/
inductive OpFn where
  | add | sub | sll | slt | sltu | xor | srl | sra | or | and
  | mul | mulh | mulhsu | mulhu | div | divu | rem | remu
  | sh1add | sh2add | sh3add
  deriving DecidableEq, Repr

/-- Functions of the OP-32 major: I, M and Zba. -/
inductive Op32Fn where
  | addw | subw | sllw | srlw | sraw
  | mulw | divw | divuw | remw | remuw
  | adduw | sh1adduw | sh2adduw | sh3adduw
  deriving DecidableEq, Repr

/-- Functions of the OP-IMM major; the three shifts take a 6-bit amount. -/
inductive OpImmFn where
  | addi | slti | sltiu | xori | ori | andi | slli | srli | srai
  deriving DecidableEq, Repr

/-- Functions of the OP-IMM-32 major; the shifts take a 5-bit amount, `slli.uw` (Zba) a 6-bit amount. -/
inductive OpImm32Fn where
  | addiw | slliw | srliw | sraiw | slliuw
  deriving DecidableEq, Repr

/-- Every base instruction that the table's STANDARD_INSTRUCTION row stands for. -/
inductive StdInstr where
  | lui (rd : XReg) (imm : Nat)
  | auipc (rd : XReg) (imm : Nat)
  | jal (rd : XReg) (off : Int)
  | branch (c : BrCond) (rs1 rs2 : XReg) (off : Int)
  | op (f : OpFn) (rd rs1 rs2 : XReg)
  | op32 (f : Op32Fn) (rd rs1 rs2 : XReg)
  | opImm (f : OpImmFn) (rd rs1 : XReg) (imm : Int)
  | opImm32 (f : OpImm32Fn) (rd rs1 : XReg) (imm : Int)
  deriving DecidableEq, Repr

/-- A rounding field: the five static modes and the dynamic one; 0b101 and 0b110 are refused (R5). -/
inductive Rm where
  | rne | rtz | rdn | rup | rmm | dyn
  deriving DecidableEq, Repr

/-- Integer formats of the scalar conversions. -/
inductive CvtInt where
  | w | wu | l | lu
  deriving DecidableEq, Repr

/-- Two-operand F operations that round. -/
inductive FArith where
  | add | sub | mul | div
  deriving DecidableEq, Repr

/-- The four fused forms. -/
inductive FFused where
  | madd | msub | nmsub | nmadd
  deriving DecidableEq, Repr

/-- Sign injections, minimum and maximum. -/
inductive FSel where
  | sgnj | sgnjn | sgnjx | min | max
  deriving DecidableEq, Repr

/-- Scalar compares. -/
inductive FCmp where
  | eq | lt | le
  deriving DecidableEq, Repr

/-- Every scalar F instruction that is neither a load nor a store. -/
inductive FpInstr where
  | arith (f : FArith) (rd rs1 rs2 : XReg) (rm : Rm)
  | sqrt (rd rs1 : XReg) (rm : Rm)
  | fused (f : FFused) (rd rs1 rs2 rs3 : XReg) (rm : Rm)
  | sel (f : FSel) (rd rs1 rs2 : XReg)
  | cmp (f : FCmp) (rd rs1 rs2 : XReg)
  | fclass (rd rs1 : XReg)
  | mvXW (rd rs1 : XReg)
  | mvWX (rd rs1 : XReg)
  | cvtToInt (t : CvtInt) (rd rs1 : XReg) (rm : Rm)
  | cvtFromInt (t : CvtInt) (rd rs1 : XReg) (rm : Rm)
  deriving DecidableEq, Repr

/-! ### Operands of the device majors (R31, R37 to R41) -/

/-- Scopes of an ordering marker (R37, R79). -/
inductive Scope where
  | seq | core | clu | die | pkg | pod
  deriving DecidableEq, Repr

/-- Kinds of an ordering marker (R37, R79). -/
inductive MarkKind where
  | acq | rel | full
  deriving DecidableEq, Repr

/-- Fields of a floating-point AMO word (R38). -/
structure FAmo where
  rd : XReg
  rs2 : XReg
  rs1 : XReg
  aq : Bool
  rl : Bool
  deriving DecidableEq, Repr

/-- Fields of a VA, VX or VU word (R31): [25:21] is vs2, [20:16] is vs1 or xs1. A VU word has vs2 0 and b2 0. -/
structure VA where
  vd : XReg
  vs1 : XReg
  vs2 : XReg
  qp : PReg
  b1 : Bool
  b2 : Bool
  deriving DecidableEq, Repr

/-- Fields of a conversion word of VC (R40): tag in [24:21], sat in [25]. -/
structure VCv where
  vd : XReg
  vs1 : XReg
  tag : Fin 16
  sat : Bool
  qp : PReg
  b1 : Bool
  deriving DecidableEq, Repr

/-- Fields of a VP word (R31, R35): s2 is [24:20], s1 is [19:15]. -/
structure VP where
  ctype : Fin 8
  s2 : XReg
  s1 : XReg
  qp : PReg
  pa : PReg
  deriving DecidableEq, Repr

/-- Fields of a VM word (R31, R41): s2 is [25:21], xs1 is [20:16], vd is [11:7] (vs3 of a store, rd of `vmv.x`). -/
structure VM where
  vd : XReg
  xs1 : XReg
  s2 : XReg
  qp : PReg
  b : Bool
  deriving DecidableEq, Repr

/-! ### What the environment supplies to a step -/

/-- How the owner of one place outside this package answers (R250 to R253). -/
inductive RemoteVerdict where
  | accepted | xlat | access | absent
  deriving DecidableEq, Repr

/-- How other packages answer an access: what each element comes to by its position, a position beyond the list being
accepted, and the bytes that the instruction reads there at issue (R112). -/
structure RemoteAnswer where
  verdicts : List RemoteVerdict
  data : List Byte
  deriving DecidableEq, Repr

/-- The open choices of one performing access: whether a scalar load is served from the scalar data cache
(R234), the bytes another package's memory returns, and the (requester, bank) pairs denied a scratchpad bank in the
cycles that pass with it (R329). -/
structure PerformChoice where
  useCache : Bool
  data : List Byte
  lost : List (Nat × Nat)
  deriving DecidableEq, Repr

/-- What other packages return to an engine: the bytes it reads from them, in the order it reads them, and the 64-byte
units, by address, that do not accept its access (R250 to R253, R316, R317). -/
structure RemoteEnv where
  reads : List Byte
  verdicts : List (Word × RemoteVerdict)
  deriving DecidableEq, Repr

/-- The part of a peer's published collective command that members compare (R174, R175). With opcode 0x6f it tells that the
identifier is ended there: op 0 by `coll.end`, 1 by a teardown, and 2 that a chunk of the operation is damaged there, which `count`
then names (R313). -/
structure PeerCommand where
  member : Nat
  opcode : Nat
  id : Nat
  base : Nat
  lg : Nat
  tmax : Nat
  cs : Nat
  op : Nat
  count : Nat
  fromTag : Nat
  toTag : Nat
  source : List (BitVec 32)
  deriving DecidableEq, Repr

/-- A link of the agreed edge set (R278): its two ends as (link index, member). -/
structure LinkEdge where
  linkA : Nat
  memA : Nat
  linkB : Nat
  memB : Nat
  deriving DecidableEq, Repr

/-- An agreed edge set with the number of its epoch (R278). -/
structure EpochEdges where
  epoch : Nat
  links : List LinkEdge
  deriving DecidableEq, Repr

/-- Why a link goes down (R275). -/
inductive LinkDownCause where
  | replays | laneLock | training | farEnd
  deriving DecidableEq, Repr

/-- A request that arrives over the Weald (R277, R287), under the identifier it carries (R316). `eng` tells an engine's
access; a store may carry an arrival handler's offset (R244); `who` numbers the requesting sequencer (R8); `bump` adds 1
to an 8-byte counter (R288). `heldRead` and `heldWrite` are what an owner in another package passes to this one as the
holder of its page: a die and a physical address (R252). -/
inductive RemoteReq where
  | load (asid : Nat) (eng : Bool) (va : Word) (n : Nat)
  | store (asid : Nat) (eng : Bool) (va : Word) (data : List Byte) (hoff : Nat)
  | amo (asid : Nat) (op : AmoOp) (w : AmoWidth) (va : Word) (v : Word)
  | famo (asid : Nat) (op : FAmoOp) (va : Word) (v : Word32)
  | lr (asid who : Nat) (w : AmoWidth) (va : Word)
  | sc (asid who : Nat) (w : AmoWidth) (va : Word) (v : Word)
  | bump (asid : Nat) (va : Word)
  | mbox (asid g mb : Nat) (v : Word)
  | token (asid cl slot : Nat) (err : Bool)
  | heldRead (asid die pa n : Nat)
  | heldWrite (asid die pa : Nat) (data : List Byte)
  deriving DecidableEq, Repr

/-- Where an error is found (R312, R313); `mcache` is a line of a die's memory-side cache. -/
inductive ErrorSite where
  | scratch (g off : Nat)
  | dram (die pa : Nat)
  | mcache (die pa : Nat)
  | vreg (g k r : Nat)
  | preg (g k r : Nat)
  | xreg (g k r : Nat)
  | freg (g k r : Nat)
  | clearing (g q chunk : Nat)
  | coppice (cl entry : Nat)
  | token (cl slot : Nat)
  | mailbox (g mb slot : Nat)
  | icache (g asid line : Nat)
  | dcache (g line : Nat)
  deriving DecidableEq, Repr

/-- What the scrubber's read of a line finds (R315). -/
inductive ScrubFinding where
  | clean | corrected | uncorrectable
  deriving DecidableEq, Repr

/-- The fields of a fatal error that the dump header records (R318, R319). -/
structure FatalReport where
  cls : Nat
  die : Nat
  unit : Nat
  addr : Word
  deriving DecidableEq, Repr

/-- An SPDM request: its parameter (a slot, or a measurement index) and its nonce (R342). -/
structure SpdmRequest where
  param : Nat
  nonce : Nat
  deriving DecidableEq, Repr

/-- A pin with a boundary cell (R346): of the host link, of a lane of a Weald link, or for power control. -/
inductive Pin where
  | hostLink (i : Nat)
  | wealdLane (link lane : Nat)
  | powerControl (i : Nat)
  deriving DecidableEq, Repr

/-- What the tester does with the boundary register (R346): the values of the pins it finds, in the order of their cells, and the bits it
shifts in. -/
structure BoundaryScan where
  found : List (Pin × Bool)
  tdi : List Bool
  deriving DecidableEq, Repr

/-- A debug request names a package, a core and a mask of sequencers (R321). -/
structure DebugTarget where
  pkg : Nat
  g : Nat
  mask : BitVec 8
  deriving DecidableEq, Repr

/-- What a debug READ or WRITE names (R321, R323). -/
inductive DebugPlace where
  | pc
  | xreg (r : XReg)
  | freg (r : XReg)
  | vreg (r : XReg)
  | preg (r : PReg)
  | csr (n : Nat)
  | loopLevel (i : Nat)
  | shape (i : Fin 32)
  | layout (i : Fin 16)
  | fibre (i : Fin 8)
  | stream (i : Fin 8)
  | window (off n : Nat)
  | saveArea
  | linkTable (i : Nat)
  deriving DecidableEq, Repr

/-- A breakpoint slot (R324): an address or an (interval, count) pair, the trap or the halt action, an enable bit.
`passed` remembers that it has fired at its point, so that the instruction issues without firing again. -/
structure Breakpoint where
  addr : Option Word
  interval : Nat
  count : Nat
  trap : Bool
  enable : Bool
  passed : Bool
  deriving DecidableEq, Repr

/-- A host access through BAR2 (R335, R316): a read of n bytes, or a posted write, at an offset in the window; or a read of a register
of BAR0 (R336). -/
inductive HostAccess where
  | bar0 (off : Nat)
  | read (off n : Nat)
  | write (off : Nat) (data : List Byte)
  deriving DecidableEq, Repr

/-- A change Derdengo makes to one leaf entry while it holds the page's accesses (R251, R252). -/
structure PageChange where
  die : Nat
  asid : Nat
  va : Word
  entry : Word
  deriving DecidableEq, Repr

/-- The steps of the part: one constructor per row of spec/opcode_table.json. A docstring gives the row's name, its
rule and its summary. An instruction constructor acts for the current sequencer (State.cur). In an event g is a core
number 32·y + x (R347), k a sequencer number, q a queue number, cl a cluster number, idx a place in a sequencer's
access queue and el a place among that entry's unperformed elements. -/
inductive Instr where
  /-- SCALAR_LOAD (R6). A standard scalar load enters the load queue, or traps MISALIGN with nothing written if it is misaligned. -/
  | scalarLoad (k : LoadKind) (rd rs1 : XReg) (imm : Int)
  /-- SCALAR_STORE (R6). A standard scalar store enters the store queue, or traps MISALIGN if it is misaligned. -/
  | scalarStore (k : StoreKind) (rs2 rs1 : XReg) (imm : Int)
  /-- LR (R8). Load-reserved on the naturally aligned 64-byte line, with aq and rl acting as acquire and release markers of scope .pod. -/
  | lr (w : AmoWidth) (aq rl : Bool) (rd rs1 : XReg)
  /-- SC (R8). Store-conditional against the reservation line, with aq and rl acting as markers of scope .pod. -/
  | sc (w : AmoWidth) (aq rl : Bool) (rd rs2 rs1 : XReg)
  /-- AMO (R8). A returning integer AMO performs at the point of coherence; aq and rl act as acquire and release markers of scope .pod. -/
  | amo (op : AmoOp) (w : AmoWidth) (aq rl : Bool) (rd rs2 rs1 : XReg)
  /-- POSTED_AMO (R8). An AMO with rd = x0 enters the store queue, returns nothing, and does not stall the sequencer. -/
  | postedAmo (op : AmoOp) (w : AmoWidth) (aq rl : Bool) (rs2 rs1 : XReg)
  /-- JALR (R6). A standard jump-and-link-register; a target with bit 1 set traps MISALIGN. -/
  | jalr (rd rs1 : XReg) (imm : Int)
  /-- FENCE (R7). Executes as qmark.pod.full, whatever its fields hold. -/
  | fence (rd rs1 : XReg) (fm pred succ : Fin 16)
  /-- FENCE_TSO (R7). Executes as qmark.pod.full. -/
  | fenceTso (rd rs1 : XReg)
  /-- FENCE_I (R7). Executes as qmark.pod.full and has no further effect. -/
  | fenceI (rd rs1 : XReg) (imm : Nat)
  /-- ECALL (R10). Traps with cause environment call (0x10) and tval 0. -/
  | ecall
  /-- EBREAK (R10). Traps with cause breakpoint (0x0f) and tval 0. -/
  | ebreak
  /-- CSR_ACCESS (R19). A Zicsr instruction reads or writes a device CSR in program order; a write that would leave frm at 5 to 7 stores 0 instead. -/
  | csrAccess (op : CsrOp) (rd : XReg) (csr : Nat) (src : XReg)
  /-- SCALAR_FP_OP (R9). A scalar F instruction computes its result and ORs its exceptions into fflags without trapping. -/
  | scalarFpOp (op : FpInstr)
  /-- STANDARD_INSTRUCTION (R4). Any other RV64IMAF, Zicsr, Zifencei or Zba instruction executes with its standard semantics. -/
  | standardInstruction (op : StdInstr)
  /-- LOOP_END (R75). Advances the innermost loop level and rotates prb and vrb, then branches or pops. -/
  | loopEnd (off : Int)
  /-- LOOP_BRK (R76). Pops the innermost loop level and branches to the label. -/
  | loopBrk (off : Int)
  /-- LOOP_SET (R74). Pushes a loop level of source count xs1 and s stages, and initialises the stage predicates. -/
  | loopSet (xs1 : XReg) (stages : Nat)
  /-- LOOP_IDX (R77). Writes the kernel iteration of loop level k into rd. -/
  | loopIdx (rd : XReg) (k : Nat)
  /-- PAND (R78). pd := pa AND pb over all 1,024 bits. -/
  | pand (pd pa pb : PReg)
  /-- POR (R78). pd := pa OR pb. -/
  | por (pd pa pb : PReg)
  /-- PNOT (R78). pd := NOT pa. -/
  | pnot (pd pa : PReg)
  /-- PMOV (R78). pd := pa. -/
  | pmov (pd pa : PReg)
  /-- PPOP (R78). rd := the number of ones in pa. -/
  | ppop (rd : XReg) (pa : PReg)
  /-- PFIRST (R78). pd keeps only the lowest set bit of pa. -/
  | pfirst (pd pa : PReg)
  /-- PWHILE (R78). pd[i] := 1 where xs1 + i < xs2, compared unsigned. -/
  | pwhile (pd : PReg) (xs1 xs2 : XReg)
  /-- BAR_INIT (R85). Sets a barrier's expected count while no arrival is pending. -/
  | barInit (k : Fin 16) (xs1 : XReg)
  /-- BAR_ARRIVE (R85). Arms the sequencer's arrival and counts it, with release order at the barrier scope. -/
  | barArrive (k : Fin 16)
  /-- BAR_WAIT (R85). Blocks until the barrier's phase changes, then disarms, with acquire order. -/
  | barWait (k : Fin 16)
  /-- MBOX_SEND (R87). Sends xs2 to the addressed mailbox through the store queue, with release order of scope .pod. -/
  | mboxSend (xs1 xs2 : XReg)
  /-- MBOX_RECV (R88). Claims the oldest unclaimed message of mailbox k and marks rd empty. -/
  | mboxRecv (rd : XReg) (mb : Fin 8)
  /-- MBOX_POLL (R88). Writes the count of unclaimed messages into rd. -/
  | mboxPoll (rd : XReg) (mb : Fin 8)
  /-- TOK_SET (R89). Makes a token slot present through the store queue, with release order of scope .clu. -/
  | tokSet (xs1 : XReg)
  /-- TOK_CLR (R89). Makes a token slot absent through the store queue. -/
  | tokClr (xs1 : XReg)
  /-- SPA_BUMP (R83). Allocates from the bump region, or traps ALLOC. -/
  | spaBump (rd xs1 : XReg)
  /-- SPA_RING_GET (R84). Allocates from ring k, skipping the ring's tail end where needed, or traps ALLOC. -/
  | spaRingGet (rd xs1 : XReg) (k : Fin 4)
  /-- SPA_RING_PUT (R84). Frees the oldest allocation of ring k, or traps ACCESS. -/
  | spaRingPut (xs1 : XReg) (k : Fin 4)
  /-- SPA_MARK (R83). rd := the bump pointer. -/
  | spaMark (rd : XReg)
  /-- SPA_REL (R83). Resets the bump pointer to xs1, or traps ACCESS. -/
  | spaRel (xs1 : XReg)
  /-- SHP_WR (R94). Writes shape register k. -/
  | shpWr (sh : Fin 32) (xs1 : XReg)
  /-- SHP_RD (R94). Reads shape register k into rd. -/
  | shpRd (rd : XReg) (sh : Fin 32)
  /-- LY_WR (R94). Writes both halves of layout record k. -/
  | lyWr (ly : Fin 16) (xs1 xs2 : XReg)
  /-- LY_RD (R94). Reads the low or high half of layout record k. -/
  | lyRd (rd : XReg) (ly : Fin 16) (hi : Bool)
  /-- TCFG_WR (R95). Writes a tile's configuration and tag after the partition, tag and column checks. -/
  | tcfgWr (tl : Fin 8) (xs1 : XReg)
  /-- TCFG_RD (R94). Reads a tile's configuration into rd. -/
  | tcfgRd (rd : XReg) (tl : Fin 8)
  /-- FB_OPEN (R96). Opens fibre k from a 32-byte descriptor. -/
  | fbOpen (k : Fin 8) (xs1 : XReg)
  /-- FB_ADV (R97). Delivers the fibre's next element into rd, marking rd empty until it arrives. -/
  | fbAdv (rd : XReg) (k : Fin 8)
  /-- FB_END (R97). Tests whether the fibre is exhausted. -/
  | fbEnd (rd : XReg) (k : Fin 8)
  /-- FB_CLOSE (R97). Closes fibre k. -/
  | fbClose (k : Fin 8)
  /-- SM_OPEN (R96). Opens stream k from a 32-byte descriptor. -/
  | smOpen (k : Fin 8) (xs1 : XReg)
  /-- SM_ADV (R97). Delivers the stream's next strided element into rd. -/
  | smAdv (rd : XReg) (k : Fin 8)
  /-- SM_END (R97). Tests whether the stream is exhausted. -/
  | smEnd (rd : XReg) (k : Fin 8)
  /-- SM_CLOSE (R97). Closes stream k. -/
  | smClose (k : Fin 8)
  /-- QMARK (R79). An ordering marker of the given scope and kind enters both queues; at scope .clu or wider an acquire invalidates the scalar data cache. -/
  | qmark (scope : Scope) (kind : MarkKind)
  /-- QWAIT (R80). Stops issue until the named queues have performed and been acknowledged. -/
  | qwait (m : Fin 4)
  /-- REGION_MARK (R266). Waits for the sequencer's commands and registers, then opens an idempotent region with a checkpoint. -/
  | regionMark
  /-- REGION_END (R98). Closes the open idempotent region. -/
  | regionEnd
  /-- YIELD (R99). An iteration boundary that changes no register. -/
  | yield
  /-- FE_CHK_X (R101). Writes 1 to rd when x register k is full, and 0 otherwise. -/
  | feChkX (rd : XReg) (k : Fin 32)
  /-- FE_CHK_V (R101). Writes 1 to rd when vector register k is full, and 0 otherwise. -/
  | feChkV (rd : XReg) (k : Fin 32)
  /-- TRET (R25). Clears tstat.act and returns to tepc. -/
  | tret
  /-- CMD_PUT (R91). Assigns the next sequence number and queues publication of one command word. -/
  | cmdPut (rd : XReg) (q : Fin 16) (xs1 : XReg)
  /-- CHAIN_TAIL (R92). Publishes xs1 slots that follow the queue's tail. -/
  | chainTail (q : Fin 16) (xs1 : XReg)
  /-- SEQ_WAIT (R93). Blocks until the queue's completion word reaches xs1, then acquires at the queue scope. -/
  | seqWait (q : Fin 16) (xs1 : XReg)
  /-- SEQ_READ (R93). Reads the queue's completion word into rd. -/
  | seqRead (rd : XReg) (q : Fin 16)
  /-- LEASE_ACQ (R100). Requests the cluster's array lease and blocks until it is held. -/
  | leaseAcq
  /-- LEASE_REL (R100). Gives up the lease, or withdraws a pending request. -/
  | leaseRel
  /-- AMOADD_S (R81). FP32 atomic add at the point of coherence, rounding to nearest even. -/
  | amoaddS (o : FAmo)
  /-- AMOMIN_S (R81). FP32 atomic minimum that propagates NaNs. -/
  | amominS (o : FAmo)
  /-- AMOMAX_S (R81). FP32 atomic maximum that propagates NaNs. -/
  | amomaxS (o : FAmo)
  /-- AMOMINNUM_S (R81). FP32 atomic number-preferring minimum. -/
  | amominnumS (o : FAmo)
  /-- AMOMAXNUM_S (R81). FP32 atomic number-preferring maximum. -/
  | amomaxnumS (o : FAmo)
  /-- VADD (R121). Integer add, wrapping. -/
  | vadd (o : VA)
  /-- VSUB (R121). Integer subtract, wrapping. -/
  | vsub (o : VA)
  /-- VMUL (R121). Integer multiply, low half, wrapping. -/
  | vmul (o : VA)
  /-- VMULH (R121). Integer multiply, high half. -/
  | vmulh (o : VA)
  /-- VMAC (R121). Integer multiply-accumulate into vd, wrapping. -/
  | vmac (o : VA)
  /-- VAND (R121). Bitwise AND. -/
  | vand (o : VA)
  /-- VOR (R121). Bitwise OR. -/
  | vor (o : VA)
  /-- VXOR (R121). Bitwise XOR. -/
  | vxor (o : VA)
  /-- VSLL (R121). Shift left by the unsigned amount in vs2. -/
  | vsll (o : VA)
  /-- VSR (R121). Shift right, arithmetic under signed tags and logical under unsigned ones. -/
  | vsr (o : VA)
  /-- VMIN (R121). Integer minimum. -/
  | vmin (o : VA)
  /-- VMAX (R121). Integer maximum. -/
  | vmax (o : VA)
  /-- VSADD (R121). Saturating integer add. -/
  | vsadd (o : VA)
  /-- VSSUB (R121). Saturating integer subtract. -/
  | vssub (o : VA)
  /-- VADD_X (R121). Adds the scalar xs1 to every element, wrapping. -/
  | vaddX (o : VA)
  /-- VNOT (R121). Bitwise NOT. -/
  | vnot (o : VA)
  /-- VNEG (R121). Integer negate, wrapping. -/
  | vneg (o : VA)
  /-- VABS (R121). Integer absolute value, wrapping. -/
  | vabs (o : VA)
  /-- VMOV (R121). Copies the bits of vs1. -/
  | vmov (o : VA)
  /-- VFADD (R122). Floating-point add under frm. -/
  | vfadd (o : VA)
  /-- VFSUB (R122). Floating-point subtract. -/
  | vfsub (o : VA)
  /-- VFMUL (R122). Floating-point multiply. -/
  | vfmul (o : VA)
  /-- VFMA (R122). Fused multiply-add into vd. -/
  | vfma (o : VA)
  /-- VFMS (R122). Fused multiply-subtract, a·b − vd. -/
  | vfms (o : VA)
  /-- VFDIV (R122). Floating-point divide. -/
  | vfdiv (o : VA)
  /-- VFMIN (R123). NaN-propagating minimum. -/
  | vfmin (o : VA)
  /-- VFMAX (R123). NaN-propagating maximum. -/
  | vfmax (o : VA)
  /-- VFMINNUM (R123). Number-preferring minimum. -/
  | vfminnum (o : VA)
  /-- VFMAXNUM (R123). Number-preferring maximum. -/
  | vfmaxnum (o : VA)
  /-- VFSGNJ (R124). Takes a with the sign of b. -/
  | vfsgnj (o : VA)
  /-- VFSGNJN (R124). Takes a with the inverted sign of b. -/
  | vfsgnjn (o : VA)
  /-- VFSGNJX (R124). Takes a with the XOR of both signs. -/
  | vfsgnjx (o : VA)
  /-- VFMA_X (R122). Fused multiply-add by the scalar xs1. -/
  | vfmaX (o : VA)
  /-- VFMUL_X (R122). Multiplies by the scalar xs1. -/
  | vfmulX (o : VA)
  /-- VFSQRT (R122). Square root, rounded once. -/
  | vfsqrt (o : VA)
  /-- VFABS (R124). Clears the sign bit. -/
  | vfabs (o : VA)
  /-- VFNEG (R124). Inverts the sign bit. -/
  | vfneg (o : VA)
  /-- VFCLASS (R125). Writes a one-hot class mask for each element. -/
  | vfclass (o : VA)
  /-- VCMP_EQ (R126). Vector equality compare into a predicate pair. -/
  | vcmpEq (o : VP)
  /-- VCMP_NE (R126). Vector inequality compare into a predicate pair. -/
  | vcmpNe (o : VP)
  /-- VCMP_LT (R126). Vector less-than compare. -/
  | vcmpLt (o : VP)
  /-- VCMP_LE (R126). Vector less-or-equal compare. -/
  | vcmpLe (o : VP)
  /-- VCMP_UNORD (R126). Vector unordered (NaN) compare. -/
  | vcmpUnord (o : VP)
  /-- XCMP_EQ (R35). Scalar equality compare broadcast into a predicate pair. -/
  | xcmpEq (o : VP)
  /-- XCMP_NE (R35). Scalar inequality compare. -/
  | xcmpNe (o : VP)
  /-- XCMP_LT (R35). Scalar signed less-than compare. -/
  | xcmpLt (o : VP)
  /-- XCMP_GE (R35). Scalar signed greater-or-equal compare. -/
  | xcmpGe (o : VP)
  /-- XCMP_LTU (R35). Scalar unsigned less-than compare. -/
  | xcmpLtu (o : VP)
  /-- XCMP_GEU (R35). Scalar unsigned greater-or-equal compare. -/
  | xcmpGeu (o : VP)
  /-- XCMP_TST (R35). Scalar bit-test compare. -/
  | xcmpTst (o : VP)
  /-- VCVT (R127). Converts within one width class under frm, optionally saturating. -/
  | vcvt (o : VCv)
  /-- VCVT_RZ (R127). Converts within one width class, rounding toward zero. -/
  | vcvtRz (o : VCv)
  /-- VWIDEN (R128). Widens exactly into a register group of 2 or 4 registers. -/
  | vwiden (o : VCv)
  /-- VNARROW (R129). Narrows a register group into one register. -/
  | vnarrow (o : VCv)
  /-- VTAG (R130). Relabels bytes with a new tag without conversion. -/
  | vtag (o : VCv)
  /-- VRND (R132). Rounds to an integral value under frm. -/
  | vrnd (o : VA)
  /-- VFEXP2 (R133). Computes 2^x through the fixed kernel. -/
  | vfexp2 (o : VA)
  /-- VFLOG2 (R134). Computes log2 x. -/
  | vflog2 (o : VA)
  /-- VFRCP (R135). Computes the reciprocal. -/
  | vfrcp (o : VA)
  /-- VFRSQRT (R135). Computes the reciprocal square root. -/
  | vfrsqrt (o : VA)
  /-- VGETEXP (R136). Extracts the exponent as a value of the tag. -/
  | vgetexp (o : VA)
  /-- VGETMANT (R136). Extracts the signed mantissa. -/
  | vgetmant (o : VA)
  /-- VSCALE (R137). Forms a·2^n with one rounding. -/
  | vscale (o : VA)
  /-- VREDSUM (R139). Sums the active elements along the fixed pairwise tree. -/
  | vredsum (o : VA)
  /-- VREDMAX (R140). Tree maximum of the active elements. -/
  | vredmax (o : VA)
  /-- VREDMIN (R140). Tree minimum of the active elements. -/
  | vredmin (o : VA)
  /-- VREDARGMAX (R141). Index of the greatest active element. -/
  | vredargmax (o : VA)
  /-- VSCAN (R142). Inclusive prefix sums in ascending index. -/
  | vscan (o : VA)
  /-- VPERM (R116). Gathers elements of vs1 through an index group. -/
  | vperm (o : VA)
  /-- VSEL (R117). Bitwise select using the old vd as the mask. -/
  | vsel (o : VA)
  /-- VCOMPRESS (R118). Packs the active elements to the low positions. -/
  | vcompress (o : VA)
  /-- VEXPAND (R118). Spreads packed elements to the active positions. -/
  | vexpand (o : VA)
  /-- VLD (R108). Unit-stride vector load from a scratchpad window offset. -/
  | vld (o : VM)
  /-- VLD_VA (R108). Unit-stride vector load from a virtual address. -/
  | vldVa (o : VM)
  /-- VLDS (R108). Strided vector load, window offset. -/
  | vlds (o : VM)
  /-- VLDS_VA (R108). Strided vector load, virtual address. -/
  | vldsVa (o : VM)
  /-- VLDX (R108). Indexed vector gather, window offset; vd stays empty until complete. -/
  | vldx (o : VM)
  /-- VLDX_VA (R108). Indexed vector gather, virtual address. -/
  | vldxVa (o : VM)
  /-- VST (R108). Unit-stride vector store, window offset. -/
  | vst (o : VM)
  /-- VST_VA (R108). Unit-stride vector store, virtual address. -/
  | vstVa (o : VM)
  /-- VSTS (R108). Strided vector store, window offset. -/
  | vsts (o : VM)
  /-- VSTS_VA (R108). Strided vector store, virtual address. -/
  | vstsVa (o : VM)
  /-- VSTX (R108). Indexed vector scatter, window offset. -/
  | vstx (o : VM)
  /-- VSTX_VA (R108). Indexed vector scatter, virtual address. -/
  | vstxVa (o : VM)
  /-- VLD_B (R108). Broadcasts one element from a window offset into every active element. -/
  | vldB (o : VM)
  /-- VLD_B_VA (R108). Broadcasts one element from a virtual address. -/
  | vldBVa (o : VM)
  /-- VLD_ROW (R109). Loads one tile row into a vector register. -/
  | vldRow (o : VM)
  /-- VST_ROW (R109). Stores a vector register into one tile row. -/
  | vstRow (o : VM)
  /-- VPARK (R110). Copies a vector register into a park row with its tag. -/
  | vpark (o : VM)
  /-- VUNPARK (R110). Copies a park row back into a vector register. -/
  | vunpark (o : VM)
  /-- HPROBE (R111). Looks up each active key in a scratchpad hash table by linear probing. -/
  | hprobe (o : VM)
  /-- BIN_ADD (R112). Appends one record per active element to a bin set addressed by window offset. -/
  | binAdd (o : VM)
  /-- BIN_ADD_VA (R112). Appends records to a bin set addressed virtually. -/
  | binAddVa (o : VM)
  /-- VSLIDE_UP (R113). Shifts elements up by xs1 positions. -/
  | vslideUp (o : VM)
  /-- VSLIDE_DOWN (R113). Shifts elements down by xs1 positions, filling with zero. -/
  | vslideDown (o : VM)
  /-- VMV_X (R114). Copies element xs1 of vs2 into an x register. -/
  | vmvX (o : VM)
  /-- VMV_S (R114). Writes the low bits of xs1 into every element of vd. -/
  | vmvS (o : VM)
  /-- VIOTA (R115). Writes each active element's index. -/
  | viota (o : VM)
  /-- VSEGID (R115). Writes each active element's segment number from an offsets vector. -/
  | vsegid (o : VM)
  /-- ACCESS_ACCEPT (R250). The owner die translates and checks permission for a queued access, and the instruction then retires or traps precisely. -/
  | accessAccept (g k : Nat) (r : RemoteAnswer)
  /-- ACCESS_PERFORM (R234). A queued access performs at its point of coherence and takes its place in the location's coherence order. -/
  | accessPerform (g k idx el : Nat) (c : PerformChoice)
  /-- LOAD_RETURN (R15). A load's value returns, its destination becomes full, and a blocked sequencer becomes ready. -/
  | loadReturn (g k idx : Nat)
  /-- VECTOR_DEST_FULL (R103). The last element of a gather, row read, unpark or probe arrives and its vector destination becomes full. -/
  | vectorDestFull (g k idx : Nat)
  /-- ACKNOWLEDGEMENT (R250). The acknowledgement of a performed remote store, posted AMO or mbox.send returns to its issuer. -/
  | acknowledgement (g k idx : Nat)
  /-- MBOX_CLAIM_SERVED (R88). A pending mbox.recv takes its message, fills rd and acquires at scope .pod. -/
  | mboxClaimServed (g mb : Nat)
  /-- MAILBOX_WINDOW_STORE (R233). A store into the mailbox window appends a message without a release. -/
  | mailboxWindowStore (g k idx : Nat)
  /-- TOKEN_WINDOW_STORE (R233). A store into the token-store window sets or clears a slot. -/
  | tokenWindowStore (g k idx : Nat)
  /-- READY_FLAG_WRITE (R242). A write to a ready flag's half-record sets its watch fields or sets ready directly. -/
  | readyFlagWrite (g k idx el : Nat)
  /-- READY_FLAG_RISE (R243). Once the counted words have performed, ready becomes 1 as a release of scope .pod. -/
  | readyFlagRise (g flag : Nat) (env : RemoteEnv)
  /-- ACCUMULATE_ON_WRITE (R241). A write into an accumulate alias combines each word with the word in place, as an integer or FP32 add. -/
  | accumulateOnWrite (g k idx el : Nat)
  /-- VREG_WINDOW_WRITE (R232). A write into the vector-register window performs between two of the owner's instructions, whole per line. -/
  | vregWindowWrite (g k idx el : Nat)
  /-- COMMAND_PUBLISH (R91). Once the queue has room, the word is copied to its ring slot and the tail advances. -/
  | commandPublish (g k idx : Nat)
  /-- COMMAND_FETCH (R47). An engine reads a command word from its slot and checks it for malformation. -/
  | commandFetch (g q : Nat)
  /-- COMMAND_COMPLETION (R143). A command's completion is published: status record, then completion word, then signal token. -/
  | commandCompletion (g q : Nat)
  /-- REMOTE_SIGNAL (R146). With rsig, the signal fires in each receiving cluster once that cluster's share of the writes has performed. -/
  | remoteSignal (n : Nat)
  /-- MMA (R154). Fires and computes C := C + A·Bᵀ in the fixed accumulation order. -/
  | mma (g q : Nat)
  /-- MMA_BS (R156). Block-scaled E4M3 matrix product with promotion per block. -/
  | mmaBs (g q : Nat)
  /-- MMA_SEG (R157). Matrix product with segment masks from offsets vectors. -/
  | mmaSeg (g q : Nat)
  /-- MMA_GRP (R158). Walks a group list, running a matrix product per group. -/
  | mmaGrp (g q : Nat)
  /-- SMMA (R159). Dense-by-sparse product through a compiled program, the interpreter or the dense path. -/
  | smma (g q : Nat) (env : RemoteEnv)
  /-- ACC_ZERO (R160). Zeroes an accumulator, sets its tag and clears sat. -/
  | accZero (g q : Nat)
  /-- ACC_RD (R161). Converts accumulator rows into a tile or scratchpad destination. -/
  | accRd (g q : Nat)
  /-- ACC_EPI (R163). Applies the epilogue at the array edge, updating row records and optionally writing values. -/
  | accEpi (g q : Nat)
  /-- COPY (R164). Moves one layout's element sequence into another. -/
  | copy (g q : Nat) (env : RemoteEnv)
  /-- GATHER (R165). Copies indexed table rows into a destination layout. -/
  | gather (g q : Nat) (env : RemoteEnv)
  /-- SCATTER_BIN (R166). Appends n records to a bin set, as bin.add does. -/
  | scatterBin (g q : Nat) (env : RemoteEnv)
  /-- BIN_REPLAY (R167). Applies a bin's records to a target region with add or maximum. -/
  | binReplay (g q : Nat) (env : RemoteEnv)
  /-- HALO (R168). Sends the edges of an area to neighbouring cores and bumps their counters. -/
  | halo (g q : Nat) (env : RemoteEnv)
  /-- BCAST (R169). Writes a sequence to every core of an aligned sub-rectangle. -/
  | bcast (g q : Nat) (env : RemoteEnv)
  /-- PAT_LOAD (R170). Places a sparse tile's values in a tile and obtains Coppice entries, starting a compilation. -/
  | patLoad (g q : Nat) (watchOk : Bool) (env : RemoteEnv)
  /-- PAT_DROP (R171). Removes every Coppice entry of a tile's identity. -/
  | patDrop (g q : Nat)
  /-- COMPILATION_COMPLETE (R258). A compiling Coppice entry finishes and becomes ready, releasing waiting smma commands. -/
  | compilationComplete (cl n : Nat)
  /-- COLL_SETUP (R174). Checks a collective's fields and group and waits for every member's matching set-up. -/
  | collSetup (g q : Nat)
  /-- COLLECTIVE_MATCH (R175). Once every member has published the matching command, the set-up or operation proceeds. -/
  | collectiveMatch (g q : Nat) (peers : List PeerCommand)
  /-- CLEARING_RESERVATION (R286). Under ascending locks, the set-up reserves Clearing slots at every member, all or nothing. -/
  | clearingReservation (g q : Nat) (fits : Bool)
  /-- COLL_LDRED (R177). All-reduce of n elements over the set-up's trees. -/
  | collLdred (g q : Nat)
  /-- COLL_RS (R177). Reduce-scatter of n elements. -/
  | collRs (g q : Nat)
  /-- COLL_AG (R177). All-gather of n elements. -/
  | collAg (g q : Nat)
  /-- COLL_A2A (R177). All-to-all exchange of blocks. -/
  | collA2a (g q : Nat)
  /-- COLL_END (R180). Releases the member's reservation and ends the id. -/
  | collEnd (g q : Nat)
  /-- TTAB_ARM (R181). Arms a tile table whose entries fire on ready flags. -/
  | ttabArm (g q : Nat) (env : RemoteEnv)
  /-- CHUNK_SWEEP (R282). An adder sweeps a chunk at a node once its slots are filled, and forms the node value in the fixed order. -/
  | chunkSweep (g q c : Nat) (kids : List (List (BitVec 32))) (env : RemoteEnv)
  /-- CHUNK_DISTRIBUTE (R281). A chunk's result reaches a member, which writes its destination elements and forwards it to its children. -/
  | chunkDistribute (g q c : Nat) (result : List (BitVec 32)) (ovf : Bool) (tree : Nat) (env : RemoteEnv)
  /-- RSEL_HIST_COARSE (R185). Builds each row's shortlist and sets the slow bit when its mass falls short. -/
  | rselHistCoarse (g q : Nat) (env : RemoteEnv)
  /-- RSEL_HIST_FULL (R185). Computes the exact kept set of rows with the slow bit set. -/
  | rselHistFull (g q : Nat) (env : RemoteEnv)
  /-- RSEL_CUT (R186). Ranks the shortlist and applies the kept-set rule to rows without the slow bit. -/
  | rselCut (g q : Nat) (env : RemoteEnv)
  /-- SAMP_DRAW (R187). Draws a token from each row's kept set with a uniform. -/
  | sampDraw (g q : Nat) (env : RemoteEnv)
  /-- SAMP_DRAW_GUM (R187). Writes each row record's garg as the token. -/
  | sampDrawGum (g q : Nat)
  /-- SPEC_ACCEPT (R188). Tests D draft tokens against target rows and draws the correction token. -/
  | specAccept (g q : Nat) (env : RemoteEnv)
  /-- PDA_STEP (R191). Writes a branch's token mask. -/
  | pdaStep (g q : Nat) (env : RemoteEnv)
  /-- PDA_ADV (R298). Consumes one token on a branch, or kills the branch. -/
  | pdaAdv (g q : Nat) (env : RemoteEnv)
  /-- PDA_FORK (R192). Copies a source branch into a fork. -/
  | pdaFork (g q : Nat)
  /-- PDA_COMMIT (R192). Makes a fork branch 0 and discards every fork. -/
  | pdaCommit (g q : Nat)
  /-- PDA_ROLL (R192). Discards every fork. -/
  | pdaRoll (g q : Nat)
  /-- PDA_SAVE (R190). Writes branch 0 as an image, optionally unbinding the context. -/
  | pdaSave (g q : Nat)
  /-- PDA_LOAD (R190). Binds a context and loads branch 0 from an image and its tables' header. -/
  | pdaLoad (g q : Nat) (env : RemoteEnv)
  /-- CMD_FENCE (R193). Fires when its tokens are present and completes at once. -/
  | cmdFence (g q : Nat)
  /-- CHAIN_LINK (R194). Moves the queue's tail and fetch point to a new ring. -/
  | chainLink (g q : Nat)
  /-- SIG (R193). Fires a signal locally or in a remote cluster after the queue's earlier commands. -/
  | sig (g q : Nat)
  /-- LEASE_GRANT (R226). The cluster grants its array lease to the next waiter in round-robin order. -/
  | leaseGrant (cl : Nat)
  /-- LEASE_TERM_END (R225). A lease term ends after 16 commands or 4,096 cycles, renewing the term or passing the lease. -/
  | leaseTermEnd (cl : Nat)
  /-- RIDE_TOKEN_TAKE (R227). A cluster takes a free Ride token at its stop for an array command waiting only for a token. -/
  | rideTokenTake (cl : Nat)
  /-- RIDE_TOKEN_FREE (R227). A cluster frees its token when it has no fired or fireable array command. -/
  | rideTokenFree (cl : Nat)
  /-- RIDE_HOLD_LIMIT (R227). After 4,096 array cycles of holding with a stop waiting, the token is freed once the running command completes. -/
  | rideHoldLimit (cl : Nat)
  /-- HANDLER_START (R244). After a handler-bearing payload is written, a qualifying dormant sequencer starts as the handler, or the arrival waits in the queue. -/
  | handlerStart (g : Nat)
  /-- EMULATION_SERVICE (R62). Derdengo serves a FORMAT-EMULATE trap and resumes the sequencer at the next instruction. -/
  | emulationService (g k : Nat)
  /-- DOORBELL (R198). A store to a doorbell page makes the scheduler scan the named records. -/
  | doorbell
  /-- SCHEDULER_ROUND (R211). A round considers every ready node in order, places, ages, anchors and requests pre-emption. -/
  | schedulerRound (refused : List (Nat × Nat))
  /-- NODE_DISPATCH (R208). The plane is sent to the rectangle's cores, which check it and adopt it together, or the node retires PLANE-CHECK. -/
  | nodeDispatch (pool idx : Nat) (exit : Word) (zeros : List (Nat × Nat))
  /-- GANG_DISPATCH (R210). Every started sequencer of the rectangle starts at one value of time. -/
  | gangDispatch (pool idx : Nat)
  /-- SEQUENCER_SAVE (R305). After its queues drain, a stopped sequencer's state is written to its save area. -/
  | sequencerSave (g k : Nat)
  /-- NODE_SPILL (R216). Once all sequencers have stopped and been saved, scratchpad and partition spill and the node becomes PREEMPTED. -/
  | nodeSpill (pool idx : Nat)
  /-- PREEMPT_WITHDRAW (R309). When the node has not stopped within W cycles, the request is withdrawn and the stopped sequencers resume. -/
  | preemptWithdraw (pool idx : Nat)
  /-- NODE_RESUME (R216). A preempted node's spill and saves are restored on its origin, and its sequencers resume together. -/
  | nodeResume (pool idx : Nat)
  /-- TEARDOWN_FORCED_STOP (R309). In teardown, a sequencer blocked or not stopped within W is stopped where it stands. -/
  | teardownForcedStop (g k : Nat)
  /-- NODE_RETIRE (R204). With all sequencers ended and all accesses settled, the completion record and state RETIRED are written under release. -/
  | nodeRetire (pool idx : Nat)
  /-- CHECKPOINT_INTERVAL_END (R325). When a member's rwcount reaches L, the group stops, checkpoints if recording is armed, and resets rwcount. -/
  | checkpointIntervalEnd (g : Nat)
  /-- FLIT_RECEIVE (R275). A received flit is checked for CRC and lseq, then acknowledged or negatively acknowledged. -/
  | flitReceive (link : Nat) (flit : BitVec 1024)
  /-- FLIT_REPLAY (R275). A negative acknowledgement makes the transmitter replay from its replay buffer. -/
  | flitReplay (link : Nat) (again : Bool)
  /-- LINK_DOWN (R275). A link goes down on replay failure, lane-lock loss or a far-end reset, and its unacknowledged flits return to routing. -/
  | linkDown (link : Nat) (cause : LinkDownCause) (lost : List Nat)
  /-- LINK_TRAINING (R276). Training completes, and the link becomes up or fenced with its peer recorded. -/
  | linkTraining (link peer plink : Nat) (ok inPod : Bool) (gained : List Nat)
  /-- LINK_AGREEMENT (R278). Members exchange their up links and agree an edge set in a new epoch. -/
  | linkAgreement (id : Nat) (edges : EpochEdges)
  /-- REMOTE_REQUEST (R277). A request arriving over the Weald is performed at most once and acknowledged. -/
  | remoteRequest (src core seqNo : Nat) (r : RemoteReq)
  /-- SINGLE_BIT_CORRECT (R312). A single-bit error is corrected in place and counted. -/
  | singleBitCorrect (u : ErrorSite)
  /-- SCRATCHPAD_POISON (R247). An uncorrectable error poisons a scratchpad line and ends its owning context faulted. -/
  | scratchpadPoison (g off : Nat)
  /-- UNCORRECTABLE_ERROR (R313). An uncorrectable error in DRAM, registers, the Clearing, the Coppice, a token slot or a mailbox has its store's effect. -/
  | uncorrectableError (u : ErrorSite)
  /-- RESIDUE_MISMATCH (R314). A residue check failure in the vector unit or the Clearing is handled as an uncorrectable error in the destination. -/
  | residueMismatch (u : ErrorSite)
  /-- SCRUB (R315). The scrubber visits a line on its schedule and corrects it or poisons it. -/
  | scrub (u : ErrorSite) (found : ScrubFinding)
  /-- FATAL_ERROR (R318). Unowned damage halts the package, takes its links down, writes the dump and notifies the host. -/
  | fatalError (e : FatalReport)
  /-- WATCHDOG_EXPIRY (R318). Expiry of the management core's watchdog is a fatal error. -/
  | watchdogExpiry
  /-- HOST_RING_DOORBELL (R336). A host write to rtail makes Derdengo serve ring entries in order. -/
  | hostRingDoorbell (tail : BitVec 64) (entries : List (BitVec 512))
  /-- BAR0_REGISTER_WRITE (R336). A host write to rbase or rlog, accepted only while the ring is empty. -/
  | bar0RegisterWrite (off : Nat) (v : BitVec 64)
  /-- ASID_NEW (R338). Allocates the lowest free address-space identifier. -/
  | asidNew
  /-- ASID_FREE (R338). Frees an identifier whose pools hold no live record. -/
  | asidFree
  /-- LOAD (R339). Checks, copies, relocates, scans and maps an image, all or nothing. -/
  | load (die base frame tables : Nat)
  /-- UNMAP (R338). Unmaps a range and purges its instruction-cache lines. -/
  | unmap
  /-- POOL (R338). Registers a launch pool and returns its doorbell page. -/
  | pool (page : BitVec 64)
  /-- TEARDOWN (R331). Tears down a pool: cancels its idle records and stops its running nodes. -/
  | teardown
  /-- LIMIT (R343). Sets the package power limit and the dies' Ride budgets. -/
  | limit (budgets : List Nat)
  /-- RESET (R338). Reboots the package. -/
  | reset
  /-- PACKAGE_RESET (R345). Power-down or reset loses DRAM contents, writes no completion record, and makes the package absent to peers. -/
  | packageReset (pkg : Nat)
  /-- BOOT (R341). The boot ROM verifies and starts Derdengo, which trains and zeroes, then sets booted and attest. -/
  | boot (fail : Nat) (grants : List Nat)
  /-- GET_VERSION (R342). SPDM version request. -/
  | getVersion (req : SpdmRequest)
  /-- GET_CAPABILITIES (R342). SPDM capabilities request. -/
  | getCapabilities (req : SpdmRequest)
  /-- NEGOTIATE_ALGORITHMS (R342). SPDM algorithm negotiation. -/
  | negotiateAlgorithms (req : SpdmRequest)
  /-- GET_DIGESTS (R342). SPDM certificate digests request. -/
  | getDigests (req : SpdmRequest)
  /-- GET_CERTIFICATE (R342). SPDM certificate request. -/
  | getCertificate (req : SpdmRequest)
  /-- CHALLENGE (R342). SPDM challenge. -/
  | challenge (req : SpdmRequest)
  /-- GET_MEASUREMENTS (R342). SPDM measurements request. -/
  | getMeasurements (req : SpdmRequest)
  /-- HALT (R322). Debug request that halts sequencers at the next instruction boundary after draining. -/
  | halt (t : DebugTarget)
  /-- RESUME (R321). Debug request that resumes halted sequencers. -/
  | resume (t : DebugTarget)
  /-- READ (R321). Debug request that reads registers, CSRs, the loop stack or window bytes. -/
  | read (t : DebugTarget) (w : DebugPlace)
  /-- WRITE (R323). Debug request that writes registers of halted sequencers, or window bytes. -/
  | write (t : DebugTarget) (w : DebugPlace) (v : Nat) (tag : Option Nat)
  /-- ARM (R324). Debug request that sets or clears a breakpoint slot. -/
  | arm (t : DebugTarget) (slot : Nat) (bp : Breakpoint)
  /-- STOP (R327). Debug request for a precise stop by re-execution, or an approximate live stop. -/
  | stop (t : DebugTarget) (interval count : Nat)
  /-- THERMAL_THRESHOLD (R343). When the cold-plate temperature passes its threshold, Derdengo lowers the Ride budgets. -/
  | thermalThreshold (budgets : List Nat)
  /-- ISLAND_GATE (R344). Derdengo gates a compute island that holds no node. -/
  | islandGate (n : Nat)
  /-- ISLAND_POWER_UP (R344). A gated island is powered again within 50 µs and its cores can fit nodes. -/
  | islandPowerUp (n : Nat)
  /-- BYPASS (R346). IEEE 1149.1 BYPASS instruction. -/
  | bypass
  /-- IDCODE (R346). IEEE 1149.1 IDCODE instruction. -/
  | idcode
  /-- SAMPLE_PRELOAD (R346). IEEE 1149.1 SAMPLE/PRELOAD instruction. -/
  | samplePreload (pins : BoundaryScan)
  /-- EXTEST (R346). IEEE 1149.1 EXTEST, accepted only while the package is held in reset, and otherwise acting as BYPASS. -/
  | extest (pins : BoundaryScan)
  /-- HOST_WINDOW_ACCESS (R335). A host PCIe read or write through BAR2 reaches a granted DRAM region, or is refused with an Unsupported Request or dropped and logged. -/
  | hostWindowAccess (a : HostAccess)
  /-- PAGE_MIGRATION (R251). Derdengo holds a page's accesses at the owner, changes its table entries (for example to migrate the page or change fwd and holder), invalidates the memory-side and L1 TLB entries, and then releases the hold. -/
  | pageMigration (m : PageChange)
  /-- ARM_RECORDING (R326). The debug fabric arms recording for a node and sets its interval length L, after which groups checkpoint and record events. -/
  | armRecording (pool idx k : Nat)
  /-- ARM_PROFILING (R330). The debug fabric arms profiling for a node, placing each core's snapshot ring above the declared range or refusing when it would pass 2^20, and replies with the ring base. -/
  | armProfiling (pool idx n : Nat)
  deriving DecidableEq, Repr

end Sys2Proof
end

