-- ==== Sys2Proof/WellFormed.lean ====
section
/-! DEFINITION. Which instruction terms the scanner lets stand on a code page (R5, R30, R37, R38, R40 to R42): the
limits that the fields' types do not already carry. Events and commands have no word and no scanner limit. -/
namespace Sys2Proof

/-- Every CSR number the control core implements (R19). -/
def csrNumbers : List Nat :=
  [0x001, 0x002, 0x003, 0x800, 0x801, 0x802, 0x803, 0x804, 0x805, 0x806, 0x807, 0x808,
   0xC00, 0xC01, 0xC02, 0xCC0, 0xCC1, 0xCC2, 0xCC3, 0xCC4, 0xCC5, 0xCC6, 0xCC7, 0xCC8, 0xCC9]

/-- The read-only CSRs of R19: those numbered 0xC00 and above. -/
def csrReadOnly (n : Nat) : Bool := 0xC00 ≤ n

/-- Whether a CSR form with this source field writes its CSR (R5 item 6). -/
def csrWrites (op : CsrOp) (src : XReg) : Bool :=
  match op with
  | .rw | .rwi => true
  | .rs | .rc | .rsi | .rci => src.val != 0

/-- A signed 12-bit immediate. -/
def imm12 (i : Int) : Bool := -2048 ≤ i && i ≤ 2047

/-- A B-layout offset: a multiple of 4 within the 13-bit signed field (R5 item 4, R37). -/
def offB (i : Int) : Bool := -4096 ≤ i && i ≤ 4092 && i % 4 == 0

/-- A J-layout offset: a multiple of 4 within the 21-bit signed field (R5 item 4). -/
def offJ (i : Int) : Bool := -1048576 ≤ i && i ≤ 1048572 && i % 4 == 0

/-- The limits of the base instructions' immediates. -/
def StdInstr.wf : StdInstr → Bool
  | .lui _ imm | .auipc _ imm => imm < 1048576
  | .jal _ off => offJ off
  | .branch _ _ _ off => offB off
  | .op .. | .op32 .. => true
  | .opImm f _ _ imm =>
    match f with
    | .slli | .srli | .srai => 0 ≤ imm && imm ≤ 63
    | _ => imm12 imm
  | .opImm32 f _ _ imm =>
    match f with
    | .addiw => imm12 imm
    | .slliuw => 0 ≤ imm && imm ≤ 63
    | _ => 0 ≤ imm && imm ≤ 31

/-- A VU word has no vs2 and no b2 (R42 item 5). -/
def VA.wfVU (o : VA) : Bool := o.vs2.val == 0 && !o.b2

/-- A VM word whose [25:21] field is 0 and which has no b (R41). -/
def VM.wfPlain (o : VM) : Bool := o.s2.val == 0 && !o.b

/-- A VM word whose [25:21] field is 0; b governs vs3 (R41). -/
def VM.wfStore (o : VM) : Bool := o.s2.val == 0

/-- The scanner's limits on an instruction term. -/
def Instr.wf : Instr → Bool
  | .scalarLoad _ _ _ imm | .scalarStore _ _ _ imm | .jalr _ _ imm => imm12 imm
  | .amo _ _ _ _ rd _ _ => rd.val != 0
  | .fence _ _ fm pred succ => !(fm.val == 8 && pred.val == 3 && succ.val == 3)
  | .fenceI _ _ imm => imm < 4096
  | .csrAccess op _ csr src => csrNumbers.contains csr && !(csrReadOnly csr && csrWrites op src)
  | .standardInstruction op => op.wf
  | .loopEnd off | .loopBrk off => offB off
  | .loopSet _ s => 1 ≤ s && s ≤ 8
  | .loopIdx _ k => k ≤ 5
  | .qwait m => m.val != 0
  | .vnot o | .vneg o | .vabs o | .vmov o | .vfsqrt o | .vfabs o | .vfneg o | .vfclass o
  | .vrnd o | .vfexp2 o | .vflog2 o | .vfrcp o | .vfrsqrt o | .vgetexp o | .vgetmant o
  | .vredsum o | .vredmax o | .vredmin o | .vredargmax o | .vscan o | .vcompress o | .vexpand o => o.wfVU
  | .vcmpEq o | .vcmpNe o | .vcmpLt o | .vcmpLe o | .vcmpUnord o
  | .xcmpEq o | .xcmpNe o | .xcmpLt o | .xcmpGe o | .xcmpLtu o | .xcmpGeu o | .xcmpTst o => o.ctype.val != 7
  | .vcvt o | .vcvtRz o | .vnarrow o => 1 ≤ o.tag.val && o.tag.val ≤ 12
  | .vwiden o => 1 ≤ o.tag.val && o.tag.val ≤ 12 && !o.sat
  | .vtag o => o.tag.val ≤ 12 && !o.sat
  | .vld o | .vldVa o | .vldB o | .vldBVa o | .vldRow o | .vunpark o => o.wfPlain
  | .vlds o | .vldsVa o => !o.b
  | .vst o | .vstVa o | .vstRow o | .vpark o => o.wfStore
  | .vmvX o => o.qp.val == 0
  | .vmvS o => o.wfPlain && o.qp.val == 0
  | .viota o => o.wfPlain && o.xs1.val == 0
  | _ => true

end Sys2Proof
end

