-- ==== Sys2Proof/Decode.lean ====
section
/-! DEFINITION. Decoding of 32-bit instruction words, rejecting by name what the code-page scanner refuses (R5, R29,
R30, R37 to R42), and after it the encoder, from the same tables. Words are read as natural numbers, bit 0 first. -/
namespace Sys2Proof

/-- Why the scanner refuses a word. -/
inductive DecodeError where
  | lowBits            -- R5 item 1
  | majorRefused       -- R29 column 111
  | undefinedStandard  -- R5 item 2, R30
  | reservedRounding   -- R5 item 3
  | offsetNotFour      -- R5 item 4
  | csrNotImplemented  -- R5 item 5
  | csrReadOnlyWrite   -- R5 item 6
  | noFunction         -- R42 item 1
  | zeroField          -- R42 item 2
  | immediateLimit     -- R42 item 3
  | predicateBit4      -- R42 item 4
  | vuB2               -- R42 item 5
  | modeOrB            -- R42 item 6
  | ctype7             -- R42 item 7
  | vmvPredicate       -- R42 item 8
  | truncated          -- fewer than four bytes
  deriving DecidableEq, Repr

/-- Bits lo + len − 1 down to lo of a word. -/
def fld (w lo len : Nat) : Nat := w / 2 ^ lo % 2 ^ len

/-- A 5-bit register field. -/
def regAt (w lo : Nat) : XReg := ⟨fld w lo 5, Nat.mod_lt _ (by decide)⟩

/-- A 4-bit predicate field of a VA, VM or VP word. -/
def predAt (w lo : Nat) : PReg := ⟨fld w lo 4, Nat.mod_lt _ (by decide)⟩

/-- A field of `bits` bits, read as two's complement. -/
def sextNat (bits n : Nat) : Int := if n < 2 ^ (bits - 1) then (n : Int) else (n : Int) - 2 ^ bits

/-- The I-layout immediate, bits [31:20]. -/
def immI (w : Nat) : Int := sextNat 12 (fld w 20 12)

/-- The S-layout immediate. -/
def immS (w : Nat) : Int := sextNat 12 (fld w 25 7 * 32 + fld w 7 5)

/-- The B-layout offset imm[12 | 10:5 | 4:1 | 11] (R31). -/
def immB (w : Nat) : Int :=
  sextNat 13 (fld w 31 1 * 4096 + fld w 7 1 * 2048 + fld w 25 6 * 32 + fld w 8 4 * 2)

/-- The J-layout offset. -/
def immJ (w : Nat) : Int :=
  sextNat 21 (fld w 31 1 * 1048576 + fld w 12 8 * 4096 + fld w 20 1 * 2048 + fld w 21 10 * 2)

/-- Accepts a word when its condition holds and rejects it under the given name otherwise. -/
def guardD (c : Bool) (e : DecodeError) (r : Except DecodeError Instr) : Except DecodeError Instr :=
  if c then r else .error e

/-- LOAD. -/
def decodeLoad (w : Nat) : Except DecodeError Instr :=
  match fld w 12 3 with
  | 0 => .ok (.scalarLoad .lb (regAt w 7) (regAt w 15) (immI w))
  | 1 => .ok (.scalarLoad .lh (regAt w 7) (regAt w 15) (immI w))
  | 2 => .ok (.scalarLoad .lw (regAt w 7) (regAt w 15) (immI w))
  | 3 => .ok (.scalarLoad .ld (regAt w 7) (regAt w 15) (immI w))
  | 4 => .ok (.scalarLoad .lbu (regAt w 7) (regAt w 15) (immI w))
  | 5 => .ok (.scalarLoad .lhu (regAt w 7) (regAt w 15) (immI w))
  | 6 => .ok (.scalarLoad .lwu (regAt w 7) (regAt w 15) (immI w))
  | _ => .error .undefinedStandard

/-- LOAD-FP: only `flw` is implemented (R5 item 2). -/
def decodeLoadFp (w : Nat) : Except DecodeError Instr :=
  guardD (fld w 12 3 == 2) .undefinedStandard (.ok (.scalarLoad .flw (regAt w 7) (regAt w 15) (immI w)))

/-- STORE. -/
def decodeStore (w : Nat) : Except DecodeError Instr :=
  match fld w 12 3 with
  | 0 => .ok (.scalarStore .sb (regAt w 20) (regAt w 15) (immS w))
  | 1 => .ok (.scalarStore .sh (regAt w 20) (regAt w 15) (immS w))
  | 2 => .ok (.scalarStore .sw (regAt w 20) (regAt w 15) (immS w))
  | 3 => .ok (.scalarStore .sd (regAt w 20) (regAt w 15) (immS w))
  | _ => .error .undefinedStandard

/-- STORE-FP: only `fsw` is implemented. -/
def decodeStoreFp (w : Nat) : Except DecodeError Instr :=
  guardD (fld w 12 3 == 2) .undefinedStandard (.ok (.scalarStore .fsw (regAt w 20) (regAt w 15) (immS w)))

/-- MISC-MEM: FENCE, FENCE.TSO and FENCE.I; every other funct3 is refused (R30). -/
def decodeMiscMem (w : Nat) : Except DecodeError Instr :=
  match fld w 12 3 with
  | 0 =>
    if fld w 28 4 = 8 ∧ fld w 24 4 = 3 ∧ fld w 20 4 = 3 then .ok (.fenceTso (regAt w 7) (regAt w 15))
    else .ok (.fence (regAt w 7) (regAt w 15) (predAt w 28) (predAt w 24) (predAt w 20))
  | 1 => .ok (.fenceI (regAt w 7) (regAt w 15) (fld w 20 12))
  | _ => .error .undefinedStandard

/-- OP-IMM. -/
def decodeOpImm (w : Nat) : Except DecodeError Instr :=
  let rd := regAt w 7
  let rs1 := regAt w 15
  let std := fun f imm => (.ok (.standardInstruction (.opImm f rd rs1 imm)) : Except DecodeError Instr)
  match fld w 12 3 with
  | 0 => std .addi (immI w)
  | 2 => std .slti (immI w)
  | 3 => std .sltiu (immI w)
  | 4 => std .xori (immI w)
  | 6 => std .ori (immI w)
  | 7 => std .andi (immI w)
  | 1 => guardD (fld w 26 6 == 0) .undefinedStandard (std .slli (fld w 20 6))
  | _ =>
    if fld w 26 6 = 0 then std .srli (fld w 20 6)
    else if fld w 26 6 = 16 then std .srai (fld w 20 6)
    else .error .undefinedStandard

/-- OP-IMM-32, with Zba's `slli.uw`. -/
def decodeOpImm32 (w : Nat) : Except DecodeError Instr :=
  let rd := regAt w 7
  let rs1 := regAt w 15
  let std := fun f imm => (.ok (.standardInstruction (.opImm32 f rd rs1 imm)) : Except DecodeError Instr)
  match fld w 12 3 with
  | 0 => std .addiw (immI w)
  | 1 =>
    if fld w 25 7 = 0 then std .slliw (fld w 20 5)
    else if fld w 26 6 = 2 then std .slliuw (fld w 20 6)
    else .error .undefinedStandard
  | 5 =>
    if fld w 25 7 = 0 then std .srliw (fld w 20 5)
    else if fld w 25 7 = 32 then std .sraiw (fld w 20 5)
    else .error .undefinedStandard
  | _ => .error .undefinedStandard

/-- The function of an OP word, from funct7 and funct3: I, M and Zba. -/
def opFnOf (f7 f3 : Nat) : Option OpFn :=
  match f7, f3 with
  | 0, 0 => some .add | 0, 1 => some .sll | 0, 2 => some .slt | 0, 3 => some .sltu
  | 0, 4 => some .xor | 0, 5 => some .srl | 0, 6 => some .or | 0, 7 => some .and
  | 32, 0 => some .sub | 32, 5 => some .sra
  | 1, 0 => some .mul | 1, 1 => some .mulh | 1, 2 => some .mulhsu | 1, 3 => some .mulhu
  | 1, 4 => some .div | 1, 5 => some .divu | 1, 6 => some .rem | 1, 7 => some .remu
  | 16, 2 => some .sh1add | 16, 4 => some .sh2add | 16, 6 => some .sh3add
  | _, _ => none

/-- The function of an OP-32 word. -/
def op32FnOf (f7 f3 : Nat) : Option Op32Fn :=
  match f7, f3 with
  | 0, 0 => some .addw | 0, 1 => some .sllw | 0, 5 => some .srlw
  | 32, 0 => some .subw | 32, 5 => some .sraw
  | 1, 0 => some .mulw | 1, 4 => some .divw | 1, 5 => some .divuw | 1, 6 => some .remw | 1, 7 => some .remuw
  | 4, 0 => some .adduw
  | 16, 2 => some .sh1adduw | 16, 4 => some .sh2adduw | 16, 6 => some .sh3adduw
  | _, _ => none

/-- OP. -/
def decodeOp (w : Nat) : Except DecodeError Instr :=
  match opFnOf (fld w 25 7) (fld w 12 3) with
  | some f => .ok (.standardInstruction (.op f (regAt w 7) (regAt w 15) (regAt w 20)))
  | none => .error .undefinedStandard

/-- OP-32. -/
def decodeOp32 (w : Nat) : Except DecodeError Instr :=
  match op32FnOf (fld w 25 7) (fld w 12 3) with
  | some f => .ok (.standardInstruction (.op32 f (regAt w 7) (regAt w 15) (regAt w 20)))
  | none => .error .undefinedStandard

/-- The condition of a BRANCH word. -/
def brCondOf (f3 : Nat) : Option BrCond :=
  match f3 with
  | 0 => some .beq | 1 => some .bne | 4 => some .blt | 5 => some .bge | 6 => some .bltu | 7 => some .bgeu
  | _ => none

/-- BRANCH: an offset that is no multiple of 4 is refused (R5 item 4). -/
def decodeBranch (w : Nat) : Except DecodeError Instr :=
  match brCondOf (fld w 12 3) with
  | some c =>
    guardD (immB w % 4 == 0) .offsetNotFour
      (.ok (.standardInstruction (.branch c (regAt w 15) (regAt w 20) (immB w))))
  | none => .error .undefinedStandard

/-- The operation of an AMO word, from funct5. -/
def amoOpOf (f5 : Nat) : Option AmoOp :=
  match f5 with
  | 0 => some .add | 1 => some .swap | 4 => some .xor | 8 => some .or | 12 => some .and
  | 16 => some .min | 20 => some .max | 24 => some .minu | 28 => some .maxu
  | _ => none

/-- The AMO major: LR, SC, returning AMOs, and posted AMOs where rd is x0 (R8). -/
def decodeAmo (w : Nat) : Except DecodeError Instr :=
  let aq := fld w 26 1 == 1
  let rl := fld w 25 1 == 1
  let rd := regAt w 7
  let rs1 := regAt w 15
  let rs2 := regAt w 20
  let go := fun (wd : AmoWidth) =>
    (if fld w 27 5 = 2 then
      guardD (rs2.val == 0) .undefinedStandard (.ok (.lr wd aq rl rd rs1))
    else if fld w 27 5 = 3 then .ok (.sc wd aq rl rd rs2 rs1)
    else match amoOpOf (fld w 27 5) with
      | some o => if rd.val = 0 then .ok (.postedAmo o wd aq rl rs2 rs1) else .ok (.amo o wd aq rl rd rs2 rs1)
      | none => .error .undefinedStandard : Except DecodeError Instr)
  match fld w 12 3 with
  | 2 => go .word
  | 3 => go .dword
  | _ => .error .undefinedStandard

/-- A rounding field; 0b101 and 0b110 are refused (R5 item 3). -/
def rmOf (n : Nat) : Option Rm :=
  match n with
  | 0 => some .rne | 1 => some .rtz | 2 => some .rdn | 3 => some .rup | 4 => some .rmm | 7 => some .dyn
  | _ => none

/-- Continues with the word's rounding field, or rejects it. -/
def withRm (w : Nat) (k : Rm → FpInstr) : Except DecodeError Instr :=
  match rmOf (fld w 12 3) with
  | some rm => .ok (.scalarFpOp (k rm))
  | none => .error .reservedRounding

/-- MADD, MSUB, NMSUB and NMADD with fmt 0b00 (R5 item 2). -/
def decodeFused (f : FFused) (w : Nat) : Except DecodeError Instr :=
  guardD (fld w 25 2 == 0) .undefinedStandard
    (withRm w (.fused f (regAt w 7) (regAt w 15) (regAt w 20) (regAt w 27)))

/-- The integer format of a scalar conversion, from its rs2 field. -/
def cvtIntOf (n : Nat) : Option CvtInt :=
  match n with
  | 0 => some .w | 1 => some .wu | 2 => some .l | 3 => some .lu
  | _ => none

/-- OP-FP with fmt 0b00. -/
def decodeOpFp (w : Nat) : Except DecodeError Instr :=
  let rd := regAt w 7
  let rs1 := regAt w 15
  let rs2 := regAt w 20
  let f3 := fld w 12 3
  let ok := fun i => (.ok (.scalarFpOp i) : Except DecodeError Instr)
  match fld w 25 7 with
  | 0 => withRm w (.arith .add rd rs1 rs2)
  | 4 => withRm w (.arith .sub rd rs1 rs2)
  | 8 => withRm w (.arith .mul rd rs1 rs2)
  | 12 => withRm w (.arith .div rd rs1 rs2)
  | 44 => guardD (rs2.val == 0) .undefinedStandard (withRm w (.sqrt rd rs1))
  | 16 =>
    match f3 with
    | 0 => ok (.sel .sgnj rd rs1 rs2)
    | 1 => ok (.sel .sgnjn rd rs1 rs2)
    | 2 => ok (.sel .sgnjx rd rs1 rs2)
    | _ => .error .undefinedStandard
  | 20 =>
    match f3 with
    | 0 => ok (.sel .min rd rs1 rs2)
    | 1 => ok (.sel .max rd rs1 rs2)
    | _ => .error .undefinedStandard
  | 80 =>
    match f3 with
    | 0 => ok (.cmp .le rd rs1 rs2)
    | 1 => ok (.cmp .lt rd rs1 rs2)
    | 2 => ok (.cmp .eq rd rs1 rs2)
    | _ => .error .undefinedStandard
  | 96 =>
    match cvtIntOf rs2.val with
    | some t => withRm w (.cvtToInt t rd rs1)
    | none => .error .undefinedStandard
  | 104 =>
    match cvtIntOf rs2.val with
    | some t => withRm w (.cvtFromInt t rd rs1)
    | none => .error .undefinedStandard
  | 112 =>
    if rs2.val ≠ 0 then .error .undefinedStandard
    else match f3 with
      | 0 => ok (.mvXW rd rs1)
      | 1 => ok (.fclass rd rs1)
      | _ => .error .undefinedStandard
  | 120 => guardD (rs2.val == 0 && f3 == 0) .undefinedStandard (ok (.mvWX rd rs1))
  | _ => .error .undefinedStandard

/-- The form of a CSR word. -/
def csrOpOf (f3 : Nat) : Option CsrOp :=
  match f3 with
  | 1 => some .rw | 2 => some .rs | 3 => some .rc | 5 => some .rwi | 6 => some .rsi | 7 => some .rci
  | _ => none

/-- SYSTEM: ECALL, EBREAK and the six CSR forms, with R5 items 5 and 6. -/
def decodeSystem (w : Nat) : Except DecodeError Instr :=
  match csrOpOf (fld w 12 3) with
  | some op =>
    if csrNumbers.contains (fld w 20 12) then
      guardD (!(csrReadOnly (fld w 20 12) && csrWrites op (regAt w 15))) .csrReadOnlyWrite
        (.ok (.csrAccess op (regAt w 7) (fld w 20 12) (regAt w 15)))
    else .error .csrNotImplemented
  | none =>
    if w = 0x00000073 then .ok .ecall
    else if w = 0x00100073 then .ok .ebreak
    else .error .undefinedStandard

/-- A 5-bit field that names a predicate: bit 4 must be 0 (R42 item 4). -/
def withPred (w lo : Nat) (k : PReg → Except DecodeError Instr) : Except DecodeError Instr :=
  if h : fld w lo 5 < 16 then k ⟨fld w lo 5, h⟩ else .error .predicateBit4

/-- A 5-bit field with an immediate below n (R42 item 3). -/
def withImm (n : Nat) (w lo : Nat) (k : Fin n → Except DecodeError Instr) : Except DecodeError Instr :=
  if h : fld w lo 5 < n then k ⟨fld w lo 5, h⟩ else .error .immediateLimit

/-- Accepts a word whose named fields are zero (R42 item 2). -/
def zero (c : Bool) (r : Except DecodeError Instr) : Except DecodeError Instr := guardD c .zeroField r

/-- SX, funct3 0b000: the B-layout loop branches (R37). -/
def decodeSx0 (w : Nat) : Except DecodeError Instr :=
  zero (fld w 15 5 == 0)
    (match fld w 20 5 with
     | 0 => guardD (immB w % 4 == 0) .offsetNotFour (.ok (.loopEnd (immB w)))
     | 1 => guardD (immB w % 4 == 0) .offsetNotFour (.ok (.loopBrk (immB w)))
     | _ => .error .noFunction)

/-- SX, funct3 0b001: `loop.set` and `loop.idx`. -/
def decodeSx1 (w : Nat) : Except DecodeError Instr :=
  match fld w 25 7 with
  | 0 => zero (fld w 7 5 == 0) (withImm 8 w 20 fun s => .ok (.loopSet (regAt w 15) (s.val + 1)))
  | 1 => zero (fld w 15 5 == 0) (withImm 6 w 20 fun k => .ok (.loopIdx (regAt w 7) k.val))
  | _ => .error .noFunction

/-- SX, funct3 0b010: predicate logic. -/
def decodeSx2 (w : Nat) : Except DecodeError Instr :=
  let two := fun (mk : PReg → PReg → PReg → Instr) =>
    withPred w 7 fun pd => withPred w 15 fun pa => withPred w 20 fun pb => (.ok (mk pd pa pb) : Except DecodeError Instr)
  let one := fun (mk : PReg → PReg → Instr) =>
    zero (fld w 20 5 == 0) (withPred w 7 fun pd => withPred w 15 fun pa => .ok (mk pd pa))
  match fld w 25 7 with
  | 0 => two .pand
  | 1 => two .por
  | 2 => one .pnot
  | 3 => one .pmov
  | 4 => zero (fld w 20 5 == 0) (withPred w 15 fun pa => .ok (.ppop (regAt w 7) pa))
  | 5 => one .pfirst
  | 6 => withPred w 7 fun pd => .ok (.pwhile pd (regAt w 15) (regAt w 20))
  | _ => .error .noFunction

/-- SX, funct3 0b011: barriers, mailboxes, tokens and the allocator. -/
def decodeSx3 (w : Nat) : Except DecodeError Instr :=
  let rd := regAt w 7
  let rs1 := regAt w 15
  let rs2 := regAt w 20
  let rd0 := fld w 7 5 == 0
  let rs10 := fld w 15 5 == 0
  let rs20 := fld w 20 5 == 0
  match fld w 25 7 with
  | 0 => zero rd0 (withImm 16 w 20 fun k => .ok (.barInit k rs1))
  | 1 => zero (rd0 && rs10) (withImm 16 w 20 fun k => .ok (.barArrive k))
  | 2 => zero (rd0 && rs10) (withImm 16 w 20 fun k => .ok (.barWait k))
  | 3 => zero rd0 (.ok (.mboxSend rs1 rs2))
  | 4 => zero rs10 (withImm 8 w 20 fun k => .ok (.mboxRecv rd k))
  | 5 => zero rs10 (withImm 8 w 20 fun k => .ok (.mboxPoll rd k))
  | 6 => zero (rd0 && rs20) (.ok (.tokSet rs1))
  | 7 => zero (rd0 && rs20) (.ok (.tokClr rs1))
  | 8 => zero rs20 (.ok (.spaBump rd rs1))
  | 9 => withImm 4 w 20 fun k => .ok (.spaRingGet rd rs1 k)
  | 10 => zero rd0 (withImm 4 w 20 fun k => .ok (.spaRingPut rs1 k))
  | 11 => zero (rs10 && rs20) (.ok (.spaMark rd))
  | 12 => zero (rd0 && rs20) (.ok (.spaRel rs1))
  | _ => .error .noFunction

/-- SX, funct3 0b100: configuration moves. -/
def decodeSx4 (w : Nat) : Except DecodeError Instr :=
  let rd := regAt w 7
  let rs1 := regAt w 15
  let rd0 := fld w 7 5 == 0
  let rs10 := fld w 15 5 == 0
  match fld w 25 7 with
  | 0 => zero rd0 (.ok (.shpWr (regAt w 20) rs1))
  | 1 => zero rs10 (.ok (.shpRd rd (regAt w 20)))
  | 2 => withImm 16 w 7 fun k => .ok (.lyWr k rs1 (regAt w 20))
  | 3 => zero rs10 (.ok (.lyRd rd (predAt w 20) (fld w 24 1 == 1)))
  | 4 => zero rd0 (withImm 8 w 20 fun k => .ok (.tcfgWr k rs1))
  | 5 => zero rs10 (withImm 8 w 20 fun k => .ok (.tcfgRd rd k))
  | _ => .error .noFunction

/-- SX, funct3 0b101: fibres and streams. -/
def decodeSx5 (w : Nat) : Except DecodeError Instr :=
  let rd := regAt w 7
  let rs1 := regAt w 15
  let rd0 := fld w 7 5 == 0
  let rs10 := fld w 15 5 == 0
  match fld w 25 7 with
  | 0 => zero rd0 (withImm 8 w 20 fun k => .ok (.fbOpen k rs1))
  | 1 => zero rs10 (withImm 8 w 20 fun k => .ok (.fbAdv rd k))
  | 2 => zero rs10 (withImm 8 w 20 fun k => .ok (.fbEnd rd k))
  | 3 => zero (rd0 && rs10) (withImm 8 w 20 fun k => .ok (.fbClose k))
  | 4 => zero rd0 (withImm 8 w 20 fun k => .ok (.smOpen k rs1))
  | 5 => zero rs10 (withImm 8 w 20 fun k => .ok (.smAdv rd k))
  | 6 => zero rs10 (withImm 8 w 20 fun k => .ok (.smEnd rd k))
  | 7 => zero (rd0 && rs10) (withImm 8 w 20 fun k => .ok (.smClose k))
  | _ => .error .noFunction

/-- Scope codes of `qmark` (R37). -/
def scopeOf (n : Nat) : Option Scope :=
  match n with
  | 0 => some .seq | 1 => some .core | 2 => some .clu | 3 => some .die | 4 => some .pkg | 5 => some .pod
  | _ => none

/-- Kind codes of `qmark` (R37). -/
def kindOf (n : Nat) : Option MarkKind :=
  match n with
  | 0 => some .acq | 1 => some .rel | 2 => some .full
  | _ => none

/-- SX, funct3 0b111: markers, waits, regions, `yield`, full/empty checks and `tret`. -/
def decodeSx7 (w : Nat) : Except DecodeError Instr :=
  let rd0 := fld w 7 5 == 0
  let rs10 := fld w 15 5 == 0
  let rs20 := fld w 20 5 == 0
  match fld w 25 7 with
  | 0 => zero (rd0 && rs10)
      (match scopeOf (fld w 20 3), kindOf (fld w 23 2) with
       | some sc, some kd => .ok (.qmark sc kd)
       | _, _ => .error .immediateLimit)
  | 1 => zero (rd0 && rs10)
      (withImm 4 w 20 fun m => guardD (m.val != 0) .immediateLimit (.ok (.qwait m)))
  | 2 => zero (rd0 && rs10 && rs20) (.ok .regionMark)
  | 3 => zero (rd0 && rs10 && rs20) (.ok .regionEnd)
  | 4 => zero (rd0 && rs10 && rs20) (.ok .yield)
  | 5 => zero rs10 (.ok (.feChkX (regAt w 7) (regAt w 20)))
  | 6 => zero rs10 (.ok (.feChkV (regAt w 7) (regAt w 20)))
  | 127 => zero (rd0 && rs10 && rs20) (.ok .tret)
  | _ => .error .noFunction

/-- The SX major (R37); funct3 0b110 is refused entirely. -/
def decodeSx (w : Nat) : Except DecodeError Instr :=
  match fld w 12 3 with
  | 0 => decodeSx0 w
  | 1 => decodeSx1 w
  | 2 => decodeSx2 w
  | 3 => decodeSx3 w
  | 4 => decodeSx4 w
  | 5 => decodeSx5 w
  | 7 => decodeSx7 w
  | _ => .error .noFunction

/-- The fields of a floating-point AMO word. -/
def famoAt (w : Nat) : FAmo :=
  { rd := regAt w 7, rs2 := regAt w 20, rs1 := regAt w 15, aq := fld w 26 1 == 1, rl := fld w 25 1 == 1 }

/-- The EC major (R38). -/
def decodeEc (w : Nat) : Except DecodeError Instr :=
  let rd := regAt w 7
  let rs1 := regAt w 15
  let rd0 := fld w 7 5 == 0
  let rs10 := fld w 15 5 == 0
  let rs20 := fld w 20 5 == 0
  match fld w 12 3 with
  | 0 =>
    match fld w 25 7 with
    | 0 => withImm 16 w 20 fun k => .ok (.cmdPut rd k rs1)
    | 1 => zero rd0 (withImm 16 w 20 fun k => .ok (.chainTail k rs1))
    | 2 => zero rd0 (withImm 16 w 20 fun k => .ok (.seqWait k rs1))
    | 3 => zero rs10 (withImm 16 w 20 fun k => .ok (.seqRead rd k))
    | _ => .error .noFunction
  | 1 =>
    match fld w 25 7 with
    | 0 => zero (rd0 && rs10 && rs20) (.ok .leaseAcq)
    | 1 => zero (rd0 && rs10 && rs20) (.ok .leaseRel)
    | _ => .error .noFunction
  | 2 =>
    match fld w 27 5 with
    | 0 => .ok (.amoaddS (famoAt w))
    | 16 => .ok (.amominS (famoAt w))
    | 20 => .ok (.amomaxS (famoAt w))
    | 24 => .ok (.amominnumS (famoAt w))
    | 28 => .ok (.amomaxnumS (famoAt w))
    | _ => .error .noFunction
  | _ => .error .noFunction

/-- The fields of a VA or VX word (R31). -/
def vaAt (w : Nat) : VA :=
  { vd := regAt w 7, vs1 := regAt w 16, vs2 := regAt w 21, qp := predAt w 12,
    b1 := fld w 26 1 == 1, b2 := fld w 27 1 == 1 }

/-- A VU word: [25:21] is the operation, b2 must be 0 (R42 item 5). -/
def vuAt (w : Nat) (k : VA → Except DecodeError Instr) : Except DecodeError Instr :=
  guardD (fld w 27 1 == 0) .vuB2 (k { vaAt w with vs2 := 0 })

/-- The VA1 major (R39). -/
def decodeVa1 (w : Nat) : Except DecodeError Instr :=
  let o := vaAt w
  match fld w 28 4 with
  | 0 => .ok (.vadd o) | 1 => .ok (.vsub o) | 2 => .ok (.vmul o) | 3 => .ok (.vmulh o)
  | 4 => .ok (.vmac o) | 5 => .ok (.vand o) | 6 => .ok (.vor o) | 7 => .ok (.vxor o)
  | 8 => .ok (.vsll o) | 9 => .ok (.vsr o) | 10 => .ok (.vmin o) | 11 => .ok (.vmax o)
  | 12 => .ok (.vsadd o) | 13 => .ok (.vssub o) | 14 => .ok (.vaddX o)
  | _ => vuAt w fun o =>
    match fld w 21 5 with
    | 0 => .ok (.vnot o) | 1 => .ok (.vneg o) | 2 => .ok (.vabs o) | 3 => .ok (.vmov o)
    | _ => .error .noFunction

/-- The VA2 major (R39). -/
def decodeVa2 (w : Nat) : Except DecodeError Instr :=
  let o := vaAt w
  match fld w 28 4 with
  | 0 => .ok (.vfadd o) | 1 => .ok (.vfsub o) | 2 => .ok (.vfmul o) | 3 => .ok (.vfma o)
  | 4 => .ok (.vfms o) | 5 => .ok (.vfdiv o) | 6 => .ok (.vfmin o) | 7 => .ok (.vfmax o)
  | 8 => .ok (.vfminnum o) | 9 => .ok (.vfmaxnum o) | 10 => .ok (.vfsgnj o) | 11 => .ok (.vfsgnjn o)
  | 12 => .ok (.vfsgnjx o) | 13 => .ok (.vfmaX o) | 14 => .ok (.vfmulX o)
  | _ => vuAt w fun o =>
    match fld w 21 5 with
    | 0 => .ok (.vfsqrt o) | 1 => .ok (.vfabs o) | 2 => .ok (.vfneg o) | 3 => .ok (.vfclass o)
    | _ => .error .noFunction

/-- A conversion word: b2 must be 0, and the tag within its row's range (R40). -/
def vcvAt (w lo : Nat) (satOk : Bool) (k : VCv → Instr) : Except DecodeError Instr :=
  guardD (fld w 27 1 == 0) .modeOrB
    (guardD (decide (lo ≤ fld w 21 4) && decide (fld w 21 4 ≤ 12)) .immediateLimit
      (guardD (satOk || fld w 25 1 == 0) .zeroField
        (.ok (k { vd := regAt w 7, vs1 := regAt w 16, tag := predAt w 21, sat := fld w 25 1 == 1,
                  qp := predAt w 12, b1 := fld w 26 1 == 1 }))))

/-- The VC major (R40). -/
def decodeVc (w : Nat) : Except DecodeError Instr :=
  let o := vaAt w
  match fld w 28 4 with
  | 0 => vcvAt w 1 true .vcvt
  | 1 => vcvAt w 1 true .vcvtRz
  | 2 => vcvAt w 1 false .vwiden
  | 3 => vcvAt w 1 true .vnarrow
  | 4 => vcvAt w 0 false .vtag
  | 5 => vuAt w fun o =>
    match fld w 21 5 with
    | 0 => .ok (.vrnd o) | 1 => .ok (.vfexp2 o) | 2 => .ok (.vflog2 o) | 3 => .ok (.vfrcp o)
    | 4 => .ok (.vfrsqrt o) | 5 => .ok (.vgetexp o) | 6 => .ok (.vgetmant o)
    | _ => .error .noFunction
  | 6 => .ok (.vscale o)
  | 7 => vuAt w fun o =>
    match fld w 21 5 with
    | 0 => .ok (.vredsum o) | 1 => .ok (.vredmax o) | 2 => .ok (.vredmin o) | 3 => .ok (.vredargmax o)
    | 4 => .ok (.vscan o)
    | _ => .error .noFunction
  | 8 => .ok (.vperm o)
  | 9 => .ok (.vsel o)
  | 10 => vuAt w fun o =>
    match fld w 21 5 with
    | 0 => .ok (.vcompress o) | 1 => .ok (.vexpand o)
    | _ => .error .noFunction
  | _ => .error .noFunction

/-- The VP major (R35, R36): conds 0101 to 0111 and 1111, and ctype 0b111, are refused. -/
def decodeVp (w : Nat) : Except DecodeError Instr :=
  let o : VP := { ctype := ⟨fld w 25 3, Nat.mod_lt _ (by decide)⟩, s2 := regAt w 20, s1 := regAt w 15,
                  qp := predAt w 11, pa := predAt w 7 }
  guardD (o.ctype.val != 7) .ctype7
    (match fld w 28 4 with
     | 0 => .ok (.vcmpEq o) | 1 => .ok (.vcmpNe o) | 2 => .ok (.vcmpLt o) | 3 => .ok (.vcmpLe o)
     | 4 => .ok (.vcmpUnord o)
     | 8 => .ok (.xcmpEq o) | 9 => .ok (.xcmpNe o) | 10 => .ok (.xcmpLt o) | 11 => .ok (.xcmpGe o)
     | 12 => .ok (.xcmpLtu o) | 13 => .ok (.xcmpGeu o) | 14 => .ok (.xcmpTst o)
     | _ => .error .noFunction)

/-- The VM major (R41): mode, b and the zero fields of each row. -/
def decodeVm (w : Nat) : Except DecodeError Instr :=
  let o : VM := { vd := regAt w 7, xs1 := regAt w 16, s2 := regAt w 21, qp := predAt w 12, b := fld w 26 1 == 1 }
  let mode := fld w 27 1
  let b0 := fun r => guardD (fld w 26 1 == 0) .modeOrB r
  let s20 := fun r => zero (fld w 21 5 == 0) r
  let m0 := fun r => guardD (fld w 27 1 == 0) .modeOrB r
  let ok := fun i => (.ok i : Except DecodeError Instr)
  match fld w 28 4 with
  | 0 => b0 (s20 (ok (if mode = 0 then .vld o else .vldVa o)))
  | 1 => b0 (ok (if mode = 0 then .vlds o else .vldsVa o))
  | 2 => ok (if mode = 0 then .vldx o else .vldxVa o)
  | 3 => s20 (ok (if mode = 0 then .vst o else .vstVa o))
  | 4 => ok (if mode = 0 then .vsts o else .vstsVa o)
  | 5 => ok (if mode = 0 then .vstx o else .vstxVa o)
  | 6 => b0 (s20 (ok (if mode = 0 then .vldB o else .vldBVa o)))
  | 7 => m0 (b0 (s20 (ok (.vldRow o))))
  | 8 => m0 (s20 (ok (.vstRow o)))
  | 9 => m0 (s20 (ok (.vpark o)))
  | 10 => m0 (b0 (s20 (ok (.vunpark o))))
  | 11 => m0 (ok (.hprobe o))
  | 12 => ok (if mode = 0 then .binAdd o else .binAddVa o)
  | 13 => ok (if mode = 0 then .vslideUp o else .vslideDown o)
  | 14 =>
    guardD (o.qp.val == 0) .vmvPredicate
      (if mode = 0 then ok (.vmvX o) else b0 (s20 (ok (.vmvS o))))
  | _ =>
    if mode = 0 then b0 (s20 (zero (fld w 16 5 == 0) (ok (.viota o)))) else ok (.vsegid o)

/-- Decodes one 32-bit instruction word by its major opcode (R29). -/
def decode (w : Nat) : Except DecodeError Instr :=
  match fld w 0 7 with
  | 0x03 => decodeLoad w
  | 0x07 => decodeLoadFp w
  | 0x0B => decodeSx w
  | 0x0F => decodeMiscMem w
  | 0x13 => decodeOpImm w
  | 0x17 => .ok (.standardInstruction (.auipc (regAt w 7) (fld w 12 20)))
  | 0x1B => decodeOpImm32 w
  | 0x23 => decodeStore w
  | 0x27 => decodeStoreFp w
  | 0x2B => decodeVa1 w
  | 0x2F => decodeAmo w
  | 0x33 => decodeOp w
  | 0x37 => .ok (.standardInstruction (.lui (regAt w 7) (fld w 12 20)))
  | 0x3B => decodeOp32 w
  | 0x43 => decodeFused .madd w
  | 0x47 => decodeFused .msub w
  | 0x4B => decodeFused .nmsub w
  | 0x4F => decodeFused .nmadd w
  | 0x53 => decodeOpFp w
  | 0x57 => decodeVm w
  | 0x5B => decodeVa2 w
  | 0x63 => decodeBranch w
  | 0x67 => guardD (fld w 12 3 == 0) .undefinedStandard (.ok (.jalr (regAt w 7) (regAt w 15) (immI w)))
  | 0x6B => decodeEc w
  | 0x6F => guardD (immJ w % 4 == 0) .offsetNotFour (.ok (.standardInstruction (.jal (regAt w 7) (immJ w))))
  | 0x73 => decodeSystem w
  | 0x77 => decodeVp w
  | 0x7B => decodeVc w
  | n => if n % 4 = 3 then .error .majorRefused else .error .lowBits

/-- A 32-bit word from four bytes, the first at the lowest address (data memory is little-endian, R4). -/
def wordOfBytes (b0 b1 b2 b3 : Byte) : Nat :=
  b0.toNat + b1.toNat * 256 + b2.toNat * 65536 + b3.toNat * 16777216

/-- Decodes the instruction at the head of a list of bytes and answers it with the rest. -/
def decodeBytes : List Byte → Except DecodeError (Instr × List Byte)
  | b0 :: b1 :: b2 :: b3 :: rest =>
    match decode (wordOfBytes b0 b1 b2 b3) with
    | .ok i => .ok (i, rest)
    | .error e => .error e
  | _ => .error .truncated

/-- The four bytes of a word, lowest address first. -/
def bytesOfWord (w : Nat) : List Byte :=
  [BitVec.ofNat 8 w, BitVec.ofNat 8 (w / 256), BitVec.ofNat 8 (w / 65536), BitVec.ofNat 8 (w / 16777216)]

/-- The instruction the decoder reads from a word of the opcode table, its bits above nbits zero. -/
def decodeTableWord (nbits w : Nat) : Option Instr :=
  match decodeBytes (bytesOfWord (w % 2 ^ nbits)) with
  | .ok (i, _) => some i
  | .error _ => none

/-! ### The encoder -/

/-- An R-layout word (R31). -/
def encR (f7 rs2 rs1 f3 rd op : Nat) : Nat :=
  f7 * 33554432 + rs2 * 1048576 + rs1 * 32768 + f3 * 4096 + rd * 128 + op

/-- A two's-complement field of n bits. -/
def twos (n : Nat) (i : Int) : Nat := (i % (2 ^ n : Nat)).toNat

/-- An I-layout word. -/
def encI (imm : Int) (rs1 f3 rd op : Nat) : Nat :=
  twos 12 imm * 1048576 + rs1 * 32768 + f3 * 4096 + rd * 128 + op

/-- An S-layout word. -/
def encS (imm : Int) (rs2 rs1 f3 op : Nat) : Nat :=
  twos 12 imm / 32 * 33554432 + rs2 * 1048576 + rs1 * 32768 + f3 * 4096 + twos 12 imm % 32 * 128 + op

/-- A B-layout word: imm[12 | 10:5], rs2, rs1, funct3, imm[4:1 | 11] (R31). -/
def encB (off : Int) (rs2 rs1 f3 op : Nat) : Nat :=
  let n := twos 13 off
  n / 4096 * 2147483648 + n / 32 % 64 * 33554432 + rs2 * 1048576 + rs1 * 32768 + f3 * 4096
    + n / 2 % 16 * 256 + n / 2048 % 2 * 128 + op

/-- A J-layout word. -/
def encJ (off : Int) (rd op : Nat) : Nat :=
  let n := twos 21 off
  n / 1048576 * 2147483648 + n / 2 % 1024 * 2097152 + n / 2048 % 2 * 1048576 + n / 4096 % 256 * 4096
    + rd * 128 + op

/-- The number of a truth value. -/
def bit (b : Bool) : Nat := if b then 1 else 0

/-- A VA, VX or VU word, from fn and the [25:21] field (R31). -/
def encVA (fn s2 op : Nat) (o : VA) : Nat :=
  fn * 268435456 + bit o.b2 * 134217728 + bit o.b1 * 67108864 + s2 * 2097152 + o.vs1.val * 65536
    + o.qp.val * 4096 + o.vd.val * 128 + op

/-- A conversion word of VC (R40). -/
def encVCv (fn : Nat) (o : VCv) : Nat :=
  fn * 268435456 + bit o.b1 * 67108864 + bit o.sat * 33554432 + o.tag.val * 2097152 + o.vs1.val * 65536
    + o.qp.val * 4096 + o.vd.val * 128 + 0x7B

/-- A VP word (R31, R35). -/
def encVP (cond : Nat) (o : VP) : Nat :=
  cond * 268435456 + o.ctype.val * 33554432 + o.s2.val * 1048576 + o.s1.val * 32768 + o.qp.val * 2048
    + o.pa.val * 128 + 0x77

/-- A VM word (R31, R41). -/
def encVM (fn mode : Nat) (o : VM) : Nat :=
  fn * 268435456 + mode * 134217728 + bit o.b * 67108864 + o.s2.val * 2097152 + o.xs1.val * 65536
    + o.qp.val * 4096 + o.vd.val * 128 + 0x57

/-- The code of a rounding field. -/
def Rm.code : Rm → Nat
  | .rne => 0 | .rtz => 1 | .rdn => 2 | .rup => 3 | .rmm => 4 | .dyn => 7

/-- funct7 and funct3 of an OP word. -/
def OpFn.code : OpFn → Nat × Nat
  | .add => (0, 0) | .sub => (32, 0) | .sll => (0, 1) | .slt => (0, 2) | .sltu => (0, 3) | .xor => (0, 4)
  | .srl => (0, 5) | .sra => (32, 5) | .or => (0, 6) | .and => (0, 7)
  | .mul => (1, 0) | .mulh => (1, 1) | .mulhsu => (1, 2) | .mulhu => (1, 3)
  | .div => (1, 4) | .divu => (1, 5) | .rem => (1, 6) | .remu => (1, 7)
  | .sh1add => (16, 2) | .sh2add => (16, 4) | .sh3add => (16, 6)

/-- funct7 and funct3 of an OP-32 word. -/
def Op32Fn.code : Op32Fn → Nat × Nat
  | .addw => (0, 0) | .subw => (32, 0) | .sllw => (0, 1) | .srlw => (0, 5) | .sraw => (32, 5)
  | .mulw => (1, 0) | .divw => (1, 4) | .divuw => (1, 5) | .remw => (1, 6) | .remuw => (1, 7)
  | .adduw => (4, 0) | .sh1adduw => (16, 2) | .sh2adduw => (16, 4) | .sh3adduw => (16, 6)

/-- funct3 of a BRANCH word. -/
def BrCond.code : BrCond → Nat
  | .beq => 0 | .bne => 1 | .blt => 4 | .bge => 5 | .bltu => 6 | .bgeu => 7

/-- funct5 of an AMO word. -/
def AmoOp.code : AmoOp → Nat
  | .add => 0 | .swap => 1 | .xor => 4 | .or => 8 | .and => 12 | .min => 16 | .max => 20 | .minu => 24 | .maxu => 28

/-- funct3 of an AMO word. -/
def AmoWidth.code : AmoWidth → Nat
  | .word => 2 | .dword => 3

/-- funct3 of a CSR word. -/
def CsrOp.code : CsrOp → Nat
  | .rw => 1 | .rs => 2 | .rc => 3 | .rwi => 5 | .rsi => 6 | .rci => 7

/-- rs2 field of a scalar conversion. -/
def CvtInt.code : CvtInt → Nat
  | .w => 0 | .wu => 1 | .l => 2 | .lu => 3

/-- The word of a base instruction. -/
def StdInstr.encode : StdInstr → Nat
  | .lui rd imm => imm * 4096 + rd.val * 128 + 0x37
  | .auipc rd imm => imm * 4096 + rd.val * 128 + 0x17
  | .jal rd off => encJ off rd.val 0x6F
  | .branch c rs1 rs2 off => encB off rs2.val rs1.val c.code 0x63
  | .op f rd rs1 rs2 => encR f.code.1 rs2.val rs1.val f.code.2 rd.val 0x33
  | .op32 f rd rs1 rs2 => encR f.code.1 rs2.val rs1.val f.code.2 rd.val 0x3B
  | .opImm f rd rs1 imm =>
    match f with
    | .addi => encI imm rs1.val 0 rd.val 0x13
    | .slti => encI imm rs1.val 2 rd.val 0x13
    | .sltiu => encI imm rs1.val 3 rd.val 0x13
    | .xori => encI imm rs1.val 4 rd.val 0x13
    | .ori => encI imm rs1.val 6 rd.val 0x13
    | .andi => encI imm rs1.val 7 rd.val 0x13
    | .slli => encI imm rs1.val 1 rd.val 0x13
    | .srli => encI imm rs1.val 5 rd.val 0x13
    | .srai => encI (imm + 1024) rs1.val 5 rd.val 0x13
  | .opImm32 f rd rs1 imm =>
    match f with
    | .addiw => encI imm rs1.val 0 rd.val 0x1B
    | .slliw => encI imm rs1.val 1 rd.val 0x1B
    | .srliw => encI imm rs1.val 5 rd.val 0x1B
    | .sraiw => encI (imm + 1024) rs1.val 5 rd.val 0x1B
    | .slliuw => encI (imm + 128) rs1.val 1 rd.val 0x1B

/-- The word of a scalar F instruction. -/
def FpInstr.encode : FpInstr → Nat
  | .arith f rd rs1 rs2 rm =>
    encR (match f with | .add => 0 | .sub => 4 | .mul => 8 | .div => 12) rs2.val rs1.val rm.code rd.val 0x53
  | .sqrt rd rs1 rm => encR 44 0 rs1.val rm.code rd.val 0x53
  | .fused f rd rs1 rs2 rs3 rm =>
    encR (rs3.val * 4) rs2.val rs1.val rm.code rd.val
      (match f with | .madd => 0x43 | .msub => 0x47 | .nmsub => 0x4B | .nmadd => 0x4F)
  | .sel f rd rs1 rs2 =>
    match f with
    | .sgnj => encR 16 rs2.val rs1.val 0 rd.val 0x53
    | .sgnjn => encR 16 rs2.val rs1.val 1 rd.val 0x53
    | .sgnjx => encR 16 rs2.val rs1.val 2 rd.val 0x53
    | .min => encR 20 rs2.val rs1.val 0 rd.val 0x53
    | .max => encR 20 rs2.val rs1.val 1 rd.val 0x53
  | .cmp f rd rs1 rs2 =>
    encR 80 rs2.val rs1.val (match f with | .le => 0 | .lt => 1 | .eq => 2) rd.val 0x53
  | .fclass rd rs1 => encR 112 0 rs1.val 1 rd.val 0x53
  | .mvXW rd rs1 => encR 112 0 rs1.val 0 rd.val 0x53
  | .mvWX rd rs1 => encR 120 0 rs1.val 0 rd.val 0x53
  | .cvtToInt t rd rs1 rm => encR 96 t.code rs1.val rm.code rd.val 0x53
  | .cvtFromInt t rd rs1 rm => encR 104 t.code rs1.val rm.code rd.val 0x53

/-- The scope code of `qmark`. -/
def Scope.code : Scope → Nat
  | .seq => 0 | .core => 1 | .clu => 2 | .die => 3 | .pkg => 4 | .pod => 5

/-- The kind code of `qmark`. -/
def MarkKind.code : MarkKind → Nat
  | .acq => 0 | .rel => 1 | .full => 2

/-- A floating-point AMO word (R38). -/
def encFAmo (f5 : Nat) (o : FAmo) : Nat :=
  encR (f5 * 4 + bit o.aq * 2 + bit o.rl) o.rs2.val o.rs1.val 2 o.rd.val 0x6B

/-- An SX word. -/
def encSx (f7 rs2 rs1 f3 rd : Nat) : Nat := encR f7 rs2 rs1 f3 rd 0x0B

/-- The word of an instruction; commands, events and requests have none. -/
def encode : Instr → Option Nat
  | .scalarLoad k rd rs1 imm =>
    match k with
    | .lb => some (encI imm rs1.val 0 rd.val 0x03)
    | .lh => some (encI imm rs1.val 1 rd.val 0x03)
    | .lw => some (encI imm rs1.val 2 rd.val 0x03)
    | .ld => some (encI imm rs1.val 3 rd.val 0x03)
    | .lbu => some (encI imm rs1.val 4 rd.val 0x03)
    | .lhu => some (encI imm rs1.val 5 rd.val 0x03)
    | .lwu => some (encI imm rs1.val 6 rd.val 0x03)
    | .flw => some (encI imm rs1.val 2 rd.val 0x07)
  | .scalarStore k rs2 rs1 imm =>
    match k with
    | .sb => some (encS imm rs2.val rs1.val 0 0x23)
    | .sh => some (encS imm rs2.val rs1.val 1 0x23)
    | .sw => some (encS imm rs2.val rs1.val 2 0x23)
    | .sd => some (encS imm rs2.val rs1.val 3 0x23)
    | .fsw => some (encS imm rs2.val rs1.val 2 0x27)
  | .lr w aq rl rd rs1 => some (encR (8 + bit aq * 2 + bit rl) 0 rs1.val w.code rd.val 0x2F)
  | .sc w aq rl rd rs2 rs1 => some (encR (12 + bit aq * 2 + bit rl) rs2.val rs1.val w.code rd.val 0x2F)
  | .amo op w aq rl rd rs2 rs1 =>
    some (encR (op.code * 4 + bit aq * 2 + bit rl) rs2.val rs1.val w.code rd.val 0x2F)
  | .postedAmo op w aq rl rs2 rs1 =>
    some (encR (op.code * 4 + bit aq * 2 + bit rl) rs2.val rs1.val w.code 0 0x2F)
  | .jalr rd rs1 imm => some (encI imm rs1.val 0 rd.val 0x67)
  | .fence rd rs1 fm pred succ =>
    some (encR (fm.val * 8 + pred.val / 2) (pred.val % 2 * 16 + succ.val) rs1.val 0 rd.val 0x0F)
  | .fenceTso rd rs1 => some (encR (8 * 8 + 1) (16 + 3) rs1.val 0 rd.val 0x0F)
  | .fenceI rd rs1 imm => some (imm * 1048576 + rs1.val * 32768 + 1 * 4096 + rd.val * 128 + 0x0F)
  | .ecall => some 0x00000073
  | .ebreak => some 0x00100073
  | .csrAccess op rd csr src => some (csr * 1048576 + src.val * 32768 + op.code * 4096 + rd.val * 128 + 0x73)
  | .scalarFpOp op => some op.encode
  | .standardInstruction op => some op.encode
  | .loopEnd off => some (encB off 0 0 0 0x0B)
  | .loopBrk off => some (encB off 1 0 0 0x0B)
  | .loopSet xs1 s => some (encSx 0 (s - 1) xs1.val 1 0)
  | .loopIdx rd k => some (encSx 1 k 0 1 rd.val)
  | .pand pd pa pb => some (encSx 0 pb.val pa.val 2 pd.val)
  | .por pd pa pb => some (encSx 1 pb.val pa.val 2 pd.val)
  | .pnot pd pa => some (encSx 2 0 pa.val 2 pd.val)
  | .pmov pd pa => some (encSx 3 0 pa.val 2 pd.val)
  | .ppop rd pa => some (encSx 4 0 pa.val 2 rd.val)
  | .pfirst pd pa => some (encSx 5 0 pa.val 2 pd.val)
  | .pwhile pd xs1 xs2 => some (encSx 6 xs2.val xs1.val 2 pd.val)
  | .barInit k xs1 => some (encSx 0 k.val xs1.val 3 0)
  | .barArrive k => some (encSx 1 k.val 0 3 0)
  | .barWait k => some (encSx 2 k.val 0 3 0)
  | .mboxSend xs1 xs2 => some (encSx 3 xs2.val xs1.val 3 0)
  | .mboxRecv rd mb => some (encSx 4 mb.val 0 3 rd.val)
  | .mboxPoll rd mb => some (encSx 5 mb.val 0 3 rd.val)
  | .tokSet xs1 => some (encSx 6 0 xs1.val 3 0)
  | .tokClr xs1 => some (encSx 7 0 xs1.val 3 0)
  | .spaBump rd xs1 => some (encSx 8 0 xs1.val 3 rd.val)
  | .spaRingGet rd xs1 k => some (encSx 9 k.val xs1.val 3 rd.val)
  | .spaRingPut xs1 k => some (encSx 10 k.val xs1.val 3 0)
  | .spaMark rd => some (encSx 11 0 0 3 rd.val)
  | .spaRel xs1 => some (encSx 12 0 xs1.val 3 0)
  | .shpWr sh xs1 => some (encSx 0 sh.val xs1.val 4 0)
  | .shpRd rd sh => some (encSx 1 sh.val 0 4 rd.val)
  | .lyWr ly xs1 xs2 => some (encSx 2 xs2.val xs1.val 4 ly.val)
  | .lyRd rd ly hi => some (encSx 3 (bit hi * 16 + ly.val) 0 4 rd.val)
  | .tcfgWr tl xs1 => some (encSx 4 tl.val xs1.val 4 0)
  | .tcfgRd rd tl => some (encSx 5 tl.val 0 4 rd.val)
  | .fbOpen k xs1 => some (encSx 0 k.val xs1.val 5 0)
  | .fbAdv rd k => some (encSx 1 k.val 0 5 rd.val)
  | .fbEnd rd k => some (encSx 2 k.val 0 5 rd.val)
  | .fbClose k => some (encSx 3 k.val 0 5 0)
  | .smOpen k xs1 => some (encSx 4 k.val xs1.val 5 0)
  | .smAdv rd k => some (encSx 5 k.val 0 5 rd.val)
  | .smEnd rd k => some (encSx 6 k.val 0 5 rd.val)
  | .smClose k => some (encSx 7 k.val 0 5 0)
  | .qmark scope kind => some (encSx 0 (kind.code * 8 + scope.code) 0 7 0)
  | .qwait m => some (encSx 1 m.val 0 7 0)
  | .regionMark => some (encSx 2 0 0 7 0)
  | .regionEnd => some (encSx 3 0 0 7 0)
  | .yield => some (encSx 4 0 0 7 0)
  | .feChkX rd k => some (encSx 5 k.val 0 7 rd.val)
  | .feChkV rd k => some (encSx 6 k.val 0 7 rd.val)
  | .tret => some (encSx 127 0 0 7 0)
  | .cmdPut rd q xs1 => some (encR 0 q.val xs1.val 0 rd.val 0x6B)
  | .chainTail q xs1 => some (encR 1 q.val xs1.val 0 0 0x6B)
  | .seqWait q xs1 => some (encR 2 q.val xs1.val 0 0 0x6B)
  | .seqRead rd q => some (encR 3 q.val 0 0 rd.val 0x6B)
  | .leaseAcq => some (encR 0 0 0 1 0 0x6B)
  | .leaseRel => some (encR 1 0 0 1 0 0x6B)
  | .amoaddS o => some (encFAmo 0 o)
  | .amominS o => some (encFAmo 16 o)
  | .amomaxS o => some (encFAmo 20 o)
  | .amominnumS o => some (encFAmo 24 o)
  | .amomaxnumS o => some (encFAmo 28 o)
  | .vadd o => some (encVA 0 o.vs2.val 0x2B o)
  | .vsub o => some (encVA 1 o.vs2.val 0x2B o)
  | .vmul o => some (encVA 2 o.vs2.val 0x2B o)
  | .vmulh o => some (encVA 3 o.vs2.val 0x2B o)
  | .vmac o => some (encVA 4 o.vs2.val 0x2B o)
  | .vand o => some (encVA 5 o.vs2.val 0x2B o)
  | .vor o => some (encVA 6 o.vs2.val 0x2B o)
  | .vxor o => some (encVA 7 o.vs2.val 0x2B o)
  | .vsll o => some (encVA 8 o.vs2.val 0x2B o)
  | .vsr o => some (encVA 9 o.vs2.val 0x2B o)
  | .vmin o => some (encVA 10 o.vs2.val 0x2B o)
  | .vmax o => some (encVA 11 o.vs2.val 0x2B o)
  | .vsadd o => some (encVA 12 o.vs2.val 0x2B o)
  | .vssub o => some (encVA 13 o.vs2.val 0x2B o)
  | .vaddX o => some (encVA 14 o.vs2.val 0x2B o)
  | .vnot o => some (encVA 15 0 0x2B o)
  | .vneg o => some (encVA 15 1 0x2B o)
  | .vabs o => some (encVA 15 2 0x2B o)
  | .vmov o => some (encVA 15 3 0x2B o)
  | .vfadd o => some (encVA 0 o.vs2.val 0x5B o)
  | .vfsub o => some (encVA 1 o.vs2.val 0x5B o)
  | .vfmul o => some (encVA 2 o.vs2.val 0x5B o)
  | .vfma o => some (encVA 3 o.vs2.val 0x5B o)
  | .vfms o => some (encVA 4 o.vs2.val 0x5B o)
  | .vfdiv o => some (encVA 5 o.vs2.val 0x5B o)
  | .vfmin o => some (encVA 6 o.vs2.val 0x5B o)
  | .vfmax o => some (encVA 7 o.vs2.val 0x5B o)
  | .vfminnum o => some (encVA 8 o.vs2.val 0x5B o)
  | .vfmaxnum o => some (encVA 9 o.vs2.val 0x5B o)
  | .vfsgnj o => some (encVA 10 o.vs2.val 0x5B o)
  | .vfsgnjn o => some (encVA 11 o.vs2.val 0x5B o)
  | .vfsgnjx o => some (encVA 12 o.vs2.val 0x5B o)
  | .vfmaX o => some (encVA 13 o.vs2.val 0x5B o)
  | .vfmulX o => some (encVA 14 o.vs2.val 0x5B o)
  | .vfsqrt o => some (encVA 15 0 0x5B o)
  | .vfabs o => some (encVA 15 1 0x5B o)
  | .vfneg o => some (encVA 15 2 0x5B o)
  | .vfclass o => some (encVA 15 3 0x5B o)
  | .vcmpEq o => some (encVP 0 o)
  | .vcmpNe o => some (encVP 1 o)
  | .vcmpLt o => some (encVP 2 o)
  | .vcmpLe o => some (encVP 3 o)
  | .vcmpUnord o => some (encVP 4 o)
  | .xcmpEq o => some (encVP 8 o)
  | .xcmpNe o => some (encVP 9 o)
  | .xcmpLt o => some (encVP 10 o)
  | .xcmpGe o => some (encVP 11 o)
  | .xcmpLtu o => some (encVP 12 o)
  | .xcmpGeu o => some (encVP 13 o)
  | .xcmpTst o => some (encVP 14 o)
  | .vcvt o => some (encVCv 0 o)
  | .vcvtRz o => some (encVCv 1 o)
  | .vwiden o => some (encVCv 2 o)
  | .vnarrow o => some (encVCv 3 o)
  | .vtag o => some (encVCv 4 o)
  | .vrnd o => some (encVA 5 0 0x7B o)
  | .vfexp2 o => some (encVA 5 1 0x7B o)
  | .vflog2 o => some (encVA 5 2 0x7B o)
  | .vfrcp o => some (encVA 5 3 0x7B o)
  | .vfrsqrt o => some (encVA 5 4 0x7B o)
  | .vgetexp o => some (encVA 5 5 0x7B o)
  | .vgetmant o => some (encVA 5 6 0x7B o)
  | .vscale o => some (encVA 6 o.vs2.val 0x7B o)
  | .vredsum o => some (encVA 7 0 0x7B o)
  | .vredmax o => some (encVA 7 1 0x7B o)
  | .vredmin o => some (encVA 7 2 0x7B o)
  | .vredargmax o => some (encVA 7 3 0x7B o)
  | .vscan o => some (encVA 7 4 0x7B o)
  | .vperm o => some (encVA 8 o.vs2.val 0x7B o)
  | .vsel o => some (encVA 9 o.vs2.val 0x7B o)
  | .vcompress o => some (encVA 10 0 0x7B o)
  | .vexpand o => some (encVA 10 1 0x7B o)
  | .vld o => some (encVM 0 0 o)
  | .vldVa o => some (encVM 0 1 o)
  | .vlds o => some (encVM 1 0 o)
  | .vldsVa o => some (encVM 1 1 o)
  | .vldx o => some (encVM 2 0 o)
  | .vldxVa o => some (encVM 2 1 o)
  | .vst o => some (encVM 3 0 o)
  | .vstVa o => some (encVM 3 1 o)
  | .vsts o => some (encVM 4 0 o)
  | .vstsVa o => some (encVM 4 1 o)
  | .vstx o => some (encVM 5 0 o)
  | .vstxVa o => some (encVM 5 1 o)
  | .vldB o => some (encVM 6 0 o)
  | .vldBVa o => some (encVM 6 1 o)
  | .vldRow o => some (encVM 7 0 o)
  | .vstRow o => some (encVM 8 0 o)
  | .vpark o => some (encVM 9 0 o)
  | .vunpark o => some (encVM 10 0 o)
  | .hprobe o => some (encVM 11 0 o)
  | .binAdd o => some (encVM 12 0 o)
  | .binAddVa o => some (encVM 12 1 o)
  | .vslideUp o => some (encVM 13 0 o)
  | .vslideDown o => some (encVM 13 1 o)
  | .vmvX o => some (encVM 14 0 o)
  | .vmvS o => some (encVM 14 1 o)
  | .viota o => some (encVM 15 0 o)
  | .vsegid o => some (encVM 15 1 o)
  | _ => none

end Sys2Proof
end

