-- ==== Sys2Proof/Config.lean ====
section
/-! DEFINITION. What an implementation of the D2 fixes and the spec leaves open: opaque free values with no body. -/
namespace Sys2Proof

/-- The bytes a program reads in a bound grammar context's spill area: 'Reads by a program return unspecified
values' (R299). Free value, log entry 12. The argument is the counter State.free, advanced at each such read. -/
opaque Config.freeByte : Nat → Byte

/-- The 32-bit device identity that IDCODE selects (R346 names the instruction and gives no value). Log entry 40. -/
opaque Config.idcode : Word32

/-- Events of one interval that recording storage has room for (R326 tells what happens when it fills, and gives no
size). Log entry 42. -/
opaque Config.recordingRoom : Nat

/-- The value of a measurement by its index (R342): the boot ROM's, the Derdengo image's, the fuse configuration's and, which may change,
the debug unlock state's. Arguments: the index, and the counter State.free for index 4, else 0. Log entry 41. -/
opaque Config.measured : Nat → Nat → BitVec 512

/-- Whether the cold plate's temperature is still above the nominal one (R343). Argument: the counter State.free. Log entry 70. -/
opaque Config.stillHot : Nat → Bool

/-- k of the interval length 2^k that the debug fabric sets for a node, less 16, modulo 11 (R325); none where it sets none. Argument: the
counter State.free. Log entry 42. -/
opaque Config.intervalLog : Nat → Option Nat

/-- Cycles for which the profiling unit is still writing a snapshot (R330 gives no time). Argument: the counter State.free. Log entry 31. -/
opaque Config.snapTime : Nat → Nat

/-- The body of an SPDM response (R342 names the messages and gives no bytes): a function of the request code,
its parameter and the number of messages answered before. Log entry 41. -/
opaque Config.spdmBody : Nat → Nat → Nat → BitVec 512

/-- What a fetch from an address of another package comes to: that package's bytes are not of this model. The first
component modulo 4 tells a word (0), an unmapped page (1), one that is not executable (2) or an absent die (3); arguments:
the cycle and the address. Log entry 43. -/
opaque Config.remoteCode : Nat → Word → Nat × Word32

/-- Which of the events that may happen now happens next, or whether the cycle ends first: the spec gives events no
order among each other. Argument: the counter State.free. Log entry 44. -/
opaque Config.nextEvent : Nat → Nat

/-- Whether a scalar load that the scalar data cache may serve is served from it (R234). Log entry 45. -/
opaque Config.cacheHit : Nat → Bool

/-- Which element of an open fibre or stream is read ahead of its advance (R97). Log entry 45. -/
opaque Config.streamAhead : Nat → Nat

/-- The (requester, bank) pairs denied a bank in the cycles that pass with an access (R329). Log entry 45. -/
opaque Config.bankLosses : Nat → List (Nat × Nat)

/-- How other packages answer the elements of an access that this one sends them, each modulo 4: accepted, XLAT, ACCESS or
absent (R250, R253). Log entry 43. -/
opaque Config.remoteVerdicts : Nat → List Nat

/-- The 64-byte units of other packages that do not accept an engine's access, with what they answer, as above. Log entry 43. -/
opaque Config.remoteUnits : Nat → List (Word × Nat)

/-- The bytes that other packages return to an access or an engine. Log entry 43. -/
opaque Config.remoteBytes : Nat → List Byte

/-- The payload of the flit that carries a message's bytes from an offset on: R274 gives payloads no format. Log entry 33. -/
opaque Config.flitPayload : List Byte → Nat → BitVec 928

/-- The flow field of the flits of a message: its number, and the offset. Log entry 33. -/
opaque Config.flitFlow : Nat → Nat → BitVec 24

/-- The hops from one package to another over the pod's other links, which are not of this package (R277). Arguments: the cycle and
the two packages. Log entry 33. -/
opaque Config.podHops : Nat → Nat → Nat → Nat

/-- Whether no path is left to a package that is no neighbour, when a link has gone down (R277). Arguments: the counter State.free and
the package. Log entry 33. -/
opaque Config.pathLost : Nat → Nat → Bool

/-- What a soft error inside an unchecked engine datapath turns data into (R314). Arguments: the counter State.free, the address
written and the data. Log entry 69. -/
opaque Config.softError : Nat → Nat → List Byte → List Byte

/-- The values Derdengo gives the limits it sets: A (R214), W (R309), and the sampling interval and ring of a die (R254); none where
it sets nothing. Arguments: the counter State.free and which. Log entry 70. -/
opaque Config.derdengo : Nat → Nat → Option Nat

/-- How many further elements of a chunk's result are written at one time (R238, R272). Argument: the counter State.free. Log entry 7. -/
opaque Config.chunkPart : Nat → Nat

/-- Whether a line of a side record that a store has changed since the command's publication gives its old contents (R151).
Arguments: the counter State.free and the line. Log entry 45. -/
opaque Config.sideOld : Nat → Nat → Bool

/-- Whether the die's watch takes one more sparse tile (R258). Log entry 45. -/
opaque Config.watchRoom : Nat → Bool

/-- The nodes whose requests for pre-emption Derdengo refuses in a round, having no spill storage for them (R216). Log entry 45. -/
opaque Config.spillRefused : Nat → List (Nat × Nat)

/-- What Derdengo reads at an address of another package, a node record or a plane (R198, R208): none when it is refused there.
Arguments: the counter State.free and the address. Log entry 43. -/
opaque Config.remoteRecord : Nat → Word → Option (List Byte)

/-- Whether a line of a plane image that has changed since the node was taken up is read with its old contents (R208).
Arguments: the counter State.free and the line. Log entry 45. -/
opaque Config.planeOld : Nat → Nat → Bool

/-- The bytes of a debug READ of a save area that no save of its sequencer has written yet (R304). Arguments: the core, the
sequencer and the offset. Log entry 47. -/
opaque Config.areaByte : Nat → Nat → Nat → Byte

/-- Where the reserved region for the dump of a fatal error begins in the package's DRAM: the die times 2^48, and the address (R318).
Log entry 74. -/
opaque Config.dumpAt : Nat

/-- Where the next bit of a grammar context (kind 0) or of a tail checkpoint's first block (kind 1) stands in its 64 bytes, among the
places still free (R303). Arguments: the kind and how many bits are still to come. Log entry 47. -/
opaque Config.loosePlace : Nat → Nat → Nat

end Sys2Proof
end

