-- ==== Sys2Proof/Machine/Flags.lean ====
section
/-! DEFINITION. Number formats, rounding, NaN rules and exception flags (R55, R59, R60, R63 to R65, R70). A value is
held exactly, as a sign, a natural significand and a power of two; every operation rounds once at its end. -/
namespace Sys2Proof.Machine

/-! ### Formats (R55, R59) -/

/-- Element width in bits of a tag (R55); an accumulator element is 40 bits. -/
def tagBits : Nat → Nat
  | 2 | 3 | 8 => 16
  | 4 | 5 | 9 | 11 | 13 => 8
  | 6 | 10 | 12 => 4
  | 14 => 40
  | _ => 32

/-- Elements per vector register for a tag (R55). -/
def elemsOf (t : Nat) : Nat := 4096 / tagBits t

/-- The floating-point tags that carry arithmetic: 1 to 6 and 14. -/
def isFpTag (t : Nat) : Bool := (1 ≤ t && t ≤ 6) || t == 13 || t == 14

/-- The integer tags 7 to 12. -/
def isIntTag (t : Nat) : Bool := 7 ≤ t && t ≤ 12

/-- The signed integer tags 7 to 10. -/
def isSignedTag (t : Nat) : Bool := 7 ≤ t && t ≤ 10

/-- Fraction bits of a floating-point tag (R59). -/
def fracBits : Nat → Nat
  | 2 => 7
  | 3 => 10
  | 4 | 13 => 3
  | 5 => 2
  | 6 => 1
  | 14 => 31
  | _ => 23

/-- Exponent bits of a floating-point tag (R59). -/
def expBits : Nat → Nat
  | 3 | 5 => 5
  | 4 | 13 => 4
  | 6 => 2
  | _ => 8

/-- Exponent bias of a floating-point tag (R59). -/
def fpBias (t : Nat) : Nat := 2 ^ (expBits t - 1) - 1

/-- Whether the format has infinities (R59). -/
def hasInf (t : Nat) : Bool := !(t == 4 || t == 6 || t == 13)

/-- The sign bit's weight. -/
def signBit (t : Nat) : Nat := 2 ^ (tagBits t - 1)

/-- Exponent of the smallest normal number. -/
def eminOf (t : Nat) : Int := 1 - (fpBias t : Int)

/-- Magnitude bits of the largest finite value (R59). -/
def maxFinite (t : Nat) : Nat :=
  match t with
  | 4 | 13 => 0x7E
  | 6 => 7
  | _ => (2 ^ expBits t - 1) * 2 ^ fracBits t - 1

/-- Magnitude bits of infinity, where the format has one. -/
def infBits (t : Nat) : Nat := (2 ^ expBits t - 1) * 2 ^ fracBits t

/-- An infinity delivered to an element: a format without one receives the NaN of the sign (R120). -/
def infOf (t : Nat) (s : Bool) : Nat :=
  let m := if hasInf t then infBits t else if t == 6 then maxFinite t else 0x7F
  if s then signBit t + m else m

/-- The canonical quiet NaN (R60). -/
def canonNan (t : Nat) : Nat :=
  match t with
  | 4 | 13 => 0x7F
  | 6 => 0
  | _ => infBits t + 2 ^ (fracBits t - 1)

/-! ### Exact values (R70 value) -/

/-- What the bits of an element stand for: a NaN, an infinity, or (−1)^s · m · 2^e. -/
inductive FVal where
  | nan (s : Bool) (snan : Bool)
  | inf (s : Bool)
  | fin (s : Bool) (m : Nat) (e : Int)
  deriving DecidableEq, Repr

/-- The sign bit of an element. -/
def fpSign (t b : Nat) : Bool := b / signBit t % 2 == 1

/-- Magnitude bits of an element. -/
def fpMag (t b : Nat) : Nat := b % signBit t

/-- The value an element encodes (R59). -/
def fpValue (t b : Nat) : FVal :=
  let s := fpSign t b
  let mag := fpMag t b
  let ex := mag / 2 ^ fracBits t
  let fr := mag % 2 ^ fracBits t
  if !hasInf t && t != 6 && mag == 0x7F then .nan s false
  else if hasInf t && ex == 2 ^ expBits t - 1 then
    (if fr == 0 then .inf s else .nan s (fr < 2 ^ (fracBits t - 1)))
  else if ex == 0 then .fin s fr (eminOf t - fracBits t)
  else .fin s (2 ^ fracBits t + fr) (eminOf t - fracBits t + (ex - 1 : Nat))

/-- R70 is_nan. -/
def isNan (t b : Nat) : Bool := match fpValue t b with | .nan .. => true | _ => false

/-- R70 is_snan. -/
def isSnan (t b : Nat) : Bool := match fpValue t b with | .nan _ sn => sn | _ => false

/-- R70 quiet: the NaN with its quiet bit set; every E4M3 NaN is quiet. -/
def quietNan (t b : Nat) : Nat :=
  if !hasInf t then b else if b / 2 ^ (fracBits t - 1) % 2 == 1 then b else b + 2 ^ (fracBits t - 1)

/-! ### Flags (R9): NX 1, UF 2, OF 4, DZ 8, NV 16 -/

/-- An operation's result bits with the flags it raises. -/
structure FRes where
  bits : Nat
  flags : Nat
  deriving DecidableEq, Repr

def flagNX : Nat := 1
def flagUF : Nat := 2
def flagOF : Nat := 4
def flagDZ : Nat := 8
def flagNV : Nat := 16

/-- The OR of two flag sets of five bits. -/
def orFlags (a b : Nat) : Nat := a ||| b

/-! ### Rounding (R63, R65) -/

/-- The five rounding modes of R63. -/
inductive RMode where
  | rne | rtz | rdn | rup | rmm
  deriving DecidableEq, Repr

/-- The mode that `frm` holds; `frm` never holds 5 to 7 (R9). -/
def rmodeOf : Nat → RMode
  | 1 => .rtz
  | 2 => .rdn
  | 3 => .rup
  | 4 => .rmm
  | _ => .rne

/-- An exact value to be rounded: (m + δ) · 2^e with 0 < δ < 1 when `sticky`, and δ = 0 otherwise. -/
structure Exact where
  s : Bool
  m : Nat
  e : Int
  sticky : Bool
  deriving DecidableEq, Repr

/-- Number of bits of a natural number. -/
def bitLen (m : Nat) : Nat := if m = 0 then 0 else Nat.log2 m + 1

/-- Rounds the exact value to a multiple of 2^qe: the multiple and whether it is inexact. -/
def roundAt (rm : RMode) (x : Exact) (qe : Int) : Nat × Bool :=
  let sh := (qe - x.e).toNat
  let m := x.m * 2 ^ (x.e - qe).toNat
  let q := m / 2 ^ sh
  let r := m % 2 ^ sh
  let inexact := r != 0 || x.sticky
  let aboveHalf := 2 * r > 2 ^ sh || (2 * r == 2 ^ sh && x.sticky && sh != 0)
  let half := 2 * r == 2 ^ sh && !x.sticky && sh != 0
  let up :=
    match rm with
    | .rne => aboveHalf || (half && q % 2 == 1)
    | .rmm => aboveHalf || half
    | .rtz => false
    | .rdn => x.s && inexact
    | .rup => !x.s && inexact
  (if up then q + 1 else q, inexact)

/-- A format's bits for a sign and magnitude bits. -/
def withSign (t : Nat) (s : Bool) (mag : Nat) : Nat := if s then signBit t + mag else mag

/-- The IEEE overflow result for a mode: infinity or the largest finite value. -/
def overflowMag (t : Nat) (rm : RMode) (s : Bool) : Nat :=
  match rm, s with
  | .rtz, _ | .rdn, false | .rup, true => maxFinite t
  | _, _ => infBits t

/-- R65: the result of an overflow, by destination. -/
def overflowResult (t : Nat) (rm : RMode) (sat s : Bool) : Nat :=
  if t == 6 || sat then withSign t s (maxFinite t)
  else if hasInf t then withSign t s (overflowMag t rm s)
  else withSign t s 0x7F

/-- R65: rounds an exact value to a floating-point tag. Tininess is found after rounding (R63), and underflow is
raised only with inexact. A zero keeps its sign. -/
def roundTo (t : Nat) (rm : RMode) (sat : Bool) (x : Exact) : FRes :=
  if x.m == 0 && !x.sticky then ⟨withSign t x.s 0, 0⟩
  else
    let p := fracBits t + 1
    let qmin : Int := eminOf t - fracBits t
    let qu : Int := x.e + bitLen x.m - p
    let qe := max qu qmin
    let (q, inexact) := roundAt rm x qe
    let beyond := (q : Int) * 2 ^ (qe - qmin).toNat > (maxFinite t % 2 ^ fracBits t + 2 ^ fracBits t : Nat)
      * 2 ^ (maxFinite t / 2 ^ fracBits t - 1)
    if beyond then ⟨overflowResult t rm sat x.s, flagOF + flagNX⟩
    else
      let tiny := qu < qmin && (roundAt rm x qu).1 * 2 ^ (qu - (eminOf t - fracBits t - p)).toNat
        < 2 ^ (fracBits t + p)
      let mag := (qe - qmin).toNat * 2 ^ fracBits t + q
      ⟨withSign t x.s mag, (if inexact then flagNX else 0) + (if inexact && tiny then flagUF else 0)⟩

/-- The exact value of a finite FVal. -/
def Exact.of (s : Bool) (m : Nat) (e : Int) : Exact := ⟨s, m, e, false⟩

/-! ### NaN rules (R64) -/

/-- R64: the first NaN operand, quieted, invalid raised if any operand signals. -/
def nanResult (t : Nat) (ops : List Nat) : FRes :=
  ⟨(ops.filter (isNan t)).head?.elim (canonNan t) (quietNan t), if ops.any (isSnan t) then flagNV else 0⟩

/-- R64: an invalid operation without a NaN operand. -/
def invalidResult (t : Nat) : FRes := ⟨canonNan t, flagNV⟩

/-- R63: an engine's NaN is always the canonical one. -/
def canonical (t : Nat) (r : FRes) : Nat := if isNan t r.bits then canonNan t else r.bits

/-! ### IEEE operations, one rounding each (R70) -/

/-- The exact sum of two finite values; the sign of an exact zero follows the mode. -/
def exactAdd (rm : RMode) (s1 : Bool) (m1 : Nat) (e1 : Int) (s2 : Bool) (m2 : Nat) (e2 : Int) : Exact :=
  let e := min e1 e2
  let a : Int := (m1 * 2 ^ (e1 - e).toNat : Nat)
  let b : Int := (m2 * 2 ^ (e2 - e).toNat : Nat)
  let v := (if s1 then -a else a) + (if s2 then -b else b)
  if v == 0 then .of (if s1 == s2 then s1 else rm == .rdn) 0 0
  else .of (v < 0) v.natAbs e

/-- fp_add. -/
def fpAdd (t : Nat) (rm : RMode) (a b : Nat) : FRes :=
  match fpValue t a, fpValue t b with
  | .nan .., _ | _, .nan .. => nanResult t [a, b]
  | .inf s1, .inf s2 => if s1 == s2 then ⟨a, 0⟩ else invalidResult t
  | .inf _, _ => ⟨a, 0⟩
  | _, .inf _ => ⟨b, 0⟩
  | .fin s1 m1 e1, .fin s2 m2 e2 => roundTo t rm false (exactAdd rm s1 m1 e1 s2 m2 e2)

/-- The element with its sign inverted. -/
def fpNeg (t b : Nat) : Nat := if fpSign t b then b - signBit t else b + signBit t

/-- A subtraction a − b; the NaN operands are a and b themselves. -/
def fpSub (t : Nat) (rm : RMode) (a b : Nat) : FRes :=
  if isNan t a || isNan t b then nanResult t [a, b] else fpAdd t rm a (fpNeg t b)

/-- fp_mul. -/
def fpMul (t : Nat) (rm : RMode) (a b : Nat) : FRes :=
  match fpValue t a, fpValue t b with
  | .nan .., _ | _, .nan .. => nanResult t [a, b]
  | .inf s1, .inf s2 => ⟨withSign t (s1 != s2) (infBits t), 0⟩
  | .inf s1, .fin s2 m _ | .fin s2 m _, .inf s1 =>
    if m == 0 then invalidResult t else ⟨withSign t (s1 != s2) (infBits t), 0⟩
  | .fin s1 m1 e1, .fin s2 m2 e2 => roundTo t rm false (.of (s1 != s2) (m1 * m2) (e1 + e2))

/-- Whether a product is ∞ × 0. -/
def infTimesZero (t a b : Nat) : Bool :=
  match fpValue t a, fpValue t b with
  | .inf _, .fin _ 0 _ | .fin _ 0 _, .inf _ => true
  | _, _ => false

/-- fp_fma: a · b + c with one rounding; `ops` lists the operands in the order the NaN rule takes them. -/
def fpFma (t : Nat) (rm : RMode) (ops : List Nat) (a b c : Nat) : FRes :=
  if ops.any (isNan t) then
    let r := nanResult t ops
    if infTimesZero t a b then { r with flags := orFlags r.flags flagNV } else r
  else
    match fpValue t a, fpValue t b, fpValue t c with
    | .fin s1 m1 e1, .fin s2 m2 e2, .fin s3 m3 e3 =>
      roundTo t rm false (exactAdd rm (s1 != s2) (m1 * m2) (e1 + e2) s3 m3 e3)
    | .fin _ _ _, .fin _ _ _, .inf _ => ⟨c, 0⟩
    | .inf _, .fin _ 0 _, _ | .fin _ 0 _, .inf _, _ => invalidResult t
    | x, y, z =>
      let s := (fpSign t a) != (fpSign t b)
      match x, y, z with
      | _, _, .inf s3 => if s == s3 then ⟨c, 0⟩ else invalidResult t
      | _, _, _ => ⟨withSign t s (infBits t), 0⟩

/-- fp_div: IEEE division; a finite non-zero value over zero raises divide-by-zero. -/
def fpDiv (t : Nat) (rm : RMode) (a b : Nat) : FRes :=
  match fpValue t a, fpValue t b with
  | .nan .., _ | _, .nan .. => nanResult t [a, b]
  | .inf _, .inf _ => invalidResult t
  | .inf s1, .fin s2 _ _ => ⟨withSign t (s1 != s2) (infBits t), 0⟩
  | .fin s1 _ _, .inf s2 => ⟨withSign t (s1 != s2) 0, 0⟩
  | .fin s1 m1 e1, .fin s2 m2 e2 =>
    if m2 == 0 then (if m1 == 0 then invalidResult t else ⟨infOf t (s1 != s2), flagDZ⟩)
    else roundTo t rm false ⟨s1 != s2, m1 * 2 ^ 96 / m2, e1 - e2 - 96, m1 * 2 ^ 96 % m2 != 0⟩

/-- Integer square root by binary digits, k of them. -/
def isqrtBits (n : Nat) : Nat → Nat → Nat
  | 0, r => r
  | k + 1, r => isqrtBits n k (if (r + 2 ^ k) * (r + 2 ^ k) ≤ n then r + 2 ^ k else r)

/-- Integer square root. -/
def isqrt (n : Nat) : Nat := isqrtBits n (bitLen n / 2 + 1) 0

/-- Square root. -/
def fpSqrt (t : Nat) (rm : RMode) (a : Nat) : FRes :=
  match fpValue t a with
  | .nan .. => nanResult t [a]
  | .inf s => if s then invalidResult t else ⟨a, 0⟩
  | .fin s m e =>
    if m == 0 then ⟨a, 0⟩
    else if s then invalidResult t
    else
      let odd := (e % 2).toNat
      let n := m * 2 ^ (100 + odd)
      let r := isqrt n
      roundTo t rm false ⟨false, r, (e - odd - 100) / 2, r * r != n⟩

/-! ### Order and choice -/

/-- A key that orders the non-NaN values of a format; the two zeros are equal. -/
def orderKey (t b : Nat) : Int := if fpSign t b then -(fpMag t b : Int) else fpMag t b

/-- A key that also puts −0 below +0. -/
def pickKey (t b : Nat) : Int := if fpSign t b then -(fpMag t b : Int) - 1 else fpMag t b

/-- R81 ordered_pick: −0 < +0; when the values are equal, a is kept. -/
def orderedPick (t : Nat) (wantMax : Bool) (a b : Nat) : Nat :=
  if wantMax then (if pickKey t a < pickKey t b then b else a)
  else (if pickKey t b < pickKey t a then b else a)

/-! ### Integers (R60, R70) -/

/-- R70 sext: the low n bits of x as a signed number. -/
def sextN (n x : Nat) : Int :=
  let y := x % 2 ^ n
  if y < 2 ^ (n - 1) then (y : Int) else (y : Int) - 2 ^ n

/-- The integer an element stands for under its tag. -/
def intValue (t b : Nat) : Int := if isSignedTag t then sextN (tagBits t) b else ((b % 2 ^ tagBits t : Nat) : Int)

/-- Least value of an integer tag (R60). -/
def intMin (t : Nat) : Int := if isSignedTag t then -(2 ^ (tagBits t - 1)) else 0

/-- Greatest value of an integer tag (R60). -/
def intMax (t : Nat) : Int := if isSignedTag t then 2 ^ (tagBits t - 1) - 1 else 2 ^ tagBits t - 1

/-- The two's-complement bits of a value in w bits. -/
def intBits (w : Nat) (v : Int) : Nat := (v % (2 ^ w : Int)).toNat

/-- R70 wrap_int, as element bits. -/
def wrapInt (t : Nat) (v : Int) : Nat := intBits (tagBits t) v

/-- R70 sat_int, as element bits. -/
def satInt (t : Nat) (v : Int) : Nat := intBits (tagBits t) (max (intMin t) (min (intMax t) v))

/-! ### Conversions (R64, R65) -/

/-- R64: a NaN between floating-point formats keeps its sign, is quieted, and its fraction is cut or padded. -/
def convertNan (from_ to_ b : Nat) (sn : Bool) : FRes :=
  let s := fpSign from_ b
  let fl := if sn then flagNV else 0
  match to_ with
  | 4 | 13 => ⟨withSign to_ s 0x7F, fl⟩
  | 6 => ⟨0, flagNV⟩
  | _ =>
    let fr := if from_ == 4 || from_ == 13 then 2 ^ (fracBits from_) - 1 else fpMag from_ b % 2 ^ fracBits from_
    let fr' := fr * 2 ^ (fracBits to_ - fracBits from_) / 2 ^ (fracBits from_ - fracBits to_)
    ⟨withSign to_ s (quietNan to_ (infBits to_ + fr' % 2 ^ (fracBits to_ - 1))), fl⟩

/-- R65: a floating-point element converted to a floating-point tag. -/
def cvtFpFp (from_ to_ : Nat) (rm : RMode) (sat : Bool) (b : Nat) : FRes :=
  match fpValue from_ b with
  | .nan _ sn => convertNan from_ to_ b sn
  | .inf s =>
    if to_ == 6 then ⟨withSign to_ s (maxFinite to_), flagNV⟩
    else if sat then ⟨withSign to_ s (maxFinite to_), 0⟩
    else if hasInf to_ then ⟨withSign to_ s (infBits to_), 0⟩
    else ⟨withSign to_ s 0x7F, 0⟩
  | .fin s m e => roundTo to_ rm sat (.of s m e)

/-- An exact value rounded to an integer under a mode, with whether it is inexact. -/
def roundInt (rm : RMode) (x : Exact) : Int × Bool :=
  let (q, inexact) := roundAt rm x 0
  (if x.s then -(q : Int) else q, inexact)

/-- R65: a floating-point element converted to an integer tag; always clamped. -/
def cvtFpInt (from_ to_ : Nat) (rm : RMode) (b : Nat) : FRes :=
  match fpValue from_ b with
  | .nan .. => ⟨0, flagNV⟩
  | .inf s => ⟨intBits (tagBits to_) (if s then intMin to_ else intMax to_), flagNV⟩
  | .fin s m e =>
    let (v, inexact) := roundInt rm (.of s m e)
    if v < intMin to_ || intMax to_ < v then ⟨satInt to_ v, flagNV⟩
    else ⟨wrapInt to_ v, if inexact then flagNX else 0⟩

/-- R65: an integer element converted to a floating-point tag. -/
def cvtIntFp (from_ to_ : Nat) (rm : RMode) (sat : Bool) (b : Nat) : FRes :=
  let v := intValue from_ b
  roundTo to_ rm sat (.of (v < 0) v.natAbs 0)

/-- R65: any element converted to any tag from 1 to 12. -/
def cvtBetween (from_ to_ : Nat) (rm : RMode) (sat : Bool) (b : Nat) : FRes :=
  match isIntTag from_, isIntTag to_ with
  | false, false => cvtFpFp from_ to_ rm sat b
  | false, true => cvtFpInt from_ to_ rm b
  | true, false => cvtIntFp from_ to_ rm sat b
  | true, true => ⟨if sat then satInt to_ (intValue from_ b) else wrapInt to_ (intValue from_ b), 0⟩

/-- R127: a conversion of an instruction; to its own tag it leaves every value but a signalling NaN, which is quieted. -/
def cvtElem (from_ to_ : Nat) (rm : RMode) (sat : Bool) (b : Nat) : FRes :=
  if from_ == to_ then (if isFpTag from_ && isSnan from_ b then ⟨quietNan from_ b, flagNV⟩ else ⟨b, 0⟩)
  else cvtBetween from_ to_ rm sat b

/-! ### The engines' arithmetic (R63, R66, R69) -/

/-- fp40_add: RNE, canonical NaN, no flags. -/
def fp40Add (a b : Nat) : Nat := canonical 14 (fpAdd 14 .rne a b)

/-- An engine's addition in a tag. -/
def engAdd (t a b : Nat) : Nat := canonical t (fpAdd t .rne a b)

/-- An engine's multiplication in a tag. -/
def engMul (t a b : Nat) : Nat := canonical t (fpMul t .rne a b)

/-- An engine's fused multiplication and addition. -/
def engFma (t a b c : Nat) : Nat := canonical t (fpFma t .rne [a, b, c] a b c)

/-- An engine's division. -/
def engDiv (t a b : Nat) : Nat := canonical t (fpDiv t .rne a b)

/-- An engine's conversion between tags; R65's E4M3 NaN is 0x7F whatever the sign. -/
def engCvt (from_ to_ : Nat) (sat : Bool) (b : Nat) : Nat :=
  let r := (cvtBetween from_ to_ .rne sat b).bits
  if isFpTag to_ && isNan to_ r then canonNan to_ else r

/-- int40_add: the clamped sum and whether it clamped (R70). -/
def int40Add (a b : Int) : Int × Bool :=
  let v := a + b
  if v > 2 ^ 39 - 1 then (2 ^ 39 - 1, true) else if v < -(2 ^ 39) then (-(2 ^ 39), true) else (v, false)

/-- The exact sum of a list of finite values as one integer over a common power of two. -/
def sumExact (l : List (Bool × Nat × Int)) : Int × Int :=
  let e := l.foldl (fun acc x => min acc x.2.2) 0
  (l.foldl (fun acc x =>
    let v : Int := (x.2.1 * 2 ^ (x.2.2 - e).toNat : Nat)
    if x.1 then acc - v else acc + v) 0, e)

end Sys2Proof.Machine
end

