-- ==== Sys2Proof/Machine/State.lean ====
section
/-! DEFINITION. The state of the package as plain data: everything the spec gives the machine (INVENTORY.md, '## State',
lists each piece with its rule). A table is a list of numbered entries; a number that is not listed holds the default
that the reading operation names. -/
namespace Sys2Proof.Machine

/-- A table from numbers to values. -/
abbrev Tab (α : Type) := List (Nat × α)

/-- Memory: the listed bytes, addresses strictly rising, none 0 (log entry 1). Byte p of die d's DRAM has the key
d·2^48 + p; byte o of core g's window has the key 2^52 + g·2^22 + o (R231, R251). A frame that another package holds for a page of
this one (R252) stands under the die number 2^40 + 4·package + die. -/
abbrev Memory := List Host.Cell

/-! ### A sequencer (R14 to R26, R73 to R101, R303) -/

/-- R15. -/
inductive SeqStatus where
  | dormant | ready | blocked | ended
  deriving DecidableEq, Repr

/-- A loop level: source count n, stage count s and kernel iteration t. -/
structure LoopLevel where
  n : Nat
  s : Nat
  t : Nat
  deriving DecidableEq, Repr

/-- A fibre or stream register (R96, R97). `ahead` holds the elements that have been read before their advance, by
position: 'Element reads may perform at any time after the open and in any order' (R97). -/
structure Stream where
  isOpen : Bool := false
  sext : Bool := false
  va : Bool := false
  width : Nat := 0
  stride : Int := 0
  count : Nat := 0
  base : Word := 0
  pos : Nat := 0
  ahead : List (Nat × Nat) := []
  deriving DecidableEq, Repr

/-- A ring of the scratchpad allocator (R82): base, size, head, used, and outstanding (offset, cost) pairs. -/
structure Ring where
  rb : Nat := 0
  rs : Nat := 0
  h : Nat := 0
  u : Nat := 0
  fifo : List (Nat × Nat) := []
  deriving DecidableEq, Repr

/-- The allocator of R82. -/
structure Alloc where
  bb : Nat := 0
  bl : Nat := 0
  bp : Nat := 0
  rings : Vector Ring 4 := Vector.replicate 4 {}
  deriving DecidableEq, Repr

/-- The part of a sequencer that context save keeps (R303, R304). -/
structure Regs where
  pc : Word := 0
  x : Vector Word 32 := Vector.replicate 32 0
  f : Vector Word32 32 := Vector.replicate 32 0
  fflags : BitVec 5 := 0
  frm : BitVec 3 := 0
  ttvec : Word := 0
  tepc : Word := 0
  tcause : BitVec 8 := 0
  tval : Word := 0
  tscratch : Word := 0
  act : Bool := false
  vrb : Fin 16 := 0
  prb : Fin 8 := 0
  loops : List LoopLevel := []
  xfull : Vector Bool 32 := Vector.replicate 32 true
  vctx : Bool := false
  v : Vector VBits 32 := Vector.replicate 32 0
  vtag : Vector Nat 32 := Vector.replicate 32 0
  vfull : Vector Bool 32 := Vector.replicate 32 true
  p : Vector PBits 16 := Vector.replicate 16 0
  sh : Vector Word32 32 := Vector.replicate 32 0
  ly : Vector (BitVec 128) 16 := Vector.replicate 16 0
  fb : Vector Stream 8 := Vector.replicate 8 {}
  sm : Vector Stream 8 := Vector.replicate 8 {}
  alloc : Alloc := {}
  armed : Vector Bool 16 := Vector.replicate 16 false
  aphase : Vector Bool 16 := Vector.replicate 16 false
  instret : Nat := 0
  deriving DecidableEq, Repr

/-- Where an accepted access is decided (R234): a DRAM byte of a die of this package, a byte of a core's window, a
byte of another package (its package, die and the address sent), a pool's doorbell with the identifier of the store that
reaches it (R198), or an absent owner (R253). -/
inductive Loc where
  | dram (die pa : Nat)
  | win (g off : Nat)
  | remote (pkg die : Nat) (addr : Word)
  | doorbell (pool asid : Nat)
  | absent
  deriving DecidableEq, Repr

/-- One element of an access: destination index, address, bytes, operand or loaded data, place and whether it has
performed. `nib` is 0 for whole bytes, 1 for a low and 2 for a high nibble (R107). `sent` numbers the request for it that has gone to
another package (R277). -/
structure Elem where
  idx : Nat := 0
  addr : Word := 0
  n : Nat := 0
  data : Nat := 0
  nib : Nat := 0
  loc : Loc := .absent
  done : Bool := false
  sent : Option Nat := none
  deriving DecidableEq, Repr

/-- Which AMO an entry performs. -/
inductive AmoKind where
  | int (op : AmoOp) (w : AmoWidth)
  | fp (op : FAmoOp)
  deriving DecidableEq, Repr

/-- The configuration of a tile register (R95): rows is 1 to 128. -/
structure TileCfg where
  tag : Nat := 0
  rows : Nat := 1
  cols : Nat := 0
  deriving DecidableEq, Repr

/-- What an entry of a sequencer's load or store queue does (R235); `region` tells an append issued in the open region (R264). -/
inductive EntryOp where
  | load (kind : LoadKind) (rd : XReg)
  | store
  | lr (w : AmoWidth) (rd : XReg)
  | sc (w : AmoWidth) (rd : XReg)
  | amo (k : AmoKind) (rd : XReg)
  | stream (rd : XReg) (fibre sext : Bool) (k : Fin 8) (pos : Nat)
  | vload (vd : Fin 32) (tag : Nat) (marksEmpty bcast : Bool) (actMask : PBits)
  | vstore
  | hprobe (vd : Fin 32) (base lg : Nat)
  | rowRead (vd : Fin 32) (park : Bool) (mask : PBits)
  | rowWrite (park : Option Nat) (mask : Nat)
  | binHdr (hdr : Word) (recs : List (Nat × Nat))
  | binAdd (va region : Bool) (base : Word) (cap : Nat) (hdr : Word)
  | mboxSend
  | mboxRecv (rd : XReg) (mb : Fin 8)
  | token (set : Bool) (slot : Nat)
  | publish (q : Fin 16) (first n : Nat) (src : Option Nat) (sh : Vector Word32 32) (ly : Vector (BitVec 128) 16)
      (tcfg : Vector TileCfg 8)
  | arrive (k : Fin 16)
  | marker (sc : Scope) (kind : MarkKind)
  deriving DecidableEq, Repr

/-- An entry: its operation, whether its addresses are virtual (mode 1), its elements, whether every element has
performed, whether it is acknowledged (R250, R255), and whether it counts in oabs already (R253). -/
structure Entry where
  op : EntryOp
  va : Bool := false
  elems : List Elem := []
  performed : Bool := false
  acked : Bool := true
  dropped : Bool := false
  deriving DecidableEq, Repr

/-- An access whose owner has not yet accepted it (R250), with the markers placed before and after it (R8). -/
structure Pending where
  pre : List Entry
  entry : Entry
  post : List Entry
  deriving DecidableEq, Repr

/-- A tail checkpoint (R264). -/
structure TailCheckpoint where
  va : Bool
  hdr : Word
  tails : List Nat
  deriving DecidableEq, Repr

/-- A command queue at a region's mark (R266, R303): its ring base and slots, its tail, fetch point, last assigned number and
completion word. -/
structure QueueMark where
  base : Nat
  n : Nat
  tail : Nat
  fetch : Nat
  last : Nat
  comp : Nat
  deriving DecidableEq, Repr

/-- An open idempotent region (R98, R266): the image taken at the marker, the queues then, whether the sequencer held the
lease, the queues it has published on since, the tail checkpoints, and whether index-engine or sparse work of the region was still
going on when a pre-emption had stopped the sequencer (R268). -/
structure Region where
  image : Regs
  queues : List QueueMark := []
  lease : Bool := false
  used : List Nat := []
  tails : List TailCheckpoint := []
  doomed : Bool := false
  deriving DecidableEq, Repr

/-- A sequencer. `word` is the word it issued last, which Derdengo serves after a FORMAT-EMULATE trap (R62); `leased` tells that a
pre-emption has taken its lease, and whether that was an implicit one (R226). -/
structure Seq where
  status : SeqStatus := .dormant
  r : Regs := {}
  vbusy : Vector Bool 32 := Vector.replicate 32 false
  fbusy : Vector Bool 32 := Vector.replicate 32 false
  queue : List Entry := []
  pending : Option Pending := none
  resv : Option Loc := none
  region : Option Region := none
  handler : Bool := false
  faulted : Bool := false
  exitAddr : Word := 0
  asid : Nat := 0
  rwcount : Nat := 0
  lastIssue : Nat := 0
  emul : Option Word := none
  word : Nat := 0
  stopReq : Bool := false
  stopped : Bool := false
  leased : Option Bool := none
  halted : Bool := false
  breakpoints : Vector Breakpoint 4 := Vector.replicate 4 ⟨none, 0, 0, false, false, false⟩
  deriving DecidableEq, Repr

/-! ### A core (R14, R82 to R95, R203, R228, R231 to R246) -/

/-- An accumulator's tag, sticky bit and row bound (R57, R228). -/
structure AccCfg where
  tag : Nat := 14
  sat : Bool := false
  bound : Nat := 0
  deriving DecidableEq, Repr

/-- A status of R148 with its detail and aux. -/
structure Status where
  code : Nat := 0
  detail : Nat := 0
  aux : Nat := 0
  deriving DecidableEq, Repr

/-- R224: what a command needs of the shared array. -/
inductive ArrayUse where
  | array | edge | neither
  deriving DecidableEq, Repr

/-- What a `copy` with a handler still holds back while a receiver's handler queue is full (R244): the last line's writes, each with its
nibble as an element has it, the whole payload, and the handler. -/
structure HeldLine where
  writes : List (Loc × Nat × List Byte)
  payload : List (Loc × Nat)
  h : Nat
  deriving DecidableEq, Repr

/-- A command from its publication to its completion (R143, R144): its number, the byte offset of its ring slot, whether
`chain.tail` published it (R194), the publishing sequencer and its identifier, the publication-time shape registers, layout records
and tile configurations, its place in the core's order of publication (R150), the word the engine fetched, whether it fired, whether
it has read its operands (R239), its status, the clusters that received its remote writes and whether its destination was remote
when it fired (R146), its class when it fired (R224, R225), the stamp of the compilation a fired `smma` waits for and the program it
then holds (R159, R261), the bytes of its side records as they stood at its publication (R151), and what it still holds back
(R244). -/
structure Cmd where
  num : Nat
  slot : Nat
  byTail : Bool := false
  by_ : Nat
  asid : Nat
  sh : Vector Word32 32
  ly : Vector (BitVec 128) 16
  tcfg : Vector TileCfg 8
  word : Option (BitVec 256) := none
  fired : Bool := false
  read : Bool := false
  st : Option Status := none
  clusters : List Nat := []
  remote : Bool := false
  use : ArrayUse := .neither
  stamp : Nat := 0
  patWait : Option Nat := none
  program : Option (List (List Nat)) := none
  side : List Host.Cell := []
  held : Option HeldLine := none
  deriving DecidableEq, Repr

/-- A command queue (R90): its binding (R206), tail, last assigned number, completion word, ring base in bytes,
and the commands published and not completed, oldest first. -/
structure Queue where
  kind : Nat := 0
  n : Nat := 0
  base : Nat := 0
  tail : Nat := 0
  last : Nat := 0
  comp : Nat := 0
  cmds : List Cmd := []
  deriving DecidableEq, Repr

/-- A claim on a mailbox message: the sequencer that claims (R88). -/
structure Mailbox where
  msgs : List Word := []
  claims : List Nat := []
  bad : List Nat := []
  deriving DecidableEq, Repr

/-- A ready flag's record (R242); `pending` is set between what raises it and the rise (R243), and `crossed` when that is
the count, so that the rise sets ready. -/
structure ReadyFlag where
  base : Nat := 0
  len : Nat := 0
  expected : Nat := 0
  arrived : Nat := 0
  ready : Bool := false
  pending : Bool := false
  crossed : Bool := false
  deriving DecidableEq, Repr

/-- A waiting handler arrival (R244): handler offset, payload offset and length. -/
structure Arrival where
  h : Nat
  off : Nat
  len : Nat
  deriving DecidableEq, Repr

/-- An access-table entry of the plane (R206). -/
structure PlaneEntry where
  valid : Bool := false
  window : Nat := 0
  wr : Bool := false
  scope : Nat := 0
  length : Nat := 0
  base : Nat := 0
  deriving DecidableEq, Repr

/-- An entry of a tile table (R181). -/
structure TtabEntry where
  raddr : Word
  op : Nat
  rtok : Nat
  flag : Nat
  len : Nat
  lbase : Nat
  deriving DecidableEq, Repr

/-- An armed tile table (R181): its command's queue and number, the publishing sequencer and its identifier, the entries
that have not fired, the first failure, the units not written so far, and what the first failure reports of its address. -/
structure TtabArm where
  q : Nat
  num : Nat
  by_ : Nat
  asid : Nat
  left : List TtabEntry
  code : Nat := 0
  missed : Nat := 0
  addr : Nat := 0
  deriving DecidableEq, Repr

/-- The profiling unit of a core (R330): ring length, snapshots written since arming, and exits dropped. -/
structure Profile where
  n : Nat
  base : Nat
  snap : Nat := 0
  drop : Nat := 0
  busyTo : Nat := 0
  deriving DecidableEq, Repr

/-- A line of the scalar data cache: its DRAM line number and its 64 bytes as filled (R234). -/
structure CacheLine where
  line : Nat
  bytes : List Byte
  deriving DecidableEq, Repr

/-- A line of the instruction cache: identifier, virtual line number and its 64 bytes as filled (R14, R27). -/
structure CodeLine where
  asid : Nat
  line : Nat
  bytes : List Byte
  deriving DecidableEq, Repr

/-- A translation held in an L1 or memory-side TLB (R249, R251, R254): identifier, page address, page size and the
access count of an acnt page. -/
structure TlbEntry where
  asid : Nat
  page : Nat
  size : Nat
  count : Nat := 0
  deriving DecidableEq, Repr

/-- A grammar context's branch (R189, R299, R300): status 0 absent, 1 live, 2 dead; its stack from the bottom up. -/
structure Branch where
  status : Nat := 0
  state : Nat := 0
  stack : List Nat := []
  deriving DecidableEq, Repr

/-- A core. -/
structure Core where
  seqs : Tab Seq := []
  node : Option (Nat × Nat) := none
  reservedFor : Option (Nat × Nat) := none
  lastAsid : Option Nat := none
  x0 : Nat := 0
  y0 : Nat := 0
  lw : Nat := 0
  lh : Nat := 0
  entry : Word := 0
  launchid : Nat := 0
  asid : Nat := 0
  seqCount : Nat := 0
  scratch : Nat := 0
  tiles : Nat := 0
  accs : Nat := 0
  tcfg : Vector TileCfg 8 := Vector.replicate 8 {}
  acc : Vector AccCfg 4 := Vector.replicate 4 {}
  park : Tab Nat := []
  queues : Vector Queue 16 := Vector.replicate 16 {}
  published : Nat := 0
  mbox : Vector Mailbox 8 := Vector.replicate 8 {}
  flags : Tab ReadyFlag := []
  hen : BitVec 6 := 0x3F
  handlers : List Arrival := []
  plane : List Byte := []
  access : List PlaneEntry := []
  arms : List TtabArm := []
  dcache : List CacheLine := []
  icache : List CodeLine := []
  l1tlb : List TlbEntry := []
  loss : Tab Nat := []
  prof : Option Profile := none
  exitAddr : Word := 0
  deriving DecidableEq, Repr

/-! ### The package -/

/-- A barrier of a launch (R85). -/
structure Barrier where
  expect : Nat := 0
  count : Nat := 0
  phase : Bool := false
  deriving DecidableEq, Repr

/-- A slot of a token store (R145). -/
structure Token where
  present : Bool := false
  error : Bool := false
  deriving DecidableEq, Repr

/-- The state of a node the scheduler has taken up (R199). -/
inductive NodeState where
  | waiting | ready | running | preempted
  deriving DecidableEq, Repr

/-- A sequencer that ended faulted (R24, R205): when, core, sequencer, cause, address and value. -/
structure FaultRec where
  time : Nat
  g : Nat
  k : Nat
  cause : Nat
  fpc : Word
  tval : Word
  deriving DecidableEq, Repr

/-- A bound grammar context (R189, R296 to R300). -/
structure Grammar where
  g : Nat
  k : Nat
  spl : Nat
  gid : Nat
  tab : Nat
  branches : Tab Branch := []
  deriving DecidableEq, Repr

/-- What a save area holds of one sequencer (R303, R304): its registers, region, lease and whether that was an implicit one
(R225), and grammar contexts. -/
structure Save where
  g : Nat
  k : Nat
  seq : Seq
  lease : Bool
  implicit : Bool := false
  grammars : Tab Grammar := []
  deriving DecidableEq, Repr

/-- A recorded event (R326): 0 a value returned, 1 a write by another master, 2 a served `mbox.recv`, 3 an order of lease (n = 0, or 3
for an implicit request), token (n = 1) or Ride (n = 2), 4 a handler start, 5 a command that reads outside the core, with its status;
the receiving member and its `rwcount`, the address, its bytes and the data. -/
structure RecEvent where
  kind : Nat
  k : Nat
  count : Nat
  addr : Nat
  n : Nat
  data : Nat
  deriving DecidableEq, Repr

/-- The recording of one interval (R326): the core's records, its bytes, what the save areas of its members would hold beside their
registers (the lease and their grammar contexts), and the events; `whole` until abandoned. -/
structure Recording where
  interval : Nat
  core : Core
  bytes : List Host.Cell
  lease : Option (Nat × Bool) := none
  grammars : Tab Grammar := []
  events : List RecEvent := []
  whole : Bool := true
  deriving DecidableEq, Repr

/-- The group of one core (R325 to R328): its interval, the cycle at which its end was requested, the recordings, and
of a stop the events still to feed, how many were fed, the interval, member and count at which it halts, and the interval,
member, count and event of a divergence; `frozen` once a precise stop has been reached, until RESUME. -/
structure RecGroup where
  interval : Nat := 0
  ending : Option Nat := none
  recs : List Recording := []
  feed : Option (List RecEvent) := none
  fed : Nat := 0
  target : Option (Nat × Nat × Nat) := none
  diverged : Option (Nat × Nat × Nat × Nat) := none
  frozen : Bool := false
  deriving DecidableEq, Repr

/-- What the spill storage holds of one core of a pre-empted node (R216, R310, R311): the core's records, the
bytes of its scratchpad range, tiles and accumulators, and its group's recordings (R326). -/
structure Spill where
  g : Nat
  core : Core
  bytes : List Host.Cell
  group : RecGroup
  deriving DecidableEq, Repr

/-- A node taken up by the scheduler (R200 to R218). `image` holds the lines of its plane image as they stood then
(R208); `inTime` that it stopped entirely within W cycles of the request (R309). -/
structure Node where
  pool : Nat
  idx : Nat
  st : NodeState := .waiting
  preds : List Nat := []
  entry : Word := 0
  arg : Word := 0
  plane : Word := 0
  image : List (Option (List Byte)) := []
  done : Word := 0
  launchid : Nat := 0
  power : Nat := 0
  scratch : Nat := 0
  lw : Nat := 0
  lh : Nat := 0
  seq : Nat := 1
  vctx : Nat := 0
  tiles : Nat := 0
  accs : Nat := 0
  cls : Nat := 0
  tol : Bool := false
  asid : Nat := 0
  rank : Nat := 0
  eff : Nat := 0
  passes : Nat := 0
  anchor : Option Nat := none
  anchorRank : Nat := 0
  origin : Option Nat := none
  placed : Bool := false
  dispatched : Bool := false
  reserve : Option Nat := none
  preemptFor : Option (Nat × Nat) := none
  preemptAt : Option Nat := none
  inTime : Bool := false
  teardown : Bool := false
  npre : Nat := 0
  oabs : Nat := 0
  tstart : Nat := 0
  faults : List FaultRec := []
  exitAddr : Word := 0
  barriers : Vector Barrier 16 := Vector.replicate 16 {}
  saves : List Save := []
  spill : List Spill := []
  tokens : Tab (Tab Token) := []
  zeros : List (Nat × Nat) := []
  prof : Option Nat := none
  ivl : Option Nat := none
  recording : Bool := false
  deriving DecidableEq, Repr

/-- A sparse tile in a cluster's Coppice (R257 to R261): its identity, whether it is held as a dense mark, the number
of entries it takes, whether it is compiling, the ranges of memory lines it is watched over, the stamps of its last use
and of its making, the die (4·package + die) that holds its watch, and its structure: for each row the columns of its non-zeros. -/
structure CopTile where
  asid : Nat
  base : Word
  digest : Nat
  dense : Bool
  entries : Nat
  compiling : Bool
  watch : List (Nat × Nat)
  used : Nat
  born : Nat
  die : Nat
  rows : List (List Nat)
  deriving DecidableEq, Repr

/-- A cluster (R89, R100, R145, R189, R225 to R227, R258). `termCycles` and `rideCycles` count the cycles of array or edge
time in the lease's term (R225), and of array time since the Ride token was taken (R227); `rideDone` tells that the token is to be freed
once the running command completes. -/
structure Cluster where
  tokens : Tab Token := []
  coppice : List CopTile := []
  stamp : Nat := 0
  grammars : Tab Grammar := []
  ride : Bool := false
  rideCycles : Nat := 0
  rideDone : Bool := false
  holder : Option (Nat × Nat) := none
  implicitLease : Bool := false
  giveUp : Bool := false
  termCmds : Nat := 0
  termCycles : Nat := 0
  waiters : List (Nat × Nat) := []
  implicits : List (Nat × Nat) := []
  lastCore : Nat := 3
  lastServed : Vector Nat 4 := Vector.replicate 4 7
  deriving DecidableEq, Repr

/-- A free Ride token (R227): the stop at which it stood at a cycle, and the stop that freed it. -/
structure RideToken where
  stop : Nat := 0
  since : Nat := 0
  freedBy : Option Nat := none
  deriving DecidableEq, Repr

/-- A compute die: translation roots (R251), memory-side TLB, whether it is held in reset or powered down, its Ride
budget D (R343), free Ride tokens and how many of them leave at the next stops they reach (R227), and the access samples of
R254, with the counts of the entries that have left the TLB, which Derdengo has read. -/
structure Die where
  roots : Tab Nat := []
  tlb : List TlbEntry := []
  absent : Bool := false
  budget : Nat := 64
  ride : List RideToken := [{}]
  rideOver : Nat := 0
  sampleN : Nat := 256
  sampleCount : Nat := 0
  ringBase : Nat := 0
  ringSlots : Nat := 0
  ringHead : Nat := 0
  ringUnread : Nat := 0
  sampleDrops : Nat := 0
  counts : List TlbEntry := []
  deriving DecidableEq, Repr

/-- What a message to another package is. -/
inductive SentKind where
  | load | lr | sc | store | nibble | amo | mbox | token | engine | signal | reply | coll | forward | link | debug
  deriving DecidableEq, Repr

/-- A message of the Weald that leaves this package. -/
structure Sent where
  pkg : Nat
  die : Nat
  addr : Word
  kind : SentKind
  data : List Byte
  deriving DecidableEq, Repr

/-- A request that has been sent and is not acknowledged (R255, R277): its number in the outbox, and the core for which it
was sent, with the queue and number of the command that made it. -/
structure Unacked where
  n : Nat
  g : Nat
  cmd : Option (Nat × Nat) := none
  deriving DecidableEq, Repr

/-- A message that leaves once what the same command sent before it is acknowledged (R168, R287, R288): the core, the command,
and the number of the first message that came after the writes it waits for. -/
structure Awaiting where
  msg : Sent
  g : Nat
  cmd : Option (Nat × Nat) := none
  before : Nat
  deriving DecidableEq, Repr

/-- A flit that has not been acknowledged by its link, with the number of the message it is of, unless it is passed on (R274, R277). -/
abbrev Flit := Option Nat × BitVec 1024

/-- A registered launch pool (R197, R198): its base, capacity, identifier and doorbell page, whether it is being torn
down (R218), and the status with which each record last retired (R201). -/
structure Pool where
  base : Word := 0
  cap : Nat := 0
  asid : Nat := 0
  page : Word := 0
  closing : Bool := false
  retired : Tab Nat := []
  deriving DecidableEq, Repr

/-! ### The Weald die (R173 to R181, R273 to R288) -/

/-- A link (R275, R276): the entry of the live link table, the next lseq expected, the replays of one flit that have followed
one another, the next lseq to send, the replay buffer, and how many of its flits have been put on the wire since the last replay. -/
structure Link where
  state : Nat := 0
  peer : Nat := 0
  plink : Nat := 0
  expect : Nat := 0
  replays : Nat := 0
  next : Nat := 0
  buffer : List Flit := []
  wired : Nat := 0
  deriving DecidableEq, Repr

/-- A chunk of a collective operation at this member (R176, R281): its state, tree and overflow mark, the node value
formed here, how many children's values have arrived for it, and what is still to be written of its result, which may reach its
places element by element (R272). -/
structure Chunk where
  st : Nat := 0
  tree : Nat := 0
  ovf : Bool := false
  val : List (BitVec 32) := []
  got : Nat := 0
  held : List (Loc × List Byte) := []
  deriving DecidableEq, Repr

/-- An operation in flight (R175): its core, queue and command number, whether it is matched, its chunks, and the
units it did not write (R253). -/
structure CollOp where
  g : Nat
  q : Nat
  num : Nat
  matched : Bool := false
  chunks : List Chunk := []
  missed : Nat := 0
  deriving DecidableEq, Repr

/-- How far a set-up has come (R174, R278, R286). -/
inductive CollStage where
  | published | matched | agreed | ready
  deriving DecidableEq, Repr

/-- A collective identifier at this member (R174): its set-up's core, queue and command number, the set-up's fields, the
number of its epoch and whether that is complete, so that its edge set stands (R278), the edge set, the trees as lists of
member pairs, the number of trees at the set-up, the bytes reserved in the Clearing, what the slots of each tree hold there
(R282), and the operation in flight. -/
structure Coll where
  g : Nat
  q : Nat
  num : Nat
  base : Nat
  lg : Nat
  tmax : Nat
  cs : Nat
  stage : CollStage := .published
  epoch : Nat := 0
  fresh : Bool := false
  edges : List LinkEdge := []
  trees : List (List (Nat × Nat)) := []
  most : Nat := 0
  reserved : Nat := 0
  slots : Tab (List (List (BitVec 32))) := []
  op : Option CollOp := none
  deriving DecidableEq, Repr

/-- A reservation that a sequencer of another package holds here (R8): package, sequencer and place. -/
structure RemoteResv where
  pkg : Nat
  who : Nat
  loc : Loc
  deriving DecidableEq, Repr

/-! ### The scheduler, the host, debug and test (R211, R214, R309, R320 to R328, R336 to R346) -/

/-- The scheduler's own counts (R211, R214, R309): the next rank and anchor order, the limits A and W, and when a round
is due. -/
structure Sched where
  nextRank : Nat := 0
  nextAnchor : Nat := 0
  a : Nat := 64
  w : Nat := 2 ^ 28
  due : Bool := false
  last : Nat := 0
  deriving DecidableEq, Repr

/-- The host's side (R335 to R338, R341): the BAR0 fields, the ring entries not yet served, the completed entries, the
vectors raised, the live identifiers, the regions granted to the host in window order, the power limit, the writes
dropped, a teardown being served with its count, and whether the cold plate has passed its threshold (R343). -/
structure HostSide where
  bfail : Nat := 0
  fatal : Bool := false
  attest : Bool := false
  booted : Bool := false
  rbase : Nat := 0
  rlog : Nat := 0
  rtail : Nat := 0
  rhead : Nat := 0
  entries : List (BitVec 512) := []
  served : List (BitVec 512) := []
  vectors : List Nat := []
  asids : List Nat := []
  grants : List Nat := []
  limit : Nat := 3000
  dropped : Nat := 0
  reads : List (Option (List Byte)) := []
  teardown : Option Nat := none
  hot : Bool := false
  limits : List (Nat × List Nat) := [(3000, [64, 64, 64, 64])]
  master : Nat := 0
  deriving DecidableEq, Repr

/-- A reply of the debug fabric (R321, R328). -/
inductive DebugReply where
  | ok | refused | absent
  | values (l : List Nat)
  | precise
  | approximate (interval member count event : Nat)
  deriving DecidableEq, Repr

/-- A request of the debug fabric to this package (R321). -/
inductive DebugReq where
  | halt (t : DebugTarget)
  | resume (t : DebugTarget)
  | read (t : DebugTarget) (w : DebugPlace)
  | write (t : DebugTarget) (w : DebugPlace) (v : Nat) (tag : Option Nat)
  | arm (t : DebugTarget) (slot : Nat) (bp : Breakpoint)
  | stop (t : DebugTarget) (interval count : Nat)
  deriving DecidableEq, Repr

/-- IEEE 1149.1 instructions (R346). -/
inductive JtagInstr where
  | bypass | idcode | sample | extest
  deriving DecidableEq, Repr

/-- The test port: its instruction, the boundary cells with their pins, the pins it drives, the data register selected, whose first bit
stands next to TDO, and the bits last shifted out. -/
structure Jtag where
  ir : JtagInstr := .idcode
  cells : List (Pin × Bool) := []
  driven : List (Pin × Bool) := []
  dr : List Bool := []
  tdo : List Bool := []
  deriving DecidableEq, Repr

/-- An algorithm that SPDM uses here (R342). -/
inductive SpdmAlgorithm where
  | rsassa4096 | sha512
  deriving DecidableEq, Repr

/-- An SPDM response (R342): its code, the algorithms it selects, how many measurements there are where it tells that, the measurements
it gives by index, and its other bytes. -/
structure SpdmResponse where
  code : Nat
  algorithms : List SpdmAlgorithm := []
  count : Option Nat := none
  measurements : List (Nat × BitVec 512) := []
  body : BitVec 512
  deriving DecidableEq, Repr

/-- The state of the package. `unacked` lists the requests to other packages that are not acknowledged, and `awaiting` what an
engine sends once those before it are (R168, R277, R287, R288); `txNext` is the first message of the outbox that has not been made
into flits, and `backlog` the flits that have not yet been put on a link (R274, R277). -/
structure State where
  cycle : Nat
  turn : Nat
  cur : Nat × Nat
  agenda : List Instr
  free : Nat
  pkgid : Nat
  mem : Memory
  poison : List Nat
  owners : Tab Nat
  cores : Tab Core
  clusters : Tab Cluster
  dies : Tab Die
  nodes : List Node
  regions : Tab (List Nat)
  pools : Tab Pool
  doorbells : List (Nat × Nat × Word)
  peers : List Nat
  outbox : List Sent
  unacked : List Unacked
  awaiting : List Awaiting
  txNext : Nat
  backlog : List Flit
  remoteSignals : List (Nat × Nat × Bool)
  links : Tab Link
  inbox : List (BitVec 1024)
  colls : Tab Coll
  remoteDone : List (Nat × Nat)
  remoteResv : List RemoteResv
  sched : Sched
  host : HostSide
  halted : Bool
  dump : List Byte
  corrected : Tab Nat
  uncorrected : Tab Nat
  gated : List Nat
  groups : Tab RecGroup
  debugOut : List DebugReply
  debugIn : List DebugReq
  jtag : Jtag
  held : Bool
  spdm : List SpdmResponse
  areas : Tab (List Byte)
  side : List Host.Cell
  upset : Bool
  deriving DecidableEq, Repr

/-- Why the machine stops. -/
inductive Fault where
  /-- Raised by `step` alone, when the fetched word is one the code-page scanner refuses. Safe: the spec promises that
  no such word is on an executable page (R5, R42), and gives it no effect. -/
  | undecodable
  deriving DecidableEq, Repr

/-- Why the machine has no next state to offer. -/
inductive Refusal where
  /-- Raised by an arm of `exec` whose instruction has no meaning yet. Safe. -/
  | notModelled (mnemonic : String)
  deriving DecidableEq, Repr

/-- The package right after reset. -/
def State.reset : State where
  cycle := 0
  turn := 0
  cur := (0, 0)
  agenda := []
  free := 0
  pkgid := 0
  mem := []
  poison := []
  owners := []
  cores := []
  clusters := []
  dies := []
  nodes := []
  regions := []
  pools := []
  doorbells := []
  peers := []
  outbox := []
  unacked := []
  awaiting := []
  txNext := 0
  backlog := []
  remoteSignals := []
  links := []
  inbox := []
  colls := []
  remoteDone := []
  remoteResv := []
  sched := {}
  host := {}
  halted := false
  dump := List.replicate 64 0
  corrected := []
  uncorrected := []
  gated := []
  groups := []
  debugOut := []
  debugIn := []
  jtag := {}
  held := true
  spdm := []
  areas := []
  side := []
  upset := false

end Sys2Proof.Machine
end

