-- ==== Sys2Proof/Machine/Ops.lean ====
section
/-! DEFINITION. The named operations over tables, memory, registers and sequencers, taking a trap (R23, R24), the return
from one (R25) and the retirement of an instruction (R9, R22, R72). Everything else reads and writes through these. -/
namespace Sys2Proof.Machine

/-! ### Tables -/

/-- The entry of number n, or the default. -/
def tabGet {α : Type} (d : α) : Tab α → Nat → α
  | [], _ => d
  | (k, v) :: t, n => if k = n then v else tabGet d t n

/-- Sets the entry of number n, keeping the numbers rising. -/
def tabPut {α : Type} : Tab α → Nat → α → Tab α
  | [], n, x => [(n, x)]
  | (k, v) :: t, n, x =>
    if n < k then (n, x) :: (k, v) :: t else if n = k then (n, x) :: t else (k, v) :: tabPut t n x

/-- Removes the entry of number n. -/
def tabDel {α : Type} (t : Tab α) (n : Nat) : Tab α := t.filter fun e => e.1 != n

/-- Whether a number is listed. -/
def tabHas {α : Type} (t : Tab α) (n : Nat) : Bool := t.any fun e => e.1 == n

/-! ### Bytes and little-endian values (R4) -/

/-- The value of bytes, lowest first. -/
def leNat : List Byte → Nat
  | [] => 0
  | b :: t => b.toNat + 256 * leNat t

/-- The n low bytes of a value, lowest first. -/
def leBytes : Nat → Nat → List Byte
  | 0, _ => []
  | n + 1, v => BitVec.ofNat 8 v :: leBytes n (v / 256)

/-- Bits hi down to lo of a natural number (R70). -/
def bitsOf (x hi lo : Nat) : Nat := x / 2 ^ lo % 2 ^ (hi + 1 - lo)

/-- One bit of a natural number. -/
def bitOf (x i : Nat) : Bool := x / 2 ^ i % 2 == 1

/-- The least multiple of m not below x (R70). -/
def roundUp (x m : Nat) : Nat := (x + m - 1) / m * m

/-- A Word read as a signed number. -/
def toSigned (w : Word) : Int := w.toInt

/-- A Word from a signed number, modulo 2^64. -/
def ofSigned (i : Int) : Word := BitVec.ofInt 64 i

/-! ### Memory -/

/-- A byte: what an unlisted address reads as is 0 (R341, log entry 1). -/
def memGet : Memory → Nat → Byte
  | [], _ => 0
  | (k, v) :: t, a => if k = a then v else if a < k then 0 else memGet t a

/-- Writes a byte, keeping the canonical form. -/
def memPut : Memory → Nat → Byte → Memory
  | [], a, b => if b = 0 then [] else [(a, b)]
  | (k, v) :: t, a, b =>
    if a < k then (if b = 0 then (k, v) :: t else (a, b) :: (k, v) :: t)
    else if a = k then (if b = 0 then t else (a, b) :: t)
    else (k, v) :: memPut t a b

/-- Addresses above the given one, strictly rising, and no listed byte 0. -/
def Memory.wfFrom : Nat → Memory → Bool
  | _, [] => true
  | lo, (k, v) :: t => decide (lo ≤ k) && decide (v ≠ 0) && Memory.wfFrom (k + 1) t

/-- The canonical form. -/
def Memory.wf (m : Memory) : Bool := Memory.wfFrom 0 m

/-- n bytes from an address up. -/
def memBytes (m : Memory) (a : Nat) : Nat → List Byte
  | 0 => []
  | n + 1 => memGet m a :: memBytes m (a + 1) n

/-- Writes bytes from an address up. -/
def memSet (m : Memory) : Nat → List Byte → Memory
  | _, [] => m
  | a, b :: t => memSet (memPut m a b) (a + 1) t

/-- The n-byte little-endian value at an address. -/
def memNat (m : Memory) (a n : Nat) : Nat := leNat (memBytes m a n)

/-! ### Geometry (R347, R226, R231, R251) -/

/-- Cores of the package. -/
def nCores : Nat := 1024

/-- A core's die. -/
def dieOfCore (g : Nat) : Nat := g % 32 / 16 + 2 * (g / 32 / 16)

/-- A core's cluster. -/
def clusterOfCore (g : Nat) : Nat := 64 * dieOfCore g + 8 * (g / 32 % 16 / 2) + g % 32 % 16 / 2

/-- A core's index within its cluster. -/
def coreIndex (g : Nat) : Nat := g % 2 + 2 * (g / 32 % 2)

/-- The core of index i in a cluster. -/
def coreOfCluster (cl i : Nat) : Nat :=
  let d := cl / 64
  let y := 16 * (d / 2) + 2 * (cl % 64 / 8) + i / 2
  let x := 16 * (d % 2) + 2 * (cl % 8) + i % 2
  32 * y + x

/-- A core from its die and its place within the die (R12). -/
def coreInDie (die y x : Nat) : Nat := 32 * (16 * (die / 2) + y) + 16 * (die % 2) + x

/-- The memory key of a DRAM byte. -/
def dramKey (die pa : Nat) : Nat := die * 2 ^ 48 + pa

/-- The memory key of a core window's byte. -/
def winKey (g off : Nat) : Nat := 2 ^ 52 + g * 2 ^ 22 + off

/-! ### Cores and sequencers -/

/-- Core g. -/
def State.core (s : State) (g : Nat) : Core := tabGet {} s.cores g

/-- Replaces core g. -/
def State.setCore (s : State) (g : Nat) (c : Core) : State := { s with cores := tabPut s.cores g c }

/-- Changes core g. -/
def State.modCore (s : State) (g : Nat) (f : Core → Core) : State := s.setCore g (f (s.core g))

/-- Sequencer k of a core. -/
def Core.sq (c : Core) (k : Nat) : Seq := tabGet {} c.seqs k

/-- Replaces sequencer k of a core. -/
def Core.setSq (c : Core) (k : Nat) (q : Seq) : Core := { c with seqs := tabPut c.seqs k q }

/-- Sequencer k of core g. -/
def State.seqAt (s : State) (g k : Nat) : Seq := (s.core g).sq k

/-- Replaces sequencer k of core g. -/
def State.setSeqAt (s : State) (g k : Nat) (q : Seq) : State := s.setCore g ((s.core g).setSq k q)

/-- Changes sequencer k of core g. -/
def State.modSeqAt (s : State) (g k : Nat) (f : Seq → Seq) : State := s.setSeqAt g k (f (s.seqAt g k))

/-- The core and number of the sequencer that instruction words act for. -/
def State.me (s : State) : Seq := s.seqAt s.cur.1 s.cur.2

/-- Replaces the current sequencer. -/
def State.setMe (s : State) (q : Seq) : State := s.setSeqAt s.cur.1 s.cur.2 q

/-- Changes the current sequencer's saved registers. -/
def State.modRegs (s : State) (f : Regs → Regs) : State := s.setMe { s.me with r := f s.me.r }

/-- The core of the current sequencer. -/
def State.myCore (s : State) : Core := s.core s.cur.1

/-- Cluster cl. -/
def State.cluster (s : State) (cl : Nat) : Cluster := tabGet {} s.clusters cl

/-- Replaces cluster cl. -/
def State.setCluster (s : State) (cl : Nat) (c : Cluster) : State := { s with clusters := tabPut s.clusters cl c }

/-- Changes cluster cl. -/
def State.modCluster (s : State) (cl : Nat) (f : Cluster → Cluster) : State := s.setCluster cl (f (s.cluster cl))

/-- A compute die. -/
def State.die (s : State) (d : Nat) : Die := tabGet {} s.dies d

/-- Replaces a die. -/
def State.setDie (s : State) (d : Nat) (x : Die) : State := { s with dies := tabPut s.dies d x }

/-- A taken-up node by pool and record index. -/
def State.findNode (s : State) (id : Nat × Nat) : Option Node := s.nodes.find? fun n => n.pool == id.1 && n.idx == id.2

/-- Changes a taken-up node. -/
def State.modNode (s : State) (id : Nat × Nat) (f : Node → Node) : State :=
  { s with nodes := s.nodes.map fun n => if n.pool == id.1 && n.idx == id.2 then f n else n }

/-- The node resident on core g. -/
def State.nodeOf (s : State) (g : Nat) : Option Node := (s.core g).node.bind s.findNode

/-- Applies a function to every listed sequencer. -/
def State.mapSeqs (s : State) (f : Seq → Seq) : State :=
  { s with cores := s.cores.map fun c => (c.1, { c.2 with seqs := c.2.seqs.map fun q => (q.1, f q.2) }) }

/-! ### Recording (R326) -/

/-- The group of core g. -/
def State.group (s : State) (g : Nat) : RecGroup := tabGet {} s.groups g

/-- Replaces it. -/
def State.setGroup (s : State) (g : Nat) (r : RecGroup) : State := { s with groups := tabPut s.groups g r }

/-- R327: whether core g re-executes an interval. -/
def State.replaying (s : State) (g : Nat) : Bool := (s.group g).feed.isSome

/-- Whether recording is armed for the node on core g. -/
def State.armed (s : State) (g : Nat) : Bool := (s.nodeOf g).any fun n => n.recording

/-- R326: an event joins the recording of the current interval, which is abandoned when its storage is full. -/
def RecGroup.add (r : RecGroup) (e : RecEvent) : RecGroup :=
  match r.recs.getLast? with
  | some c =>
    if c.interval != r.interval || !c.whole then r
    else if c.events.length < Config.recordingRoom then
      { r with recs := r.recs.dropLast ++ [{ c with events := c.events ++ [e] }] }
    else { r with recs := r.recs.dropLast ++ [{ c with whole := false }] }
  | none => r

/-- Records an event that reaches member k of core g. -/
def State.record (s : State) (g kind k addr n data : Nat) : State :=
  if !s.armed g || s.replaying g then s
  else s.setGroup g ((s.group g).add ⟨kind, k, (s.seqAt g k).rwcount, addr, n, data⟩)

/-! ### Messages to other packages (R274, R277) -/

/-- A message leaves for another package. -/
def State.send (s : State) (m : Sent) : State := { s with outbox := s.outbox ++ [m] }

/-- Whether a message is a request that its destination acknowledges (R277). -/
def SentKind.isRequest : SentKind → Bool
  | .reply | .coll | .link | .debug => false
  | _ => true

/-- The requests of the outbox from message n on have been sent for core g and its command, and await their acknowledgement
(R255, R277). -/
def State.track (s : State) (n g : Nat) (cmd : Option (Nat × Nat)) : State :=
  { s with
    unacked := s.unacked ++ ((s.outbox.drop n).zipIdx n).filterMap fun x =>
      if x.1.kind.isRequest then some ⟨x.2, g, cmd⟩ else none,
    awaiting := s.awaiting.map fun a => if a.cmd.isNone then { a with cmd := cmd } else a }

/-- A message that is to leave for core g once the writes that its command has sent so far are acknowledged (R168, R287, R288). -/
def State.sendAfter (s : State) (g : Nat) (m : Sent) : State :=
  if s.replaying g then s
  else { s with awaiting := s.awaiting ++ [{ msg := m, g := g, before := s.outbox.length }] }

/-- Whether a request is acknowledged. -/
def State.isAcked (s : State) (n : Nat) : Bool := !s.unacked.any fun u => u.n == n

/-- Whether something that a command of core g sends to another package is still to leave or to be acknowledged (R143, R287). -/
def State.owes (s : State) (g : Nat) (cmd : Nat × Nat) : Bool :=
  (s.unacked.any fun u => u.g == g && u.cmd == some cmd) || s.awaiting.any fun a => a.g == g && a.cmd == some cmd

/-! ### Registers -/

/-- Replaces an entry of a fixed register file. -/
def vput {α : Type} {n : Nat} (v : Vector α n) (i : Fin n) (a : α) : Vector α n := v.set i.val a i.isLt

/-- Reads an x register; x0 reads 0. -/
def Regs.rx (r : Regs) (i : XReg) : Word := if i = 0 then 0 else r.x[i]

/-- Writes an x register; a write to x0 is discarded. -/
def Regs.wx (r : Regs) (i : XReg) (w : Word) : Regs := if i = 0 then r else { r with x := vput r.x i w }

/-- Reads an x register of the current sequencer. -/
def State.rx (s : State) (i : XReg) : Word := s.me.r.rx i

/-- Writes an x register of the current sequencer. -/
def State.wx (s : State) (i : XReg) (w : Word) : State := s.modRegs fun r => r.wx i w

/-- Writes an f register of the current sequencer. -/
def State.wf (s : State) (i : XReg) (w : Word32) : State := s.modRegs fun r => { r with f := vput r.f i w }

/-- Whether an x register is full; x0 always is (R101). -/
def Regs.xIsFull (r : Regs) (i : XReg) : Bool := i == 0 || r.xfull[i]

/-- Marks an x register full or empty. -/
def Regs.markX (r : Regs) (i : XReg) (b : Bool) : Regs := if i = 0 then r else { r with xfull := vput r.xfull i b }

/-- R73: the physical register of vector name j. -/
def rotV (vrb : Fin 16) (j : XReg) : Fin 32 :=
  if j.val < 16 then j else ⟨16 + (j.val - 16 + 16 - vrb.val) % 16, by omega⟩

/-- R73: the physical register of predicate name j. -/
def rotP (prb : Fin 8) (j : PReg) : Fin 16 :=
  if j.val < 8 then j else ⟨8 + (j.val - 8 + 8 - prb.val) % 8, by omega⟩

/-- Reads a predicate by name; p0 holds all ones (R21), and no write changes it (R35). -/
def Regs.rp (r : Regs) (j : PReg) : PBits := if j = 0 then BitVec.allOnes 1024 else r.p[rotP r.prb j]

/-- Writes a predicate by name; a write to p0 is discarded (R35, R78). -/
def Regs.wp (r : Regs) (j : PReg) (b : PBits) : Regs := if j = 0 then r else { r with p := vput r.p (rotP r.prb j) b }

/-- R9: raises exception flags in `fflags`. -/
def State.raise (s : State) (fl : Nat) : State :=
  s.modRegs fun r => { r with fflags := r.fflags ||| BitVec.ofNat 5 fl }

/-! ### Trap causes (R307) -/

def causeMisalign : Nat := 0x02
def causeAccess : Nat := 0x03
def causeXlat : Nat := 0x04
def causeOwnerAbsent : Nat := 0x05
def causeEmpty : Nat := 0x06
def causeAlloc : Nat := 0x07
def causeFormat : Nat := 0x09
def causeRegion : Nat := 0x0a
def causeLoop : Nat := 0x0b
def causeDebug : Nat := 0x0c
def causeSync : Nat := 0x0d
def causeMemory : Nat := 0x0e
def causeBreak : Nat := 0x0f
def causeEcall : Nat := 0x10

/-! ### Ends, traps and retirement -/

/-- Records a faulted end for the node's completion record (R24, R205), once for a sequencer. -/
def State.recordFault (s : State) (g k cause : Nat) (fpc tval : Word) : State :=
  match (s.core g).node with
  | none => s
  | some id =>
    if (s.seqAt g k).faulted then s else s.modNode id fun n =>
      { n with faults := n.faults ++ [⟨s.cycle, g, k, cause, fpc, tval⟩] }

/-- R100: `lease.rel`: the sequencer's request is withdrawn, or its lease is given up once its command in progress is
done. At its end it keeps the lease as an implicit one, while it has commands for it. -/
def State.leaseRelease (s : State) (g k : Nat) (atEnd : Bool) : State :=
  s.modCluster (clusterOfCore g) fun c =>
    if c.holder = some (g, k) then
      { c with giveUp := c.giveUp || !atEnd, implicitLease := c.implicitLease || atEnd }
    else { c with waiters := c.waiters.filter (fun w => w != (g, k)), implicits := c.implicits.filter fun w => w != (g, k) }

/-- R22, R245: the sequencer ends; a handler returns to dormant. Its queued accesses still perform. -/
def State.endSeq (s : State) (g k : Nat) : State :=
  let s := s.leaseRelease g k true
  s.modSeqAt g k fun q => { q with status := if q.handler then .dormant else .ended, region := none, stopReq := false }

/-- R24: a faulted end, also of a handler, which stays ended. -/
def State.endFaulted (s : State) (g k cause : Nat) (fpc tval : Word) : State :=
  let s := (s.leaseRelease g k true).recordFault g k cause fpc tval
  s.modSeqAt g k fun q =>
    { q with status := .ended, faulted := true, region := none, stopReq := false, pending := none, emul := none }

/-- Sends a sequencer to an address: the exit address ends it without a fetch (R22). -/
def State.goTo (s : State) (g k : Nat) (pc : Word) : State :=
  if pc = (s.seqAt g k).exitAddr then (s.modSeqAt g k fun q => { q with r := { q.r with pc := pc } }).endSeq g k
  else s.modSeqAt g k fun q => { q with r := { q.r with pc := pc } }

/-- R23: the trap registers' change on entry. -/
def Regs.enterTrap (r : Regs) (cause : Nat) (tval : Word) : Regs :=
  { r with tepc := r.pc, tcause := BitVec.ofNat 8 cause, tval := tval, act := true }

/-- R23, R24: the sequencer takes a trap raised by the instruction at its pc, or ends faulted. -/
def State.takeTrap (s : State) (g k cause : Nat) (tval : Word) : State :=
  let q := s.seqAt g k
  if q.r.act || q.r.ttvec == 0 then s.endFaulted g k cause q.r.pc tval
  else (s.setSeqAt g k { q with status := .ready, r := q.r.enterTrap cause tval }).goTo g k q.r.ttvec

/-- R25: what `tret` does to the registers, but for the pc. -/
def Regs.leaveTrap (r : Regs) : Regs := { r with act := false }

/-- R324: a breakpoint whose instruction has issued and retired has been left: the next arrival fires again. -/
def bpLeft (b : Breakpoint) (pc : Word) : Breakpoint := if b.addr == some pc then { b with passed := false } else b

/-- R9, R325: an instruction of sequencer (g, k) retires. -/
def State.countRetired (s : State) (g k : Nat) : State :=
  s.modSeqAt g k fun q =>
    { q with status := .ready, rwcount := q.rwcount + 1, breakpoints := q.breakpoints.map fun b => bpLeft b q.r.pc,
             r := { q.r with instret := q.r.instret + 1 } }

/-- R72: at an iteration boundary a requested stop takes hold. -/
def State.boundary (s : State) (g k : Nat) : State :=
  s.modSeqAt g k fun q => if q.stopReq && q.status != .ended && q.status != .dormant then { q with stopped := true } else q

/-- How an instruction's own effect ends: it retires and falls through, retires at a target, retires there at an
iteration boundary, traps, blocks, waits for its access to be accepted, or is served by emulation (R62). -/
inductive Res where
  | done (s : State)
  | jump (s : State) (pc : Word)
  | loopEdge (s : State) (pc : Word)
  | trap (cause : Nat) (tval : Word)
  | block
  | wait (s : State)
  | emulate (tval : Word)
  deriving DecidableEq, Repr

/-- A check of an instruction: none when it passes. -/
abbrev Check := Option Res

/-- The first check that fails decides; otherwise the effect. -/
def Res.checked : List Check → Res → Res
  | [], r => r
  | none :: cs, r => Res.checked cs r
  | some e :: _, _ => e

/-- A check that traps. -/
def trapIf (c : Bool) (cause : Nat) (tval : Word) : Check := if c then some (.trap cause tval) else none

/-- A check that blocks. -/
def blockIf (c : Bool) : Check := if c then some .block else none

/-- Completes an instruction of the current sequencer in the state s at its issue. -/
def Res.finish (r : Res) (s : State) : Host.Outcome State Fault Refusal :=
  let g := s.cur.1
  let k := s.cur.2
  match r with
  | .done t => .next ((t.countRetired g k).goTo g k (t.me.r.pc + 4))
  | .jump t pc => .next ((t.countRetired g k).goTo g k pc)
  | .loopEdge t pc => .next (((t.countRetired g k).goTo g k pc).boundary g k)
  | .trap cause tval => .next (s.takeTrap g k cause tval)
  | .block => .next (s.modSeqAt g k fun q => { q with status := .blocked })
  | .wait t => .next (t.modSeqAt g k fun q => { q with status := .blocked })
  | .emulate tval => .next (s.modSeqAt g k fun q => { q with status := .blocked, emul := some tval })

/-! ### Sources and destinations of scalar words (R33, R34) -/

/-- R33: a standard, SX or EC word blocks while an x register it reads is empty; R34: or one it writes. -/
def needX (s : State) (l : List XReg) : Check := blockIf (l.any fun i => !s.me.r.xIsFull i)

/-- R34 for a vector destination, and R33 for a source that blocks: full and not being written. -/
def Seq.vReady (q : Seq) (p : Fin 32) : Bool := q.r.vfull[p] && !q.vbusy[p]

end Sys2Proof.Machine
end

