-- ==== Sys2Proof/Machine/Addr.lean ====
section
/-! DEFINITION. Addresses: the on-chip map (R12, R231), owner-side translation (R248 to R252), access tables (R316) and
the place at which an access is decided (R234). -/
namespace Sys2Proof.Machine

/-! ### Fields of a virtual address (R12, R248) -/

/-- Bits [63:52]. -/
def ownerPkg (va : Word) : Nat := bitsOf va.toNat 63 52

/-- Bits [51:50]. -/
def ownerDie (va : Word) : Nat := bitsOf va.toNat 51 50

/-- Bits [49:0]. -/
def vaOffset (va : Word) : Nat := va.toNat % 2 ^ 50

/-- R12: bits [49:32] are 0x3_FFFF. -/
def isAperture (va : Word) : Bool := bitsOf va.toNat 49 32 == 0x3FFFF

/-- The core an aperture address names. -/
def apertureCore (va : Word) : Nat := coreInDie (bitsOf va.toNat 31 30) (bitsOf va.toNat 29 26) (bitsOf va.toNat 25 22)

/-- The window offset of an aperture address. -/
def apertureOff (va : Word) : Nat := va.toNat % 2 ^ 22

/-! ### Windows (R231) -/

/-- The windows of a core. -/
inductive Win where
  | spad | tile | acc | vreg | mbox | tok | flag | iacc | facc
  deriving DecidableEq, Repr

/-- The window a window offset lies in. -/
def winOf (off : Nat) : Option Win :=
  if off < 0x100000 then some .spad
  else if off < 0x180000 then some .tile
  else if off < 0x1D0000 then some .acc
  else if off < 0x1D8000 then some .vreg
  else if off < 0x1D8040 then some .mbox
  else if 0x1D9000 ≤ off && off < 0x1D9100 then some .tok
  else if 0x1DA000 ≤ off && off < 0x1DB000 then some .flag
  else if 0x200000 ≤ off && off < 0x300000 then some .iacc
  else if 0x300000 ≤ off && off < 0x400000 then some .facc
  else none

/-- Kinds of access, as R231, R253 and R254 tell them apart. -/
inductive AccKind where
  | load | store | amo | lr | sc | vload | vstore | engRead | engWrite | fetch | mbox
  deriving DecidableEq, Repr

/-- Whether an access of this kind writes. -/
def AccKind.writes : AccKind → Bool
  | .store | .amo | .sc | .vstore | .engWrite => true
  | _ => false

/-- R231, 'Accesses admitted': whether the window admits an access of a kind and size. A vector access takes the
scratchpad window, and a vector store of 4-byte elements the aliases too (log entry 14). -/
def winAdmits (w : Win) (k : AccKind) (n : Nat) : Bool :=
  match w, k with
  | _, .fetch | _, .mbox => false
  | .spad, _ => true
  | .tile, .load | .tile, .store | .tile, .engRead | .tile, .engWrite => true
  | .acc, .load | .acc, .store | .acc, .engRead | .acc, .engWrite => true
  | .vreg, .load | .vreg, .store | .vreg, .engWrite => true
  | .mbox, .load | .mbox, .store | .flag, .load | .flag, .store => n == 8
  | .tok, .load | .tok, .store => n == 1
  | .iacc, .store | .iacc, .vstore | .facc, .store | .facc, .vstore => n == 4 || n == 8
  | .iacc, .engWrite | .facc, .engWrite => true
  | _, _ => false

/-- R231 partitions and contexts: whether the register the offset lies in is one that the core has. -/
def winHeld (c : Core) (off : Nat) : Bool :=
  match winOf off with
  | some .tile => (off - 0x100000) / 0x10000 < c.tiles
  | some .acc => (off - 0x180000) / 0x14000 < c.accs
  | some .vreg => (c.sq ((off - 0x1D0000) / 0x4000)).r.vctx
  | some _ => true
  | none => false

/-- The window code of an access-table entry (R45, R206) and the offset within that window. -/
def tableWindow (off : Nat) : Option (Nat × Nat) :=
  match winOf off with
  | some .spad => some (0, off)
  | some .iacc => some (0, off - 0x200000)
  | some .facc => some (0, off - 0x300000)
  | some .tile => some (1, off - 0x100000)
  | some .acc => some (2, off - 0x180000)
  | _ => none

/-- Whether core m lies in the rectangle that core c's node holds. -/
def sameRectangle (s : State) (m g : Nat) : Bool :=
  (s.core m).node == (s.core g).node && (s.core g).node.isSome

/-- R316: whether one valid plane entry covers the range and admits the master. `mg` is the master's core, when it is
of this package. -/
def entryAdmits (s : State) (mg : Option Nat) (write : Bool) (g win off n : Nat) (e : PlaneEntry) : Bool :=
  e.valid && e.window == win && e.base * 64 ≤ off && off + n ≤ (e.base + e.length) * 64 && (!write || e.wr) &&
    match e.scope, mg with
    | 0, some m => sameRectangle s m g
    | 1, some _ | 2, _ => true
    | _, _ => false

/-- R316 and R231 at the target: whether core g's access table admits a master, and its windows the access. -/
def targetAdmits (s : State) (mg : Option Nat) (asid : Nat) (k : AccKind) (g off n : Nat) : Bool :=
  let c := s.core g
  match winOf off with
  | none => false
  | some w =>
    winAdmits w k n && winHeld c off &&
    (mg == some g ||
      (c.node.isSome && c.asid == asid &&
        match tableWindow off with
        | some (win, o) => c.access.any (entryAdmits s mg k.writes g win o n)
        | none => true))

/-! ### Translation (R251) -/

/-- A leaf found by a walk. -/
structure Leaf where
  pa : Nat
  size : Nat
  w : Bool
  x : Bool
  fwd : Bool
  holder : Nat
  acnt : Bool
  deriving DecidableEq, Repr

/-- Index bits of a level: (high, low). -/
def levelBits : Nat → Nat × Nat
  | 3 => (49, 39)
  | 2 => (38, 30)
  | 1 => (29, 21)
  | _ => (20, 16)

/-- A leaf entry read at a level, or none when it is not well formed. -/
def leafOf (e lvl off : Nat) : Option Leaf :=
  let size := 2 ^ (levelBits lvl).2
  let frame := bitsOf e 57 26 * 2 ^ 16
  if bitsOf e 63 58 != 0 || bitsOf e 11 6 != 0 || frame % size != 0 || lvl == 3 || (!bitOf e 4 && bitsOf e 25 12 != 0)
  then none
  else some ⟨frame + off % size, size, bitOf e 2, bitOf e 3, bitOf e 4, bitsOf e 25 12, bitOf e 5⟩

/-- Walks the table at `tbl` in die d's DRAM from level lvl down. -/
def walkFrom (s : State) (d off : Nat) : Nat → Nat → Option Leaf
  | lvl, tbl =>
    let step := fun (l : Nat) (next : Nat → Option Leaf) =>
      let a := dramKey d (tbl + 8 * bitsOf off (levelBits l).1 (levelBits l).2)
      let e := memNat s.mem a 8
      if s.poison.contains (a / 64) then none
      else if !bitOf e 0 then none
      else if bitOf e 1 then leafOf e l off
      else if l == 0 || bitsOf e 63 48 != 0 || bitsOf e 11 2 != 0 then none
      else next (bitsOf e 47 12 * 4096)
    match lvl with
    | 0 => step 0 fun _ => none
    | l + 1 => step (l + 1) fun t => walkFrom s d off l t

/-- R251: the translation of an offset in die d under an identifier. -/
def walk (s : State) (d asid off : Nat) : Option Leaf :=
  if tabHas (s.die d).roots asid then walkFrom s d off 3 (tabGet 0 (s.die d).roots asid) else none

/-- R316: whether the 1 GiB region that holds a frame is granted to the identifier. -/
def regionGranted (s : State) (d pa asid : Nat) : Bool :=
  (tabGet [] s.regions (d * 2 ^ 18 + pa / 2 ^ 30)).contains asid

/-- R253: an owner is absent when its die is held in reset or powered down, or no path leads to its package. -/
def ownerAbsent (s : State) (pkg d : Nat) : Bool :=
  if pkg == s.pkgid then (s.die d).absent else !s.peers.contains pkg

/-- How an access is answered (R12, R250 to R253, R316). -/
inductive Answer where
  | ok (l : Loc)
  | misalign
  | access
  | absent
  | xlat
  | memory
  deriving DecidableEq, Repr

/-- The pool whose doorbell page holds the address under the identifier (R198). -/
def doorbellAt (s : State) (asid : Nat) (va : Word) : Option (Nat × Nat) :=
  (s.pools.find? fun p => p.2.asid == asid && p.2.page.toNat ≤ va.toNat && va.toNat < p.2.page.toNat + 0x10000
    && p.2.page != 0).map fun p => (p.1, va.toNat - p.2.page.toNat)

/-- The number under which the frames of a holder stand: a die of this package, or one of another. -/
def holderDie (s : State) (holder : Nat) : Nat := if holder / 4 == s.pkgid then holder % 4 else 2 ^ 40 + holder

/-- Whether such a number names a die of another package. -/
def farDie (d : Nat) : Bool := 2 ^ 40 ≤ d

/-- The die that holds a page which die d's tables map. -/
def leafDie (s : State) (d : Nat) (l : Leaf) : Nat := if l.fwd then holderDie s l.holder else d

/-- The place of a translated address: in the die's own DRAM, or at the page's holder (R252). -/
def leafLoc (s : State) (d : Nat) (l : Leaf) : Loc := .dram (leafDie s d l) l.pa

/-- What another package answers an access sent to it; an aperture access is never translated (R12). -/
def remoteLoc (va : Word) (r : RemoteVerdict) : Answer :=
  match r with
  | .accepted => .ok (.remote (ownerPkg va) (ownerDie va) va)
  | .xlat => if isAperture va then .access else .xlat
  | .access => .access
  | .absent => .absent

/-- R12 item 2: the form of an aperture address, judged at the issuing core. -/
def apertureForm (va : Word) : Bool :=
  bitsOf va.toNat 31 30 == ownerDie va && (winOf (apertureOff va)).isSome

/-- R12, R250 to R253: where an n-byte access to a virtual address is decided, or why it is not. `mg` is the issuing
core, none for a master of another package; `r` is what another package answers. The order is R12's for an aperture
address, else R253, R251. No aperture address is fetched from (R28). -/
def resolveFrom (s : State) (mg : Option Nat) (asid : Nat) (k : AccKind) (va : Word) (n : Nat) (r : RemoteVerdict) : Answer :=
  if isAperture va then
    if !apertureForm va || k == .fetch then .access
    else if ownerAbsent s (ownerPkg va) (ownerDie va) then .absent
    else if ownerPkg va != s.pkgid then
      (if (winOf (apertureOff va)).any fun w => winAdmits w k n then remoteLoc va r else .access)
    else if targetAdmits s mg asid k (apertureCore va) (apertureOff va) n
      then .ok (.win (apertureCore va) (apertureOff va)) else .access
  else if ownerAbsent s (ownerPkg va) (ownerDie va) then .absent
  else if ownerPkg va != s.pkgid then remoteLoc va r
  else
    match doorbellAt s asid va with
    | some (p, o) => if k == .store && n == 8 && o == 0 then .ok (.doorbell p asid) else .access
    | none =>
      match walk s (ownerDie va) asid (vaOffset va) with
      | none => .xlat
      | some l =>
        if k.writes && (!l.w || l.x) then .access
        else if k == .fetch && !l.x then .access
        else
          match leafLoc s (ownerDie va) l with
          | .dram d pa =>
            if farDie d then (if ownerAbsent s ((d - 2 ^ 40) / 4) 0 then .absent else if r == .access then .access else .ok (.dram d pa))
            else if regionGranted s d pa asid then .ok (.dram d pa) else .access
          | x => .ok x

/-- The same for core mg of this package. -/
def resolve (s : State) (mg : Nat) (asid : Nat) (k : AccKind) (va : Word) (n : Nat) (r : RemoteVerdict) : Answer :=
  resolveFrom s (some mg) asid k va n r

/-- Whether a place is another package's. -/
def Loc.isRemote : Loc → Bool
  | .remote .. => true
  | _ => false

/-- The memory key of a place that is a plain byte of this package. -/
def Loc.key : Loc → Option Nat
  | .dram d pa => some (dramKey d pa)
  | .win g off => some (winKey g off)
  | _ => none

/-- R241: the scratchpad offset that an accumulate alias stands for, any other offset itself. -/
def unalias (off : Nat) : Nat :=
  match winOf off with
  | some .iacc => off - 0x200000
  | some .facc => off - 0x300000
  | _ => off

/-- The key of the byte of this package at a place's point of coherence: an accumulate alias is its scratchpad word (R241). -/
def Loc.bankKey : Loc → Option Nat
  | .dram d pa => some (dramKey d pa)
  | .win g off => some (winKey g (unalias off))
  | _ => none

/-- The key of a byte of another package, apart from every key of this one. -/
def remoteKey (p d : Nat) (a : Word) : Nat :=
  2 ^ 67 + (4 * p + d) * 2 ^ 64 + if isAperture a then a.toNat - a.toNat % 2 ^ 22 + unalias (apertureOff a) else a.toNat

/-- The place n bytes on. -/
def Loc.plus (l : Loc) (n : Nat) : Loc :=
  match l with
  | .dram d pa => .dram d (pa + n)
  | .win g off => .win g (off + n)
  | .remote p d a => .remote p d (a + BitVec.ofNat 64 n)
  | x => x

/-! ### Reading windows and memory (R231, R233, R242) -/

/-- The bytes of a wide register from byte `o` up. -/
def regBytes (v : VBits) (o n : Nat) : List Byte := leBytes n (v.toNat / 2 ^ (8 * o))

/-- A wide register with bytes replaced from byte `o` up. -/
def setRegBytes (v : VBits) (o : Nat) (b : List Byte) : VBits :=
  let low := v.toNat % 2 ^ (8 * o)
  let high := v.toNat / 2 ^ (8 * (o + b.length))
  BitVec.ofNat 4096 (low + 2 ^ (8 * o) * (leNat b + 2 ^ (8 * b.length) * high))

/-- Unclaimed messages of a mailbox (R88). -/
def Mailbox.unclaimed (m : Mailbox) : Nat := m.msgs.length - m.claims.length

/-- The half-record of a ready flag (R242). -/
def ReadyFlag.half (f : ReadyFlag) (upper : Bool) : Nat :=
  if upper then f.arrived + (if f.ready then 2 ^ 32 else 0) else f.base + f.len * 2 ^ 14 + f.expected * 2 ^ 32

/-- A token slot as its window reads it (R233); slot 0 reads 0. -/
def tokenByte (s : State) (cl slot : Nat) : Nat :=
  if slot == 0 then 0
  else
    let t := tabGet {} (s.cluster cl).tokens slot
    (if t.present then 1 else 0) + (if t.error then 2 else 0)

/-- R299: whether n bytes of a core's scratchpad meet the spill area of a bound grammar context. -/
def spillAt (s : State) (g off n : Nat) : Bool :=
  (s.cluster (clusterOfCore g)).grammars.any fun e =>
    e.2.g == g && decide (64 * e.2.spl < off + n) && decide (off < 64 * e.2.spl + 18432)

/-- The value of n bytes of a core's scratchpad, tiles or accumulators; a byte of a spill area is a free value (R299, log
entry 12). -/
def spadNat (s : State) (g off n : Nat) : Nat :=
  if spillAt s g off n then
    leNat ((List.range n).map fun i =>
      if spillAt s g (off + i) 1 then Config.freeByte (s.free * 2 ^ 22 + off + i) else memGet s.mem (winKey g (off + i)))
  else memNat s.mem (winKey g off) n

/-- n bytes of a side record of core g: in the old state where the firing command meets it so (R151). -/
def sideNat (s : State) (g off n : Nat) : Nat :=
  if s.side.isEmpty then spadNat s g off n
  else
    leNat ((List.range n).map fun i =>
      ((s.side.find? fun c => c.1 == winKey g (off + i)).map (·.2)).getD (BitVec.ofNat 8 (spadNat s g (off + i) 1)))

/-- While a context has a spill area in core g's scratchpad, every access to it leaves fresh free values to the next. -/
def State.noteSpill (s : State) (g : Nat) : State := if spillAt s g 0 0x100000 then { s with free := s.free + 1 } else s

/-- The value of n bytes of a core's window. -/
def readWin (s : State) (g off n : Nat) : Nat :=
  match winOf off with
  | some .vreg =>
    let o := off - 0x1D0000
    leNat (regBytes (((s.core g).sq (o / 0x4000)).r.v[o % 0x4000 / 0x200]'(by omega)) (o % 0x200) n)
  | some .mbox => (((s.core g).mbox[(off - 0x1D8000) / 8 % 8]'(by omega)).unclaimed)
  | some .tok => tokenByte s (clusterOfCore g) (off - 0x1D9000)
  | some .flag => (tabGet {} (s.core g).flags ((off - 0x1DA000) / 16)).half ((off - 0x1DA000) % 16 == 8)
  | _ => spadNat s g off n

/-- The value of n bytes at a place of this package. -/
def readLoc (s : State) (l : Loc) (n : Nat) : Nat :=
  match l with
  | .dram d pa => memNat s.mem (dramKey d pa) n
  | .win g off => readWin s g off n
  | _ => 0

/-- Whether a byte range of this package touches a poisoned line (R247, R313). -/
def poisoned (s : State) (l : Loc) (n : Nat) : Bool :=
  match l.bankKey with
  | none => false
  | some a => (List.range (n / 64 + 2)).any fun i => a / 64 + i ≤ (a + n - 1) / 64 && s.poison.contains (a / 64 + i)

end Sys2Proof.Machine
end

