-- ==== Sys2Proof/Machine/Write.lean ====
section
/-! DEFINITION. The one operation by which a write performs (R234), with everything that comes about with it: owner tags
(R246), poison (R247, R313), ready-flag counts (R242), watches (R261), reservations (R8), park tags (R110),
accumulate-on-write (R241), the small windows (R232, R233) and the scalar data cache (R234, R107). -/
namespace Sys2Proof.Machine

/-- Who writes (R242, R246): a sequencer, an engine for a sequencer's command, another master, or the package's own
dispatch, restore and profiling units, which no flag counts. -/
inductive Writer where
  | seq (g k : Nat)
  | engine (g k : Nat)
  | outside
  | unit
  deriving DecidableEq, Repr

/-- The core of a writer. -/
def Writer.core : Writer → Option Nat
  | .seq g _ | .engine g _ => some g
  | _ => none

/-- The owner a write leaves on a line of core g: a sequencer's number, or none for the node. -/
def Writer.owner (w : Writer) (g : Nat) : Option Nat :=
  match w with
  | .seq g' k | .engine g' k => if g' == g then some k else none
  | _ => none

/-- Whether ready flags of core g count a write (R242). -/
def Writer.counted (w : Writer) (g : Nat) : Bool :=
  match w with
  | .seq g' _ => g' != g
  | .engine .. | .outside => true
  | .unit => false

/-- Number of the watched words that a write of n bytes at a scratchpad offset touches. -/
def watchedWords (f : ReadyFlag) (off n : Nat) : Nat :=
  let lo := max (off / 4) (16 * f.base)
  let hi := min ((off + n + 3) / 4) (16 * (f.base + f.len))
  hi - lo

/-- R242: adds counted words; a crossing of the expected count leaves a rise to come (R243). -/
def ReadyFlag.addWords (f : ReadyFlag) (c : Nat) : ReadyFlag :=
  if f.expected == 0 || c == 0 then f
  else
    let a := f.arrived + c
    let hit := f.arrived < f.expected && f.expected ≤ a
    { f with arrived := a % 2 ^ 32, pending := f.pending || hit, crossed := f.crossed || hit }

/-- R242: the flags of core g after a counted write. -/
def Core.countFlags (c : Core) (off n : Nat) : Core :=
  { c with flags := c.flags.map fun e => (e.1, e.2.addWords (watchedWords e.2 off n)) }

/-- The lines that n bytes at a key touch. -/
def linesOf (key n : Nat) : List Nat :=
  if n == 0 then [] else (List.range ((key + n - 1) / 64 + 1 - key / 64)).map fun i => key / 64 + i

/-- R246: sets the owner of the lines written. -/
def State.setOwner (s : State) (key n : Nat) (o : Option Nat) : State :=
  { s with owners := (linesOf key n).foldl (fun t l =>
      match o with
      | some k => tabPut t l k
      | none => tabDel t l) s.owners }

/-- R247, R313: a write of all 64 bytes of a line clears its poison. -/
def State.clearPoison (s : State) (key n : Nat) : State :=
  { s with poison := s.poison.filter fun l => !(decide (key ≤ 64 * l) && decide (64 * l + 64 ≤ key + n)) }

/-- R261: a write into a watched unit removes the tile from every cluster. A unit of another package's memory is known by
the address that this package sends there. -/
def State.invalidateWatches (s : State) (key n : Nat) : State :=
  { s with clusters := s.clusters.map fun c =>
      (c.1, { c.2 with coppice := c.2.coppice.filter fun t =>
        !(t.watch.any fun r => decide (r.1 ≤ (key + n - 1) / 64) && decide (key / 64 ≤ r.2)) }) }

/-- R8: a write into a reservation set takes the reservation (log entry 5). -/
def State.loseReservations (s : State) (l : Loc) (n : Nat) : State :=
  let hit := fun (r : Loc) =>
    match r.key, l.key with
    | some a, some b => decide (a / 64 ≤ (b + n - 1) / 64) && decide (b / 64 ≤ a / 64)
    | _, _ => r == l
  let s := s.mapSeqs fun q => if q.resv.any hit then { q with resv := none } else q
  { s with remoteResv := s.remoteResv.filter fun r => !hit r.loc }

/-- What every write to a byte of memory brings with it, but for the bytes themselves. -/
def State.noteWrite (s : State) (l : Loc) (key n : Nat) : State :=
  ((s.clearPoison key n).invalidateWatches key n).loseReservations l n

/-- Writes bytes of memory. -/
def State.putMem (s : State) (key : Nat) (b : List Byte) : State := { s with mem := memSet s.mem key b }

/-- R110: the park-row number of a tile or accumulator byte: 128·target + row. All 640 bytes of an accumulator's row belong to it,
those behind its 512-byte park row too: a write to any of them leaves the park tag untyped (DESIGN CHOICE, log entry 73). -/
def parkRow (off : Nat) : Nat :=
  if off < 0x180000 then 128 * ((off - 0x100000) / 0x10000) + (off - 0x100000) % 0x10000 / 512
  else 128 * (8 + (off - 0x180000) / 0x14000) + (off - 0x180000) % 0x14000 / 640

/-- R110: a write to a row leaves its park tag untyped. -/
def Core.unpark (c : Core) (off n : Nat) : Core :=
  { c with park := c.park.filter fun e => !(parkRow off ≤ e.1 && e.1 ≤ parkRow (off + n - 1)) }

/-- R232: bytes written into a vector register; its tag and full/empty bit stay. -/
def Core.writeVreg (c : Core) (o : Nat) (b : List Byte) : Core :=
  let q := c.sq (o / 0x4000)
  let i : Fin 32 := ⟨o % 0x4000 / 0x200, by omega⟩
  c.setSq (o / 0x4000) { q with r := { q.r with v := vput q.r.v i (setRegBytes q.r.v[i] (o % 0x200) b) } }

/-- R87: a message joins a mailbox. -/
def Core.postMail (c : Core) (mb : Nat) (v : Word) : Core :=
  let i : Fin 8 := ⟨mb % 8, Nat.mod_lt _ (by decide)⟩
  { c with mbox := vput c.mbox i { c.mbox[i] with msgs := c.mbox[i].msgs ++ [v] } }

/-- R145: gives both bits of a token slot; slot 0 ignores it (R44). -/
def Cluster.setToken (c : Cluster) (slot : Nat) (present error : Bool) : Cluster :=
  if slot == 0 then c else { c with tokens := tabPut c.tokens slot ⟨present, error⟩ }

/-- `tok.set` on a slot: present 1 and error 0, as R145's table has it. That setting a present slot changes nothing (R89) is said
of its presence: R145 gives the slot its error bit (DEDUCED, log entry 61). -/
def Cluster.tokSet (c : Cluster) (slot : Nat) : Cluster := c.setToken slot true false

/-- `tok.clr` on a slot: neither bit is left (R89, R145). -/
def Cluster.tokClr (c : Cluster) (slot : Nat) : Cluster := c.setToken slot false false

/-- A token slot of a cluster takes both bits; every core of the cluster but the one that changes it records the change (R326). -/
def State.putToken (s : State) (cl slot : Nat) (present error : Bool) (by_ : Option Nat) : State :=
  let others := ((List.range 4).map (coreOfCluster cl)).filter fun g => by_ != some g
  (others.foldl (fun (t : State) g => t.record g 3 0 slot 1 ((if present then 1 else 0) + if error then 2 else 0)) s).modCluster cl fun c =>
    c.setToken slot present error

/-- R242: a store to a half-record of a ready flag; setting ready is a rise (R243). -/
def Core.writeFlag (c : Core) (o : Nat) (v : Nat) : Core :=
  let f := tabGet {} c.flags (o / 16)
  let f' : ReadyFlag :=
    if o % 16 == 8 then
      { f with arrived := v % 2 ^ 32, ready := bitOf v 32, pending := f.pending || (bitOf v 32 && !f.ready) }
    else { f with base := v % 2 ^ 14, len := bitsOf v 27 14, expected := bitsOf v 63 32 }
  { c with flags := tabPut c.flags (o / 16) f' }

/-- R241: one aligned word combined with the word in place. -/
def accumulateWord (s : State) (g off : Nat) (fp : Bool) (v : Nat) : Nat :=
  let old := spadNat s g off 4
  if fp then (fpAdd 1 .rne old v).bits else (old + v) % 2 ^ 32

/-- R299: an entry of a stack whose home meets a program's write of `b` at `off` gives its old or its written value, as a
free value chooses (log entry 12). -/
def spilledEntry (s : State) (off : Nat) (b : List Byte) (home old : Nat) : Nat :=
  if home + 2 ≤ off || off + b.length ≤ home || (Config.freeByte (s.free * 2 ^ 22 + home)).toNat % 2 == 0 then old
  else
    leNat ((List.range 2).map fun i =>
      if off ≤ home + i then b.getD (home + i - off) (BitVec.ofNat 8 (old / 2 ^ (8 * i))) else BitVec.ofNat 8 (old / 2 ^ (8 * i)))

/-- A context's stacks after a program's write in its core's scratchpad. -/
def Grammar.overwritten (s : State) (g off : Nat) (b : List Byte) (x : Grammar) : Grammar :=
  if x.g != g then x
  else
    { x with branches := x.branches.map fun br =>
        (br.1, { br.2 with
                 stack := br.2.stack.zipIdx.map fun e => spilledEntry s off b (64 * x.spl + 2048 * br.1 + 2 * e.2) e.1 }) }

/-- R299: the bound contexts of core g's cluster after a program's write. -/
def State.writeSpill (s : State) (g off : Nat) (b : List Byte) : State :=
  if spillAt s g off b.length then
    (s.modCluster (clusterOfCore g) fun c =>
      { c with grammars := c.grammars.map fun e => (e.1, e.2.overwritten s g off b) }).noteSpill g
  else s

/-- A write to scratchpad bytes, with all that it brings. -/
def State.writeSpad (s : State) (w : Writer) (g off : Nat) (b : List Byte) : State :=
  let key := winKey g off
  let s := if w == .unit then s else s.writeSpill g off b
  let s := ((s.putMem key b).noteWrite (.win g off) key b.length).setOwner key b.length (w.owner g)
  if w.counted g then s.modCore g fun c => c.countFlags off b.length else s

/-- R241: the aligned words of a write into an accumulate alias, lowest address first; the bytes of a word that the write
does not reach add 0 (DESIGN CHOICE, log entry 72). -/
def State.accumulate (s : State) (w : Writer) (g off : Nat) (fp : Bool) : List Byte → Nat → State
  | _, 0 => s
  | b, n + 1 =>
    let v := accumulateWord s g off fp (leNat (b.take 4))
    State.accumulate (s.writeSpad w g off (leBytes 4 v)) w g (off + 4) fp (b.drop 4) n

/-- A write into an accumulate alias, of the scratchpad offset it stands for. -/
def State.accumulateRun (s : State) (w : Writer) (g off : Nat) (fp : Bool) (b : List Byte) : State :=
  s.accumulate w g (off / 4 * 4) fp (List.replicate (off % 4) 0 ++ b) ((off % 4 + b.length + 3) / 4)

/-- A write into a core's window (R231 to R233, R241, R242). -/
def State.writeWin (s : State) (w : Writer) (g off : Nat) (b : List Byte) : State :=
  match winOf off with
  | some .spad => s.writeSpad w g off b
  | some .tile | some .acc =>
    let key := winKey g off
    ((s.putMem key b).noteWrite (.win g off) key b.length).modCore g fun c => c.unpark off b.length
  | some .vreg => s.modCore g fun c => c.writeVreg (off - 0x1D0000) b
  | some .mbox => s.modCore g fun c => c.postMail ((off - 0x1D8000) / 8) (BitVec.ofNat 64 (leNat b))
  | some .tok => s.putToken (clusterOfCore g) (off - 0x1D9000) (leNat b % 2 == 1) false (some (w.core.getD g))
  | some .flag => s.modCore g fun c => c.writeFlag (off - 0x1DA000) (leNat b)
  | some .iacc => s.accumulateRun w g (unalias off) false b
  | some .facc => s.accumulateRun w g (unalias off) true b
  | none => s

/-- R234, R107: the scalar data cache of the storing core after a DRAM store by one of its own sequencers. -/
def Core.cacheStore (c : Core) (key : Nat) (b : List Byte) (vec : Bool) : Core :=
  if vec then { c with dcache := c.dcache.filter fun l => !((linesOf key b.length).contains l.line) }
  else
    { c with dcache := c.dcache.map fun l =>
        if l.line == key / 64 then
          { l with bytes := l.bytes.take (key % 64) ++ b ++ l.bytes.drop (key % 64 + b.length) }
        else l }

/-- R253: adds to the oabs count of core g's node. -/
def State.countAbsent (s : State) (g n : Nat) : State :=
  match (s.core g).node with
  | some id => s.modNode id fun nd => { nd with oabs := nd.oabs + n }
  | none => s

/-- R327: during a re-execution the core's own writes stay within the core, and its engines' within the cluster. -/
def suppressed (s : State) (w : Writer) (l : Loc) : Bool :=
  match w, l with
  | .seq g _, .win t _ => t != g && s.replaying g
  | .engine g _, .win t _ => clusterOfCore t != clusterOfCore g && s.replaying g
  | .seq g _, _ | .engine g _, _ => s.replaying g
  | _, _ => false

/-- Whether a write into core g's window comes from another master. -/
def Writer.foreign (w : Writer) (g : Nat) : Bool :=
  match w with
  | .seq g' _ | .engine g' _ => g' != g
  | .outside => true
  | .unit => false

/-- The member a write into a window reaches: the holder of a vector register, else sq0. -/
def receiver (off : Nat) : Nat := if winOf off == some .vreg then (off - 0x1D0000) / 0x4000 else 0

/-- R326: a write by another master into a core's window is recorded there. -/
def State.recordWrite (s : State) (w : Writer) (l : Loc) (b : List Byte) : State :=
  match l with
  | .win g off => if w.foreign g then s.record g 1 (receiver off) off b.length (leNat b) else s
  | _ => s

/-- R252: what the owner's memory-side cache passes on to a holder in another package. -/
def State.tellHolder (s : State) (d pa : Nat) (b : List Byte) : State :=
  if farDie d then
    s.send ⟨(d - 2 ^ 40) / 4, (d - 2 ^ 40) % 4, BitVec.ofNat 64 pa, .forward, b⟩
  else s

/-- R198, R218: a doorbell store; one that names a pool which is being torn down is ignored. -/
def State.ringPool (s : State) (p asid : Nat) (v : Word) : State :=
  if (tabGet {} s.pools (bitsOf v.toNat 37 32)).closing then s else { s with doorbells := s.doorbells ++ [(p, asid, v)] }

/-- A write performs at its place. `vec` tells a vector store (R107). -/
def State.writeLoc (s : State) (w : Writer) (l : Loc) (b : List Byte) (vec : Bool) : State :=
  if suppressed s w l then s
  else
  let s := s.recordWrite w l b
  match l with
  | .dram d pa =>
    let key := dramKey d pa
    let s := ((s.putMem key b).noteWrite l key b.length).tellHolder d pa b
    match w with
    | .seq g _ => s.modCore g fun c => c.cacheStore key b vec
    | _ => s
  | .win g off => s.writeWin w g off b
  | .remote p d a =>
    (s.send ⟨p, d, a, match w with | .engine .. => .engine | _ => .store, b⟩).invalidateWatches (remoteKey p d a) b.length
  | .doorbell p asid => s.ringPool p asid (BitVec.ofNat 64 (leNat b))
  | .absent => s

/-- A write of one nibble: the other bits of the byte stay (R107). Another package is sent the nibble's place and value. -/
def State.writeNibble (s : State) (w : Writer) (l : Loc) (high : Bool) (v : Nat) : State :=
  match l with
  | .remote p d a =>
    if suppressed s w l then s
    else
      (s.send ⟨p, d, a, .nibble, [if high then 1 else 0, BitVec.ofNat 8 (v % 16)]⟩).invalidateWatches (remoteKey p d a) 1
  | _ =>
    let old := readLoc s l 1
    let new := if high then old % 16 + 16 * (v % 16) else old / 16 * 16 + v % 16
    s.writeLoc w l [BitVec.ofNat 8 new] true

end Sys2Proof.Machine
end

