-- ==== Sys2Proof/Machine/Cmd.lean ====
section
/-! DEFINITION. Command words (R43 to R47, R153): their fields, footprints, queue scopes, and the words of a queue's
ring. A word is read as a 256-bit number. -/
namespace Sys2Proof.Machine

/-! ### Fields (R44, R45) -/

def cwOpcode (w : Nat) : Nat := bitsOf w 7 0
def cwVariant (w : Nat) : Nat := bitsOf w 15 8
def cwWaits (w : Nat) : List Nat := [bitsOf w 23 16, bitsOf w 31 24, bitsOf w 39 32, bitsOf w 47 40]
def cwSignal (w : Nat) : Nat := bitsOf w 55 48
def cwRsig (w : Nat) : Bool := bitOf w 56
def cwEprop (w : Nat) : Bool := bitOf w 57
def cwOpflags (w : Nat) : Nat := bitsOf w 63 58
def cwRead0 (w : Nat) : Nat := bitsOf w 95 64
def cwRead1 (w : Nat) : Nat := bitsOf w 127 96
def cwWrite (w : Nat) : Nat := bitsOf w 159 128
def cwStatus (w : Nat) : Nat := bitsOf w 191 160
def cwLane3 (w : Nat) : Nat := bitsOf w 255 192

/-- Bits hi down to lo of a word, where hi and lo count from bit 192, as lane 3's tables do when 192 is taken off. -/
def lane3 (w hi lo : Nat) : Nat := bitsOf w hi lo

/-! ### Footprints (R45) -/

/-- A declared range of 64-byte units of a window: 0 scratchpad, 1 tile, 2 accumulator. -/
structure Footprint where
  window : Nat
  base : Nat
  length : Nat
  deriving DecidableEq, Repr

/-- Units of a window (R45). -/
def windowUnits : Nat → Nat
  | 0 => 16384
  | 1 => 8192
  | 2 => 5120
  | _ => 0

/-- R47 items 4 and 5. -/
def footprintBad (f : Nat) : Bool :=
  if bitOf f 31 then
    bitOf f 28 || bitsOf f 30 29 == 3 || bitsOf f 27 14 == 0 ||
      windowUnits (bitsOf f 30 29) < bitsOf f 13 0 + bitsOf f 27 14
  else f != 0x60000000

/-- A footprint that takes part in comparisons. -/
def footprintOf (f : Nat) : Option Footprint :=
  if bitOf f 31 && !footprintBad f then some ⟨bitsOf f 30 29, bitsOf f 13 0, bitsOf f 27 14⟩ else none

/-- The read footprints of a word. -/
def cwReads (w : Nat) : List Footprint := (footprintOf (cwRead0 w)).toList ++ (footprintOf (cwRead1 w)).toList

/-- The write footprint of a word. -/
def cwWrites (w : Nat) : List Footprint := (footprintOf (cwWrite w)).toList

/-- R45: a status slot that breaks its map. -/
def statusSlotBad (x : Nat) : Bool := if bitOf x 31 then bitsOf x 30 16 != 0 else x != 0

/-- R147: what a command writes, to the ordering of footprints: its write footprint and its status record. -/
def cwOrdered (w : Nat) : List Footprint :=
  cwWrites w ++ if bitOf (cwStatus w) 31 then [⟨0, bitsOf (cwStatus w) 15 0 / 4, 1⟩] else []

/-- Whether two footprints overlap. -/
def Footprint.meets (a b : Footprint) : Bool :=
  a.window == b.window && a.base < b.base + b.length && b.base < a.base + a.length

/-- The units that n bytes at a window offset touch, as a footprint; aliases count as the scratchpad (R241). -/
def unitsOf (off n : Nat) : Option Footprint :=
  let mk := fun w o => some ⟨w, o / 64, (o + n - 1) / 64 + 1 - o / 64⟩
  match winOf off with
  | some .spad => mk 0 off
  | some .iacc => mk 0 (off - 0x200000)
  | some .facc => mk 0 (off - 0x300000)
  | some .tile => mk 1 (off - 0x100000)
  | some .acc => mk 2 (off - 0x180000)
  | _ => none

/-- The window offset of a footprint's unit. -/
def unitOffset (window unit : Nat) : Nat :=
  64 * unit + (match window with | 1 => 0x100000 | 2 => 0x180000 | _ => 0)

/-! ### Rings and words -/

/-- The 32 bytes of a ring slot of queue q. -/
def slotOffset (q : Queue) (slot : Nat) : Nat := q.base + 32 * slot

/-- The word of a published command: as fetched, else as its slot now stands. -/
def cmdWord (s : State) (g : Nat) (c : Cmd) : Nat :=
  match c.word with
  | some w => w.toNat
  | none => spadNat s g c.slot 32

/-- R239, R150: whether a command has read its operands: its effect has been carried out. One that completes without
reading, and a collective operation, count as having read at their completion. -/
def Cmd.hasRead (c : Cmd) : Bool := c.read

/-- R90: the queue scope. -/
def queueScope (kind : Nat) : Scope := if kind == 2 || kind == 4 then .pod else .clu

/-- A command queue by number. -/
def Core.queue (c : Core) (q : Nat) : Queue := c.queues[q % 16]'(Nat.mod_lt _ (by decide))

/-- R266: a queue at a region's mark; its fetch point is the slot of its first command that has not fired. -/
def Queue.mark (q : Queue) : QueueMark :=
  ⟨q.base, q.n, q.tail, ((q.cmds.find? fun c => !c.fired).map fun c => (c.slot - q.base) / 32).getD q.tail, q.last, q.comp⟩

/-- Replaces a command queue. -/
def Core.setQueue (c : Core) (q : Nat) (x : Queue) : Core :=
  { c with queues := c.queues.set (q % 16) x (Nat.mod_lt _ (by decide)) }

/-- The engine kind that accepts an opcode (R46); 0 stands for any. -/
def opcodeKind (op : Nat) : Option Nat :=
  if [0x00, 0x01, 0x02, 0x03, 0x04, 0x08, 0x09, 0x0a].contains op then some 1
  else if [0x20, 0x24, 0x25].contains op then some 2
  else if [0x21, 0x22, 0x23, 0x40, 0x41].contains op then some 3
  else if [0x60, 0x61, 0x62, 0x63, 0x64, 0x68, 0x6f].contains op then some 4
  else if [0x80, 0x81, 0x82, 0x83].contains op then some 5
  else if [0xa0, 0xa1, 0xa2, 0xa3, 0xa4, 0xa5, 0xa6].contains op then some 6
  else if [0xc0, 0xc1, 0xc2].contains op then some 0
  else none

/-- A shape register as a command reads it. -/
def shpVal (sh : Vector Word32 32) (i : Nat) : Nat := (sh[i % 32]'(Nat.mod_lt _ (by decide))).toNat

/-- A layout record as a command reads it, as a 128-bit number. -/
def lyVal (ly : Vector (BitVec 128) 16) (i : Nat) : Nat := (ly[i % 16]'(Nat.mod_lt _ (by decide))).toNat

/-! ### Side records (R151) -/

/-- The layout records whose offsets a word may read. -/
def sideLays (w : Nat) : List Nat :=
  match cwOpcode w with
  | 0x20 | 0x21 | 0x25 => [bitsOf w 195 192, bitsOf w 199 196]
  | 0x24 => [bitsOf w 195 192, bitsOf w 199 196, bitsOf w 203 200, bitsOf w 207 204, bitsOf w 211 208]
  | 0x61 | 0x62 | 0x63 | 0x64 | 0x80 | 0x81 | 0x82 | 0x83 => [bitsOf w 195 192, bitsOf w 199 196]
  | _ => []

/-- The offsets vector of a record: its place and its bytes. -/
def offsPlace (sh : Vector Word32 32) (v : Nat) : Nat × Nat := (64 * bitsOf v 13 0, 4 * (shpVal sh (bitsOf v 18 14) + 1))

/-- R262: the rows of a sparse tile in the scratchpad, which the interpreter reads as side records. -/
def structureRanges (w : Nat) (sh : Vector Word32 32) (v : Nat) : List (Nat × Nat) :=
  let e := fun lo => shpVal sh (bitsOf v (lo + 4) lo)
  if bitOf w 59 && bitsOf v 59 54 == 4 && e 39 ≤ 128 && e 34 ≤ 1024 then
    (List.range (e 39)).filterMap fun (j : Nat) =>
      let o := (bitsOf v 127 64 : Int) + (j : Int) * sextN 32 (shpVal sh (bitsOf v 23 19))
      if o < 0 then none else some (o.toNat, (e 34 * tagBits (bitsOf v 63 60) + 7) / 8)
  else []

/-- The side records of the sampling opcodes (R182, R183, R188): row records, sampling or accept records, masks, and the list areas
that the sampling records name. -/
def samplingRanges (s : State) (g w : Nat) (sh : Vector Word32 32) : List (Nat × Nat) :=
  let m := shpVal sh (bitsOf w 209 205)
  let mb := roundUp (shpVal sh (bitsOf w 204 200)) 512 / 8
  let (rows, recs, masks) := if cwOpcode w == 0x83 then (2 * m + 1, 128, m + 1) else (m, 64 * m, m)
  let lists := if cwOpcode w == 0x83 then [] else (List.range m).map fun i =>
    (64 * bitsOf (spadNat s g (64 * bitsOf w 227 214 + 64 * i) 64) 319 306, 8192)
  [(64 * bitsOf w 241 228, 32 * rows), (64 * bitsOf w 227 214, recs)] ++ (if bitOf w 58 then [(64 * bitsOf w 255 242, masks * mb)] else []) ++ lists

/-- The side records of `acc.epi` (R162), from its block as it stands. -/
def epilogueRanges (s : State) (g w : Nat) (sh : Vector Word32 32) : List (Nat × Nat) :=
  let at_ := 64 * bitsOf w 228 215
  let b := spadNat s g at_ 64
  [(at_, 64), (64 * bitsOf b 109 96, 32 * shpVal sh (bitsOf w 204 200))] ++
    (if bitOf b 78 then [(64 * bitsOf b 77 64, 4 * shpVal sh (bitsOf w 209 205))] else [])

/-- The places and lengths of a word's side records: offsets vectors, group lists, epilogue blocks and row records, bin headers,
sparse structures, tile tables, sampling records and masks, tokens, and R288's record. -/
def sideRanges (s : State) (g w : Nat) (sh : Vector Word32 32) (ly : Vector (BitVec 128) 16) : List (Nat × Nat) :=
  let offs := ((sideLays w).map (lyVal ly)).filter fun v => bitsOf v 55 54 == 1
  (match cwOpcode w with
    | 0x02 => [offsPlace sh (lyVal ly (bitsOf w 218 215)), offsPlace sh (lyVal ly (bitsOf w 222 219))]
    | 0x03 => [(64 * bitsOf w 228 215, 8 * shpVal sh (bitsOf w 204 200))]
    | 0x04 => structureRanges w sh (lyVal ly (bitsOf w 218 215))
    | 0x0a => epilogueRanges s g w sh
    | 0x22 => [(64 * bitsOf w 246 233, 320)]
    | 0x23 => [(64 * bitsOf w 213 200, 320)]
    | 0x24 => if bitOf w 58 then [(64 * bitsOf w 255 242, 64)] else []
    | 0x68 => [(64 * bitsOf w 219 206, 32 * bitsOf w 205 192)]
    | 0x80 | 0x81 | 0x82 | 0x83 => samplingRanges s g w sh
    | 0xa1 => [(64 * bitsOf w 218 205, 4)]
    | _ => []) ++ offs.map (offsPlace sh)

/-- A command that has not fired keeps the bytes of its side records that a store of n bytes at a scratchpad offset is about to
change, as they stood before the first such store (R151). -/
def Cmd.keepSides (s : State) (g off n : Nat) (c : Cmd) : Cmd :=
  if c.fired then c
  else
    let mine := sideRanges s g (cmdWord s g c) c.sh c.ly
    let kept := (List.range n).filterMap fun i =>
      if (mine.any fun r => r.1 ≤ off + i && off + i < r.1 + r.2) && !(c.side.any fun b => b.1 == winKey g (off + i))
      then some (winKey g (off + i), BitVec.ofNat 8 (spadNat s g (off + i) 1)) else none
    { c with side := c.side ++ kept }

/-- The commands of a core before a store of n bytes at a place performs. -/
def State.keepSides (s : State) (l : Loc) (n : Nat) : State :=
  match l with
  | .win g off =>
    if unalias off < 0x100000 then
      s.modCore g fun co => (List.range 16).foldl (fun c i => if (c.queue i).cmds.isEmpty then c else
        c.setQueue i { c.queue i with cmds := (c.queue i).cmds.map (Cmd.keepSides s g (unalias off) n) }) co
    else s
  | _ => s

/-- The bytes in which two memories differ, as the first holds them. -/
def memOld : Nat → Memory → Memory → List Host.Cell
  | 0, _, _ => []
  | _ + 1, [], [] => []
  | n + 1, [], (k, _) :: t => (k, 0) :: memOld n [] t
  | n + 1, (k, v) :: t, [] => (k, v) :: memOld n t []
  | n + 1, (k, v) :: t, (k', v') :: t' =>
    if k < k' then (k, v) :: memOld n t ((k', v') :: t')
    else if k' < k then (k', 0) :: memOld n ((k, v) :: t) t'
    else if v == v' then memOld n t t' else (k, v) :: memOld n t t'

/-- A command that has not fired keeps the bytes of its side records among those that have changed. -/
def Cmd.keepOld (before : State) (g : Nat) (old : List Host.Cell) (c : Cmd) : Cmd :=
  if c.fired then c
  else
    let mine := sideRanges before g (cmdWord before g c) c.sh c.ly
    { c with side := c.side ++ old.filter fun b =>
        (mine.any fun r => winKey g r.1 ≤ b.1 && b.1 < winKey g r.1 + r.2) && !(c.side.any fun x => x.1 == b.1) }

/-- R151, R289: what engines and other masters have written since `before` is seen by the commands that have not fired in its old or its
new contents; the commands of the queue named, if any, see the writes of those before them. -/
def State.sidesSince (s before : State) (except : Option (Nat × Nat)) : State :=
  let waits := fun (e : Nat × Core) => (List.range 16).any fun i => except != some (e.1, i) && (e.2.queue i).cmds.any fun c => !c.fired
  if !s.cores.any waits then s
  else
    let old := memOld (s.mem.length + before.mem.length + 1) before.mem s.mem
    { s with cores := s.cores.map fun e =>
        (e.1, (List.range 16).foldl (fun c i => if except == some (e.1, i) || (c.queue i).cmds.isEmpty then c else
          c.setQueue i { c.queue i with cmds := (c.queue i).cmds.map (Cmd.keepOld before e.1 old) }) e.2) }

/-- R151: the bytes that a command which fires may meet in their old state, line by line as a free value chooses. -/
def Cmd.oldSides (s : State) (c : Cmd) : List Host.Cell := c.side.filter fun b => Config.sideOld s.free (b.1 / 64)

/-! ### Malformed words (R47) -/

/-- The opflags bits an opcode defines, bit 0 for bit 58. -/
def opflagsOf (op : Nat) : Nat :=
  match op with
  | 0x00 | 0x01 | 0x02 | 0x03 | 0x08 | 0x22 | 0x24 | 0x25 | 0x40 => 0b1
  | 0x04 | 0x09 | 0x23 => 0b11
  | 0x0a => 0b111
  | 0x80 | 0x81 | 0x82 | 0x83 => 0b11
  | 0xa5 => 0b1
  | _ => 0

/-- The variants an opcode defines: values below this. -/
def variantsOf (op : Nat) : Nat :=
  match op with
  | 0x00 | 0x01 | 0x02 | 0x03 => 3
  | 0x80 | 0x82 => 2
  | _ => 1

/-- Whether bits hi down to lo are not all zero. -/
def nonzero (w hi lo : Nat) : Bool := bitsOf w hi lo != 0

/-- R47 item 7 and R3: a lane 3 bit the opcode reserves, or a reserved value of a lane 3 field, of the opcodes of
Command Words I. -/
def lane3Bad1 (op w : Nat) : Bool :=
  match op with
  | 0x00 => nonzero w 255 215
  | 0x01 => nonzero w 255 218
  | 0x02 => nonzero w 255 255
  | 0x03 => nonzero w 255 229 || nonzero w 197 195
  | 0x04 => nonzero w 255 219
  | 0x08 => nonzero w 255 200 || nonzero w 197 192
  | 0x09 =>
    nonzero w 255 233 || nonzero w 214 210 || nonzero w 194 192 || (!bitOf w 59 && nonzero w 232 219)
  | 0x0a => nonzero w 255 229 || nonzero w 197 192
  | 0x20 => nonzero w 223 200
  | 0x21 => nonzero w 255 219
  | 0x22 => nonzero w 255 247 || nonzero w 199 192
  | 0x23 => nonzero w 255 236 || nonzero w 199 192 || bitsOf w 235 234 == 3
  | 0x24 => if bitOf w 58 then nonzero w 241 234 else nonzero w 255 234
  | 0x25 => nonzero w 255 230
  | 0x40 => nonzero w 255 199
  | 0x41 => nonzero w 255 196
  | _ => false

/-- The same for the opcodes of Command Words II (R173, R181, R182, R189, R193, R194). -/
def lane3Bad2 (op w : Nat) : Bool :=
  match op with
  | 0x60 => nonzero w 255 248 || nonzero w 200 192
  | 0x61 | 0x62 => nonzero w 255 248 || nonzero w 217 210 || nonzero w 207 205 || bitsOf w 209 208 == 3
  | 0x63 | 0x64 => nonzero w 255 248 || nonzero w 217 205
  | 0x68 => nonzero w 255 220
  | 0x6f => nonzero w 255 248 || nonzero w 231 192
  | 0x80 | 0x81 => nonzero w 199 196
  | 0x82 => nonzero w 199 196 || (cwVariant w == 1 && bitOf w 58)
  | 0xa0 => nonzero w 255 224 || nonzero w 204 200
  | 0xa1 => nonzero w 255 219 || nonzero w 204 200
  | 0xa2 => nonzero w 255 204
  | 0xa3 => nonzero w 255 200
  | 0xa4 => nonzero w 255 196
  | 0xa5 => nonzero w 255 219 || nonzero w 204 196
  | 0xa6 => nonzero w 241 219 || nonzero w 204 196
  | 0xc0 => nonzero w 255 192
  | 0xc1 =>
    nonzero w 255 226 || nonzero w 198 192 || bitsOf w 225 214 == 0 ||
      2 ^ 20 < 32 * bitsOf w 213 199 + 32 * (bitsOf w 225 214 + 1)
  | 0xc2 => nonzero w 255 220 || nonzero w 199 192 || (!cwRsig w && nonzero w 219 200)
  | _ => false

/-- R47: whether a word is malformed in a queue of a kind. `byTail` tells that `chain.tail` published it (R194). -/
def malformed (kind : Nat) (byTail : Bool) (w : Nat) : Bool :=
  let op := cwOpcode w
  (match opcodeKind op with
    | none => true
    | some 0 => false
    | some k => k != kind) ||
  variantsOf op ≤ cwVariant w || cwOpflags w &&& (0x3F - opflagsOf op) != 0 ||
  footprintBad (cwRead0 w) || footprintBad (cwRead1 w) || footprintBad (cwWrite w) ||
  statusSlotBad (cwStatus w) || lane3Bad1 op w || lane3Bad2 op w || (byTail && op == 0xc1)

/-! ### Row bounds (R228) -/

/-- The accumulator rows a matrix word names at its publication: the accumulator and its rows. For `mma.grp` the rows
are the greatest crow + m of its list. -/
def accRows (s : State) (g w : Nat) (sh : Vector Word32 32) : Option (Nat × Nat) :=
  let acc := bitsOf w 199 198
  let m := shpVal sh (bitsOf w 204 200)
  match cwOpcode w with
  | 0x00 | 0x01 | 0x02 | 0x04 | 0x09 | 0x0a => some (acc, min m 128)
  | 0x03 =>
    let rows := (List.range (min m 256)).map fun i =>
      let e := spadNat s g (bitsOf w 228 215 * 64 + 8 * i) 8
      bitsOf e 47 32 + bitsOf e 31 16
    some (acc, min (rows.foldl max 0) 128)
  | 0x08 => some (acc, 128)
  | _ => none

/-- R228: the bound of an accumulator rises at a publication and never falls. -/
def Core.raiseBound (c : Core) (r : Option (Nat × Nat)) : Core :=
  match r with
  | none => c
  | some (a, rows) =>
    let i : Fin 4 := ⟨a % 4, Nat.mod_lt _ (by decide)⟩
    { c with acc := vput c.acc i { c.acc[i] with bound := max c.acc[i].bound rows } }

/-- R228: the row bound of a park target: a tile's configured rows, or an accumulator's bound. -/
def Core.rowBound (c : Core) (target : Nat) : Nat :=
  if target < 8 then (c.tcfg[target % 8]'(Nat.mod_lt _ (by decide))).rows
  else (c.acc[(target - 8) % 4]'(Nat.mod_lt _ (by decide))).bound

/-- Whether a park target is of the core's partition. -/
def Core.hasTarget (c : Core) (target : Nat) : Bool :=
  if target < 8 then target < c.tiles else target < 12 && target - 8 < c.accs

/-- R20, R228: free 16-row blocks of a target: 0 outside the partition. -/
def Core.freeBlocks (c : Core) (target : Nat) : Nat :=
  if c.hasTarget target then 8 - (c.rowBound target + 15) / 16 else 0

end Sys2Proof.Machine
end

