-- ==== Sys2Proof/Machine/Order.lean ====
section
/-! DEFINITION. The order of one sequencer's accesses (R18, R79, R235 to R237) and of its accesses against in-flight
commands (R239): when an element of a queued access may perform. -/
namespace Sys2Proof.Machine

/-! ### What an entry is -/

/-- R235: entries of the load queue. -/
def Entry.isLoad (e : Entry) : Bool :=
  match e.op with
  | .load .. | .lr .. | .stream .. | .vload .. | .rowRead .. | .hprobe .. => true
  | _ => false

/-- R235: entries of the store queue. -/
def Entry.isStore (e : Entry) : Bool :=
  match e.op with
  | .store | .sc .. | .amo .. | .vstore | .rowWrite .. | .binHdr .. | .binAdd .. | .mboxSend | .token .. | .publish .. => true
  | _ => false

/-- A marker enters both queues. -/
def Entry.isMarker (e : Entry) : Bool :=
  match e.op with
  | .marker .. => true
  | _ => false

/-- Entries that hold a place in the load queue: those that have not performed. -/
def loadCount (q : Seq) : Nat := (q.queue.filter fun e => !e.performed && (e.isLoad || e.isMarker)).length

/-- Entries that hold a place in the store queue. -/
def storeCount (q : Seq) : Nat := (q.queue.filter fun e => !e.performed && (e.isStore || e.isMarker)).length

/-- R18: 16 entries each. -/
def queueRoom (q : Seq) (loads stores : Nat) : Bool := loadCount q + loads ≤ 16 && storeCount q + stores ≤ 16

/-! ### Barriers (R85, R86) -/

/-- R86: the narrowest of `.core`, `.clu`, `.die` and `.pkg` that contains the rectangle. -/
def barrierScope (c : Core) : Scope :=
  let x1 := c.x0 + 2 ^ c.lw - 1
  let y1 := c.y0 + 2 ^ c.lh - 1
  if c.lw == 0 && c.lh == 0 then .core
  else if c.x0 / 2 == x1 / 2 && c.y0 / 2 == y1 / 2 then .clu
  else if c.x0 / 16 == x1 / 16 && c.y0 / 16 == y1 / 16 then .die
  else .pkg

/-- R85: the barrier after one more arrival; at the expected count the phase flips. -/
def Barrier.arrive (b : Barrier) : Barrier :=
  if b.count + 1 = b.expect then { b with count := 0, phase := !b.phase } else { b with count := b.count + 1 }

/-- A barrier of the launch that holds core g. -/
def State.barrierAt (s : State) (g : Nat) (k : Fin 16) : Barrier := ((s.nodeOf g).map fun n => n.barriers[k]).getD {}

/-- Replaces it. -/
def State.setBarrierAt (s : State) (g : Nat) (k : Fin 16) (b : Barrier) : State :=
  match (s.core g).node with
  | some id => s.modNode id fun n => { n with barriers := vput n.barriers k b }
  | none => s

/-- R85: sequencer j of core g arrives at barrier k. In a re-execution the launch's barrier has had this arrival and is not changed: its
phase counts as flipped for the sequencer (R327, log entry 42). -/
def State.arriveAt (s : State) (g j : Nat) (k : Fin 16) : State :=
  let b := s.barrierAt g k
  if s.replaying g then s.modSeqAt g j fun q => { q with r := { q.r with aphase := vput q.r.aphase k (!b.phase) } }
  else
  (s.modSeqAt g j fun q => { q with r := { q.r with aphase := vput q.r.aphase k b.phase } }).setBarrierAt g k b.arrive

/-! ### Points of coherence -/

/-- The package and die of an element's point of coherence. -/
def pointDie (s : State) (g : Nat) (e : Entry) (x : Elem) : Nat × Nat :=
  match e.op with
  | .token .. | .publish .. | .arrive .. => (s.pkgid, dieOfCore g)
  | _ => if e.va then (ownerPkg x.addr, ownerDie x.addr) else (s.pkgid, dieOfCore g)

/-- R236: whether an element's point of coherence lies within a scope of core g. -/
def inScope (s : State) (sc : Scope) (g : Nat) (e : Entry) (x : Elem) : Bool :=
  match sc, e.op with
  | .pod, _ => true
  | .pkg, _ => (pointDie s g e x).1 == s.pkgid
  | .die, _ => pointDie s g e x == (s.pkgid, dieOfCore g)
  | _, .publish .. | _, .arrive .. | .clu, .token .. => true
  | .core, .token .. | .seq, .token .. => false
  | .clu, _ => match x.loc with
    | .win g' _ => clusterOfCore g' == clusterOfCore g
    | _ => false
  | _, _ => match x.loc with
    | .win g' off => g' == g && winOf off != some .tok
    | _ => false

/-- R235, R8: whether an entry reads: a load-queue entry, a returning AMO or an SC. -/
def Entry.reads (e : Entry) : Bool :=
  e.isLoad ||
    match e.op with
    | .sc .. => true
    | .amo _ rd => rd != 0
    | _ => false

/-- R79: whether a marker of a kind orders an earlier entry before a later one. -/
def kindOrders (k : MarkKind) (earlier later : Entry) : Bool :=
  match k with
  | .acq => earlier.reads
  | .rel => later.isStore
  | .full => true

/-- Elements of an entry that have not performed. -/
def Entry.open_ (e : Entry) : List Elem := e.elems.filter fun x => !x.done

/-- R236: whether a marker holds an element of a later entry behind an earlier entry. -/
def markerHolds (s : State) (g : Nat) (sc : Scope) (k : MarkKind) (earlier later : Entry) (x : Elem) : Bool :=
  kindOrders k earlier later && inScope s sc g later x && earlier.open_.any fun y => inScope s sc g earlier y

/-! ### The same bytes -/

/-- The key of the location an element names; an accumulate alias is its scratchpad word (R241). A byte of another package
is told by the address that is sent there. -/
def locationKey (l : Loc) : Option Nat :=
  match l with
  | .remote p d a => some (remoteKey p d a)
  | x => x.bankKey

/-- Whether two elements touch a common byte. -/
def sameBytes (x y : Elem) : Bool :=
  match locationKey x.loc, locationKey y.loc with
  | some a, some b => a < b + y.n && b < a + x.n
  | _, _ => x.loc == y.loc && x.n != 0

/-- Whether a window's bytes are what was stored there last. -/
def plainWindow (off : Nat) : Bool := winOf off == some .spad || winOf off == some .tile || winOf off == some .acc

/-- Whether an element is a plain store whose bytes a later load can take from the queue (R18). -/
def forwards (e : Entry) (x : Elem) : Bool :=
  match e.op with
  | .store | .vstore =>
    match x.loc with
    | .win _ off => plainWindow off
    | .remote _ _ a => !isAperture a || plainWindow (apertureOff a)
    | .dram .. => true
    | _ => false
  | _ => false

/-- R18: the bytes of the sequencer's own earlier stores laid over a loaded value, oldest first. -/
def overlay (base n v : Nat) : List Entry → Nat
  | [] => v
  | e :: t =>
    let put := fun (acc : Nat) (x : Elem) =>
      match locationKey x.loc with
      | some a =>
        if x.done || !forwards e x then acc
        else
          leNat ((List.range n).map fun i =>
            let p := base + i
            if a ≤ p && p < a + x.n then
              match x.nib with
              | 1 => BitVec.ofNat 8 (acc / 2 ^ (8 * i) % 256 / 16 * 16 + x.data % 16)
              | 2 => BitVec.ofNat 8 (acc / 2 ^ (8 * i) % 16 + x.data % 16 * 16)
              | _ => BitVec.ofNat 8 (x.data / 2 ^ (8 * (p - a)))
            else BitVec.ofNat 8 (acc / 2 ^ (8 * i)))
      | none => acc
    overlay base n (if e.isStore then e.elems.foldl put v else v) t

/-- R112: whether the tail addition that places a record of an append is still to perform. A tail's element is numbered by its bin,
a record's by 128·bin and its place among the bin's records. -/
def Entry.tailOpen (e : Entry) (y : Elem) : Bool :=
  y.n == 8 && e.elems.any fun t => t.n == 4 && t.idx == y.idx / 128 && !t.done

/-- R112: whether a load may read what a part of an append writes: a record whose tail addition is still to perform may come to stand
anywhere in its bin of `cap` records. -/
def binMeets (e : Entry) (cap : Nat) (x y : Elem) : Bool :=
  let near := fun (a b : Nat) => decide (a < b + 8 * cap) && decide (b < a + x.n + 8 * cap)
  sameBytes x y ||
    (e.tailOpen y &&
      match x.loc, y.loc with
      | .win g o, .win g' p => g == g' && near (unalias o) p
      | _, _ => near x.addr.toNat y.addr.toNat)

/-- R18, R235: whether a load must wait for an earlier own store, since its bytes cannot be taken from the queue. -/
def loadWaits (s : State) (g : Nat) (earlier : Entry) (x : Elem) : Bool :=
  match earlier.op with
  | .publish q .. =>
    let b := (s.core g).queue q.val
    sameBytes x { n := 32 * b.n, loc := .win g b.base }
  | .binAdd _ _ _ cap _ => earlier.open_.any (binMeets earlier cap x)
  | _ => earlier.isStore && earlier.open_.any fun y => sameBytes x y && !forwards earlier y

/-- R4: an LR or an SC. The standard pairs an SC with the latest LR before it in program order, when no other SC stands
between them: they perform in program order. -/
def Entry.isReserving (e : Entry) : Bool :=
  match e.op with
  | .lr .. | .sc .. => true
  | _ => false

/-- Whether an element of an entry must wait for one earlier entry, with the markers that stand between them. A receive is
not yet served while it stands in the queue (R88); an arrival is released by every earlier access within its scope (R86). -/
def heldBy (s : State) (g : Nat) (earlier : Entry) (marks : List (Scope × MarkKind)) (e : Entry) (x : Elem) : Bool :=
  match earlier.op, e.op with
  | .marker .., _ | .arrive .., _ => false
  | .mboxRecv .., _ => true
  | _, .arrive .. => earlier.open_.any fun y => inScope s (barrierScope (s.core g)) g earlier y
  | _, _ =>
    ((earlier.isLoad && e.isLoad || earlier.isStore && e.isStore) &&
      (earlier.open_.any fun y => pointDie s g earlier y == pointDie s g e x)) ||
    (earlier.isReserving && e.isReserving) ||
    (e.isLoad && loadWaits s g earlier x) ||
    (marks.any fun m => markerHolds s g m.1 m.2 earlier e x)

/-- The markers of a list of entries. -/
def marksOf (l : List Entry) : List (Scope × MarkKind) :=
  l.filterMap fun e => match e.op with
    | .marker sc k => some (sc, k)
    | _ => none

/-- Whether some entry of a queue holds an element of a later entry. -/
def heldInQueue (s : State) (g : Nat) (e : Entry) (x : Elem) : List Entry → Bool
  | [] => false
  | y :: rest => (!y.performed && heldBy s g y (marksOf rest) e x) || heldInQueue s g e x rest

/-- A load that reads n bytes at a place, as an instruction reads them at its issue. -/
def Entry.reading (va : Bool) (x : Elem) : Entry := { op := .load .ld 0, va := va, elems := [x] }

/-- R18, R79, R88: whether what an instruction reads at its issue must wait for an earlier own access: for a store whose bytes
cannot be taken from the queue, a receive that is not served, or an access that a marker puts before every later one. -/
def readHeld (s : State) (g : Nat) (va : Bool) (x : Elem) : List Entry → Bool
  | [] => false
  | y :: rest =>
    (!y.performed &&
      ((match y.op with
        | .mboxRecv .. => true
        | _ => false) || loadWaits s g y x || (marksOf rest).any fun m => markerHolds s g m.1 m.2 y (.reading va x) x)) ||
      readHeld s g va x rest

/-! ### Footprints against sequencers (R239) -/

/-- Whether an access to units of the core's windows waits for an in-flight command's footprints. -/
def cmdHolds (s : State) (g : Nat) (write : Bool) (u : Footprint) (c : Cmd) : Bool :=
  let w := cmdWord s g c
  (cwOrdered w).any u.meets || (write && !c.hasRead && (cwReads w).any u.meets)

/-- R239 against every published command of the core. -/
def commandsHold (s : State) (g : Nat) (write : Bool) (u : Footprint) : Bool :=
  (List.range 16).any fun i =>
    ((s.core g).queue i).cmds.any (cmdHolds s g write u)

/-- R91, R92: where the words of a queued publication stand: at its source, or in the slots behind the tail. -/
def queuedWords (s : State) (g : Nat) (e : Entry) : List Nat :=
  match e.op with
  | .publish q first n src .. =>
    match src with
    | some off => [off]
    | none =>
      let b := (s.core g).queue q.val
      (List.range n).map fun i => slotOffset b ((b.tail + (first - (b.comp + b.cmds.length + 1)) + i) % b.n)
  | _ => []

/-- R239: a load against the sequencer's own publications still queued in `l`, which `before` precedes; own stores still
queued before a publication are seen in its words. -/
def queuedHold (s : State) (g : Nat) (u : Footprint) (before : List Entry) : List Entry → Bool
  | [] => false
  | e :: t =>
    ((queuedWords s g e).any fun off => (cwOrdered (overlay (winKey g off) 32 (spadNat s g off 32) before)).any u.meets) ||
      queuedHold s g u (before ++ [e]) t

/-- The place of an address of a mode, for a part of an instruction whose checks passed at acceptance; none where it does
not pass them now. -/
def placeNow (s : State) (g asid : Nat) (va : Bool) (k : AccKind) (a : Word) (n : Nat) : Loc :=
  if !va then (if a.toNat + n ≤ 2 ^ 20 then .win g a.toNat else .absent)
  else
    match resolve s g asid k a n .accepted with
    | .ok l => l
    | _ => .absent

/-- Whether footprints hold an access of core g to n bytes at a place. -/
def footprintsAt (s : State) (g : Nat) (before : List Entry) (e : Entry) (n : Nat) (l : Loc) : Bool :=
  match l with
  | .win g' off =>
    g' == g &&
      match unitsOf off n with
      | some u => commandsHold s g e.isStore u || (e.isLoad && queuedHold s g u [] before)
      | none => false
  | _ => false

/-- R91, R239: the 32 bytes that a publication copies, which it reads as a load does; and what it waits for otherwise. -/
def copyHolds (s : State) (g : Nat) (before : List Entry) (e : Entry) : Bool :=
  match e.op with
  | .publish _ _ _ (some off) .. =>
    match unitsOf off 32 with
    | some u => commandsHold s g false u || queuedHold s g u [] before
    | none => false
  | _ => false

/-- Whether footprints hold an element of an access of core g. -/
def footprintsHold (s : State) (g : Nat) (before : List Entry) (e : Entry) (x : Elem) : Bool :=
  (x.n != 0 && footprintsAt s g before e x.n x.loc) || copyHolds s g before e

/-- The ready flag whose upper half, with ready set, a store of an element writes, by its window offset (R242). -/
def risesAt (off data : Nat) : Bool := winOf off == some .flag && (off - 0x1DA000) % 16 == 8 && bitOf data 32

/-- R243: a store that raises a ready flag performs after every earlier access of its sequencer. A store that sets a flag
of another package may raise it. -/
def riseHolds (s : State) (before : List Entry) (x : Elem) : Bool :=
  (match x.loc with
    | .win g off => risesAt off x.data && !(tabGet {} (s.core g).flags ((off - 0x1DA000) / 16)).ready
    | .remote _ _ a => isAperture a && risesAt (apertureOff a) x.data
    | _ => false) && before.any fun e => !e.isMarker && !e.performed

/-- R112: a record of an append is written after the addition that places it. -/
def recordWaits (e : Entry) (x : Elem) : Bool :=
  match e.op with
  | .binAdd .. => e.tailOpen x
  | _ => false

/-- Whether element el of entry idx of a sequencer's queue may perform now (R18, R112, R235 to R239, R243); elements of a store
that meet perform in ascending index (R108). -/
def canPerform (s : State) (g k idx el : Nat) : Bool :=
  let q := (s.seqAt g k).queue
  match q[idx]? with
  | none => false
  | some e =>
    match e.elems[el]? with
    | none => false
    | some x =>
      !x.done && !recordWaits e x && !heldInQueue s g e x (q.take idx) && !footprintsHold s g (q.take idx) e x &&
        !(e.isStore && (riseHolds s (q.take idx) x || (e.elems.take el).any fun y => !y.done && sameBytes y x))

/-- A marker that empties the scalar data cache (R79). -/
def emptiesCache (e : Entry) : Bool :=
  match e.op with
  | .marker .clu .acq | .marker .clu .full | .marker .die .acq | .marker .die .full | .marker .pkg .acq
  | .marker .pkg .full | .marker .pod .acq | .marker .pod .full => true
  | _ => false

/-- Whether an entry is finished with: performed, and acknowledged where that is awaited. -/
def Entry.ended (e : Entry) : Bool :=
  e.performed && e.acked &&
    match e.op with
    | .load .. | .lr .. | .sc .. | .stream .. => false
    | .amo _ rd => rd == 0
    | .vload _ _ marksEmpty _ _ => !marksEmpty
    | .hprobe .. | .rowRead .. => false
    | _ => true

/-- Drops the entries that are over, and the markers before which nothing is left to perform; tells whether such a
marker empties the scalar data cache. `pending` tells whether an earlier entry is still to perform. -/
def settle : Bool → List Entry → List Entry × Bool
  | _, [] => ([], false)
  | pending, e :: t =>
    if e.ended then settle pending t
    else if e.isMarker && !pending then
      let (r, f) := settle pending t
      (r, f || emptiesCache e)
    else
      let (r, f) := settle (pending || !e.performed) t
      (e :: r, f)

/-- Settles a sequencer's queue. -/
def State.settleQueue (s : State) (g k : Nat) : State :=
  let (l, f) := settle false (s.seqAt g k).queue
  let s := s.modSeqAt g k fun q => { q with queue := l }
  if f then s.modCore g fun c => { c with dcache := [] } else s

/-- Adds entries to a sequencer's queue. -/
def State.enqueue (s : State) (g k : Nat) (l : List Entry) : State :=
  (s.modSeqAt g k fun q => { q with queue := q.queue ++ l }).settleQueue g k

end Sys2Proof.Machine
end

