-- ==== Sys2Proof/Machine/Access.lean ====
section
/-! DEFINITION. The life of an access: its entry into a queue, acceptance by its owner (R250), performing at its point of
coherence (R234), return and acknowledgement; and publication (R91, R92) and mailbox claims (R88). -/
namespace Sys2Proof.Machine

/-! ### Translation caches and samples (R249, R251, R254) -/

/-- R254's type code of an access. -/
def sampleType : AccKind → Nat
  | .load | .lr | .vload => 0
  | .store | .vstore | .mbox => 1
  | .amo | .sc => 2
  | .engRead => 3
  | .engWrite => 4
  | .fetch => 5

/-- R254: the 32-byte sample record of an access by core g of a package. -/
def sampleRecord (s : State) (pkg g : Nat) (k : AccKind) (fwd : Bool) (va : Word) : List Byte :=
  leBytes 8 va.toNat ++ leBytes 8 (s.cycle * 10 / 21) ++
    leBytes 16 (g + dieOfCore g * 2 ^ 10 + pkg * 2 ^ 12 + sampleType k * 2 ^ 24 + (if fwd then 2 ^ 28 else 0))

/-- R254: counts a translated access and writes one in N to the die's ring; a record that would overwrite an unread one
is dropped and counted. -/
def State.sample (s : State) (d pkg g : Nat) (k : AccKind) (fwd : Bool) (va : Word) : State :=
  let x := s.die d
  let c := x.sampleCount + 1
  if c < x.sampleN then s.setDie d { x with sampleCount := c }
  else if x.ringSlots ≤ x.ringUnread then s.setDie d { x with sampleCount := 0, sampleDrops := x.sampleDrops + 1 }
  else
    let pa := x.ringBase + 32 * x.ringHead
    ((s.setDie d { x with sampleCount := 0, ringHead := (x.ringHead + 1) % x.ringSlots, ringUnread := x.ringUnread + 1 }).putMem
      (dramKey d pa) (sampleRecord s pkg g k fwd va)).noteWrite (.dram d pa) (dramKey d pa) 32

/-- Fills a TLB of a given size with a page, the oldest entry leaving when it is full (log entry 15). -/
def fillTlb (l : List TlbEntry) (size asid page bytes : Nat) : List TlbEntry :=
  if l.any fun e => e.asid == asid && e.page == page then l
  else (if l.length < size then l else l.tail) ++ [⟨asid, page, bytes, 0⟩]

/-- The entry that leaves a TLB of a given size when a page enters it. -/
def leavesTlb (l : List TlbEntry) (size asid page : Nat) : List TlbEntry :=
  if (l.any fun e => e.asid == asid && e.page == page) || l.length < size then [] else l.take 1

/-- R254: counts an access in the entry of an acnt page; the count saturates at 16 bits. -/
def countTlb (l : List TlbEntry) (asid page : Nat) : List TlbEntry :=
  l.map fun e => if e.asid == asid && e.page == page then { e with count := min (e.count + 1) 0xFFFF } else e

/-- R249, R251, R254: what a translated access of core g of a package leaves in the TLBs and the sample ring. -/
def State.noteAccess (s : State) (pkg g asid : Nat) (k : AccKind) (va : Word) : State :=
  if isAperture va || ownerPkg va != s.pkgid then s
  else
    let d := ownerDie va
    match walk s d asid (vaOffset va) with
    | none => s
    | some l =>
      let page := va.toNat - vaOffset va % l.size
      let x := s.die d
      let t := fillTlb x.tlb 8192 asid page l.size
      let s := s.setDie d { x with tlb := if l.acnt then countTlb t asid page else t,
                                   counts := x.counts ++ leavesTlb x.tlb 8192 asid page }
      let s := if pkg == s.pkgid && dieOfCore g == d then
          s.modCore g fun c => { c with l1tlb := fillTlb c.l1tlb 192 asid page l.size } else s
      s.sample d pkg g k l.fwd va

/-- The same for an access of this package. -/
def State.noteTranslation (s : State) (g asid : Nat) (k : AccKind) (va : Word) : State := s.noteAccess s.pkgid g asid k va

/-! ### Results of scalar accesses -/

/-- Bytes of a scalar load or store form. -/
def loadBytes : LoadKind → Nat
  | .lb | .lbu => 1
  | .lh | .lhu => 2
  | .lw | .lwu | .flw => 4
  | .ld => 8

def storeBytes : StoreKind → Nat
  | .sb => 1
  | .sh => 2
  | .sw | .fsw => 4
  | .sd => 8

def amoBytes : AmoWidth → Nat
  | .word => 4
  | .dword => 8

/-- The value a load form writes, from its bytes. -/
def loadExtend (k : LoadKind) (v : Nat) : Word :=
  match k with
  | .lb => ofSigned (sextN 8 v)
  | .lh => ofSigned (sextN 16 v)
  | .lw => ofSigned (sextN 32 v)
  | .ld | .lbu | .lhu | .lwu | .flw => BitVec.ofNat 64 v

/-- A word or doubleword as an AMO, LR or SC returns it: sign-extended. -/
def amoExtend (w : AmoWidth) (v : Nat) : Word := ofSigned (sextN (8 * amoBytes w) v)

/-- The new memory value of a standard AMO on the low n bits (R4). -/
def amoInt (op : AmoOp) (bits old src : Nat) : Nat :=
  let a := old % 2 ^ bits
  let b := src % 2 ^ bits
  match op with
  | .swap => b
  | .add => (a + b) % 2 ^ bits
  | .xor => a ^^^ b
  | .and => a &&& b
  | .or => a ||| b
  | .min => if sextN bits b < sextN bits a then b else a
  | .max => if sextN bits a < sextN bits b then b else a
  | .minu => if b < a then b else a
  | .maxu => if a < b then b else a

/-- R81: the new memory word of a floating-point AMO; no flag is raised. -/
def amoFp (op : FAmoOp) (old b : Nat) : Nat :=
  match op with
  | .add => (fpAdd 1 .rne old b).bits
  | .min | .max =>
    if isNan 1 old then quietNan 1 old else if isNan 1 b then quietNan 1 b else orderedPick 1 (op == .max) old b
  | .minnum | .maxnum =>
    if isNan 1 old && isNan 1 b then canonNan 1
    else if isNan 1 old then b
    else if isNan 1 b then old
    else orderedPick 1 (op == .maxnum) old b

/-- The new value of any AMO. -/
def amoNew (k : AmoKind) (old src : Nat) : Nat :=
  match k with
  | .int op w => amoInt op (8 * amoBytes w) old src
  | .fp op => amoFp op old (src % 2 ^ 32)

/-- The value any AMO returns. -/
def amoReturn (k : AmoKind) (old : Nat) : Word :=
  match k with
  | .int _ w => amoExtend w old
  | .fp _ => ofSigned (sextN 32 old)

/-! ### Entering the queue -/

/-- The markers that aq and rl stand for (R8): before and after the operation. Both bits stand for a full marker; R8 does
not say on which side, and it is placed on both (DESIGN CHOICE, log entry 64). -/
def amoMarks (aq rl : Bool) : List Entry × List Entry :=
  let m := fun k => [({ op := .marker .pod k } : Entry)]
  match aq, rl with
  | true, true => (m .full, m .full)
  | true, false => ([], m .acq)
  | false, true => (m .rel, [])
  | false, false => ([], [])

/-- What an access is, to R231 and R253. -/
def EntryOp.accKind : EntryOp → AccKind
  | .load .. | .stream .. => .load
  | .lr .. => .lr
  | .sc .. => .sc
  | .amo .. => .amo
  | .vload .. => .vload
  | .vstore | .binAdd .. => .vstore
  | .binHdr .. => .vload
  | .mboxSend => .mbox
  | _ => .store

/-- R253: kinds that an absent owner traps. The header read of a `bin.add` traps as a load (DESIGN CHOICE, log entry 65). -/
def trapsOnAbsent (op : EntryOp) : Bool :=
  match op with
  | .load .. | .lr .. | .sc .. | .stream .. | .vload .. | .binHdr .. => true
  | .amo _ rd => rd != 0
  | _ => false

/-- R12, R106 checks 1 and 2 at the issuing core, in mode 1: alignment, then the form of an aperture address. -/
def localCheck (va : Word) (n : Nat) : Option Answer :=
  if n != 0 && va.toNat % n != 0 then some .misalign
  else if isAperture va && !apertureForm va then some .access
  else none

/-! ### Acceptance (R250, R106) -/

/-- Whether an element lies in an accumulate alias, where it is combined with what stands there (R241). -/
def aliasElem (x : Elem) : Bool := isAperture x.addr && unalias (apertureOff x.addr) != apertureOff x.addr

/-- Whether the elements of a vector store write all 64 bytes of a line, so that they clear its poison (R247). -/
def wholeLine (op : EntryOp) (l : List Elem) (line : Nat) : Bool :=
  match op with
  | .vstore => (List.range 64).all fun b =>
      let here := l.filter fun y => y.addr.toNat ≤ 64 * line + b && 64 * line + b < y.addr.toNat + y.n && !aliasElem y
      here.any (fun y => y.nib == 0) || (here.any (fun y => y.nib == 1) && here.any fun y => y.nib == 2)
  | _ => false

/-- What another package answers element i. -/
def verdictAt (r : RemoteAnswer) (i : Nat) : RemoteVerdict := r.verdicts.getD i .accepted

/-- The answer to one element of an access. -/
def answerElem (s : State) (g asid : Nat) (op : EntryOp) (x : Elem) (r : RemoteVerdict) : Answer :=
  match localCheck x.addr x.n with
  | some a => a
  | none =>
    match op with
    | .mboxSend =>
      if ownerAbsent s (ownerPkg x.addr) (ownerDie x.addr) then .absent
      else if ownerPkg x.addr != s.pkgid then remoteLoc x.addr r
      else
        let t := apertureCore x.addr
        if t == g || ((s.core t).node.isSome && (s.core t).asid == asid) then .ok (.win t (apertureOff x.addr)) else .access
    | _ => resolve s g asid op.accKind x.addr x.n r

/-- R247, R308 step 9: the first element whose line is poisoned, unless the access writes the whole line. Of several, the lowest
index decides, as R106 has it for the checks before (DESIGN CHOICE, log entry 73). -/
def hurtElem (s : State) (op : EntryOp) (l : List Elem) : Option Elem :=
  l.find? fun x => poisoned s x.loc x.n && !wholeLine op l (x.addr.toNat / 64)

/-- The address a trap on an element reports; for `mbox.send` the operand itself (R87). -/
def Elem.trapVal (x : Elem) (op : EntryOp) : Word :=
  match op with
  | .mboxSend => BitVec.ofNat 64 x.idx
  | _ => x.addr

/-- What the acceptance of all elements comes to. -/
inductive Accepted where
  | all (l : List Elem)
  | trap (cause : Nat) (tval : Word)
  deriving DecidableEq, Repr

/-- R106: the elements in ascending index; the first check that fails on the lowest-indexed one decides. The element in front has
the position i. -/
def acceptElems (s : State) (g asid : Nat) (op : EntryOp) (r : RemoteAnswer) (i : Nat) : List Elem → Accepted
  | [] => .all []
  | x :: t =>
    let keep := fun (l : Loc) => match acceptElems s g asid op r (i + 1) t with
      | .all xs => .all ({ x with loc := l } :: xs)
      | y => y
    match answerElem s g asid op x (verdictAt r i) with
    | .ok l => keep l
    | .misalign => .trap causeMisalign (x.trapVal op)
    | .access => .trap causeAccess (x.trapVal op)
    | .xlat => .trap causeXlat (x.trapVal op)
    | .absent => if trapsOnAbsent op then .trap causeOwnerAbsent (x.trapVal op) else keep .absent
    | .memory => .trap causeMemory (x.trapVal op)

/-- What an accepted entry changes in the sequencer at once: a destination marked empty or busy (R33, R97, R103). -/
def Seq.markDest (q : Seq) (e : Entry) : Seq :=
  match e.op with
  | .load .flw rd => { q with fbusy := vput q.fbusy rd true }
  | .load _ rd | .lr _ rd | .sc _ rd => { q with r := q.r.markX rd false }
  | .amo _ rd => { q with r := q.r.markX rd false }
  | .stream rd fibre _ k pos =>
    let r := q.r.markX rd false
    { q with r := if fibre then { r with fb := vput r.fb k { r.fb[k] with pos := pos + 1 } }
                  else { r with sm := vput r.sm k { r.sm[k] with pos := pos + 1 } } }
  | .vload vd tag marksEmpty _ _ =>
    let r := { q.r with vtag := vput q.r.vtag vd tag }
    if e.elems.isEmpty then { q with r := r }
    else if marksEmpty then { q with r := { r with vfull := vput r.vfull vd false } }
    else { q with r := r, vbusy := vput q.vbusy vd true }
  | .rowRead vd .. => { q with r := { q.r with vfull := vput q.r.vfull vd false } }
  | .hprobe vd .. =>
    let r := { q.r with vtag := vput q.r.vtag vd 7 }
    if e.elems.isEmpty then { q with r := r } else { q with r := { r with vfull := vput r.vfull vd false } }
  | _ => q

/-- Whether an element's part of an access is dropped at its acceptance: its owner is absent (R253), or that of the tail that is to
place it (R112). A record's own owner is judged when its tail has placed it. -/
def droppedElem (op : EntryOp) (l : List Elem) (x : Elem) : Bool :=
  match op with
  | .binAdd .. => l.any fun t => t.n == 4 && t.loc == .absent && t.idx == if x.n == 4 then x.idx else x.idx / 128
  | _ => x.loc == .absent

/-- An entry accepted with its elements' places: those at an absent owner are dropped (R253). An access that another
die or package performs awaits an acknowledgement. -/
def Entry.accept (e : Entry) (l : List Elem) : Entry :=
  let live := l.filter fun x => !droppedElem e.op l x
  { e with elems := live, performed := live.isEmpty, acked := live.isEmpty || !e.isStore,
           dropped := e.dropped || l.any (droppedElem e.op l) }

/-- R253: a store instruction that meets an absent owner is counted once. -/
def State.countDropped (s : State) (g : Nat) (before after : Entry) : State :=
  if after.dropped && !before.dropped then s.countAbsent g 1 else s

/-- An accepted access takes its place in the queue, with its markers, and its destination is marked. -/
def State.letIn (s : State) (g k : Nat) (p : Pending) (e : Entry) : State :=
  (s.modSeqAt g k fun q => { q.markDest e with pending := none }).enqueue g k (p.pre ++ [e] ++ p.post)

/-! ### Appends to bins, judged at issue (R112) -/

/-- A bin header. -/
structure BinHeader where
  regions : Nat
  shift : Nat
  cap : Nat
  base : Nat
  ok : Bool
  deriving DecidableEq, Repr

/-- Reads R112's field map. -/
def binHeader (h : Nat) : BinHeader :=
  let regions := bitsOf h 110 104
  let shift := bitsOf h 103 96
  let cap := bitsOf h 95 64
  let base := bitsOf h 63 0
  ⟨regions, shift, cap, base,
   bitsOf h 511 111 == 0 && 1 ≤ regions && regions ≤ 64 && shift ≤ 31 && 1 ≤ cap && cap ≤ 2 ^ 31 && base % 8 == 0⟩

/-- Pairs grouped by bin: the bins in ascending order, each with its pairs in order. -/
def binGroups (shift : Nat) (l : List (Nat × Nat)) (regions : Nat) : List (Nat × List (Nat × Nat)) :=
  (List.range regions).filterMap fun r =>
    match l.filter fun p => p.1 / 2 ^ shift == r with
    | [] => none
    | x => some (r, x)

/-- The bin headers of the open region: their modes and addresses, at most eight (R264). -/
def Seq.headers (q : Seq) : List (Bool × Word) := ((q.region.map (·.tails)).getD []).map fun t => (t.va, t.hdr)

/-- R264: whether a header is checkpointed, or one more may be. -/
def canCheckpoint (hs : List (Bool × Word)) (h : Bool × Word) : Bool := hs.contains h || hs.length < 8

/-- R264: an append that is to come takes a header's place among the eight; its tails are copied when it performs. -/
def Seq.reserveHeader (q : Seq) (h : Bool × Word) : Seq :=
  if q.headers.contains h then q
  else { q with region := q.region.map fun r => { r with tails := r.tails ++ [⟨h.1, h.2, []⟩] } }

/-- What an append comes to once its header is read: a trap, or the entry with the elements that R106 checks. -/
inductive BinPlan where
  | trap (cause : Nat) (tval : Word)
  | go (e : Entry) (checked : List Elem)
  deriving DecidableEq, Repr

/-- n bytes at a place as a load that sees the sequencer's own queued stores; what another package holds is given. -/
def seenNat (s : State) (l : Loc) (n : Nat) (q : List Entry) (data : List Byte) : Nat :=
  let v := match l with
    | .remote .. => leNat (data.take n)
    | _ => readLoc s l n
  match locationKey l with
  | some k => overlay k n v q
  | none => v

/-- A tail as the instruction finds it at issue, for the record addresses it checks. -/
def tailNow (s : State) (g asid : Nat) (va : Bool) (hdr : Word) (r : Nat) (q : List Entry) (data : List Byte) : Nat :=
  seenNat s (placeNow s g asid va .load (hdr + BitVec.ofNat 64 (64 + 4 * r)) 4) 4 q (data.drop (64 + 4 * r))

/-- R112: the address of record j of bin r. -/
def recordAddr (base : Word) (cap r j : Nat) : Word := base + BitVec.ofNat 64 (8 * (r * cap + j))

/-- R112: the checks on the header's map and on the regions, and then the elements: the tails, and the records where the tails as
they stand at issue, or at acceptance in mode 1, put them. R106 checks those tails alone that an addition reaches, all of them before
the records below cap (DESIGN CHOICE, log entry 65). -/
def planAppend (s : State) (g asid : Nat) (va region : Bool) (hdr : Word) (header : Nat) (recs : List (Nat × Nat)) (q : List Entry)
    (data : List Byte) : BinPlan :=
  let h := binHeader header
  if !h.ok then .trap causeAccess hdr
  else
    match recs.find? fun p => h.regions ≤ p.1 / 2 ^ h.shift with
    | some p => .trap causeAccess (BitVec.ofNat 64 p.1)
    | none =>
      let bins := binGroups h.shift recs h.regions
      let place := fun (k : AccKind) (a : Word) (n : Nat) => if va then placeNow s g asid true k a n else .win g a.toNat
      let tails := bins.map fun b =>
        let a := hdr + BitVec.ofNat 64 (64 + 4 * b.1)
        ({ idx := b.1, addr := a, n := 4, data := b.2.length, loc := place .vstore a 4 } : Elem)
      let records := bins.flatMap fun b =>
        let t0 := tailNow s g asid va hdr b.1 q data
        b.2.zipIdx.map fun e =>
          let a := recordAddr (BitVec.ofNat 64 h.base) h.cap b.1 (t0 + e.2)
          (decide (t0 + e.2 < h.cap),
            ({ idx := 128 * b.1 + e.2, addr := a, n := 8, data := e.1.1 + e.1.2 * 2 ^ 32, loc := place .vstore a 8 } : Elem))
      .go { op := .binAdd va region (BitVec.ofNat 64 h.base) h.cap hdr, va := va, elems := tails ++ records.map (·.2) }
        (tails ++ (records.filter (·.1)).map (·.2))

/-- The header that a virtual append reads, its own stores seen. -/
def headerNow (s : State) (l : Loc) (q : List Entry) (r : RemoteAnswer) : Nat := seenNat s l 64 q r.data

/-- R18, R79, R88, R239: whether a read that an instruction makes at issue must wait: for an own access that is still queued, or for
an in-flight command that is to write there. -/
def issueReadWaits (s : State) (g : Nat) (q : List Entry) (va : Bool) (x : Elem) : Bool :=
  readHeld s g va x q ||
    match x.loc with
    | .win g' off =>
      g' == g && match unitsOf off x.n with
        | some u => commandsHold s g false u || queuedHold s g u [] q
        | none => false
    | _ => false

/-! ### The event of acceptance -/

/-- R249, R251, R254: what the accesses of an instruction leave in the TLBs and the sample ring. -/
def State.noteElems (s : State) (g asid : Nat) (k : AccKind) (l : List Elem) : State :=
  l.foldl (fun t x => t.noteTranslation g asid k x.addr) s

/-- R15: what a sequencer waited for has come about: it becomes ready in the next cycle (`endCycle`). -/
def State.awaitCycle (s : State) (g k : Nat) : State :=
  s.modSeqAt g k fun q => if q.status == .ready then { q with status := .blocked } else q

/-- An access whose elements are all accepted takes its place and its instruction retires. -/
def State.acceptAll (s : State) (g k : Nat) (p : Pending) (l : List Elem) : State :=
  let e := p.entry.accept l
  (((s.countDropped g p.entry e).letIn g k p e).countRetired g k).goTo g k ((s.seqAt g k).r.pc + 4)

/-- An accessing instruction traps precisely. -/
def State.refuseAccess (s : State) (g k cause : Nat) (tval : Word) : State :=
  (s.setSeqAt g k { s.seqAt g k with pending := none }).takeTrap g k cause tval

/-- The elements of an append with the places that were accepted. -/
def placedElems (accepted l : List Elem) : List Elem :=
  l.map fun x => match accepted.find? fun y => y.idx == x.idx && y.n == x.n with
    | some y => { x with loc := y.loc }
    | none => x

/-- An append in mode 1: the header first (R112), then the tails and the records (R106). -/
def acceptAppend (s : State) (g k : Nat) (p : Pending) (hdr : Word) (recs : List (Nat × Nat)) (h : Elem) (r : RemoteAnswer) :
    State :=
  let q := s.seqAt g k
  if issueReadWaits s g q.queue true h then s
  else
    match planAppend s g q.asid true q.region.isSome hdr (headerNow s h.loc q.queue r) recs q.queue r.data with
    | .trap cause tval => s.refuseAccess g k cause tval
    | .go e checked =>
      match acceptElems s g q.asid e.op r 1 checked with
      | .trap cause tval => s.refuseAccess g k cause tval
      | .all l =>
        match hurtElem s e.op l with
        | some x => s.refuseAccess g k causeMemory x.addr
        | none =>
          (((s.noteElems g q.asid .vload [h]).noteElems g q.asid .vstore l).modSeqAt g k fun q => q.reserveHeader (true, hdr)).acceptAll
            g k { p with entry := e } (placedElems l e.elems)

/-- ACCESS_ACCEPT (R250): the owner judges the access that sequencer (g, k) waits on; the instruction then retires, or
traps precisely. The sequencer goes on in the next cycle (R15). -/
def acceptAccess (s : State) (g k : Nat) (r : RemoteAnswer) : State :=
  let q := s.seqAt g k
  match q.pending with
  | none => s
  | some p =>
    (match acceptElems s g q.asid p.entry.op r 0 p.entry.elems with
      | .trap cause tval => s.refuseAccess g k cause tval
      | .all l =>
        match hurtElem s p.entry.op l, p.entry.op, l with
        | some x, _, _ => s.refuseAccess g k causeMemory (x.trapVal p.entry.op)
        | none, .binHdr hdr recs, x :: _ => acceptAppend s g k p hdr recs x r
        | none, _, _ => (s.noteElems g q.asid p.entry.op.accKind l).acceptAll g k p l).awaitCycle g k

/-! ### Performing -/

/-- R249, R234: whether a scalar load may use the scalar data cache: its line belongs to its own die. -/
def cacheable (s : State) (g : Nat) (x : Elem) : Bool :=
  match x.loc with
  | .dram .. => !isAperture x.addr && ownerPkg x.addr == s.pkgid && ownerDie x.addr == dieOfCore g
  | _ => false

/-- R234: the bytes of a line as the cache holds them. -/
def cachedLine (c : Core) (line : Nat) : Option (List Byte) := (c.dcache.find? fun l => l.line == line).map (·.bytes)

/-- R14, R234: fills a line; the cache holds 512 lines, the oldest leaving (log entry 15). -/
def Core.fillLine (c : Core) (line : Nat) (b : List Byte) : Core :=
  let rest := c.dcache.filter fun l => l.line != line
  { c with dcache := (if rest.length < 512 then rest else rest.tail) ++ [⟨line, b⟩] }

/-- What a load reads at its point of coherence, or in the scalar data cache, before forwarding; and the state with the
line a miss fills. -/
def readElem (s : State) (g : Nat) (scalar : Bool) (before : List Entry) (x : Elem) (c : PerformChoice) : State × Nat :=
  match x.loc with
  | .remote .. => (s, leNat (c.data.take x.n))
  | _ =>
    if scalar && cacheable s g x && !(before.any emptiesCache) then
      let key := x.loc.key.getD 0
      match c.useCache, cachedLine (s.core g) (key / 64) with
      | true, some b => (s, leNat ((b.drop (key % 64)).take x.n))
      | _, _ =>
        (s.modCore g fun co => co.fillLine (key / 64) (memBytes s.mem (key / 64 * 64) 64), readLoc s x.loc x.n)
    else (s, readLoc s x.loc x.n)

/-- The value a load element gets: read, with the sequencer's own queued stores laid over it (R18). -/
def loadElem (s : State) (g : Nat) (scalar : Bool) (before : List Entry) (x : Elem) (c : PerformChoice) : State × Nat :=
  let (s, v) := readElem s g scalar before x c
  match locationKey x.loc with
  | some key => (s, overlay key x.n v before)
  | none => (s, v)

/-- Marks an element done, with the value it loaded; the entry has performed when all have. -/
def Entry.finishElem (e : Entry) (el v : Nat) : Entry :=
  let l := e.elems.zipIdx.map fun x => if x.2 == el then { x.1 with done := true, data := v } else x.1
  { e with elems := l, performed := l.all fun x => x.done }

/-- Replaces an entry of a queue and settles the queue. -/
def State.putEntry (s : State) (g k idx : Nat) (e : Entry) : State :=
  (s.modSeqAt g k fun q => { q with queue := q.queue.set idx e }).settleQueue g k

/-- Element i's bits of a register under a tag (R56). -/
def getElem (t : Nat) (v : VBits) (i : Nat) : Nat := v.toNat / 2 ^ (tagBits t * i) % 2 ^ tagBits t

/-- The register with element i's bits replaced (R56). -/
def setElem (t : Nat) (v : VBits) (i b : Nat) : VBits :=
  let w := tagBits t
  v &&& ~~~(BitVec.ofNat 4096 ((2 ^ w - 1) * 2 ^ (w * i))) ||| BitVec.ofNat 4096 (b % 2 ^ w * 2 ^ (w * i))

/-- The value a vector load element writes: a nibble of its byte under a 4-bit tag. -/
def Elem.picked (x : Elem) (v : Nat) : Nat :=
  match x.nib with
  | 1 => v % 16
  | 2 => v / 16 % 16
  | _ => v

/-- Writes the loaded element into its register; `vld.b` into every active element (R108). -/
def Seq.loadInto (q : Seq) (vd : Fin 32) (tag : Nat) (bcast : Bool) (mask : PBits) (x : Elem) (v : Nat) : Seq :=
  let val := x.picked v
  let new :=
    if bcast then (List.range (elemsOf tag)).foldl (fun a i => if mask.getLsbD i then setElem tag a i val else a) q.r.v[vd]
    else setElem tag q.r.v[vd] x.idx val
  { q with r := { q.r with v := vput q.r.v vd new } }

/-- R111: the entries one probe reads, from slot h; `fuel` bounds it by the table's size. -/
def probeFrom (s : State) (g base size h key : Nat) (before : List Entry) : Nat → List (Nat × Nat)
  | 0 => []
  | fuel + 1 =>
    let o := base + 8 * (h % size)
    let e := overlay (winKey g o) 8 (spadNat s g o 8) before
    (h % size, e) ::
      if e % 2 ^ 32 == key || e % 2 ^ 32 == 0xFFFFFFFF then [] else probeFrom s g base size (h + 1) key before fuel

/-- R111: the entries that the probe of a key reads. -/
def probeOf (s : State) (g base lg key : Nat) (before : List Entry) : List (Nat × Nat) :=
  if key == 0xFFFFFFFF then []
  else probeFrom s g base (2 ^ lg) (key * 0x9E3779B1 % 2 ^ 32 / 2 ^ (32 - lg)) key before (2 ^ lg)

/-- The slots that the probe reads. -/
def probePath (s : State) (g base lg key : Nat) (before : List Entry) : List Nat := (probeOf s g base lg key before).map (·.1)

/-- R111: the value of one active element. -/
def hprobeElem (s : State) (g base lg key : Nat) (before : List Entry) : Nat :=
  match (probeOf s g base lg key before).getLast? with
  | some (_, e) => if e % 2 ^ 32 == key then e / 2 ^ 32 else 0xFFFFFFFF
  | none => 0xFFFFFFFF

/-- R112: an addition to a tail places the records of its bin from j = t0 up: a record at or above cap is not written, nor one whose
address no longer passes its checks, because another appender has moved the tail since (DESIGN CHOICE, log entry 65). One whose owner
is absent is left to be counted (R253). -/
def Entry.placeRecords (s : State) (g asid : Nat) (va : Bool) (base : Word) (cap r t0 : Nat) (e : Entry) : Entry :=
  let l := e.elems.map fun x =>
    if x.n == 8 && x.idx / 128 == r && !x.done then
      let a := recordAddr base cap r (t0 + x.idx % 128)
      let loc := placeNow s g asid va .vstore a 8
      let lost := va && ownerAbsent s (ownerPkg a) (ownerDie a)
      { x with addr := a, loc := loc, done := cap ≤ t0 + x.idx % 128 || (loc == .absent && !lost) }
    else x
  { e with elems := l, performed := l.all fun x => x.done }

/-- R264: the first append in a region to a header copies its 64 tails, before its own additions. -/
def Seq.fillTails (q : Seq) (va : Bool) (hdr : Word) (tails : List Nat) : Seq :=
  let fill := fun (r : Region) =>
    if r.tails.any fun t => t.va == va && t.hdr == hdr then
      { r with tails := r.tails.map fun t => if t.va == va && t.hdr == hdr && t.tails.isEmpty then { t with tails := tails } else t }
    else { r with tails := r.tails ++ [⟨va, hdr, tails⟩] }
  { q with region := q.region.map fill }

/-- The 64 tails behind a header, as they stand; those in another package's memory are given. -/
def readTails (s : State) (g asid : Nat) (va : Bool) (hdr : Word) (data : List Byte) : List Nat :=
  (List.range 64).map fun r =>
    seenNat s (placeNow s g asid va .load (hdr + BitVec.ofNat 64 (64 + 4 * r)) 4) 4 [] (data.drop (4 * r))

/-- The mailbox a send names, from the aperture address that stands for it. -/
def mailSlot (off : Nat) : Nat := (off - 0x1D8000) / 8 % 8

/-- R87: whether a mailbox has room. -/
def mailRoom (c : Core) (mb : Nat) : Bool := (c.mbox[mb % 8]'(Nat.mod_lt _ (by decide))).msgs.length < 8

/-- Whether an element's own place lets it perform: a mailbox with room (R87, R233). -/
def placeReady (s : State) (x : Elem) : Bool :=
  match x.loc with
  | .win g off => if winOf off == some .mbox then mailRoom (s.core g) (mailSlot off) else true
  | _ => true

/-- The bits of a row that the active elements of a tag occupy. -/
def rowBits (t : Nat) (mask : PBits) : Nat :=
  ((List.range (elemsOf t)).map fun i => if mask.getLsbD i then (2 ^ tagBits t - 1) * 2 ^ (tagBits t * i) else 0).sum

/-- R247: whether a row move meets damage: a line of the row that it reads, or that it writes in part. -/
def rowHurt (s : State) (g off bits : Nat) (write : Bool) : Bool :=
  (List.range 8).any fun i =>
    let part := bits / 2 ^ (512 * i) % 2 ^ 512
    s.poison.contains (winKey g off / 64 + i) && part != 0 && !(write && part == 2 ^ 512 - 1)

/-- The tag of a row: a park row's park tag (R110), else the tile's tag (R109). -/
def rowTag (c : Core) (park : Bool) (off : Nat) : Nat :=
  if park then tabGet 0 c.park (parkRow off) else (c.tcfg[(off - 0x100000) / 0x10000 % 8]'(Nat.mod_lt _ (by decide))).tag

/-- The tag that earlier own entries still queued leave a park row with: a `vpark` its own, any other write none (R110). -/
def queuedParkTag (g off : Nat) (q : List Entry) : Option Nat :=
  q.reverse.findSome? fun e =>
    if e.performed then none
    else if !(e.open_.any fun x => match x.loc with
        | .win g' o => g' == g && 0x100000 ≤ o && o < 0x1D0000 && parkRow o == parkRow off
        | _ => false) then none
    else
      match e.op with
      | .rowWrite p _ => some (p.getD 0)
      | .store | .vstore => some 0
      | _ => none

/-- R109, R110: the tag with which a read of a row gives its result, own queued stores seen (R18). -/
def rowTagSeen (s : State) (g off : Nat) (park : Bool) (q : List Entry) : Nat :=
  if park then (queuedParkTag g off q).getD (rowTag (s.core g) true off) else rowTag (s.core g) false off

/-- R253: a load whose owner became absent after acceptance ends its sequencer; a store is counted. -/
def lostOwner (s : State) (e : Entry) (x : Elem) : Bool := e.va && ownerAbsent s (ownerPkg x.addr) (ownerDie x.addr)

/-- R247, R313: a line found poisoned at the access; a write of all 64 bytes would clear it. -/
def meetsPoison (s : State) (g : Nat) (e : Entry) (x : Elem) (before : List Entry) : Bool :=
  match e.op with
  | .hprobe _ base lg => (probePath s g base lg x.data before).any fun o => poisoned s (.win g (base + 8 * o)) 8
  | .rowRead _ park mask => match x.loc with
    | .win g' off => rowHurt s g' off (rowBits (rowTagSeen s g' off park before) mask) false
    | _ => false
  | .rowWrite _ mask => match x.loc with
    | .win g' off => rowHurt s g' off mask true
    | _ => false
  | _ => poisoned s x.loc x.n && !wholeLine e.op e.elems (x.addr.toNat / 64)

/-- The lines of a row that a masked write reaches, each written whole with what it does not reach merged. -/
def State.writeRow (s : State) (w : Writer) (g off mask data : Nat) : State :=
  (List.range 8).foldl (fun t i =>
    let part := mask / 2 ^ (512 * i) % 2 ^ 512
    let old := memNat s.mem (winKey g off + 64 * i) 64
    if part == 0 then t
    else t.writeWin w g (off + 64 * i)
      (leBytes 64 ((old &&& (2 ^ 512 - 1 - part)) ||| (data / 2 ^ (512 * i) % 2 ^ 512 &&& part)))) s

/-- Whether a sequencer holds the reservation that an SC on a place needs (R4, R8): its latest LR named the line. -/
def reservedAt (q : Seq) (l : Loc) : Bool :=
  match q.resv.bind locationKey, locationKey l with
  | some a, some b => a / 64 == b / 64
  | _, _ => false

/-- R277: the request that asks another package for an element's access: what it is, and its bytes. -/
def Entry.request (e : Entry) (x : Elem) : SentKind × List Byte :=
  match e.op with
  | .lr .. => (.lr, leBytes 1 x.n)
  | .sc .. => (.sc, leBytes x.n x.data)
  | .amo .. => (.amo, leBytes x.n x.data)
  | .mboxSend => (.mbox, leBytes x.n x.data)
  | .store => (.store, leBytes x.n x.data)
  | .vstore =>
    if x.nib == 0 then (.store, leBytes x.n x.data)
    else (.nibble, [if x.nib == 2 then 1 else 0, BitVec.ofNat 8 (x.data % 16)])
  | .binAdd .. => (if x.n == 4 then .amo else .store, leBytes x.n x.data)
  | _ => (.load, leBytes 1 x.n)

/-- The request for an element leaves for its package. -/
def State.sendElem (s : State) (g k idx el : Nat) (e : Entry) (p d : Nat) (a : Word) (x : Elem) : State :=
  let r := e.request x
  (s.send ⟨p, d, a, r.1, r.2⟩).modSeqAt g k fun q =>
    { q with queue := q.queue.set idx { e with elems := e.elems.set el { x with sent := some s.outbox.length } } }

/-- An element's bytes reach their place. An element of another package has performed there, as its acknowledgement tells; the
watches of this package over it learn of it (R261). -/
def State.writeElem (s : State) (w : Writer) (x : Elem) (b : List Byte) (vec : Bool) : State :=
  match x.loc with
  | .remote p d a => s.invalidateWatches (remoteKey p d a) x.n
  | l => (s.keepSides l x.n).writeLoc w l b vec

/-- The value in place of an element that is combined with it: what another package has returned, or what stands here. -/
def oldValue (s : State) (x : Elem) (c : PerformChoice) : Nat :=
  match x.loc with
  | .remote .. => leNat (c.data.take x.n)
  | l => readLoc s l x.n

/-- One element of an entry performs (R234); one of another package is done once its acknowledgement, with the value that it returns,
has come. The entry's own meaning decides what it reads and writes. -/
def performOp (s : State) (g k idx el : Nat) (e : Entry) (x : Elem) (before : List Entry) (c : PerformChoice) : State :=
  let w := Writer.seq g k
  let asid := (s.seqAt g k).asid
  match e.op with
  | .load .. =>
    let (s, v) := loadElem s g true before x c
    s.putEntry g k idx (e.finishElem el v)
  | .stream .. =>
    let (s, v) := if x.idx == 1 then (s, x.data) else loadElem s g true before x c
    s.putEntry g k idx (e.finishElem el v)
  | .lr .. =>
    let (s, v) := loadElem s g false before x c
    (s.modSeqAt g k fun q => { q with resv := some x.loc }).putEntry g k idx (e.finishElem el v)
  | .sc .. =>
    let ok := if x.loc.isRemote then x.sent.isSome && c.data.head? == some 0 else reservedAt (s.seqAt g k) x.loc
    let s := if ok then s.writeElem w x (leBytes x.n x.data) false else s
    (s.modSeqAt g k fun q => { q with resv := none }).putEntry g k idx (e.finishElem el (if ok then 0 else 1))
  | .amo kind _ =>
    let old := oldValue s x c
    (s.writeElem w x (leBytes x.n (amoNew kind old x.data)) false).putEntry g k idx (e.finishElem el old)
  | .store => (s.writeElem w x (leBytes x.n x.data) false).putEntry g k idx (e.finishElem el x.data)
  | .vstore =>
    let s := if poisoned s x.loc x.n then s.clearPoison ((x.loc.bankKey.getD 0) / 64 * 64) 64 else s
    (if x.nib == 0 || x.loc.isRemote then s.writeElem w x (leBytes x.n x.data) true
     else (s.keepSides x.loc x.n).writeNibble w x.loc (x.nib == 2) x.data).putEntry g k idx (e.finishElem el x.data)
  | .vload vd tag marksEmpty bcast mask =>
    let (s, v) := loadElem s g false before x c
    let e' := e.finishElem el v
    let s := s.modSeqAt g k fun q =>
      let q := q.loadInto vd tag bcast mask x v
      if e'.performed && !marksEmpty then { q with vbusy := vput q.vbusy vd false } else q
    s.putEntry g k idx e'
  | .hprobe vd base lg =>
    let v := hprobeElem s g base lg x.data before
    (s.modSeqAt g k fun q => { q with r := { q.r with v := vput q.r.v vd (setElem 7 q.r.v[vd] x.idx v) } }).putEntry
      g k idx (e.finishElem el v)
  | .binAdd va region base cap hdr =>
    if x.n == 4 then
      let s := if region then s.modSeqAt g k fun q => q.fillTails va hdr (readTails s g asid va hdr (c.data.drop 4)) else s
      let t0 := oldValue s x c
      (s.writeElem w x (leBytes 4 ((t0 + x.data) % 2 ^ 32)) true).putEntry g k idx
        ((e.finishElem el x.data).placeRecords s g asid va base cap x.idx t0)
    else (s.writeElem w x (leBytes 8 x.data) true).putEntry g k idx (e.finishElem el x.data)
  | .mboxSend =>
    match x.loc with
    | .win t off =>
      let s := if t == g then s else s.record t 1 0 (0x1D8000 + 8 * mailSlot off) 8 x.data
      (s.modCore t fun co => co.postMail (mailSlot off) (BitVec.ofNat 64 x.data)).putEntry g k idx (e.finishElem el 0)
    | _ => s.putEntry g k idx (e.finishElem el 0)
  | .token set slot =>
    (s.putToken (clusterOfCore g) slot set false (some g)).putEntry g k idx (e.finishElem el 0)
  | .rowRead vd park mask =>
    let off := match x.loc with
      | .win _ o => o
      | _ => 0
    let t := rowTagSeen s g off park before
    let v := overlay (winKey g off) 512 (memNat s.mem (winKey g off) 512) before
    let new := (List.range (elemsOf t)).foldl
      (fun (a : VBits) i => if mask.getLsbD i then setElem t a i (v / 2 ^ (tagBits t * i)) else a) (s.seqAt g k).r.v[vd]
    (s.modSeqAt g k fun q => { q with r := { q.r with v := vput q.r.v vd new, vtag := vput q.r.vtag vd t } }).putEntry
      g k idx (e.finishElem el 0)
  | .rowWrite park mask =>
    let off := match x.loc with
      | .win _ o => o
      | _ => 0
    let s := s.writeRow w g off mask x.data
    let s := match park with
      | some t => s.modCore g fun co => { co with park := tabPut co.park (parkRow off) t }
      | none => s
    s.putEntry g k idx (e.finishElem el 0)
  | .arrive b => (s.arriveAt g k b).putEntry g k idx (e.finishElem el 0)
  | .binHdr .. | .mboxRecv .. | .publish .. | .marker .. => s

/-- The windows whose stores perform under rows of their own (R232, R233, R241, R242). -/
def ownRow (e : Entry) (x : Elem) : Option Win :=
  match e.op, x.loc with
  | .store, .win _ off | .vstore, .win _ off =>
    match winOf off with
    | some .vreg => some .vreg
    | some .mbox => some .mbox
    | some .tok => some .tok
    | some .flag => some .flag
    | some .iacc | some .facc => some .iacc
    | _ => none
  | _, _ => none

/-- R329: a cell of the loss matrix gains 1 and saturates. -/
def Core.lose (c : Core) (p : Nat × Nat) : Core :=
  if p.1 < 14 && p.2 < 32 then { c with loss := tabPut c.loss (32 * p.1 + p.2) (min (tabGet 0 c.loss (32 * p.1 + p.2) + 1) (2 ^ 32 - 1)) }
  else c

/-- R329: the bank of a window offset. -/
def bankOf (off : Nat) : Nat := off / 64 % 32

/-- Whether an open element of an entry has an access for a bank of core g's scratchpad. -/
def wantsBank (g b : Nat) (x : Elem) : Bool :=
  !x.done && match x.loc with
    | .win t off => t == g && off < 0x100000 && (bankOf off == b || bankOf (off + (x.n - 1)) == b)
    | _ => false

/-- Whether an operation is one of the vector pipes'. -/
def EntryOp.isVector : EntryOp → Bool
  | .vload .. | .vstore | .hprobe .. | .binHdr .. | .binAdd .. | .rowRead .. | .rowWrite .. => true
  | _ => false

/-- R329: the requester of an engine's command. -/
def engineRequester (op : Nat) : Nat :=
  if op < 0x20 then 9
  else if [0x20, 0x24, 0x25].contains op then 10
  else if op < 0x60 then 11
  else if 0x80 ≤ op && op < 0xc0 then 12 else 14

/-- R329: whether requester r has an access ready for bank b of core g: a sequencer's or the vector pipes' in their queues, an engine's
of a command at the core; another master's may come at any time. -/
def readyFor (s : State) (g : Nat) (p : Nat × Nat) : Bool :=
  let queued := fun (k : Nat) (vec : Bool) => (s.seqAt g k).queue.any fun e => e.op.isVector == vec && e.elems.any (wantsBank g p.2)
  if p.1 < 8 then queued p.1 false
  else if p.1 == 8 then (List.range 8).any fun k => queued k true
  else if p.1 < 13 then (List.range 16).any fun i => ((s.core g).queue i).cmds.any fun c =>
    c.word.any fun w => engineRequester (cwOpcode w.toNat) == p.1
  else p.1 == 13

/-- R329: the losses of the cycles that pass with a scratchpad access, of those that had an access ready (log entry 45); and R299. -/
def State.countLosses (s : State) (l : Loc) (lost : List (Nat × Nat)) : State :=
  match l with
  | .win g _ =>
    let real := lost.filter (readyFor s g)
    (if real.isEmpty then s else s.modCore g fun c => real.foldl Core.lose c).noteSpill g
  | _ => s

/-- Whether an element's point of coherence is outside the core. -/
def Elem.outside (x : Elem) (g : Nat) : Bool :=
  match x.loc with
  | .win t _ => t != g
  | _ => true

/-- R326: whether an operation returns a value. -/
def EntryOp.returnsValue : EntryOp → Bool
  | .load .. | .lr .. | .sc .. | .stream .. | .vload .. => true
  | .amo _ rd => rd != 0
  | _ => false

/-- R326: records the value that an access from outside the core returned. -/
def State.recordReturn (s : State) (g k idx el : Nat) (e : Entry) (x : Elem) : State :=
  if e.op.returnsValue && x.outside g then
    match ((s.seqAt g k).queue[idx]?).bind fun e' => e'.elems[el]? with
    | some y => s.record g 0 k x.addr.toNat x.n y.data
    | none => s
  else s

/-- R327: in a re-execution an element outside the core takes the recorded value, when its event is due, and writes
nothing. -/
def replayElem (s : State) (g k idx el : Nat) (e : Entry) (x : Elem) : State :=
  let r := s.group g
  let put := fun (s : State) (v : Nat) =>
    let e' := e.finishElem el v
    let s := match e.op with
      | .vload vd tag marksEmpty bcast mask => s.modSeqAt g k fun q =>
          let q := q.loadInto vd tag bcast mask x v
          if e'.performed && !marksEmpty then { q with vbusy := vput q.vbusy vd false } else q
      | _ => s
    s.putEntry g k idx e'
  if !e.op.returnsValue then put s x.data
  else
    match r.feed with
    | some (ev :: rest) =>
      if ev.kind == 0 && ev.k == k && ev.count == (s.seqAt g k).rwcount && ev.addr == x.addr.toNat && ev.n == x.n then
        put (s.setGroup g { r with feed := some rest, fed := r.fed + 1 }) ev.data
      else s
    | _ => s

/-- R253: a sequencer whose value will not come ends faulted; one that has done so already is recorded once (R205). -/
def State.endLost (s : State) (g k : Nat) (addr : Word) : State :=
  if (s.seqAt g k).faulted then s else s.endFaulted g k causeOwnerAbsent (s.seqAt g k).r.pc addr

/-- The destination of an access that does not perform is as it was (R23). -/
def Seq.unmarkDest (q : Seq) (e : Entry) : Seq :=
  match e.op with
  | .load .flw rd => { q with fbusy := vput q.fbusy rd false }
  | .load _ rd | .lr _ rd | .sc _ rd | .amo _ rd | .stream rd .. => { q with r := q.r.markX rd true }
  | .vload vd _ true _ _ | .hprobe vd .. | .rowRead vd .. => { q with r := { q.r with vfull := vput q.r.vfull vd true } }
  | .vload vd _ false _ _ => { q with vbusy := vput q.vbusy vd false }
  | _ => q

/-- Whether an access is over with the first of its elements that cannot be had: one that loads, or returns a value. -/
def endsWhole (e : Entry) : Bool := e.isLoad || trapsOnAbsent e.op

/-- An element that does not perform; with a tail go the records that it was to place. -/
def Entry.dropElem (e : Entry) (el : Nat) (x : Elem) : Entry :=
  let isBin := match e.op with
    | .binAdd .. => x.n == 4
    | _ => false
  let l := (e.finishElem el x.data).elems.map fun y => if isBin && y.n == 8 && y.idx / 128 == x.idx then { y with done := true } else y
  { e with elems := l, performed := l.all fun y => y.done }

/-- R247, R308, R313: an accepted access that meets a damaged line does not perform, and ends its sequencer faulted at that point: its
fault is no longer precise (DEDUCED, log entry 66). -/
def State.endDamaged (s : State) (g k idx el : Nat) (e : Entry) (x : Elem) : State :=
  let s := if endsWhole e then s.modSeqAt g k fun q => { q.unmarkDest e with queue := q.queue.eraseIdx idx }
    else s.putEntry g k idx (e.dropElem el x)
  (if (s.seqAt g k).faulted then s else s.endFaulted g k causeMemory (s.seqAt g k).r.pc x.addr).settleQueue g k

/-- R253: an accepted access whose owner has become absent: a load ends its sequencer faulted, a store is counted. -/
def State.loseElem (s : State) (g k idx el : Nat) (e : Entry) (x : Elem) : State :=
  let s : State := { s with unacked := s.unacked.filter fun u => some u.n != x.sent }
  if endsWhole e then ((s.modSeqAt g k fun q => { q with queue := q.queue.eraseIdx idx }).endLost g k x.addr).settleQueue g k
  else
    let e' := e.dropElem el x
    (if e.dropped then s else s.countAbsent g 1).putEntry g k idx { e' with dropped := true, acked := e'.performed }

/-- Whether an element is to be asked of another package first (R277). An SC whose reservation is gone fails here. -/
def asksFirst (q : Seq) (e : Entry) (x : Elem) : Bool :=
  x.sent.isNone && match e.op with
    | .sc .. => reservedAt q x.loc
    | _ => true

/-- An element performs at its place; one of another package is asked for there, and done when it is acknowledged. -/
def State.performElem (s : State) (g k idx el : Nat) (e : Entry) (x : Elem) (c : PerformChoice) : State :=
  let q := s.seqAt g k
  let perform := (performOp (s.countLosses x.loc c.lost) g k idx el e x (q.queue.take idx) c).recordReturn g k idx el e x
  match x.loc with
  | .remote p d a =>
    if asksFirst q e x then s.sendElem g k idx el e p d a x
    else if x.sent.all s.isAcked then perform else s
  | _ => perform

/-- An element performs, when it may, under the row `want` asks for; otherwise nothing happens. -/
def performIn (s : State) (g k idx el : Nat) (c : PerformChoice) (want : Option Win) : State :=
  let q := (s.seqAt g k).queue
  match q[idx]? with
  | none => s
  | some e =>
    match e.elems[el]? with
    | none => s
    | some x =>
      if !canPerform s g k idx el || ownRow e x != want || !placeReady s x then s
      else if s.replaying g && x.outside g then replayElem s g k idx el e x
      else if lostOwner s e x then s.loseElem g k idx el e x
      else if meetsPoison s g e x (q.take idx) then s.endDamaged g k idx el e x
      else (s.performElem g k idx el e x c).track s.outbox.length g none

/-! ### Returns (R33, R97, R103, R250) -/

/-- The value an entry returns to an x register, with the register. -/
def Entry.returns (e : Entry) : Option (XReg × Word) :=
  let d := (e.elems.head?.map (·.data)).getD 0
  match e.op with
  | .load .flw _ => none
  | .load k rd => some (rd, loadExtend k d)
  | .lr w rd => some (rd, amoExtend w d)
  | .sc _ rd => some (rd, BitVec.ofNat 64 d)
  | .amo k rd => if rd == 0 then none else some (rd, amoReturn k d)
  | .stream rd fibre sext _ pos =>
    let n := (e.elems.head?.map (·.n)).getD 1
    some (rd, if fibre then BitVec.ofNat 64 (d + pos * 2 ^ 32)
              else if sext then ofSigned (sextN (8 * n) d) else BitVec.ofNat 64 d)
  | _ => none

/-- LOAD_RETURN: a performed load's value reaches its register, which becomes full. -/
def returnLoad (s : State) (g k idx : Nat) : State :=
  match (s.seqAt g k).queue[idx]? with
  | none => s
  | some e =>
    if !e.performed then s
    else if endsWhole e && e.elems.any (lostOwner s e) then
      ((s.modSeqAt g k fun q => { q with queue := q.queue.eraseIdx idx }).endLost g k ((e.elems.head?.map (·.addr)).getD 0)).settleQueue g k
    else
      let drop := fun (q : Seq) => { q with queue := q.queue.eraseIdx idx }
      match e.op, e.returns with
      | .load .flw rd, _ =>
        let w := BitVec.ofNat 32 ((e.elems.head?.map (·.data)).getD 0)
        (s.modSeqAt g k fun q =>
          drop { q with fbusy := vput q.fbusy rd false, r := { q.r with f := vput q.r.f rd w } }).settleQueue g k
      | _, some (rd, v) =>
        (s.modSeqAt g k fun q => drop { q with r := (q.r.wx rd v).markX rd true }).settleQueue g k
      | _, none => s

/-- VECTOR_DEST_FULL: every element of a gather, row read, unpark or probe has been written (R103). -/
def fillVector (s : State) (g k idx : Nat) : State :=
  match (s.seqAt g k).queue[idx]? with
  | none => s
  | some e =>
    let full := fun (vd : Fin 32) =>
      (s.modSeqAt g k fun q =>
        { q with queue := q.queue.eraseIdx idx, r := { q.r with vfull := vput q.r.vfull vd true } }).settleQueue g k
    match e.performed, e.op with
    | true, .vload vd _ true _ _ => full vd
    | true, .hprobe vd .. => full vd
    | true, .rowRead vd .. => full vd
    | _, _ => s

/-- ACKNOWLEDGEMENT: a performed store is acknowledged (R250, R255). -/
def acknowledge (s : State) (g k idx : Nat) : State :=
  match (s.seqAt g k).queue[idx]? with
  | some e => if e.performed && !e.acked then s.putEntry g k idx { e with acked := true } else s
  | none => s

/-! ### Publication (R91, R92, R144) -/

/-- The commands a publication adds, numbered from `first`, in the slots from the tail on. -/
def newCmds (q : Queue) (k asid first tail stamp : Nat) (byTail : Bool) (sh : Vector Word32 32)
    (ly : Vector (BitVec 128) 16) (tcfg : Vector TileCfg 8) : Nat → List Cmd
  | 0 => []
  | m + 1 =>
    { num := first, slot := slotOffset q tail, byTail := byTail, by_ := k, asid := asid, sh := sh, ly := ly, tcfg := tcfg,
      stamp := stamp } ::
    newCmds q k asid (first + 1) ((tail + 1) % q.n) (stamp + 1) byTail sh ly tcfg m

/-- R194: at its publication a `chain.link` moves the tail to slot 0 of its new ring; every other word advances it. -/
def Queue.afterPut (q : Queue) (n w : Nat) (byTail : Bool) : Queue :=
  if cwOpcode w == 0xc1 && !malformed q.kind byTail w then
    { q with base := 32 * bitsOf w 213 199, n := bitsOf w 225 214 + 1, tail := 0 }
  else { q with tail := (q.tail + n) % q.n }

/-- R148, R247: a command whose word was damaged at its source when the publication was to copy it completes MEMORY-ERROR, as one does
whose ring slot is damaged (DESIGN CHOICE, log entry 66). -/
def Cmd.lost (unit : Nat) (c : Cmd) : Cmd := { c with word := some 0, fired := true, st := some ⟨0xB, 0, unit⟩ }

/-- The sequencer that was to copy the word ends faulted. -/
def State.endDamagedCopy (s : State) (g k off : Nat) : State :=
  if (s.seqAt g k).faulted then s else s.endFaulted g k causeMemory (s.seqAt g k).r.pc (BitVec.ofNat 64 off)

/-- COMMAND_PUBLISH: a queued publication performs once its queue has room, in the order of the assigned numbers. -/
def publishCommand (s : State) (g k idx : Nat) : State :=
  let sq := s.seqAt g k
  match sq.queue[idx]? with
  | none => s
  | some e =>
    match e.op with
    | .publish q first n src sh ly tcfg =>
      let qu := (s.core g).queue q.val
      if !canPerform s g k idx 0 || qu.n < qu.cmds.length + n + 1 || first != qu.comp + qu.cmds.length + 1 then s
      else
        let hurt := src.filter fun off => poisoned s (.win g off) 32
        let s := match if hurt.isSome then none else src with
          | some off => s.writeSpad (.seq g k) g (slotOffset qu qu.tail) (leBytes 32 (spadNat s g off 32))
          | none => s
        let cmds := newCmds qu k sq.asid first qu.tail (s.core g).published src.isNone sh ly tcfg n
        let w := spadNat s g (slotOffset qu qu.tail) 32
        match hurt with
        | some off =>
          let s := s.modCore g fun c =>
            { c.setQueue q.val { qu.afterPut n 0 src.isNone with cmds := qu.cmds ++ cmds.map (Cmd.lost (off / 64)) } with
              published := c.published + n }
          (s.putEntry g k idx { e with performed := true, elems := [] }).endDamagedCopy g k off
        | none =>
          let rows := cmds.map fun c => accRows s g (spadNat s g c.slot 32) sh
          let s := s.modCore g fun c =>
            let c := c.setQueue q.val { qu.afterPut n w src.isNone with cmds := qu.cmds ++ cmds }
            rows.foldl Core.raiseBound { c with published := c.published + n }
          s.putEntry g k idx { e with performed := true, elems := [] }
    | _ => s

/-! ### Mailboxes (R88, R313) -/

/-- Whether an entry is a claim on mailbox j. -/
def Entry.claims (e : Entry) (j : Fin 8) : Bool :=
  match e.op with
  | .mboxRecv _ i => i == j
  | _ => false

/-- Whether nothing in sequencer k's queue holds its claim on mailbox j. -/
def claimReady (s : State) (g k : Nat) (j : Fin 8) : Bool :=
  let q := (s.seqAt g k).queue
  match q.findIdx? fun e => e.claims j with
  | some idx =>
    let e := q[idx]?.getD { op := .mboxRecv 0 j }
    !heldInQueue s g e (e.elems.headD {}) (q.take idx)
  | none => true

/-- MBOX_CLAIM_SERVED: the oldest claim on a mailbox takes the oldest message. An acquire of scope `.pod` stands in its place from then
on (R88), which also empties the scalar data cache (R79). A claim waits for what its sequencer's markers order before it (R79), and
for its earlier claims (R88). A damaged message ends the claimant. -/
def serveClaim (s : State) (g mb : Nat) : State :=
  let i : Fin 8 := ⟨mb % 8, Nat.mod_lt _ (by decide)⟩
  let m := (s.core g).mbox[i]
  match m.msgs, m.claims with
  | v :: msgs, k :: claims =>
    if !claimReady s g k i then s
    else
      let hurt := m.bad.contains 0
      let m' : Mailbox := ⟨msgs, claims, (m.bad.filter (· != 0)).map (· - 1)⟩
      let s := s.modCore g fun c => { c with mbox := vput c.mbox i m' }
      let q := s.seqAt g k
      let rd := ((q.queue.find? fun e => e.claims i).map fun e => match e.op with
        | .mboxRecv r _ => r
        | _ => 0).getD 0
      let s := s.record g 2 k i.val 8 v.toNat
      let s := s.setSeqAt g k
        { q with queue := q.queue.map fun e => if e.claims i then { op := .marker .pod .acq } else e, r := (q.r.wx rd v).markX rd true }
      let s := s.settleQueue g k
      if hurt then s.endFaulted g k causeMemory (s.seqAt g k).r.pc (BitVec.ofNat 64 i.val) else s
  | _, _ => s

end Sys2Proof.Machine
end

