-- ==== Sys2Proof/Machine/Operands.lean ====
section
/-! DEFINITION. Operand forms: how an instruction word names its sources and destination, the checks it makes on them in
the order of R308, the active elements of a vector word (R32), format tags (R58) and register groups (R104). -/
namespace Sys2Proof.Machine

/-! ### The current instruction -/

/-- The address of the current instruction. -/
def State.pc (s : State) : Word := s.me.r.pc

/-- The encoded word of an instruction, which some traps report (R16, R71, R90, R104). -/
def wordOf (i : Instr) : Word := BitVec.ofNat 64 ((encode i).getD 0)

/-- Whether the current sequencer has an idempotent region open (R98). -/
def State.inRegion (s : State) : Bool := s.me.region.isSome

/-- R267: an access to an accumulate alias (R241) inside a region. -/
def regionAlias (s : State) (va : Word) : Bool :=
  s.inRegion && isAperture va &&
    (winOf (apertureOff va) == some .iacc || winOf (apertureOff va) == some .facc)

/-- R18: a full queue blocks the next access of its kind. -/
def needRoom (s : State) (loads stores : Nat) : Check := blockIf (!queueRoom s.me loads stores)

/-- A scalar source or destination f register awaiting a load blocks. -/
def needF (s : State) (l : List XReg) : Check := blockIf (l.any fun i => s.me.fbusy[i])

/-- An access enters the queue and waits for its owner to accept it (R250). -/
def State.await (s : State) (pre : List Entry) (e : Entry) (post : List Entry) : State :=
  s.setMe { s.me with pending := some ⟨pre, e, post⟩ }

/-- An access that needs no acceptance enters the queue at once. -/
def State.enter (s : State) (pre : List Entry) (e : Entry) (post : List Entry) : State :=
  s.letIn s.cur.1 s.cur.2 ⟨pre, e, post⟩ e

/-- R6, R12: the checks a scalar access makes at the issuing core. -/
def scalarChecks (va : Word) (n : Nat) : List Check :=
  [trapIf (va.toNat % n != 0) causeMisalign va, trapIf (isAperture va && !apertureForm va) causeAccess va]

/-! ### Vector sources and destinations (R31 to R34) -/

/-- R16: a vector word needs a vector context. -/
def needCtx (s : State) (w : Word) : Check := trapIf (!s.me.r.vctx) causeAccess w

/-- The physical register of a vector name. -/
def State.vphys (s : State) (j : XReg) : Fin 32 := rotV s.me.r.vrb j

/-- R33: a marked source that is empty traps EMPTY; an unmarked one blocks. Marked sources are judged first; of several that are
empty, tval names the first in the list that the form gives (DESIGN CHOICE, log entry 71). -/
def needV (s : State) (l : List (XReg × Bool)) : List Check :=
  l.map (fun e => trapIf (e.2 && !s.me.r.vfull[s.vphys e.1]) causeEmpty (BitVec.ofNat 64 (32 + (s.vphys e.1).val))) ++
    [blockIf (l.any fun e => !s.me.vReady (s.vphys e.1))]

/-- R34: a destination that is empty, or still being written, blocks. -/
def needVd (s : State) (l : List XReg) : Check := blockIf (l.any fun j => !s.me.vReady (s.vphys j))

/-- The tag of a vector name. -/
def State.vtagOf (s : State) (j : XReg) : Nat := s.me.r.vtag[s.vphys j]

/-- The bytes of a vector name. -/
def State.vget (s : State) (j : XReg) : VBits := s.me.r.v[s.vphys j]

/-- Writes a vector name's bytes and tag. -/
def State.vset (s : State) (j : XReg) (v : VBits) (t : Nat) : State :=
  s.modRegs fun r => { r with v := vput r.v (rotV r.vrb j) v, vtag := vput r.vtag (rotV r.vrb j) t }

/-! ### Tags (R58) -/

/-- `tval` of a FORMAT trap. -/
def formatVal (expected found reg : Nat) : Word := BitVec.ofNat 64 (expected * 2 ^ 12 + found * 2 ^ 8 + reg)

/-- R58 items 3 and 4: a tag outside the accepted set traps FORMAT, or FORMAT-EMULATE for tags 5 and 6 where the
instruction accepts tags 1 to 4; `emu` is set when Derdengo serves the instruction (R62). -/
def tagCheck (accepted : List Nat) (emu : Bool) (t reg : Nat) : Check :=
  if accepted.contains t then none
  else
    let v := formatVal (accepted.foldl min 15) t reg
    if (t == 5 || t == 6) && [1, 2, 3, 4].all accepted.contains then (if emu then none else some (.emulate v))
    else some (.trap causeFormat v)

/-- The register number a FORMAT trap reports for a vector name (R58). -/
def State.vreg (s : State) (j : XReg) : Nat := 32 + (s.vphys j).val

/-- A source of an accepted tag. -/
def needTag (s : State) (accepted : List Nat) (emu : Bool) (j : XReg) : Check :=
  tagCheck accepted emu (s.vtagOf j) (s.vreg j)

/-- A mismatch between two sources that must agree: found is the second one's tag. -/
def sameTag (s : State) (expected : Nat) (t : Nat) (j : XReg) : Check :=
  if s.vtagOf j == t then none else some (.trap causeFormat (formatVal expected (s.vtagOf j) (s.vreg j)))

/-! ### Active elements (R32, R104) -/

/-- R70 active. -/
def State.active (s : State) (qp : PReg) (i : Nat) : Bool := (s.me.r.rp qp).getLsbD i

/-- The active elements among the first n, ascending. -/
def State.actives (s : State) (qp : PReg) (n : Nat) : List Nat := (List.range n).filter (s.active qp)

/-- R32: a destination that keeps bytes at an inactive element must be untyped or hold the result tag. -/
def destTag (s : State) (qp : PReg) (n result : Nat) (vd : XReg) : Check :=
  let t := s.vtagOf vd
  if t == 0 || t == result || (s.actives qp n).length == n then none
  else some (.trap causeFormat (formatVal result t (s.vreg vd)))

/-- Member m of a register group named from vg (R104). -/
def groupName (vg : XReg) (m : Nat) : XReg := ⟨(vg.val + m) % 32, Nat.mod_lt _ (by decide)⟩

/-- The f names of a register group. -/
def groupNames (vg : XReg) (f : Nat) : List XReg := (List.range f).map (groupName vg)

/-- R104: a group name that is not a multiple of f traps ACCESS with the instruction word. -/
def groupAligned (vg : XReg) (f : Nat) (w : Word) : Check := trapIf (vg.val % f != 0) causeAccess w

/-- Element i of a group of f registers under a tag: register i mod f, position i div f. -/
def State.groupElem (s : State) (vg : XReg) (f t i : Nat) : Nat := getElem t (s.vget (groupName vg (i % f))) (i / f)

/-- Writes the elements of an index list into a register, each from a function of its index. -/
def setElems (t : Nat) (v : VBits) (l : List Nat) (f : Nat → Nat) : VBits :=
  l.foldl (fun a i => setElem t a i (f i)) v

end Sys2Proof.Machine
end

