-- ==== Sys2Proof/Machine/Loops.lean ====
section
/-! DEFINITION. Hardware loops (R71 to R77, R330), predicate logic (R78) and trap return (R25). -/
namespace Sys2Proof.Machine

/-! ### Loops -/

/-- All ones in a predicate register. -/
def onesP : PBits := BitVec.allOnes 1024

/-- R75: the kernel iterations of a level. -/
def LoopLevel.total (l : LoopLevel) : Nat := if l.n = 0 then 1 else l.n + l.s - 1

/-- R330: the bytes of a snapshot's header: `time`, `rwcount`, snapshot number, drops, sequencer, depth and core. -/
def snapHeader (s : State) (g k depth : Nat) (p : Profile) : List Byte :=
  leBytes 40 0 ++ leBytes 8 (g + depth * 2 ^ 10 + k * 2 ^ 13 + min p.drop 0xFFFF * 2 ^ 16 + p.snap * 2 ^ 32) ++
    leBytes 8 (s.seqAt g k).rwcount ++ leBytes 8 (s.cycle * 10 / 21)

/-- R329, R330: the matrix as a snapshot holds it: cell (r, b) is 4 bytes at 128·r + 4·b. -/
def snapCells (c : Core) : List Byte :=
  (List.range (14 * 32)).flatMap fun i => leBytes 4 (tabGet 0 c.loss i)

/-- R330: an exit of a loop level writes a snapshot into the profiling ring, when profiling is armed; one that comes while another is still
being written is only counted. -/
def State.snapshot (s : State) (g k depth : Nat) : State :=
  match (s.core g).prof with
  | none => s
  | some p =>
    if s.cycle < p.busyTo then s.modCore g fun c => { c with prof := some { p with drop := p.drop + 1 } }
    else
    let b := snapHeader s g k depth p ++ snapCells (s.core g)
    let s := s.writeWin .unit g (p.base + 1856 * (p.snap % p.n)) b
    s.modCore g fun c => { c with prof := some { p with snap := p.snap + 1, drop := 0, busyTo := s.cycle + Config.snapTime s.free } }

/-- R74. -/
def loopSetRes (xs1 : XReg) (stages : Nat) (s : State) : Res :=
  let r := s.me.r
  let n := (s.rx xs1).toNat
  .checked [needX s [xs1],
      trapIf (decide (6 ≤ r.loops.length)) causeLoop (wordOf (.loopSet xs1 stages)),
      trapIf (decide (2 ^ 32 ≤ n)) causeLoop (s.rx xs1)]
    (.done (s.modRegs fun r =>
      let r := (List.range 8).foldl (fun (a : Regs) j => a.wp ⟨(8 + j) % 16, Nat.mod_lt _ (by decide)⟩ 0) r
      { r.wp 8 (if n = 0 then 0 else onesP) with loops := ⟨n, stages, 0⟩ :: r.loops }))

def execLoopSet (xs1 : XReg) (stages : Nat) (s : State) : Host.Outcome State Fault Refusal := (loopSetRes xs1 stages s).finish s

/-- R75: the registers after a `loop.end` on the innermost level `l`. -/
def Regs.loopEnd (r : Regs) (l : LoopLevel) (rest : List LoopLevel) : Regs :=
  let t := l.t + 1
  let r := { r with prb := r.prb + 1, vrb := r.vrb + 1 }
  let r := r.wp 8 (if t < l.n then onesP else 0)
  { r with loops := if t < l.total then { l with t := t } :: rest else rest }

/-- R75; a level that is popped writes a snapshot (R330). -/
def loopEndRes (off : Int) (s : State) : Res :=
  match s.me.r.loops with
  | [] => .trap causeLoop (wordOf (.loopEnd off))
  | l :: rest =>
    let s' := s.modRegs fun r => r.loopEnd l rest
    if l.t + 1 < l.total then .loopEdge s' (s.pc + ofSigned off)
    else .loopEdge (s'.snapshot s.cur.1 s.cur.2 rest.length) (s.pc + 4)

def execLoopEnd (off : Int) (s : State) : Host.Outcome State Fault Refusal := (loopEndRes off s).finish s

/-- R76. -/
def loopBrkRes (off : Int) (s : State) : Res :=
  match s.me.r.loops with
  | [] => .trap causeLoop (wordOf (.loopBrk off))
  | _ :: rest =>
    .loopEdge ((s.modRegs fun r => { r with loops := rest }).snapshot s.cur.1 s.cur.2 rest.length) (s.pc + ofSigned off)

def execLoopBrk (off : Int) (s : State) : Host.Outcome State Fault Refusal := (loopBrkRes off s).finish s

/-- R77. -/
def loopIdxRes (rd : XReg) (k : Nat) (s : State) : Res :=
  match s.me.r.loops[k]? with
  | none => .checked [needX s [rd]] (.trap causeLoop (wordOf (.loopIdx rd k)))
  | some l => .checked [needX s [rd]] (.done (s.wx rd (BitVec.ofNat 64 l.t)))

def execLoopIdx (rd : XReg) (k : Nat) (s : State) : Host.Outcome State Fault Refusal := (loopIdxRes rd k s).finish s

/-! ### Predicates (R78) -/

/-- A predicate result. -/
def predRes (pd : PReg) (b : PBits) (s : State) : Res := .done (s.modRegs fun r => r.wp pd b)

def execPand (pd pa pb : PReg) (s : State) : Host.Outcome State Fault Refusal :=
  (predRes pd (s.me.r.rp pa &&& s.me.r.rp pb) s).finish s

def execPor (pd pa pb : PReg) (s : State) : Host.Outcome State Fault Refusal :=
  (predRes pd (s.me.r.rp pa ||| s.me.r.rp pb) s).finish s

def execPnot (pd pa : PReg) (s : State) : Host.Outcome State Fault Refusal := (predRes pd (~~~(s.me.r.rp pa)) s).finish s

def execPmov (pd pa : PReg) (s : State) : Host.Outcome State Fault Refusal := (predRes pd (s.me.r.rp pa) s).finish s

/-- Number of ones in the first n bits. -/
def countOnes (b : PBits) (n : Nat) : Nat := ((List.range n).filter b.getLsbD).length

def ppopRes (rd : XReg) (pa : PReg) (s : State) : Res :=
  .checked [needX s [rd]] (.done (s.wx rd (BitVec.ofNat 64 (countOnes (s.me.r.rp pa) 1024))))

def execPpop (rd : XReg) (pa : PReg) (s : State) : Host.Outcome State Fault Refusal := (ppopRes rd pa s).finish s

/-- The lowest one of a predicate alone. -/
def firstOne (b : PBits) : PBits :=
  match (List.range 1024).find? b.getLsbD with
  | none => 0
  | some i => BitVec.ofNat 1024 (2 ^ i)

def execPfirst (pd pa : PReg) (s : State) : Host.Outcome State Fault Refusal := (predRes pd (firstOne (s.me.r.rp pa)) s).finish s

/-- The ones of `pwhile`: bits i with a + i < b, the sum taken exactly. -/
def whileBits (a b : Nat) : PBits := BitVec.ofNat 1024 (2 ^ min 1024 (b - a) - 1)

def pwhileRes (pd : PReg) (xs1 xs2 : XReg) (s : State) : Res :=
  .checked [needX s [xs1, xs2]] (predRes pd (whileBits (s.rx xs1).toNat (s.rx xs2).toNat) s)

def execPwhile (pd : PReg) (xs1 xs2 : XReg) (s : State) : Host.Outcome State Fault Refusal := (pwhileRes pd xs1 xs2 s).finish s

/-! ### Iteration boundaries and trap return -/

/-- R99. -/
def execYield (s : State) : Host.Outcome State Fault Refusal := (Res.loopEdge s (s.pc + 4)).finish s

/-- R25. -/
def execTret (s : State) : Host.Outcome State Fault Refusal :=
  (Res.jump (s.modRegs Regs.leaveTrap) s.me.r.tepc).finish s

end Sys2Proof.Machine
end

