-- ==== Sys2Proof/Machine/Sync.lean ====
section
/-! DEFINITION. Ordering, barriers, mailboxes, tokens, the allocator, command queues, configuration moves, fibres and
streams, regions, leases and full/empty checks (R79 to R101, R219, R220, R226, R230, R264 to R267). -/
namespace Sys2Proof.Machine

/-! ### Markers and waits (R79, R80) -/

def execQmark (sc : Scope) (k : MarkKind) (s : State) : Host.Outcome State Fault Refusal :=
  Res.finish (.checked [needRoom s 1 1] (.done (s.enqueue s.cur.1 s.cur.2 [{ op := .marker sc k }]))) s

/-- R80: whether every access of the named queues has performed, and every store is acknowledged. -/
def queuesDrained (q : Seq) (loads stores : Bool) : Bool :=
  q.queue.all fun e => !((loads && e.isLoad && !e.performed) || (stores && e.isStore && !(e.performed && e.acked)))

def qwaitRes (m : Fin 4) (s : State) : Res :=
  .checked [blockIf (!queuesDrained s.me (m.val % 2 == 1) (m.val / 2 == 1))] (.done s)

def execQwait (m : Fin 4) (s : State) : Host.Outcome State Fault Refusal := (qwaitRes m s).finish s

/-! ### Barriers (R85, R86, R230) -/

/-- The node whose sequencer is current. -/
def State.myNode (s : State) : Option Node := s.nodeOf s.cur.1

/-- A barrier of the current launch. -/
def State.barrier (s : State) (k : Fin 16) : Barrier := ((s.myNode).map fun n => n.barriers[k]).getD {}

/-- Replaces a barrier of the current launch. -/
def State.setBarrier (s : State) (k : Fin 16) (b : Barrier) : State :=
  match s.myCore.node with
  | some id => s.modNode id fun n => { n with barriers := vput n.barriers k b }
  | none => s

/-- R86: the release of an arrival: every earlier access within the scope has performed. -/
def releaseWaits (s : State) (sc : Scope) : Bool :=
  s.me.queue.any fun e => e.open_.any fun x => inScope s sc s.cur.1 e x

def barInitRes (k : Fin 16) (xs1 : XReg) (s : State) : Res :=
  let b := s.barrier k
  let v := (s.rx xs1).toNat
  .checked [needX s [xs1], trapIf (b.count != 0 || v < 1 || 8192 < v) causeSync (BitVec.ofNat 64 k.val)]
    (.done (s.setBarrier k { b with expect := v }))

def execBarInit (k : Fin 16) (xs1 : XReg) (s : State) : Host.Outcome State Fault Refusal := (barInitRes k xs1 s).finish s

/-- R85, R86: the sequencer is armed at once. It arrives when every earlier access within the scope has performed: at once, or by an
entry that waits in its queue behind a release marker, which also holds later stores (R79). -/
def barArriveRes (k : Fin 16) (s : State) : Res :=
  let t := s.modRegs fun r => { r with armed := vput r.armed k true }
  let waits := releaseWaits s (barrierScope s.myCore)
  .checked [trapIf (s.me.r.armed[k]) causeSync (BitVec.ofNat 64 k.val), if waits then needRoom s 1 1 else none]
    (.done (if waits then
        t.enqueue s.cur.1 s.cur.2 [{ op := .marker (barrierScope s.myCore) .rel },
          { op := .arrive k, elems := [{ loc := .win s.cur.1 0 }] }]
      else t.arriveAt s.cur.1 s.cur.2 k))

/-- Whether the sequencer's own arrival at a barrier still waits in its queue. -/
def arrivalQueued (q : Seq) (k : Fin 16) : Bool :=
  q.queue.any fun e => match e.op with
    | .arrive j => j == k && !e.performed
    | _ => false

def execBarArrive (k : Fin 16) (s : State) : Host.Outcome State Fault Refusal := (barArriveRes k s).finish s

def barWaitRes (k : Fin 16) (s : State) : Res :=
  .checked [trapIf (!(s.me.r.armed[k])) causeSync (BitVec.ofNat 64 k.val),
      blockIf (arrivalQueued s.me k || (s.barrier k).phase == s.me.r.aphase[k]), needRoom s 1 1]
    (.done ((s.modRegs fun r => { r with armed := vput r.armed k false }).enqueue s.cur.1 s.cur.2
      [{ op := .marker (barrierScope s.myCore) .acq }]))

def execBarWait (k : Fin 16) (s : State) : Host.Outcome State Fault Refusal := (barWaitRes k s).finish s

/-! ### Mailboxes (R87, R88) -/

/-- The aperture address of a mailbox of core g of a package. -/
def mailAddr (pkg g mb : Nat) : Word :=
  let d := dieOfCore g
  BitVec.ofNat 64 (pkg * 2 ^ 52 + d * 2 ^ 50 + 0x3FFFF * 2 ^ 32 + d * 2 ^ 30 + g / 32 % 16 * 2 ^ 26 + g % 16 * 2 ^ 22
    + 0x1D8000 + 8 * mb)

/-- R87's field map: reserved bits zero. -/
def mailOperandOk (x : Nat) : Bool := bitsOf x 63 28 == 0 && bitsOf x 15 13 == 0

def mboxSendRes (xs1 xs2 : XReg) (s : State) : Res :=
  let x := (s.rx xs1).toNat
  .checked [needX s [xs1, xs2], trapIf s.inRegion causeRegion (wordOf (.mboxSend xs1 xs2)),
      trapIf (!mailOperandOk x) causeAccess (s.rx xs1), needRoom s 1 2]
    (.wait (s.await [{ op := .marker .pod .rel }]
      { op := .mboxSend, va := true,
        elems := [{ idx := x, addr := mailAddr (bitsOf x 27 16) (bitsOf x 12 3) (bitsOf x 2 0), n := 8,
                    data := (s.rx xs2).toNat }] } []))

def execMboxSend (xs1 xs2 : XReg) (s : State) : Host.Outcome State Fault Refusal := (mboxSendRes xs1 xs2 s).finish s

/-- Whether the sequencer has a claim on the mailbox that is still unserved. -/
def claimOpen (q : Seq) (mb : Fin 8) : Bool :=
  q.queue.any fun e => match e.op with
    | .mboxRecv _ j => j == mb
    | _ => false

/-- R88: the claim joins the mailbox's claims and rd is marked empty. -/
def mboxRecvRes (rd : XReg) (mb : Fin 8) (s : State) : Res :=
  .checked [needX s [rd], blockIf (claimOpen s.me mb)]
    (.done (((s.modCore s.cur.1 fun c =>
        { c with mbox := vput c.mbox mb { c.mbox[mb] with claims := c.mbox[mb].claims ++ [s.cur.2] } }).modRegs
          fun r => r.markX rd false).enqueue s.cur.1 s.cur.2
        [{ op := .mboxRecv rd mb, elems := [{ n := 8, loc := .win s.cur.1 (0x1D8000 + 8 * mb.val) }] }]))

def execMboxRecv (rd : XReg) (mb : Fin 8) (s : State) : Host.Outcome State Fault Refusal := (mboxRecvRes rd mb s).finish s

def mboxPollRes (rd : XReg) (mb : Fin 8) (s : State) : Res :=
  .checked [needX s [rd]] (.done (s.wx rd (BitVec.ofNat 64 (s.myCore.mbox[mb]).unclaimed)))

def execMboxPoll (rd : XReg) (mb : Fin 8) (s : State) : Host.Outcome State Fault Refusal := (mboxPollRes rd mb s).finish s

/-! ### Tokens (R89) -/

/-- A token operation enters the store queue; its place is the cluster's token store. -/
def tokenRes (set : Bool) (pre : List Entry) (xs1 : XReg) (s : State) : Res :=
  let x := (s.rx xs1).toNat
  .checked [needX s [xs1], trapIf (256 ≤ x) causeAccess (s.rx xs1), needRoom s pre.length (1 + pre.length)]
    (.done (s.enter pre { op := .token set x,
                          elems := [{ n := 1, loc := .win s.cur.1 (0x1D9000 + x) }] } []))

def execTokSet (xs1 : XReg) (s : State) : Host.Outcome State Fault Refusal :=
  (tokenRes true [{ op := .marker .clu .rel }] xs1 s).finish s

def execTokClr (xs1 : XReg) (s : State) : Host.Outcome State Fault Refusal := (tokenRes false [] xs1 s).finish s

/-! ### The scratchpad allocator (R82 to R84) -/

/-- Replaces the allocator. -/
def State.setAlloc (s : State) (a : Alloc) : State := s.modRegs fun r => { r with alloc := a }

def spaBumpRes (rd xs1 : XReg) (s : State) : Res :=
  let a := s.me.r.alloc
  let n := roundUp (s.rx xs1).toNat 64
  .checked [needX s [xs1, rd], trapIf (a.bl < a.bp + n) causeAlloc (s.rx xs1)]
    (.done ((s.setAlloc { a with bp := a.bp + n }).wx rd (BitVec.ofNat 64 a.bp)))

def execSpaBump (rd xs1 : XReg) (s : State) : Host.Outcome State Fault Refusal := (spaBumpRes rd xs1 s).finish s

def spaMarkRes (rd : XReg) (s : State) : Res :=
  .checked [needX s [rd]] (.done (s.wx rd (BitVec.ofNat 64 s.me.r.alloc.bp)))

def execSpaMark (rd : XReg) (s : State) : Host.Outcome State Fault Refusal := (spaMarkRes rd s).finish s

def spaRelRes (xs1 : XReg) (s : State) : Res :=
  let a := s.me.r.alloc
  let x := (s.rx xs1).toNat
  .checked [needX s [xs1], trapIf (x < a.bb || a.bp < x || x % 64 != 0) causeAccess (s.rx xs1)]
    (.done (s.setAlloc { a with bp := x }))

def execSpaRel (xs1 : XReg) (s : State) : Host.Outcome State Fault Refusal := (spaRelRes xs1 s).finish s

/-- R84: the offset and cost a request of n bytes takes: the tail end of the ring is skipped when it does not fit. -/
def Ring.take (r : Ring) (n : Nat) : Nat × Nat := if r.h + n ≤ r.rs then (r.h, n) else (0, r.rs - r.h + n)

/-- R84: the ring after an allocation. -/
def Ring.put (r : Ring) (n : Nat) : Ring :=
  let t := r.take n
  { r with fifo := r.fifo ++ [t], u := r.u + t.2, h := (t.1 + n) % r.rs }

def spaRingGetRes (rd xs1 : XReg) (k : Fin 4) (s : State) : Res :=
  let a := s.me.r.alloc
  let r := a.rings[k]
  let n := roundUp (s.rx xs1).toNat 64
  .checked [needX s [xs1, rd],
      trapIf (r.rs == 0 || n == 0 || r.rs < n || 16 ≤ r.fifo.length) causeAlloc (s.rx xs1),
      trapIf (r.rs < r.u + (r.take n).2) causeAlloc (s.rx xs1)]
    (.done ((s.setAlloc { a with rings := vput a.rings k (r.put n) }).wx rd (BitVec.ofNat 64 (r.rb + (r.take n).1))))

def execSpaRingGet (rd xs1 : XReg) (k : Fin 4) (s : State) : Host.Outcome State Fault Refusal :=
  (spaRingGetRes rd xs1 k s).finish s

def spaRingPutRes (xs1 : XReg) (k : Fin 4) (s : State) : Res :=
  let a := s.me.r.alloc
  let r := a.rings[k]
  match r.fifo with
  | [] => .checked [needX s [xs1]] (.trap causeAccess (s.rx xs1))
  | o :: rest =>
    .checked [needX s [xs1], trapIf ((s.rx xs1).toNat != r.rb + o.1) causeAccess (s.rx xs1)]
      (.done (s.setAlloc { a with rings := vput a.rings k { r with u := r.u - o.2, fifo := rest } }))

def execSpaRingPut (xs1 : XReg) (k : Fin 4) (s : State) : Host.Outcome State Fault Refusal := (spaRingPutRes xs1 k s).finish s

/-! ### Configuration moves (R94, R95) -/

def shpWrRes (sh : Fin 32) (xs1 : XReg) (s : State) : Res :=
  .checked [needX s [xs1]] (.done (s.modRegs fun r => { r with sh := vput r.sh sh ((s.rx xs1).setWidth 32) }))

def execShpWr (sh : Fin 32) (xs1 : XReg) (s : State) : Host.Outcome State Fault Refusal := (shpWrRes sh xs1 s).finish s

def shpRdRes (rd : XReg) (sh : Fin 32) (s : State) : Res :=
  .checked [needX s [rd]] (.done (s.wx rd ((s.me.r.sh[sh]).setWidth 64)))

def execShpRd (rd : XReg) (sh : Fin 32) (s : State) : Host.Outcome State Fault Refusal := (shpRdRes rd sh s).finish s

def lyWrRes (ly : Fin 16) (xs1 xs2 : XReg) (s : State) : Res :=
  .checked [needX s [xs1, xs2]]
    (.done (s.modRegs fun r => { r with ly := vput r.ly ly (s.rx xs2 ++ s.rx xs1) }))

def execLyWr (ly : Fin 16) (xs1 xs2 : XReg) (s : State) : Host.Outcome State Fault Refusal := (lyWrRes ly xs1 xs2 s).finish s

def lyRdRes (rd : XReg) (ly : Fin 16) (hi : Bool) (s : State) : Res :=
  let v := s.me.r.ly[ly]
  .checked [needX s [rd]] (.done (s.wx rd (if hi then v.extractLsb' 64 64 else v.extractLsb' 0 64)))

def execLyRd (rd : XReg) (ly : Fin 16) (hi : Bool) (s : State) : Host.Outcome State Fault Refusal := (lyRdRes rd ly hi s).finish s

/-- R95: the word of a tile configuration. -/
def TileCfg.word (t : TileCfg) : Nat := t.tag + (t.rows - 1) * 2 ^ 4 + t.cols * 2 ^ 11

/-- R95: the configuration a word gives. -/
def tileCfgOf (w : Nat) : TileCfg := ⟨bitsOf w 3 0, bitsOf w 10 4 + 1, bitsOf w 21 11⟩

/-- A tile of the core's partition: otherwise ACCESS with 64 + k. -/
def needTile (s : State) (k : Nat) : Check := trapIf (s.myCore.tiles ≤ k) causeAccess (BitVec.ofNat 64 (64 + k))

def tcfgWrRes (tl : Fin 8) (xs1 : XReg) (s : State) : Res :=
  let c := tileCfgOf (s.rx xs1).toNat
  .checked [needX s [xs1], needTile s tl.val,
      trapIf (c.tag == 14 || c.tag == 15) causeFormat (formatVal 0 c.tag (64 + tl.val)),
      trapIf (c.cols == 0 || elemsOf c.tag < c.cols) causeAccess (s.rx xs1)]
    (.done (s.modCore s.cur.1 fun co => { co with tcfg := vput co.tcfg tl c }))

def execTcfgWr (tl : Fin 8) (xs1 : XReg) (s : State) : Host.Outcome State Fault Refusal := (tcfgWrRes tl xs1 s).finish s

def tcfgRdRes (rd : XReg) (tl : Fin 8) (s : State) : Res :=
  .checked [needX s [rd], needTile s tl.val] (.done (s.wx rd (BitVec.ofNat 64 (s.myCore.tcfg[tl]).word)))

def execTcfgRd (rd : XReg) (tl : Fin 8) (s : State) : Host.Outcome State Fault Refusal := (tcfgRdRes rd tl s).finish s

/-! ### Reads of the own scratchpad that are made at issue (R96, R112, R267) -/

/-- n bytes of the own scratchpad, as a load that sees the sequencer's own stores. -/
def ownSpad (s : State) (off n : Nat) : Nat :=
  overlay (winKey s.cur.1 off) n (spadNat s s.cur.1 off n) s.me.queue

/-- The reading blocks while an in-flight command writes the range, and while an own access that is queued must come first. -/
def spadWaits (s : State) (off n : Nat) : Check :=
  blockIf (issueReadWaits s s.cur.1 s.me.queue false { addr := BitVec.ofNat 64 off, n := n, loc := .win s.cur.1 off })

/-- R247: a read of a poisoned line traps MEMORY-ERROR. -/
def spadPoison (s : State) (off n : Nat) (tval : Word) : Check :=
  trapIf (poisoned s (.win s.cur.1 off) n) causeMemory tval

/-! ### Fibres and streams (R96, R97) -/

/-- A stream register and its place: fibre k or stream k. -/
def getStream (r : Regs) (fibre : Bool) (k : Fin 8) : Stream := if fibre then r.fb[k] else r.sm[k]

/-- Replaces a fibre or stream register. -/
def Regs.setStream (r : Regs) (fibre : Bool) (k : Fin 8) (x : Stream) : Regs :=
  if fibre then { r with fb := vput r.fb k x } else { r with sm := vput r.sm k x }

/-- R96's field map. -/
def descriptorOk (fibre : Bool) (d : Nat) : Bool :=
  bitsOf d 255 132 == 0 &&
    (!fibre || (!bitOf d 131 && bitsOf d 127 96 == 0 && (bitsOf d 129 128 == 1 || bitsOf d 129 128 == 2)))

/-- The register a descriptor opens. -/
def streamOf (fibre : Bool) (d : Nat) : Stream :=
  let w := 2 ^ bitsOf d 129 128
  { isOpen := true, sext := bitOf d 131, va := bitOf d 130, width := w,
    stride := if fibre then w else sextN 32 (bitsOf d 127 96), count := bitsOf d 95 64,
    base := BitVec.ofNat 64 (bitsOf d 63 0), pos := 0 }

/-- R96. A descriptor that does not lie within the scratchpad breaks the map (log entry 16). -/
def streamOpenRes (fibre : Bool) (k : Fin 8) (xs1 : XReg) (s : State) : Res :=
  let x := s.rx xs1
  let d := ownSpad s x.toNat 32
  let st := streamOf fibre d
  .checked [needX s [xs1], trapIf (x.toNat % 32 != 0) causeMisalign x, trapIf (2 ^ 20 < x.toNat + 32) causeAccess x,
      spadWaits s x.toNat 32, spadPoison s x.toNat 32 x,
      trapIf (!descriptorOk fibre d) causeAccess x, trapIf (st.base.toNat % st.width != 0) causeMisalign st.base]
    (.done (s.modRegs fun r => r.setStream fibre k st))

/-- The address of element p. -/
def Stream.addrOf (x : Stream) (p : Nat) : Word := x.base + ofSigned (p * x.stride)

/-- The address of the next element. -/
def Stream.elemAddr (x : Stream) : Word := x.addrOf x.pos

/-- R97: an advance. `w` is the instruction word. An element that was read ahead goes with its entry. -/
def streamAdvRes (fibre : Bool) (rd : XReg) (k : Fin 8) (w : Word) (s : State) : Res :=
  let x := getStream s.me.r fibre k
  let a := x.elemAddr
  let e : Entry := { op := .stream rd fibre x.sext k x.pos, va := x.va,
                     elems := [{ addr := a, n := x.width, loc := if x.va then .absent else .win s.cur.1 a.toNat,
                                 idx := if tabHas x.ahead x.pos then 1 else 0, data := tabGet 0 x.ahead x.pos }] }
  if !x.isOpen then .checked [needX s [rd]] (.trap causeAccess w)
  else if x.pos = x.count then .checked [needX s [rd]] (.done (s.wx rd (BitVec.allOnes 64)))
  else if x.va then .checked ([needX s [rd]] ++ scalarChecks a x.width ++ [needRoom s 1 0]) (.wait (s.await [] e []))
  else
    .checked [needX s [rd], trapIf (a.toNat % x.width != 0) causeMisalign a, trapIf (2 ^ 20 < a.toNat + x.width) causeAccess a,
        needRoom s 1 0, spadPoison s a.toNat x.width a]
      (.done (s.enter [] e []))

/-- R97: the end test. -/
def streamEndRes (fibre : Bool) (rd : XReg) (k : Fin 8) (w : Word) (s : State) : Res :=
  let x := getStream s.me.r fibre k
  .checked [needX s [rd], trapIf (!x.isOpen) causeAccess w] (.done (s.wx rd (if x.pos = x.count then 1 else 0)))

/-- R97: a close. -/
def streamCloseRes (fibre : Bool) (k : Fin 8) (w : Word) (s : State) : Res :=
  .checked [trapIf (!(getStream s.me.r fibre k).isOpen) causeAccess w] (.done (s.modRegs fun r => r.setStream fibre k {}))

def execFbOpen (k : Fin 8) (xs1 : XReg) (s : State) : Host.Outcome State Fault Refusal := (streamOpenRes true k xs1 s).finish s
def execSmOpen (k : Fin 8) (xs1 : XReg) (s : State) : Host.Outcome State Fault Refusal := (streamOpenRes false k xs1 s).finish s
def execFbAdv (rd : XReg) (k : Fin 8) (s : State) : Host.Outcome State Fault Refusal :=
  (streamAdvRes true rd k (wordOf (.fbAdv rd k)) s).finish s
def execSmAdv (rd : XReg) (k : Fin 8) (s : State) : Host.Outcome State Fault Refusal :=
  (streamAdvRes false rd k (wordOf (.smAdv rd k)) s).finish s
def execFbEnd (rd : XReg) (k : Fin 8) (s : State) : Host.Outcome State Fault Refusal :=
  (streamEndRes true rd k (wordOf (.fbEnd rd k)) s).finish s
def execSmEnd (rd : XReg) (k : Fin 8) (s : State) : Host.Outcome State Fault Refusal :=
  (streamEndRes false rd k (wordOf (.smEnd rd k)) s).finish s
def execFbClose (k : Fin 8) (s : State) : Host.Outcome State Fault Refusal :=
  (streamCloseRes true k (wordOf (.fbClose k)) s).finish s
def execSmClose (k : Fin 8) (s : State) : Host.Outcome State Fault Refusal :=
  (streamCloseRes false k (wordOf (.smClose k)) s).finish s

/-! ### Regions (R98, R264, R266, R267) -/

/-- Whether the current sequencer holds its cluster's lease. -/
def State.holdsLease (s : State) : Bool := (s.cluster (clusterOfCore s.cur.1)).holder == some s.cur

/-- R266: every command the sequencer has published has completed. -/
def commandsDone (s : State) : Bool :=
  ((List.range 16).all fun i => (s.myCore.queue i).cmds.all fun c => c.by_ != s.cur.2) &&
    s.me.queue.all fun e => match e.op with
      | .publish .. => false
      | _ => true

/-- R266: every register of the sequencer is full. -/
def registersFull (q : Seq) : Bool :=
  q.r.xfull.toList.all id && q.r.vfull.toList.all id && q.vbusy.toList.all not && q.fbusy.toList.all not

/-- R266: the queues at the mark. -/
def queueMarks (c : Core) : List QueueMark := (List.range 16).map fun i => (c.queue i).mark

/-- R264: an append that is queued when the sequencer leaves its region, or opens another, is none of the new region. -/
def Seq.leaveRegion (q : Seq) : Seq :=
  { q with region := none,
           queue := q.queue.map fun e => match e.op with
             | .binAdd va _ base cap hdr => { e with op := .binAdd va false base cap hdr }
             | _ => e }

def regionMarkRes (s : State) : Res :=
  let r := s.me.r
  .checked [blockIf (!commandsDone s || !registersFull s.me)]
    (.done (s.setMe { s.me.leaveRegion with
      region := some { image := { r with pc := r.pc + 4, instret := r.instret + 1 }, queues := queueMarks s.myCore, lease := s.holdsLease } }))

def execRegionMark (s : State) : Host.Outcome State Fault Refusal := (regionMarkRes s).finish s

def execRegionEnd (s : State) : Host.Outcome State Fault Refusal :=
  (Res.done (s.setMe s.me.leaveRegion)).finish s

/-- R267: whether a word may not be published inside a region. -/
def regionForbids (w : Nat) : Bool :=
  let op := cwOpcode w
  (op == 0x23 && bitsOf w 235 234 < 2) || op == 0x24 || (op == 0x25 && bitOf w 58) || (0x60 ≤ op && op ≤ 0x6f) ||
    [0xa1, 0xa2, 0xa3, 0xa4, 0xa6].contains op

/-- The header a `scatter.bin` word appends to. -/
def headerOf (w : Nat) : Option (Bool × Word) :=
  if cwOpcode w == 0x22 then some (false, BitVec.ofNat 64 (64 * bitsOf w 246 233)) else none

/-- The first of the words at some offsets that a region forbids, when it holds some headers already. -/
def forbiddenFrom (s : State) (hs : List (Bool × Word)) : List Nat → Option Nat
  | [] => none
  | o :: t =>
    let w := ownSpad s o 32
    if regionForbids w then some o
    else
      match headerOf w with
      | none => forbiddenFrom s hs t
      | some h => if !canCheckpoint hs h then some o else forbiddenFrom s (if hs.contains h then hs else hs ++ [h]) t

/-- R267: the first of the words at some offsets that a region forbids. The words are read as a load reads them. -/
def forbiddenCheck (s : State) (offs : List Nat) : List Check :=
  if !s.inRegion then []
  else
    offs.map (fun o => spadWaits s o 32) ++
      [(forbiddenFrom s s.me.headers offs).map fun o => .trap causeRegion (BitVec.ofNat 64 o)]

/-- The headers of published `scatter.bin` words are reserved. -/
def State.reserveHeaders (s : State) (offs : List Nat) : State :=
  if !s.inRegion then s
  else s.setMe ((offs.filterMap fun o => headerOf (ownSpad s o 32)).foldl Seq.reserveHeader s.me)

/-! ### Command queues (R90 to R93) -/

/-- R90: a queue the launch did not bind traps ACCESS with the instruction word. -/
def needBound (s : State) (q : Fin 16) (w : Word) : Check := trapIf ((s.myCore.queue q.val).kind == 0) causeAccess w

/-- The publication of n commands: the numbers are assigned at issue. -/
def State.publish (s : State) (q : Fin 16) (n : Nat) (src : Option Nat) : State :=
  let qu := s.myCore.queue q.val
  let sc := queueScope qu.kind
  let r := s.me.r
  let note := fun (x : Seq) => { x with region := x.region.map fun g => { g with used := q.val :: g.used } }
  ((s.modCore s.cur.1 fun c => c.setQueue q.val { qu with last := qu.last + n }).setMe (note s.me)).enter
    [{ op := .marker sc .rel }] { op := .publish q (qu.last + 1) n src r.sh r.ly s.myCore.tcfg, elems := [{ loc := .win s.cur.1 qu.base }] } []

def cmdPutRes (rd : XReg) (q : Fin 16) (xs1 : XReg) (s : State) : Res :=
  let x := s.rx xs1
  .checked ([needX s [xs1, rd], needBound s q (wordOf (.cmdPut rd q xs1)), trapIf (x.toNat % 32 != 0) causeMisalign x,
      trapIf (2 ^ 20 < x.toNat + 32) causeAccess x] ++ forbiddenCheck s [x.toNat] ++ [spadPoison s x.toNat 32 x, needRoom s 1 2])
    (.done (((s.reserveHeaders [x.toNat]).publish q 1 (some x.toNat)).wx rd (BitVec.ofNat 64 ((s.myCore.queue q.val).last + 1))))

def execCmdPut (rd : XReg) (q : Fin 16) (xs1 : XReg) (s : State) : Host.Outcome State Fault Refusal := (cmdPutRes rd q xs1 s).finish s

/-- R267: inside a region the words of `chain.tail` are judged when every publication numbered before on the queue has
performed, so that the tail is the place from which it will publish (DEDUCED, log entry 60). -/
def tailSettled (s : State) (qu : Queue) : Check := blockIf (s.inRegion && qu.last != qu.comp + qu.cmds.length)

def chainTailRes (q : Fin 16) (xs1 : XReg) (s : State) : Res :=
  let qu := s.myCore.queue q.val
  let n := (s.rx xs1).toNat
  let slots := (List.range (min n qu.n)).map fun i => slotOffset qu ((qu.tail + i) % qu.n)
  .checked ([needX s [xs1], needBound s q (wordOf (.chainTail q xs1)), trapIf (n == 0 || qu.n ≤ n) causeAccess (s.rx xs1),
      tailSettled s qu] ++ forbiddenCheck s slots ++ [needRoom s 1 2])
    (.done ((s.reserveHeaders slots).publish q n none))

def execChainTail (q : Fin 16) (xs1 : XReg) (s : State) : Host.Outcome State Fault Refusal := (chainTailRes q xs1 s).finish s

def seqWaitRes (q : Fin 16) (xs1 : XReg) (s : State) : Res :=
  let qu := s.myCore.queue q.val
  let x := s.rx xs1
  .checked [needX s [xs1], needBound s q (wordOf (.seqWait q xs1)), trapIf (qu.last < x.toNat) causeSync x,
      blockIf (qu.comp < x.toNat), needRoom s 1 1]
    (.done (s.enqueue s.cur.1 s.cur.2 [{ op := .marker (queueScope qu.kind) .acq }]))

def execSeqWait (q : Fin 16) (xs1 : XReg) (s : State) : Host.Outcome State Fault Refusal := (seqWaitRes q xs1 s).finish s

def seqReadRes (rd : XReg) (q : Fin 16) (s : State) : Res :=
  .checked [needX s [rd], needBound s q (wordOf (.seqRead rd q))]
    (.done (s.wx rd (BitVec.ofNat 64 (s.myCore.queue q.val).comp)))

def execSeqRead (rd : XReg) (q : Fin 16) (s : State) : Host.Outcome State Fault Refusal := (seqReadRes rd q s).finish s

/-! ### The array lease (R100, R225) -/

/-- R100: a request for the lease. -/
def Cluster.request (c : Cluster) (w : Nat × Nat) : Cluster :=
  if c.holder == some w || c.waiters.contains w then c else { c with waiters := c.waiters ++ [w] }

/-- R100. While the sequencer still holds the lease after its own `lease.rel`, it keeps it, and an implicit lease becomes one that
it asked for (DESIGN CHOICE, log entry 67). -/
def leaseAcqRes (s : State) : Res :=
  let cl := clusterOfCore s.cur.1
  if s.holdsLease then .done (s.modCluster cl fun c => { c with implicitLease := false, giveUp := false })
  else if (s.cluster cl).waiters.contains s.cur && !(s.cluster cl).implicits.contains s.cur then .block
  else .wait (s.modCluster cl fun c => { c.request s.cur with implicits := c.implicits.filter fun w => w != s.cur })

def execLeaseAcq (s : State) : Host.Outcome State Fault Refusal := (leaseAcqRes s).finish s

def execLeaseRel (s : State) : Host.Outcome State Fault Refusal :=
  (Res.done (s.leaseRelease s.cur.1 s.cur.2 false)).finish s

/-! ### Full/empty checks (R34, R101) -/

/-- R101. The word never blocks on the register k that it names, and an empty destination blocks it (R34): where rd is k and empty, it
blocks, as on any empty destination (DESIGN CHOICE, log entry 73). -/
def feChkXRes (rd : XReg) (k : Fin 32) (s : State) : Res :=
  .checked [needX s [rd]] (.done (s.wx rd (if s.me.r.xIsFull k then 1 else 0)))

def execFeChkX (rd : XReg) (k : Fin 32) (s : State) : Host.Outcome State Fault Refusal := (feChkXRes rd k s).finish s

def feChkVRes (rd : XReg) (k : Fin 32) (s : State) : Res :=
  .checked [needCtx s (wordOf (.feChkV rd k)), needX s [rd]]
    (.done (s.wx rd (if s.me.r.vfull[s.vphys k] then 1 else 0)))

def execFeChkV (rd : XReg) (k : Fin 32) (s : State) : Host.Outcome State Fault Refusal := (feChkVRes rd k s).finish s

end Sys2Proof.Machine
end

