-- ==== Sys2Proof/Machine/VecInt.lean ====
section
/-! DEFINITION. Integer and logic operations on vectors, major VA1 (R119 to R121). -/
namespace Sys2Proof.Machine

/-! ### What the vector words share (R119) -/

/-- R33: an x source that is empty traps when its b bit is 1. -/
def emptyX (s : State) (x : XReg) (b : Bool) : Check :=
  trapIf (b && !s.me.r.xIsFull x) causeEmpty (BitVec.ofNat 64 x.val)

/-- R16, R33, R34 of a VA or VU word. -/
def vaPre (s : State) (o : VA) (w : Word) (two : Bool) : List Check :=
  [needCtx s w] ++ needV s ((o.vs1, o.b1) :: if two then [(o.vs2, o.b2)] else []) ++ [needVd s [o.vd]]

/-- The same of a VX word: b1 governs xs1. -/
def vxPre (s : State) (o : VA) (w : Word) : List Check :=
  [needCtx s w, emptyX s o.vs1 o.b1] ++ needV s [(o.vs2, o.b2)] ++ [needX s [o.vs1], needVd s [o.vd]]

/-- R119 items 4 and 5 for sources of one tag: the first source, the second, the destination where it is read, and the
destination's own tag. -/
def vaTags (s : State) (accepted : List Nat) (emu : Bool) (o : VA) (first : XReg) (two readsVd : Bool) (result n : Nat) :
    List Check :=
  let t := s.vtagOf first
  [needTag s accepted emu first] ++ (if two then [sameTag s t t o.vs2] else []) ++
    (if readsVd then [sameTag s t t o.vd] else []) ++ [destTag s o.qp n result o.vd]

/-- Element i of a vector name under a tag. -/
def State.el (s : State) (t : Nat) (j : XReg) (i : Nat) : Nat := getElem t (s.vget j) i

/-- Writes each active element of vd, and its tag. -/
def State.vwrite (s : State) (o : VA) (t : Nat) (f : Nat → Nat) : State :=
  s.vset o.vd (setElems t (s.vget o.vd) (s.actives o.qp (elemsOf t)) f) t

/-- Bits [w − 1:0] of xs1 (R121, R122). -/
def State.xElem (s : State) (t : Nat) (x : XReg) : Nat := (s.rx x).toNat % 2 ^ tagBits t

/-- Tags that move as bytes. -/
def byteTags : List Nat := List.range 14

/-- The integer tags. -/
def intTags : List Nat := [7, 8, 9, 10, 11, 12]

/-- Number of registers of an index group (R104). -/
def indexRegs (t : Nat) : Nat := max 1 (elemsOf t / 128)

/-- An index group of tag int32, checked register by register. -/
def needIndexTags (s : State) (vg : XReg) (f : Nat) : List Check := (groupNames vg f).map fun j => needTag s [7] false j

/-- An integer operation of two sources; `f t a b c` gives the element from the elements of vs1, vs2 and vd. -/
def intRes (accepted : List Nat) (readsVd : Bool) (f : Nat → Nat → Nat → Nat → Nat) (o : VA) (w : Word) (s : State) : Res :=
  let t := s.vtagOf o.vs1
  .checked (vaPre s o w true ++ vaTags s accepted false o o.vs1 true readsVd t (elemsOf t))
    (.done (s.vwrite o t fun i => f t (s.el t o.vs1 i) (s.el t o.vs2 i) (s.el t o.vd i)))

/-- An integer operation of one source. -/
def intRes1 (accepted : List Nat) (f : Nat → Nat → Nat) (o : VA) (w : Word) (s : State) : Res :=
  let t := s.vtagOf o.vs1
  .checked (vaPre s o w false ++ vaTags s accepted false o o.vs1 false false t (elemsOf t))
    (.done (s.vwrite o t fun i => f t (s.el t o.vs1 i)))

/-! ### Element operations (R121) -/

/-- An operation on the integers that two elements stand for, wrapped. -/
def wrap2 (f : Int → Int → Int) (t a b : Nat) : Nat := wrapInt t (f (intValue t a) (intValue t b))

/-- A shift left; an amount of the width or more gives 0. -/
def shlElem (t a b : Nat) : Nat := if tagBits t ≤ b then 0 else a * 2 ^ b % 2 ^ tagBits t

/-- A shift right, arithmetic under signed tags; an amount of the width or more leaves copies of the sign. -/
def shrElem (t a b : Nat) : Nat := wrapInt t (intValue t a / (2 ^ min b (tagBits t) : Nat))

/-! ### The instructions -/

def vaddRes : VA → Word → State → Res := intRes intTags false fun t a b _ => wrap2 (· + ·) t a b
def execVadd (o : VA) (s : State) : Host.Outcome State Fault Refusal := (vaddRes o (wordOf (.vadd o)) s).finish s

def vsubRes : VA → Word → State → Res := intRes intTags false fun t a b _ => wrap2 (· - ·) t a b
def execVsub (o : VA) (s : State) : Host.Outcome State Fault Refusal := (vsubRes o (wordOf (.vsub o)) s).finish s

def vmulRes : VA → Word → State → Res := intRes intTags false fun t a b _ => wrap2 (· * ·) t a b
def execVmul (o : VA) (s : State) : Host.Outcome State Fault Refusal := (vmulRes o (wordOf (.vmul o)) s).finish s

def vmulhRes : VA → Word → State → Res := intRes intTags false fun t a b _ => intBits (tagBits t) (intValue t a * intValue t b / (2 ^ tagBits t : Nat))
def execVmulh (o : VA) (s : State) : Host.Outcome State Fault Refusal := (vmulhRes o (wordOf (.vmulh o)) s).finish s

def vmacRes : VA → Word → State → Res := intRes intTags true fun t a b c => wrapInt t (intValue t c + intValue t a * intValue t b)
def execVmac (o : VA) (s : State) : Host.Outcome State Fault Refusal := (vmacRes o (wordOf (.vmac o)) s).finish s

def vandRes : VA → Word → State → Res := intRes byteTags false fun _ a b _ => a &&& b
def execVand (o : VA) (s : State) : Host.Outcome State Fault Refusal := (vandRes o (wordOf (.vand o)) s).finish s

def vorRes : VA → Word → State → Res := intRes byteTags false fun _ a b _ => a ||| b
def execVor (o : VA) (s : State) : Host.Outcome State Fault Refusal := (vorRes o (wordOf (.vor o)) s).finish s

def vxorRes : VA → Word → State → Res := intRes byteTags false fun _ a b _ => a ^^^ b
def execVxor (o : VA) (s : State) : Host.Outcome State Fault Refusal := (vxorRes o (wordOf (.vxor o)) s).finish s

def vsllRes : VA → Word → State → Res := intRes intTags false fun t a b _ => shlElem t a b
def execVsll (o : VA) (s : State) : Host.Outcome State Fault Refusal := (vsllRes o (wordOf (.vsll o)) s).finish s

def vsrRes : VA → Word → State → Res := intRes intTags false fun t a b _ => shrElem t a b
def execVsr (o : VA) (s : State) : Host.Outcome State Fault Refusal := (vsrRes o (wordOf (.vsr o)) s).finish s

def vminRes : VA → Word → State → Res := intRes intTags false fun t a b _ => wrap2 min t a b
def execVmin (o : VA) (s : State) : Host.Outcome State Fault Refusal := (vminRes o (wordOf (.vmin o)) s).finish s

def vmaxRes : VA → Word → State → Res := intRes intTags false fun t a b _ => wrap2 max t a b
def execVmax (o : VA) (s : State) : Host.Outcome State Fault Refusal := (vmaxRes o (wordOf (.vmax o)) s).finish s

def vsaddRes : VA → Word → State → Res := intRes intTags false fun t a b _ => satInt t (intValue t a + intValue t b)
def execVsadd (o : VA) (s : State) : Host.Outcome State Fault Refusal := (vsaddRes o (wordOf (.vsadd o)) s).finish s

def vssubRes : VA → Word → State → Res := intRes intTags false fun t a b _ => satInt t (intValue t a - intValue t b)
def execVssub (o : VA) (s : State) : Host.Outcome State Fault Refusal := (vssubRes o (wordOf (.vssub o)) s).finish s

def vaddXRes (o : VA) (w : Word) (s : State) : Res :=
  let t := s.vtagOf o.vs2
  .checked (vxPre s o w ++ vaTags s intTags false o o.vs2 false false t (elemsOf t))
    (.done (s.vwrite o t fun i => wrap2 (· + ·) t (s.el t o.vs2 i) (s.xElem t o.vs1)))
def execVaddX (o : VA) (s : State) : Host.Outcome State Fault Refusal := (vaddXRes o (wordOf (.vaddX o)) s).finish s

def vnotRes : VA → Word → State → Res := intRes1 byteTags fun t a => 2 ^ tagBits t - 1 - a
def execVnot (o : VA) (s : State) : Host.Outcome State Fault Refusal := (vnotRes o (wordOf (.vnot o)) s).finish s

def vnegRes : VA → Word → State → Res := intRes1 intTags fun t a => wrapInt t (-(intValue t a))
def execVneg (o : VA) (s : State) : Host.Outcome State Fault Refusal := (vnegRes o (wordOf (.vneg o)) s).finish s

def vabsRes : VA → Word → State → Res := intRes1 intTags fun t a => wrapInt t (intValue t a).natAbs
def execVabs (o : VA) (s : State) : Host.Outcome State Fault Refusal := (vabsRes o (wordOf (.vabs o)) s).finish s

def vmovRes : VA → Word → State → Res := intRes1 byteTags fun _ a => a
def execVmov (o : VA) (s : State) : Host.Outcome State Fault Refusal := (vmovRes o (wordOf (.vmov o)) s).finish s

end Sys2Proof.Machine
end

