-- ==== Sys2Proof/Machine/VecMem.lean ====
section
/-! DEFINITION. Major VM: loads and stores, tile rows and parking, probes and appends, slides, moves and identifiers
(R103 to R115). -/
namespace Sys2Proof.Machine

/-! ### What the VM words share -/

/-- R16, R33, R34: b governs every vector source; scalar sources always block. -/
def vmPre (s : State) (o : VM) (w : Word) (vs : List XReg) (xs : List XReg) (vd : List XReg) : List Check :=
  [needCtx s w] ++ needV s (vs.map fun j => (j, o.b)) ++ [needX s xs, needVd s vd]

/-- Bytes of an element; a nibble's element is its byte (R105). -/
def elemBytes (t : Nat) : Nat := if tagBits t == 4 then 1 else tagBits t / 8

/-- The active elements of an access with their addresses and, for a store, their data. -/
def vmElems (s : State) (qp : PReg) (t : Nat) (addr : Nat → Word) (data : Nat → Nat) : List Elem :=
  (s.actives qp (elemsOf t)).map fun i =>
    { idx := i, addr := addr i, n := elemBytes t, data := data i, nib := if tagBits t == 4 then 1 + i % 2 else 0 }

/-- R106 in mode 0: alignment, then the window bound, on the lowest-indexed failing element. -/
def spadElemCheck (x : Elem) : Check :=
  if x.addr.toNat % x.n != 0 then some (.trap causeMisalign x.addr)
  else if 2 ^ 20 < x.addr.toNat + x.n then some (.trap causeAccess x.addr) else none

/-- A mode 0 element in its place. -/
def Elem.inSpad (x : Elem) (g : Nat) : Elem := { x with loc := .win g x.addr.toNat }

/-- R247: the first element whose line is poisoned, unless a store writes the whole line. -/
def elemPoison (s : State) (op : EntryOp) (l : List Elem) : Check :=
  (hurtElem s op (l.map fun x => x.inSpad s.cur.1)).map fun x => .trap causeMemory x.addr

/-- R267: an element of a store in an accumulate alias inside a region. -/
def elemRegion (s : State) (store : Bool) (l : List Elem) : Check :=
  if !store then none else (l.find? fun x => regionAlias s x.addr).map fun x => .trap causeRegion x.addr

/-- The access of a VM load or store: mode 0 enters the queue at once, mode 1 waits for its owner. -/
def vmAccess (s : State) (va store : Bool) (op : EntryOp) (l : List Elem) (pre : List Check) : Res :=
  let room := needRoom s (if store then 0 else 1) (if store then 1 else 0)
  if l.isEmpty then .checked pre (.done s)
  else if va then .checked (pre ++ [elemRegion s store l, room]) (.wait (s.await [] { op := op, va := true, elems := l } []))
  else
    .checked (pre ++ [l.findSome? spadElemCheck, elemPoison s op l, room])
      (.done (s.enter [] { op := op, elems := l.map fun x => x.inSpad s.cur.1 } []))

/-- R108: strided and indexed words refuse 4-bit tags. -/
def noNibbles (s : State) (j : XReg) : Check :=
  trapIf (tagBits (s.vtagOf j) == 4) causeFormat (formatVal 0 (s.vtagOf j) (s.vreg j))

/-! ### Element offsets (R108) -/

/-- w · i. -/
def unitOff (t i : Nat) : Word := BitVec.ofNat 64 (tagBits t * i / 8)

/-- i · xs2. -/
def strideOff (stride : Word) (i : Nat) : Word := BitVec.ofNat 64 i * stride

/-- w · sext(index i). -/
def indexOff (s : State) (o : VM) (t i : Nat) : Word :=
  ofSigned ((elemBytes t : Nat) * sextN 32 (s.groupElem o.s2 (indexRegs t) 7 i))

/-! ### Loads (R108) -/

/-- The entry of a load into vd. -/
def loadOp (s : State) (o : VM) (t : Nat) (marksEmpty bcast : Bool) : EntryOp :=
  .vload (s.vphys o.vd) t marksEmpty bcast (s.me.r.rp o.qp)

/-- A load under the destination's tag, from a function of the element's offset. -/
def vloadRes (va : Bool) (off : Nat → Nat → Word) (strided : Bool) (o : VM) (w : Word) (s : State) : Res :=
  let t := s.vtagOf o.vd
  let l := vmElems s o.qp t (fun i => s.rx o.xs1 + off t i) (fun _ => 0)
  vmAccess s va false (loadOp s o t false false) l
    (vmPre s o w [] (o.xs1 :: if strided then [o.s2] else []) [o.vd] ++
      [needTag s byteTags false o.vd, if strided then noNibbles s o.vd else none])

def vldRes (va : Bool) : VM → Word → State → Res := vloadRes va unitOff false
def execVld (o : VM) (s : State) : Host.Outcome State Fault Refusal := (vldRes false o (wordOf (.vld o)) s).finish s
def execVldVa (o : VM) (s : State) : Host.Outcome State Fault Refusal := (vldRes true o (wordOf (.vldVa o)) s).finish s

def vldsRes (va : Bool) (o : VM) (w : Word) (s : State) : Res := vloadRes va (fun _ => strideOff (s.rx o.s2)) true o w s
def execVlds (o : VM) (s : State) : Host.Outcome State Fault Refusal := (vldsRes false o (wordOf (.vlds o)) s).finish s
def execVldsVa (o : VM) (s : State) : Host.Outcome State Fault Refusal := (vldsRes true o (wordOf (.vldsVa o)) s).finish s

/-- The checks that the index group of a gather or scatter adds (R104, R108). The data register's tag comes before those of the index
group (DESIGN CHOICE, log entry 73). -/
def indexPre (s : State) (o : VM) (w : Word) (t : Nat) (data : XReg) : List Check :=
  let f := if tagBits t == 4 then 1 else indexRegs t
  [groupAligned o.s2 f w, needTag s byteTags false data, noNibbles s data] ++ needIndexTags s o.s2 f

/-- The names of an index group. -/
def indexNames (o : VM) (t : Nat) : List XReg := groupNames o.s2 (if tagBits t == 4 then 1 else indexRegs t)

def vldxRes (va : Bool) (o : VM) (w : Word) (s : State) : Res :=
  let t := s.vtagOf o.vd
  let l := vmElems s o.qp t (fun i => s.rx o.xs1 + indexOff s o t i) (fun _ => 0)
  vmAccess s va false (loadOp s o t true false) l (vmPre s o w (indexNames o t) [o.xs1] [o.vd] ++ indexPre s o w t o.vd)
def execVldx (o : VM) (s : State) : Host.Outcome State Fault Refusal := (vldxRes false o (wordOf (.vldx o)) s).finish s
def execVldxVa (o : VM) (s : State) : Host.Outcome State Fault Refusal := (vldxRes true o (wordOf (.vldxVa o)) s).finish s

/-- `vld.b`: one element, written into every active one. -/
def vldBRes (va : Bool) (o : VM) (w : Word) (s : State) : Res :=
  let t := s.vtagOf o.vd
  let l := ((vmElems s o.qp t (fun _ => s.rx o.xs1) (fun _ => 0)).take 1).map fun x =>
    { x with nib := if tagBits t == 4 then 1 else 0 }
  vmAccess s va false (loadOp s o t false true) l
    (vmPre s o w [] [o.xs1] [o.vd] ++ [needTag s byteTags false o.vd])
def execVldB (o : VM) (s : State) : Host.Outcome State Fault Refusal := (vldBRes false o (wordOf (.vldB o)) s).finish s
def execVldBVa (o : VM) (s : State) : Host.Outcome State Fault Refusal := (vldBRes true o (wordOf (.vldBVa o)) s).finish s

/-! ### Stores (R108) -/

/-- A store of vs3's active elements. -/
def vstoreRes (va : Bool) (off : Nat → Nat → Word) (strided : Bool) (o : VM) (w : Word) (s : State) : Res :=
  let t := s.vtagOf o.vd
  let l := vmElems s o.qp t (fun i => s.rx o.xs1 + off t i) (fun i => s.el t o.vd i)
  vmAccess s va true .vstore l
    (vmPre s o w [o.vd] (o.xs1 :: if strided then [o.s2] else []) [] ++
      [needTag s byteTags false o.vd, if strided then noNibbles s o.vd else none])

def vstRes (va : Bool) : VM → Word → State → Res := vstoreRes va unitOff false
def execVst (o : VM) (s : State) : Host.Outcome State Fault Refusal := (vstRes false o (wordOf (.vst o)) s).finish s
def execVstVa (o : VM) (s : State) : Host.Outcome State Fault Refusal := (vstRes true o (wordOf (.vstVa o)) s).finish s

def vstsRes (va : Bool) (o : VM) (w : Word) (s : State) : Res := vstoreRes va (fun _ => strideOff (s.rx o.s2)) true o w s
def execVsts (o : VM) (s : State) : Host.Outcome State Fault Refusal := (vstsRes false o (wordOf (.vsts o)) s).finish s
def execVstsVa (o : VM) (s : State) : Host.Outcome State Fault Refusal := (vstsRes true o (wordOf (.vstsVa o)) s).finish s

def vstxRes (va : Bool) (o : VM) (w : Word) (s : State) : Res :=
  let t := s.vtagOf o.vd
  let l := vmElems s o.qp t (fun i => s.rx o.xs1 + indexOff s o t i) (fun i => s.el t o.vd i)
  vmAccess s va true .vstore l (vmPre s o w (o.vd :: indexNames o t) [o.xs1] [] ++ indexPre s o w t o.vd)
def execVstx (o : VM) (s : State) : Host.Outcome State Fault Refusal := (vstxRes false o (wordOf (.vstx o)) s).finish s
def execVstxVa (o : VM) (s : State) : Host.Outcome State Fault Refusal := (vstxRes true o (wordOf (.vstxVa o)) s).finish s

/-! ### Tile rows and park rows (R109, R110) -/

/-- The bits of a register that active elements occupy. -/
def activeBits (s : State) (qp : PReg) (t : Nat) : Nat :=
  (setElems t 0 (s.actives qp (elemsOf t)) fun _ => 2 ^ tagBits t - 1).toNat

/-- A row read into vd, with its result tag as it stands at issue. `pre` holds every check before that of damage. -/
def rowReadRes (s : State) (o : VM) (off tag : Nat) (park : Bool) (pre : List Check) : Res :=
  if (s.actives o.qp (elemsOf tag)).isEmpty then .checked pre (.done (s.vset o.vd (s.vget o.vd) tag))
  else
    .checked (pre ++ [trapIf (rowHurt s s.cur.1 off (rowBits tag (s.me.r.rp o.qp)) false) causeMemory (BitVec.ofNat 64 off),
        needRoom s 1 0])
      (.done (s.enter [] { op := .rowRead (s.vphys o.vd) park (s.me.r.rp o.qp),
                           elems := [{ n := 512, addr := BitVec.ofNat 64 off, loc := .win s.cur.1 off }] } []))

/-- A row written from the active elements of vs3. A `vpark` with no active element leaves the park tag too (DESIGN CHOICE, log
entry 67). -/
def rowWriteRes (s : State) (o : VM) (off : Nat) (park : Bool) (pre : List Check) : Res :=
  let t := s.vtagOf o.vd
  let mask := activeBits s o.qp t
  if mask == 0 then .checked pre (.done s)
  else
    .checked (pre ++ [trapIf (rowHurt s s.cur.1 off mask true) causeMemory (BitVec.ofNat 64 off),
        needRoom s 0 1])
      (.done (s.enter [] { op := .rowWrite (if park then some t else none) mask,
                           elems := [{ n := 512, addr := BitVec.ofNat 64 off, data := (s.vget o.vd).toNat,
                                       loc := .win s.cur.1 off }] } []))

/-- R109's conditions on xs1, in the table's order. -/
def rowChecks (s : State) (x : Word) : List Check :=
  let k := bitsOf x.toNat 9 7
  [trapIf (bitsOf x.toNat 63 10 != 0) causeAccess x, needTile s k,
   trapIf ((s.myCore.tcfg[k % 8]'(Nat.mod_lt _ (by decide))).rows ≤ bitsOf x.toNat 6 0) causeAccess x]

/-- The window offset of a tile row. -/
def tileRowOff (x : Nat) : Nat := 0x100000 + 0x10000 * bitsOf x 9 7 + 512 * bitsOf x 6 0

/-- R32's check of the destination follows R109's own, which tell whether there is a row that has a tag (DESIGN CHOICE, log
entry 67). -/
def vldRowRes (o : VM) (w : Word) (s : State) : Res :=
  let x := s.rx o.xs1
  let off := tileRowOff x.toNat
  let t := rowTag s.myCore false off
  rowReadRes s o off t false (vmPre s o w [] [o.xs1] [o.vd] ++ rowChecks s x ++ [destTag s o.qp (elemsOf t) t o.vd])
def execVldRow (o : VM) (s : State) : Host.Outcome State Fault Refusal := (vldRowRes o (wordOf (.vldRow o)) s).finish s

def vstRowRes (o : VM) (w : Word) (s : State) : Res :=
  let x := s.rx o.xs1
  let off := tileRowOff x.toNat
  let t := s.vtagOf o.vd
  rowWriteRes s o off false (vmPre s o w [o.vd] [o.xs1] [] ++ rowChecks s x ++
    [trapIf (t != 0 && t != rowTag s.myCore false off) causeFormat (formatVal 0 t (s.vreg o.vd))])
def execVstRow (o : VM) (s : State) : Host.Outcome State Fault Refusal := (vstRowRes o (wordOf (.vstRow o)) s).finish s

/-- R110: a park row outside a free block of the partition, or a refused target. Bits [63:11] that are not 0, of which R110 says only
that they must be, are refused in the same way (DESIGN CHOICE, log entry 73). -/
def parkCheck (s : State) (x : Word) : Check :=
  let t := bitsOf x.toNat 3 0
  let row := bitsOf x.toNat 10 4
  trapIf (bitsOf x.toNat 63 11 != 0 || !s.myCore.hasTarget t || row / 16 * 16 < s.myCore.rowBound t) causeAccess x

/-- The window offset of a park row. -/
def parkOff (x : Nat) : Nat :=
  let t := bitsOf x 3 0
  if t < 8 then 0x100000 + 0x10000 * t + 512 * bitsOf x 10 4 else 0x180000 + 0x14000 * (t - 8) + 640 * bitsOf x 10 4

/-- Whether xs1 names a row of a register of the partition, free or not. -/
def namesParkRow (s : State) (x : Word) : Bool := bitsOf x.toNat 63 11 == 0 && s.myCore.hasTarget (bitsOf x.toNat 3 0)

def vparkRes (o : VM) (w : Word) (s : State) : Res :=
  let x := s.rx o.xs1
  rowWriteRes s o (parkOff x.toNat) true (vmPre s o w [o.vd] [o.xs1] [] ++ [needTag s byteTags false o.vd, parkCheck s x])
def execVpark (o : VM) (s : State) : Host.Outcome State Fault Refusal := (vparkRes o (wordOf (.vpark o)) s).finish s

/-- R308: R32's check of the destination against the park tag comes before R110's check of the row, where xs1 names one. -/
def vunparkRes (o : VM) (w : Word) (s : State) : Res :=
  let x := s.rx o.xs1
  let off := parkOff x.toNat
  let t := rowTagSeen s s.cur.1 off true s.me.queue
  rowReadRes s o off t true (vmPre s o w [] [o.xs1] [o.vd] ++
    [if namesParkRow s x then destTag s o.qp (elemsOf t) t o.vd else none, parkCheck s x])
def execVunpark (o : VM) (s : State) : Host.Outcome State Fault Refusal := (vunparkRes o (wordOf (.vunpark o)) s).finish s

/-! ### hprobe (R111) -/

/-- R111. A probe that reads a damaged entry traps MEMORY-ERROR with the table's base, which is what the word addresses (DESIGN CHOICE,
log entry 73). -/
def hprobeRes (o : VM) (w : Word) (s : State) : Res :=
  let x := s.rx o.xs1
  let lg := bitsOf x.toNat 24 20
  let base := bitsOf x.toNat 19 0
  let l := (s.actives o.qp 128).map fun i =>
    ({ idx := i, addr := BitVec.ofNat 64 base, n := 8 * 2 ^ lg, data := s.el 7 o.s2 i, loc := .win s.cur.1 base } : Elem)
  let hurt := l.any fun e => (probePath s s.cur.1 base lg e.data s.me.queue).any fun i =>
    poisoned s (.win s.cur.1 (base + 8 * i)) 8
  let pre := vmPre s o w [o.s2] [o.xs1] [o.vd] ++ [needTag s [0, 7] false o.s2, destTag s o.qp 128 7 o.vd,
    trapIf (bitsOf x.toNat 63 25 != 0 || lg == 0 || 16 < lg) causeAccess x,
    trapIf (base % 64 != 0) causeMisalign (BitVec.ofNat 64 base), trapIf (2 ^ 20 < base + 8 * 2 ^ lg) causeAccess x]
  if l.isEmpty then .checked pre (.done (s.vset o.vd (s.vget o.vd) 7))
  else
    .checked (pre ++ [trapIf hurt causeMemory (BitVec.ofNat 64 base), needRoom s 1 0])
      (.done (s.enter [] { op := .hprobe (s.vphys o.vd) base lg, elems := l } []))
def execHprobe (o : VM) (s : State) : Host.Outcome State Fault Refusal := (hprobeRes o (wordOf (.hprobe o)) s).finish s

/-! ### bin.add (R112) -/

/-- The (index, value) pairs of the active elements. -/
def appendPairs (s : State) (o : VM) : List (Nat × Nat) := (s.actives o.qp 128).map fun i => (s.el 7 o.s2 i, s.el 7 o.vd i)

/-- A trap as a check. -/
def BinPlan.check : BinPlan → Check
  | .trap cause tval => some (.trap cause tval)
  | .go .. => none

/-- R112. The tag of vs2 is checked before that of vs3 (DESIGN CHOICE, log entry 73). -/
def binAddRes (va : Bool) (o : VM) (w : Word) (s : State) : Res :=
  let x := s.rx o.xs1
  let recs := appendPairs s o
  let pre := vmPre s o w [o.vd, o.s2] [o.xs1] [] ++ [needTag s [7] false o.s2,
    trapIf (!([0, 1, 7].contains (s.vtagOf o.vd))) causeFormat (formatVal 0 (s.vtagOf o.vd) (s.vreg o.vd))]
  let region := trapIf (s.inRegion && !canCheckpoint s.me.headers (va, x)) causeRegion x
  if recs.isEmpty then .checked pre (.done s)
  else if va then
    .checked (pre ++ [region, needRoom s 0 1])
      (.wait (s.await [] { op := .binHdr x recs, va := true, elems := [{ addr := x, n := 64 }] } []))
  else
    let plan := planAppend s s.cur.1 s.me.asid false s.inRegion x (ownSpad s x.toNat 64) recs s.me.queue []
    let out := match plan with
      | .go e checked =>
        .checked [checked.findSome? spadElemCheck, elemPoison s e.op checked, needRoom s 0 1]
          (.done ((s.setMe (s.me.reserveHeader (false, x))).enter [] e []))
      | .trap cause tval => Res.trap cause tval
    .checked (pre ++ [region, trapIf (x.toNat % 64 != 0) causeMisalign x, trapIf (2 ^ 20 < x.toNat + 64) causeAccess x,
        spadWaits s x.toNat 64, spadPoison s x.toNat 64 x, plan.check]) out
def execBinAdd (o : VM) (s : State) : Host.Outcome State Fault Refusal := (binAddRes false o (wordOf (.binAdd o)) s).finish s
def execBinAddVa (o : VM) (s : State) : Host.Outcome State Fault Refusal := (binAddRes true o (wordOf (.binAddVa o)) s).finish s

/-! ### Slides (R113) -/

/-- A slide by k elements; `f n k v old i` is element i of the result. -/
def slideRes (f : Nat → Nat → (Nat → Nat) → Nat → Nat → Nat) (o : VM) (w : Word) (s : State) : Res :=
  let t := s.vtagOf o.s2
  let n := elemsOf t
  let k := (s.rx o.xs1).toNat
  .checked (vmPre s o w [o.s2] [o.xs1] [o.vd] ++ [needTag s byteTags false o.s2, destTag s o.qp n t o.vd])
    (.done (s.vset o.vd (setElems t (s.vget o.vd) (s.actives o.qp n) fun i => f n k (s.el t o.s2) (s.el t o.vd i) i) t))

def vslideUpRes : VM → Word → State → Res := slideRes fun _ k v old i => if k ≤ i then v (i - k) else old
def execVslideUp (o : VM) (s : State) : Host.Outcome State Fault Refusal := (vslideUpRes o (wordOf (.vslideUp o)) s).finish s

def vslideDownRes : VM → Word → State → Res := slideRes fun n k v _ i => if i + k < n then v (i + k) else 0
def execVslideDown (o : VM) (s : State) : Host.Outcome State Fault Refusal := (vslideDownRes o (wordOf (.vslideDown o)) s).finish s

/-! ### Moves (R114) -/

/-- R114; an index of 4,096 or more, which no register has, traps like every index outside it. -/
def vmvXRes (o : VM) (w : Word) (s : State) : Res :=
  let t := s.vtagOf o.s2
  let k := (s.rx o.xs1).toNat
  let b := s.el t o.s2 (k % 4096)
  .checked (vmPre s o w [o.s2] [o.xs1, o.vd] [] ++ [needTag s byteTags false o.s2, trapIf (elemsOf t ≤ k) causeAccess (s.rx o.xs1)])
    (.done (s.wx o.vd (if isSignedTag t then ofSigned (sextN (tagBits t) b) else BitVec.ofNat 64 b)))
def execVmvX (o : VM) (s : State) : Host.Outcome State Fault Refusal := (vmvXRes o (wordOf (.vmvX o)) s).finish s

def vmvSRes (o : VM) (w : Word) (s : State) : Res :=
  let t := s.vtagOf o.vd
  .checked (vmPre s o w [] [o.xs1] [o.vd] ++ [needTag s byteTags false o.vd])
    (.done (s.vset o.vd (setElems t (s.vget o.vd) (List.range (elemsOf t)) fun _ => (s.rx o.xs1).toNat) t))
def execVmvS (o : VM) (s : State) : Host.Outcome State Fault Refusal := (vmvSRes o (wordOf (.vmvS o)) s).finish s

/-! ### Identifiers (R115) -/

def viotaRes (o : VM) (w : Word) (s : State) : Res :=
  let t := s.vtagOf o.vd
  .checked (vmPre s o w [] [] [o.vd] ++ [needTag s intTags false o.vd])
    (.done (s.vset o.vd (setElems t (s.vget o.vd) (s.actives o.qp (elemsOf t)) fun i => wrapInt t (i : Int)) t))
def execViota (o : VM) (s : State) : Host.Outcome State Fault Refusal := (viotaRes o (wordOf (.viota o)) s).finish s

/-- R115: the segment of an index under offsets off[0] to off[S]. -/
def segmentOf (off : List Int) (i : Nat) : Int :=
  let c := (off.filter fun o => decide (o ≤ (i : Int))).length
  if c == 0 || c == off.length then -1 else (c : Int) - 1

/-- R115. The tag of vs2 is checked before that of vd (DESIGN CHOICE, log entry 73). -/
def vsegidRes (o : VM) (w : Word) (s : State) : Res :=
  let t := s.vtagOf o.vd
  let x := s.rx o.xs1
  let off := (List.range (min x.toNat 127 + 1)).map fun j => sextN 32 (s.el 7 o.s2 j)
  .checked (vmPre s o w [o.s2] [o.xs1] [o.vd] ++ [needTag s [7] false o.s2, needTag s intTags false o.vd,
      trapIf (127 < x.toNat) causeAccess x])
    (.done (s.vset o.vd (setElems t (s.vget o.vd) (s.actives o.qp (elemsOf t)) fun i => wrapInt t (segmentOf off i)) t))
def execVsegid (o : VM) (s : State) : Host.Outcome State Fault Refusal := (vsegidRes o (wordOf (.vsegid o)) s).finish s

end Sys2Proof.Machine
end

