-- ==== Sys2Proof/Machine/Engine.lean ====
section
/-! DEFINITION. The engines' common part: fetch and malformation (R47), firing (R143 to R146), the order of checks (R149),
footprint cover (R150), layout records (R219 to R223), engine reads and writes, and completion (R143, R147). -/
namespace Sys2Proof.Machine

/-! ### Statuses (R148) -/

def stOk : Status := {}
def stMalformed : Nat := 0x1
def stTag : Nat := 0x2
def stRefused : Nat := 0x3
def stUndeclared : Nat := 0x4
def stShape : Nat := 0x5
def stAbsent : Nat := 0x6
def stUpstream : Nat := 0x7
def stNoPattern : Nat := 0x8
def stBinOverflow : Nat := 0x9
def stXlat : Nat := 0xA
def stMemory : Nat := 0xB
def stPeerAbsent : Nat := 0x10
def stOvfTransit : Nat := 0x11
def stAborted : Nat := 0x12
def stCancelled : Nat := 0x13
def stResidual : Nat := 0x14

/-- R148: whether a status sets the signal's error bit. -/
def Status.isError (x : Status) : Bool := !(x.code == 0 || x.code == 0x11 || x.code == 0x14)

/-- R148, R239: whether a command with this status was not executed, and so has read nothing. -/
def Status.notRun (x : Status) : Bool := (1 ≤ x.code && x.code ≤ 5) || x.code == 7 || x.code == 8

/-- A check of a command: none when it passes. -/
abbrev CmdCheck := Option Status

/-- A check with its status and aux. -/
def failIf (c : Bool) (code aux : Nat) : CmdCheck := if c then some ⟨code, 0, aux % 2 ^ 32⟩ else none

/-- The first check that fails (R149). -/
def firstFail : List CmdCheck → CmdCheck
  | [] => none
  | none :: t => firstFail t
  | some x :: _ => some x

/-! ### Footprint cover (R150) -/

/-- A range of units of a window that a command reads or writes. -/
structure Range where
  window : Nat
  base : Nat
  length : Nat
  write : Bool
  deriving DecidableEq, Repr

/-- Whether a footprint covers a range. -/
def Footprint.covers (f : Footprint) (r : Range) : Bool :=
  f.window == r.window && f.base ≤ r.base && r.base + r.length ≤ f.base + f.length

/-- R150: a range is covered by the footprints of the word. -/
def covered (w : Nat) (r : Range) : Bool :=
  r.length == 0 || (if r.write then cwWrites w else cwReads w ++ cwWrites w).any fun f => f.covers r

/-- R150. -/
def coverCheck (w : Nat) (l : List Range) : CmdCheck := failIf (!(l.all (covered w))) stUndeclared 0

/-- The range of n bytes at an offset of a window; none for no bytes. -/
def byteRange (window off n : Nat) (write : Bool) : Range :=
  if n == 0 then ⟨window, 0, 0, write⟩ else ⟨window, off / 64, (off + n - 1) / 64 + 1 - off / 64, write⟩

/-- R149 step 2 and R151: a side record that does not lie within the scratchpad; aux is the first unit beyond. -/
def sidePlace (off n : Nat) : CmdCheck := failIf (2 ^ 20 < off + n && n != 0) stRefused (max 16384 (off / 64))

/-! ### Own windows -/

/-- n bytes of an own window as a number. -/
def ownNat (s : State) (g window off n : Nat) : Nat := spadNat s g (unitOffset window 0 + off) n

/-- Whether an uncorrectable error stands in a range of an own window (R247); aux is its first unit. -/
def ownPoison (s : State) (g : Nat) (l : List Range) : CmdCheck :=
  let bad := l.flatMap fun r => if r.write then [] else
    (List.range r.length).filter fun i => s.poison.contains (winKey g (unitOffset r.window (r.base + i)) / 64)
  match l.find? (fun r => !r.write && (List.range r.length).any fun i =>
      s.poison.contains (winKey g (unitOffset r.window (r.base + i)) / 64)), bad with
  | some r, i :: _ => some ⟨stMemory, 0, r.base + i⟩
  | _, _ => none

/-! ### Layout records (R220 to R223) -/

/-- A layout record with the publication-time values it names. -/
structure Lay where
  k : Nat
  base : Nat
  tag : Nat
  win : Nat
  rank : Nat
  seg : Nat
  ext : List Nat
  str : List Int
  nseg : Nat
  offs : Nat
  deriving DecidableEq, Repr

/-- Reads record k with a command's shape registers. -/
def layOf (c : Cmd) (k : Nat) : Lay :=
  let v := lyVal c.ly k
  let e := fun lo => shpVal c.sh (bitsOf v (lo + 4) lo)
  let st := fun lo => sextN 32 (shpVal c.sh (bitsOf v (lo + 4) lo))
  { k := k, base := bitsOf v 127 64, tag := bitsOf v 63 60, win := bitsOf v 59 58, rank := bitsOf v 57 56 + 1,
    seg := bitsOf v 55 54, ext := [e 34, e 39, e 44, e 49], str := [st 19, st 24, st 29],
    nseg := shpVal c.sh (bitsOf v 18 14), offs := bitsOf v 13 0 }

/-- Half-bytes per element: 1 for a 4-bit tag; tag 0 counts as 4 bytes (R221). -/
def Lay.nibs (l : Lay) : Nat := tagBits l.tag / 4

/-- Extent d. -/
def Lay.e (l : Lay) (d : Nat) : Nat := l.ext.getD d 0

/-- Stride of dimension d ≥ 1. -/
def Lay.s (l : Lay) (d : Nat) : Int := l.str.getD (d - 1) 0

/-- The int32 offsets vector of a padded record (R222). -/
def offsVector (s : State) (g off n : Nat) : List Int :=
  (List.range n).map fun j => sextN 32 (sideNat s g (off + 4 * j) 4)

/-- A dense record's rows as distances in bytes from the base, dimension 3 slowest (R221). -/
def Lay.denseRows (l : Lay) : List Int :=
  (List.range (if 3 < l.rank then l.e 3 else 1)).flatMap fun (i3 : Nat) =>
    (List.range (if 2 < l.rank then l.e 2 else 1)).flatMap fun (i2 : Nat) =>
      (List.range (if 1 < l.rank then l.e 1 else 1)).map fun (i1 : Nat) =>
        (if 1 < l.rank then i1 * l.s 1 else 0) + (if 2 < l.rank then i2 * l.s 2 else 0) +
          (if 3 < l.rank then i3 * l.s 3 else 0)

/-- A padded record's rows with their lengths in dimension 0: segments slowest, only indices below L(s). -/
def Lay.paddedRows (l : Lay) (off : List Int) : List (Int × Nat) :=
  (List.range l.nseg).flatMap fun sg =>
    let len := (off.getD (sg + 1) 0 - off.getD sg 0).toNat
    match l.rank with
    | 2 => [(sg * l.s 1, len)]
    | 3 => (List.range len).map fun (i1 : Nat) => (sg * l.s 2 + i1 * l.s 1, l.e 0)
    | _ => (List.range len).flatMap fun (i2 : Nat) =>
        (List.range (l.e 1)).map fun (i1 : Nat) => (sg * l.s 3 + i2 * l.s 2 + i1 * l.s 1, l.e 0)

/-- The element sequence, each as its distance from the base in half-bytes. -/
def Lay.seq (s : State) (g : Nat) (l : Lay) : List Int :=
  let rows := if l.seg == 1 then l.paddedRows (offsVector s g (64 * l.offs) (l.nseg + 1))
    else l.denseRows.map fun o => (o, l.e 0)
  rows.flatMap fun r => (List.range r.2).map fun (i : Nat) => 2 * r.1 + (i : Int) * (l.nibs : Int)

/-- Number of elements. -/
def Lay.count (s : State) (g : Nat) (l : Lay) : Nat := (Lay.seq s g l).length

/-- R223: the tag conditions; 16 + k stands for the register. -/
def Lay.tagCheck (l : Lay) : CmdCheck :=
  failIf (l.tag == 15 || (l.tag == 14 && l.win != 2) || (l.tag == 13 && l.win == 2)) stTag (l.tag + (16 + l.k) * 2 ^ 8)

/-- R149 step 2 for a padded record: the extents that fix its size, and its place. -/
def Lay.sideShape (l : Lay) : CmdCheck := failIf (l.seg == 1 && (l.rank == 1 || 1023 < l.nseg)) stShape (0x100 + l.k)

def Lay.sidePos (l : Lay) : CmdCheck := if l.seg == 1 then sidePlace (64 * l.offs) (4 * (l.nseg + 1)) else none

/-- R223: shape conditions. -/
def Lay.shapeCheck (s : State) (g : Nat) (l : Lay) : CmdCheck :=
  let w := tagBits l.tag / 8
  let off := offsVector s g (64 * l.offs) (l.nseg + 1)
  let used := (List.range (l.rank - 1)).map fun d => l.s (d + 1)
  let badLen := (List.range l.nseg).any fun i =>
    let d := off.getD (i + 1) 0 - off.getD i 0
    decide (d < 0) || decide ((l.e (l.rank - 2) : Int) < d)
  failIf (2 ≤ l.seg || (l.seg == 1 && (l.rank == 1 || badLen)) ||
    (1 ≤ w && (l.base % w != 0 || used.any fun (d : Int) => d % w != 0))) stShape (0x100 + l.k)

/-- An element's place: the window offset or virtual address, its bytes and its nibble (R56). -/
structure Place where
  addr : Int
  n : Nat
  nib : Nat
  deriving DecidableEq, Repr

/-- The place of an element at a distance in half-bytes. -/
def Lay.place (l : Lay) (d : Int) : Place :=
  let b : Int := l.base + d / 2
  if l.nibs == 1 then ⟨b, 1, if d % 2 == 0 then 1 else 2⟩ else ⟨b, l.nibs / 2, 0⟩

/-- The places of the sequence. -/
def Lay.places (s : State) (g : Nat) (l : Lay) : List Place := (Lay.seq s g l).map l.place

/-- R223: an element of windows 0 to 2 outside the window or the partition; aux is the unit or the register number. -/
def ownPlace (c : Core) (win : Nat) (p : Place) : CmdCheck :=
  let o := p.addr.toNat
  if win == 3 then none
  else if p.addr < 0 || windowUnits win * 64 < o + p.n then
    some ⟨stRefused, 0, (p.addr / 64 % 2 ^ 32).toNat⟩
  else if win == 1 then failIf (c.tiles ≤ o / 0x10000) stRefused (64 + o / 0x10000)
  else if win == 2 then failIf (c.accs ≤ o / 0x14000) stRefused (72 + o / 0x14000)
  else none

/-- The range of the issuing core's own windows that a place of virtual memory lies in, reached through its own aperture. -/
def apertureRange (s : State) (g : Nat) (write : Bool) (p : Place) : Option Range :=
  let va := BitVec.ofInt 64 p.addr
  if isAperture va && ownerPkg va == s.pkgid && apertureForm va && apertureCore va == g then
    (unitsOf (apertureOff va) p.n).map fun f => ⟨f.window, f.base, f.length, write⟩
  else none

/-- The ranges of own windows that places touch, one for each unit (R150, R223). -/
def placeRanges (s : State) (g win : Nat) (write : Bool) (l : List Place) : List Range :=
  if win == 3 then (l.filterMap (apertureRange s g write)).eraseDups
  else ((l.flatMap fun p => (List.range ((p.addr.toNat + p.n - 1) / 64 + 1 - p.addr.toNat / 64)).map fun i => p.addr.toNat / 64 + i).eraseDups).map
    fun u => ⟨win, u, 1, write⟩

/-- What another package answers for the 64-byte unit of an address. -/
def unitVerdict (env : RemoteEnv) (va : Word) : RemoteVerdict :=
  ((env.verdicts.find? fun e => e.1.toNat / 64 == va.toNat / 64).map (·.2)).getD .accepted

/-- How a place is answered: own windows always; a virtual address as R12 and R250 to R253 judge it. -/
def placeAnswer (s : State) (g asid win : Nat) (write : Bool) (env : RemoteEnv) (p : Place) : Answer :=
  if win == 3 then
    let va := BitVec.ofInt 64 p.addr
    resolve s g asid (if write then .engWrite else .engRead) va p.n (unitVerdict env va)
  else .ok (.win g (unitOffset win 0 + p.addr.toNat))

/-- The address bits that aux reports. -/
def auxOf (win : Nat) (p : Place) : Nat :=
  let a := (p.addr % 2 ^ 64).toNat
  if win == 3 then (if isAperture (BitVec.ofNat 64 a) then a % 2 ^ 22 / 64 else a / 64 % 2 ^ 32) else a / 64

/-- What aux reports of a place whose data is damaged: the 64-byte unit, or bits [31:0] of a virtual address (R148). -/
def memAux (win : Nat) (p : Place) : Nat :=
  let a := (p.addr % 2 ^ 64).toNat
  if win == 3 then a % 2 ^ 32 else a / 64

/-- R149 step 3 for places reached by virtual address: an access table, a window or a code page refuses (R28, R316). -/
def refusedCheck (s : State) (g asid win : Nat) (write : Bool) (env : RemoteEnv) (l : List Place) : CmdCheck :=
  (l.find? fun p => placeAnswer s g asid win write env p == .access).map fun p => ⟨stRefused, 0, auxOf win p⟩

/-- The range of the issuing core's scratchpad that holds a padded record's offsets. -/
def Lay.sideRange (l : Lay) : Range := if l.seg == 1 then byteRange 0 (64 * l.offs) (4 * (l.nseg + 1)) false else ⟨0, 0, 0, false⟩

/-- R148, R151: damage in the offsets of records that a command has read. -/
def sidePoison (s : State) (g : Nat) (l : List Lay) : CmdCheck := ownPoison s g (l.map Lay.sideRange)

/-- Whether a record's sequence can be told, for the checks of R149 that come before its shape: its form is one of R221 and
R222, its offsets are in place, and no segment is longer than its extent. -/
def Lay.readable (s : State) (g : Nat) (l : Lay) : Bool :=
  let off := offsVector s g (64 * l.offs) (l.nseg + 1)
  decide (l.seg < 2) && l.sideShape.isNone && l.sidePos.isNone &&
    (l.seg != 1 || (List.range l.nseg).all fun i =>
      let d := off.getD (i + 1) 0 - off.getD i 0
      decide (0 ≤ d) && decide (d ≤ (l.e (l.rank - 2) : Int)))

/-- Whether a record's sequence can be computed: its side record is in place and its shape passes. -/
def Lay.sound (s : State) (g : Nat) (l : Lay) : Bool :=
  l.sideShape.isNone && l.sidePos.isNone && (Lay.shapeCheck s g l).isNone

/-- The stages of R149 for one thing checked: side extents, side place, side map, partition and tables, tags, shapes. -/
abbrev Stages := List (List CmdCheck)

/-- The checks of several things, stage by stage. -/
def staged (l : List Stages) : List CmdCheck := (List.range 6).flatMap fun i => l.flatMap fun x => x.getD i []

/-- The first of the places that is refused in the core's own windows. -/
def ownPlaces (c : Core) (win : Nat) (l : List Place) : CmdCheck :=
  (l.find? fun p => (ownPlace c win p).isSome).bind (ownPlace c win)

/-- A layout record's checks, with the places that its command uses of it. -/
def Lay.stages (s : State) (g asid : Nat) (env : RemoteEnv) (write : Bool) (l : Lay) (ps : List Place) : Stages :=
  [[l.sideShape], [l.sidePos], [], [ownPlaces (s.core g) l.win ps, refusedCheck s g asid l.win write env ps],
   [l.tagCheck], [Lay.shapeCheck s g l]]

/-- The places of a record whose sequence can be told. -/
def Lay.soundPlaces (s : State) (g : Nat) (l : Lay) : List Place := if Lay.readable s g l then Lay.places s g l else []

/-! ### Engine reads and writes -/

/-- What a read of places comes to: the elements read, and where and why it stopped. -/
structure ReadResult where
  data : List Nat
  stop : Option Status
  rest : List Byte
  deriving DecidableEq, Repr

/-- Picks a nibble of a byte, or the whole value. -/
def Place.pick (p : Place) (v : Nat) : Nat :=
  match p.nib with
  | 1 => v % 16
  | 2 => v / 16 % 16
  | _ => v

/-- Reads places in order; another package's bytes come from the environment in the order they are read. The reading
stops at the first place that cannot be read (R148, R164). -/
def readPlaces (s : State) (g asid win : Nat) (env : RemoteEnv) : List Byte → List Place → ReadResult
  | rem, [] => ⟨[], none, rem⟩
  | rem, p :: t =>
    let go := fun (v : Nat) (rem : List Byte) =>
      let r := readPlaces s g asid win env rem t
      { r with data := p.pick v :: r.data }
    match placeAnswer s g asid win false env p with
    | .ok (.remote ..) => go (leNat (rem.take p.n)) (rem.drop p.n)
    | .ok l =>
      if poisoned s l p.n then ⟨[], some ⟨stMemory, 0, memAux win p⟩, rem⟩ else go (readLoc s l p.n) rem
    | .absent => ⟨[], some ⟨stAbsent, 0, 0⟩, rem⟩
    | .xlat => ⟨[], some ⟨stXlat, 0, (p.addr % 2 ^ 32).toNat⟩, rem⟩
    | _ => ⟨[], some ⟨stRefused, 0, auxOf win p⟩, rem⟩

/-- Consecutive bytes of one place joined, so that a write passes a word once (R242). -/
def joinRuns : List (Loc × List Byte) → List (Loc × List Byte)
  | [] => []
  | (l, b) :: t =>
    match joinRuns t with
    | (l', b') :: t' => if l.plus b.length == l' && l != .absent then (l, b ++ b') :: t' else (l, b) :: (l', b') :: t'
    | [] => [(l, b)]

/-- The bytes an element write puts: a nibble is merged into its byte. -/
def placeBytes (s : State) (l : Loc) (p : Place) (v : Nat) : List Byte :=
  match p.nib with
  | 1 => [BitVec.ofNat 8 (readLoc s l 1 / 16 * 16 + v % 16)]
  | 2 => [BitVec.ofNat 8 (readLoc s l 1 % 16 + v % 16 * 16)]
  | _ => leBytes p.n v

/-- 64-byte units that a list of places touches. -/
def unitCount (l : List Place) : Nat := ((l.map fun p => p.addr / 64).eraseDups).length

/-- R148: how the reading of places stopped, with the units not read when the owner is absent. -/
def readStop (r : ReadResult) (ps : List Place) : Option Status :=
  r.stop.map fun x => if x.code == stAbsent then ⟨stAbsent, 0, unitCount (ps.drop r.data.length)⟩ else x

/-- Two nibbles of one byte joined, so that both are written. -/
def joinNibbles : List (Place × Nat) → List (Place × Nat)
  | (p, v) :: (q, w) :: t =>
    if p.nib == 1 && q.nib == 2 && p.addr == q.addr then
      (⟨p.addr, 1, 0⟩, v % 16 + 16 * (w % 16)) :: joinNibbles t
    else (p, v) :: joinNibbles ((q, w) :: t)
  | l => l

/-- R314: what a command writes, as a soft error inside the array datapath, a staging buffer or the sampling unit leaves it. -/
def State.soft (s : State) (key : Nat) (b : List Byte) : List Byte :=
  if s.upset then (List.range b.length).map fun i => (Config.softError s.free key b).getD i 0 else b

/-- What a write of places comes to: where it stopped, the units that absent owners did not take before that, the places not
written, and those written with their bytes. -/
structure WriteResult where
  s : State
  stop : Option Status
  missed : Nat
  lost : List Place
  locs : List (Loc × List Byte)
  deriving DecidableEq, Repr

/-- R253, R148: writes elements to places as an engine of core g for sequencer k, where `ans` says how each place is
answered. An unmapped address stops the writing there; a place at an absent owner is skipped. Where an owner is absent each unit not
written is counted. -/
def writeAnswered (s : State) (g k win : Nat) (ans : Place → Answer) (l : List (Place × Nat)) : WriteResult :=
  let l := (joinNibbles l).map fun e => (e, ans e.1)
  let ok := l.takeWhile fun e => e.2 != .xlat && e.2 != .access && e.2 != .memory
  let stop := (l.drop ok.length).head?.map fun e =>
    if e.2 == .xlat then (⟨stXlat, 0, (e.1.1.addr % 2 ^ 32).toNat⟩ : Status) else ⟨stRefused, 0, auxOf win e.1.1⟩
  let gone := (ok.filter fun e => e.2 == .absent).map fun e => e.1.1
  let lost := gone ++ (l.drop ok.length).map fun e => e.1.1
  let runs := ok.filterMap fun e => match e.2 with
    | .ok loc => some (loc, s.soft (e.1.1.addr % 2 ^ 64).toNat (placeBytes s loc e.1.1 e.1.2))
    | _ => none
  let away := ok.filterMap fun e => match e.2 with
    | .ok loc => if loc.isRemote && e.1.1.nib != 0 then some (loc, e.1.1.nib == 2, e.1.2) else none
    | _ => none
  let s := (joinRuns (runs.filter fun e => !(e.1.isRemote && away.any fun x => x.1 == e.1))).foldl
    (fun t e => t.writeLoc (.engine g k) e.1 e.2 false) s
  let s := away.foldl (fun t e => t.writeNibble (.engine g k) e.1 e.2.1 e.2.2) s
  ⟨if gone.isEmpty then s else s.countAbsent g (unitCount lost), stop, unitCount gone, lost, runs⟩

/-- R249, R251, R254: what an engine's accesses to places of virtual memory leave in the TLBs and the sample ring: one access
for each 64-byte unit (DESIGN CHOICE, log entry 68). -/
def State.noteUnits (s : State) (g asid win : Nat) (k : AccKind) (l : List Place) : State :=
  if win != 3 then s
  else ((l.map fun p => (p.addr % 2 ^ 64).toNat / 64).eraseDups).foldl (fun t a =>
    t.noteTranslation g asid k (BitVec.ofNat 64 (64 * a))) s

/-- The same with the places of window codes 0 to 3 of the issuing core. -/
def writePlaces (s : State) (g k asid win : Nat) (env : RemoteEnv) (l : List (Place × Nat)) : WriteResult :=
  let r := writeAnswered s g k win (placeAnswer s g asid win true env) l
  { r with s := r.s.noteUnits g asid win .engWrite (l.map (·.1)) }

/-- The status of a writing, the fault met first (R149): OWNER-ABSENT with the units not written, or its stop. -/
def WriteResult.status (r : WriteResult) (ok : Status) : Status :=
  if r.missed != 0 then ⟨stAbsent, 0, unitCount r.lost⟩ else r.stop.getD ok

/-- The same where the writing follows a reading that has left places unread, so that these are not written either (R148, R164).
`whole` tells that aux counts units whatever stopped the reading. -/
def WriteResult.moved (r : WriteResult) (read : Option Status) (unread : List Place) (whole : Bool) (ok : Status) : Status :=
  let units := unitCount (r.lost ++ unread)
  if r.missed != 0 then ⟨stAbsent, 0, units⟩
  else match r.stop, read with
    | some x, _ => x
    | none, some x => if whole || x.code == stAbsent then ⟨x.code, 0, units⟩ else x
    | none, none => ok

/-- R253: units not written for an absent owner that the writing itself has not counted. -/
def WriteResult.countRest (r : WriteResult) (s : State) (g : Nat) (st : Status) : State :=
  let counted := if r.missed == 0 then 0 else unitCount r.lost
  if st.code == stAbsent && counted < st.aux then s.countAbsent g (st.aux - counted) else s

/-- Writes bytes into an own window as the engine for sequencer k. -/
def engWrite (s : State) (g k window off : Nat) (b : List Byte) : State :=
  if b.isEmpty then s else s.writeWin (.engine g k) g (unitOffset window 0 + off) (s.soft (unitOffset window 0 + off) b)

/-! ### Firing (R143, R145, R146, R150, R224) -/

/-- Whether every wait token is present (R145); slot 0 waits for nothing. -/
def tokensPresent (c : Cluster) (w : Nat) : Bool :=
  (cwWaits w).all fun t => t == 0 || (tabGet {} c.tokens t).present

/-- R146: whether a waited token carries an error. -/
def tokensError (c : Cluster) (w : Nat) : Bool :=
  (cwWaits w).any fun t => t != 0 && (tabGet {} c.tokens t).error

/-- R147, R150: whether an earlier command of the core holds this one back. -/
def earlierHolds (s : State) (g : Nat) (stamp w : Nat) (d : Cmd) : Bool :=
  let v := cmdWord s g d
  decide (d.stamp < stamp) &&
    ((cwReads w ++ cwOrdered w).any (fun f => (cwOrdered v).any f.meets) ||
      (!d.hasRead && (cwOrdered w).any fun f => (cwReads v).any f.meets))

/-- R150: the footprint scheduler admits a command. -/
def footprintsAdmit (s : State) (g stamp w : Nat) : Bool :=
  (List.range 16).all fun i =>
    ((s.core g).queue i).cmds.all fun d => !earlierHolds s g stamp w d

/-- R175, R262: a set-up or operation of a collective that has fired holds its queue until it completes, and so does an
`smma` that waits for its program. -/
def holdsQueue (c : Cmd) : Bool :=
  let op := cwOpcode (c.word.getD 0).toNat
  c.fired && c.st.isNone && (op == 0x04 || (0x60 ≤ op && op ≤ 0x64))

/-- The command at a queue's fetch point: the first that has not fired. -/
def headCmd (q : Queue) : Option Cmd := if q.cmds.any holdsQueue then none else q.cmds.find? fun c => !c.fired

/-- R224, R225, R227: whether the shared array admits a command of sequencer k of core g. -/
def arrayAdmits (s : State) (g k : Nat) (u : ArrayUse) : Bool :=
  let c := s.cluster (clusterOfCore g)
  match u with
  | .neither => true
  | .edge => c.holder == some (g, k) && !c.giveUp && c.termCmds < 16 && c.termCycles < 4096
  | .array => c.holder == some (g, k) && !c.giveUp && c.termCmds < 16 && c.termCycles < 4096 && c.ride && !c.rideDone

/-- R310: whether the node on core g is being saved, so that its unfired commands stay in their ring slots. -/
def beingSaved (s : State) (g : Nat) : Bool := (s.nodeOf g).any fun n => n.st == .running && !n.saves.isEmpty

/-- R195, R332: whether the node on core g is torn down, so that no command fires any more. -/
def beingTorn (s : State) (g : Nat) : Bool := (s.nodeOf g).any fun n => n.teardown

/-- R14: whether an opcode is a bulk copy; 48 may be in flight on a core. -/
def isBulkCopy (op : Nat) : Bool := [0x20, 0x24, 0x25].contains op

/-- R14: whether a slot is free for a command of an opcode. -/
def copySlotFree (s : State) (g op : Nat) : Bool :=
  !isBulkCopy op ||
    ((List.range 16).map fun i => (((s.core g).queue i).cmds.filter fun c =>
      c.fired && !c.st.any (fun x => x.code == stMalformed) && isBulkCopy (cwOpcode (c.word.getD 0).toNat)).length).sum < 48

/-- Whether the command at the fetch point of queue q may fire as an opcode. -/
def mayFire (s : State) (g q : Nat) (ops : List Nat) (u : ArrayUse) : Option (Cmd × Nat) :=
  let qu := (s.core g).queue q
  match if s.halted || beingSaved s g || beingTorn s g then none else headCmd qu with
  | none => none
  | some c =>
    match c.word with
    | none => none
    | some w =>
      let w := w.toNat
      if ops.contains (cwOpcode w) && tokensPresent (s.cluster (clusterOfCore g)) w && footprintsAdmit s g c.stamp w &&
          arrayAdmits s g c.by_ u && copySlotFree s g (cwOpcode w)
      then some (c, w) else none

/-- Changes the command with a number. -/
def Queue.modCmd (q : Queue) (num : Nat) (f : Cmd → Cmd) : Queue :=
  { q with cmds := q.cmds.map fun c => if c.num == num then f c else c }

/-- A fired command's outcome: the state with its writes made, its status, the clusters that received remote
writes, and what it holds back until it can complete. -/
structure Fired where
  s : State
  st : Status
  clusters : List Nat := []
  held : Option HeldLine := none
  deriving DecidableEq, Repr

/-- Records that a command has fired with its outcome, and counts it in the lease's term (R225). `remote` tells that it has a remote
destination, whatever it came to (R146). -/
def Fired.record (f : Fired) (g q num : Nat) (u : ArrayUse) (remote : Bool := false) : State :=
  let s := f.s.modCore g fun c =>
    c.setQueue q ((c.queue q).modCmd num fun d =>
      { d with fired := true, read := !f.st.notRun, st := if f.held.isSome then none else some f.st, held := f.held,
               clusters := f.clusters, remote := remote || !f.clusters.isEmpty,
               use := u })
  let s := s.noteSpill g
  if u == .neither then s
  else s.modCluster (clusterOfCore g) fun c => { c with termCmds := c.termCmds + 1 }

/-- A command that fails a check: nothing written. -/
def Fired.fail (s : State) (x : Status) : Fired := ⟨s, x, [], none⟩

/-- What a command does: its checks in R149's order, and its effect when every check passes. -/
structure Plan where
  checks : List CmdCheck
  effect : Fired
  deriving DecidableEq, Repr

/-- A command's outcome: the first check that fails gives the status, and nothing is written. -/
def Plan.fired (p : Plan) (s : State) : Fired :=
  match firstFail p.checks with
  | some x => .fail s x
  | none => p.effect

/-- R326: whether a command's engine reads outside the core's windows: a source in virtual memory, bins or records there, or a grammar's
tables. -/
def readsOutside (c : Cmd) (w : Nat) : Bool :=
  let op := cwOpcode w
  if [0xa0, 0xa1, 0xa6].contains op then true
  else if op == 0x22 || op == 0x23 then bitOf w 58
  else [0x20, 0x21, 0x24, 0x25, 0x40, 0x80, 0x81, 0x82, 0x83].contains op && (layOf c (bitsOf w 195 192)).win == 3

/-- The bytes of core g's windows that differ between two states, in runs. -/
def changedRuns (s t : State) (g : Nat) : List (Nat × List Byte) :=
  let mine := fun (c : Host.Cell) => decide (winKey g 0 ≤ c.1) && decide (c.1 < winKey g 0 + 2 ^ 22)
  let new := (t.mem.filter fun c => mine c && !s.mem.contains c).map fun c => (Loc.win g (c.1 - winKey g 0), [c.2])
  let gone := (s.mem.filter fun c => mine c && (t.mem.all fun d => d.1 != c.1)).map fun c => (Loc.win g (c.1 - winKey g 0), [(0 : Byte)])
  (joinRuns (new ++ gone)).filterMap fun r => match r.1 with
    | .win _ off => some (off, r.2)
    | _ => none

/-- R326: what an engine has written into the core's windows from outside the core, as writes of another master. -/
def State.recordRuns (t s : State) (g : Nat) : State :=
  if s.armed g then (changedRuns s t g).foldl (fun u r => u.record g 1 0 r.1 r.2.length (leNat r.2)) t else t

/-- R326: what a command that read outside the core has come to, and what it has written into the core's windows. -/
def State.recordEngine (t s : State) (g q : Nat) (c : Cmd) (x : Status) : State :=
  (t.record g 5 c.by_ (16 * c.num + q) x.code (x.detail + x.aux * 2 ^ 16)).recordRuns s g

/-- R327: the status that the recording gives a command of a re-executing core, when it is the next event. -/
def fedStatus (s : State) (g q : Nat) (c : Cmd) : Option Status :=
  match (s.group g).feed with
  | some (e :: _) =>
    if e.kind == 5 && e.k == c.by_ && e.addr == 16 * c.num + q && e.count == (s.seqAt g c.by_).rwcount then
      some ⟨e.n, e.data % 2 ^ 16, e.data / 2 ^ 16⟩
    else none
  | _ => none

/-- R327: the state once that event has been fed. -/
def State.dropFed (s : State) (g : Nat) : State :=
  let r := s.group g
  s.setGroup g { r with feed := r.feed.map (·.drop 1), fed := r.fed + 1 }

/-- R327: in a re-execution nothing leaves for other packages. -/
def State.muted (t s : State) (g : Nat) : State := if s.replaying g then { t with outbox := s.outbox, awaiting := s.awaiting } else t

/-- Fires a command: R146 first, then its own checks and effect. Nothing happens when it may not fire. `away` judges, as it fires,
whether it has a remote destination. In a re-execution one that reads outside the core takes the recorded status, and its recorded writes
follow (R327). -/
def fireCmd (s : State) (g q : Nat) (ops : List Nat) (u : Cmd → Nat → ArrayUse)
    (run : Cmd → Nat → Plan) (away : Cmd → Nat → Bool := fun _ _ => false) : State :=
  let c? := headCmd ((s.core g).queue q)
  let use := match c? with
    | some c => u c (c.word.getD 0).toNat
    | none => .neither
  match mayFire s g q ops use with
  | none => s
  | some (c, w) =>
    let up := cwEprop w && tokensError (s.cluster (clusterOfCore g)) w
    let out := readsOutside c w
    if up then (⟨s, ⟨stUpstream, 0, 0⟩, [], none⟩ : Fired).record g q c.num use (away c w)
    else if out && s.replaying g then
      match fedStatus s g q c with
      | some x => (⟨s.dropFed g, x, [], none⟩ : Fired).record g q c.num use
      | none => s
    else
      let f := (run c w).fired s
      let t := ((f.record g q c.num use (away c w)).track s.outbox.length g (some (q, c.num))).muted s g
      (if out then t.recordEngine s g q c f.st else t).sidesSince s (some (g, q))

/-! ### Completion (R143, R145, R147) -/

/-- R147: the status record. -/
def statusRecord (num : Nat) (x : Status) : List Byte :=
  leBytes 2 x.code ++ leBytes 2 x.detail ++ leBytes 4 x.aux ++ leBytes 8 num

/-- A cluster that received remote writes, as one number: 256·package + cluster. -/
def globalCluster (pkg g : Nat) : Nat := 256 * pkg + clusterOfCore g

end Sys2Proof.Machine
end

