-- ==== Sys2Proof/Machine/Matrix.lean ====
section
/-! DEFINITION. Matrix commands on the array and its edge (R57, R61, R66, R67, R153 to R161). -/
namespace Sys2Proof.Machine

/-! ### Operands -/

/-- Row r, column c of a tile, under its tag (R56). -/
def tileElem (s : State) (g tl tag r c : Nat) : Nat :=
  let w := tagBits tag
  let off := 0x10000 * tl + 512 * r + w * c / 8
  if w == 4 then (if c % 2 == 0 then ownNat s g 1 off 1 % 16 else ownNat s g 1 off 1 / 16) else ownNat s g 1 off (w / 8)

/-- Window offset of accumulator element (i, j) (R57). -/
def accOff (a i j : Nat) : Nat := 0x14000 * a + 640 * i + 5 * j

/-- acc_read: the 40 bits of an element. -/
def accRead (s : State) (g a i j : Nat) : Nat := ownNat s g 2 (accOff a i j) 5

/-- A tile configuration of the core. -/
def Core.tile (c : Core) (t : Nat) : TileCfg := c.tcfg[t % 8]'(Nat.mod_lt _ (by decide))

/-- An accumulator of the core. -/
def Core.accu (c : Core) (a : Nat) : AccCfg := c.acc[a % 4]'(Nat.mod_lt _ (by decide))

/-- Changes a tile's tag (R58). -/
def Core.setTileTag (c : Core) (t tag : Nat) : Core :=
  let i : Fin 8 := ⟨t % 8, Nat.mod_lt _ (by decide)⟩
  { c with tcfg := vput c.tcfg i { c.tcfg[i] with tag := tag } }

/-- Changes an accumulator. -/
def Core.modAcc (c : Core) (a : Nat) (f : AccCfg → AccCfg) : Core :=
  let i : Fin 4 := ⟨a % 4, Nat.mod_lt _ (by decide)⟩
  { c with acc := vput c.acc i (f c.acc[i]) }

/-- The publication-time configuration of a tile (R144). -/
def Cmd.tile (c : Cmd) (t : Nat) : TileCfg := c.tcfg[t % 8]'(Nat.mod_lt _ (by decide))

/-! ### Exact group sums (R66, R67) -/

/-- A product of two values: NaN, infinity or exact. -/
def mulVal (x y : FVal) : FVal :=
  match x, y with
  | .nan .., _ | _, .nan .. => .nan false false
  | .inf a, .inf b => .inf (a != b)
  | .inf a, .fin b m _ | .fin b m _, .inf a => if m == 0 then .nan false false else .inf (a != b)
  | .fin a m e, .fin b n f => .fin (a != b) (m * n) (e + f)

/-- Whether a value is a NaN. -/
def FVal.isNan : FVal → Bool
  | .nan .. => true
  | _ => false

/-- The sign of an infinity. -/
def FVal.infSign : FVal → Option Bool
  | .inf b => some b
  | _ => none

/-- The finite part of a value. -/
def FVal.finite : FVal → Option (Bool × Nat × Int)
  | .fin a m e => some (a, m, e)
  | _ => none

/-- The exact sum of values; a zero sum is −0 only when every term is −0. -/
def sumVal (l : List FVal) : FVal :=
  let infs := l.filterMap FVal.infSign
  if l.any FVal.isNan || (infs.contains true && infs.contains false) then .nan false false
  else
    match infs with
    | b :: _ => .inf b
    | [] =>
      let fs := l.filterMap FVal.finite
      let (v, e) := sumExact fs
      if v == 0 then .fin (fs.all fun x => x.1 && x.2.1 == 0) 0 0 else .fin (decide (v < 0)) v.natAbs e

/-- A value rounded once to a format by an engine: RNE, canonical NaN. -/
def engRound (t : Nat) (x : FVal) : Nat :=
  match x with
  | .nan .. => canonNan t
  | .inf b => withSign t b (infBits t)
  | .fin a m e => (roundTo t .rne false (.of a m e)).bits

/-- What an element computes to, with whether an integer addition clamped. -/
structure AccVal where
  bits : Nat
  sat : Bool
  deriving DecidableEq, Repr

/-- int40_add on element bits. -/
def addInt40 (a : AccVal) (v : Int) : AccVal :=
  let (x, c) := int40Add (sextN 40 a.bits) v
  ⟨intBits 40 x, a.sat || c⟩

/-- One element under a floating-point or integer tag: C_old, then the chains in ascending q (R66). `group q n` is the
value of group n of chain q. -/
def chainsFp (old : Nat) (s groups : Nat) (group : Nat → Nat → Nat) : Nat :=
  (List.range s).foldl (fun c q =>
    match (List.range groups).map (group q) with
    | [] => c
    | g0 :: gs => fp40Add c (gs.foldl fp40Add g0)) old

/-- The same under tag 7, where group sums are exact integers. -/
def chainsInt (old : Nat) (s groups : Nat) (group : Nat → Nat → Int) : AccVal :=
  (List.range s).foldl (fun c q =>
    let p := (List.range groups).foldl (fun (a : AccVal) n => addInt40 a (group q n)) ⟨0, false⟩
    let r := addInt40 c (sextN 40 p.bits)
    { r with sat := r.sat || p.sat }) ⟨old, false⟩

/-- R66: element (i, j) from rows `ra` of A and `rb` of B, K products and the K-splitting mode. -/
def mmaElement (s : State) (g ta tb tag ra rb K mode old : Nat) : AccVal :=
  let kp := roundUp K (4 * mode)
  let groups := kp / (4 * mode)
  let ks := fun q n => (List.range 4).map fun i => q * kp / mode + 4 * n + i
  if isIntTag tag then
    chainsInt old mode groups fun q n => ((ks q n).map fun k =>
      if k < K then intValue tag (tileElem s g ta tag ra k) * intValue tag (tileElem s g tb tag rb k) else 0).foldl (· + ·) 0
  else
    ⟨chainsFp old mode groups fun q n => engRound 14 (sumVal ((ks q n).map fun k =>
      if k < K then mulVal (fpValue tag (tileElem s g ta tag ra k)) (fpValue tag (tileElem s g tb tag rb k))
      else .fin false 0 0)), false⟩

/-- R67: element (i, j) of block-scaled operands; `ts` is the scale tile. -/
def mmaBsElement (s : State) (g ta tb ts ra rb K mode old : Nat) : AccVal :=
  let kp := roundUp K (128 * mode)
  let blocks := kp / (128 * mode)
  ⟨chainsFp old mode blocks fun q n =>
    let b := q * blocks + n
    let sum := sumVal ((List.range 128).map fun i =>
      let k := 128 * b + i
      if k < K then mulVal (fpValue 13 (tileElem s g ta 13 ra k)) (fpValue 13 (tileElem s g tb 13 rb k)) else .fin false 0 0)
    let a := fpValue 1 (ownNat s g 1 (0x10000 * ts + 512 * ra + 4 * (b % 4)) 4)
    let w := fpValue 1 (ownNat s g 1 (0x10000 * ts + 16 + 4 * (b % 4)) 4)
    engRound 14 (mulVal (mulVal sum a) w), false⟩

/-! ### Fields of a matrix word (R153) -/

def mxTa (w : Nat) : Nat := bitsOf w 194 192
def mxTb (w : Nat) : Nat := bitsOf w 197 195
def mxAcc (w : Nat) : Nat := bitsOf w 199 198
def mxM (c : Cmd) (w : Nat) : Nat := shpVal c.sh (bitsOf w 204 200)
def mxN (c : Cmd) (w : Nat) : Nat := shpVal c.sh (bitsOf w 209 205)
def mxK (c : Cmd) (w : Nat) : Nat := shpVal c.sh (bitsOf w 214 210)
def mxZc (w : Nat) : Bool := bitOf w 58

/-- The K-splitting mode: 1, 2 or 4. -/
def mxMode (w : Nat) : Nat := 2 ^ cwVariant w

/-- R148: a tile outside the partition. -/
def tileCheck (c : Core) (t : Nat) : CmdCheck := failIf (c.tiles ≤ t) stRefused (64 + t)

/-- An accumulator outside the partition. -/
def accCheck (c : Core) (a : Nat) : CmdCheck := failIf (c.accs ≤ a) stRefused (72 + a)

/-- R148: a tile's tag is not accepted. -/
def tileTag (c : Core) (t : Nat) (accepted : List Nat) : CmdCheck :=
  failIf (!accepted.contains (c.tile t).tag) stTag ((c.tile t).tag + (64 + t) * 2 ^ 8)

/-- An accumulator's tag is not the one wanted. -/
def accTag (c : Core) (a want : Nat) : CmdCheck :=
  failIf ((c.accu a).tag != want) stTag ((c.accu a).tag + (72 + a) * 2 ^ 8)

/-- R153: the accumulator tag that goes with an operand tag. -/
def accTagFor (t : Nat) : Nat := if isIntTag t then 7 else 14

/-- The checks of A, B and C's tags. -/
def abcTags (c : Core) (ta tb a : Nat) (accepted : List Nat) : List CmdCheck :=
  [tileTag c ta accepted, tileTag c tb [(c.tile ta).tag], accTag c a (accTagFor (c.tile ta).tag)]

/-- Rows lo to hi − 1 of a tile. -/
def tileRows (t lo n : Nat) (write : Bool) : Range := ⟨1, 1024 * t + 8 * lo, 8 * n, write⟩

/-- Rows lo to lo + n − 1 of an accumulator. -/
def accRowsRange (a lo n : Nat) : Range := ⟨2, 1280 * a + 10 * lo, 10 * n, true⟩

/-- Writes accumulator elements, each row's run at once, and notes clamping. -/
def writeAcc (s : State) (g k a : Nat) (rows : List (Nat × List AccVal)) : State :=
  let s := rows.foldl (fun t r => engWrite t g k 2 (accOff a r.1 0) (r.2.flatMap fun v => leBytes 5 v.bits)) s
  if rows.any fun r => r.2.any (·.sat) then s.modCore g fun c => c.modAcc a fun x => { x with sat := true } else s

/-- C_old under zc (R153). -/
def oldAcc (s : State) (g a i j : Nat) (zc : Bool) : Nat := if zc then 0 else accRead s g a i j

/-- R154's limits, in the order M, N, K. -/
def mnkShape (c : Cmd) (w : Nat) : List CmdCheck :=
  let a := c.tile (mxTa w)
  let b := c.tile (mxTb w)
  [failIf (a.rows < mxM c w) stShape (mxM c w), failIf (b.rows < mxN c w) stShape (mxN c w),
   failIf (min a.cols b.cols < mxK c w) stShape (mxK c w)]

/-- The M × N elements of a product command, row by row; with K = 0 and zc = 0 nothing is written (R155). -/
def productRows (s : State) (g k a M N K : Nat) (zc : Bool) (elem : Nat → Nat → AccVal) : State :=
  if M == 0 || N == 0 || (K == 0 && !zc) then s
  else writeAcc s g k a ((List.range M).map fun i => (i, (List.range N).map (elem i)))

/-- R155, R224: a command with M, N and K of at least 1 uses the array. -/
def useMNK (c : Cmd) (w : Nat) : ArrayUse := if mxM c w == 0 || mxN c w == 0 || mxK c w == 0 then .neither else .array

/-- R144: M, N, K and the ranges of `mma`. -/
def mmaRanges (c : Cmd) (w : Nat) : List Range :=
  [tileRows (mxTa w) 0 (mxM c w) false, tileRows (mxTb w) 0 (mxN c w) false, accRowsRange (mxAcc w) 0 (mxM c w)]

/-- R148, R155: damage in what a product command reads: its operands, and C where it does not start from 0; a command that
computes no product reads none of it. -/
def productPoison (s : State) (g : Nat) (u : ArrayUse) (zc : Bool) (l : List Range) : CmdCheck :=
  if u == .array then ownPoison s g (l.map fun r => { r with write := r.write && zc }) else none

/-! ### mma (R154) -/

def runMma (s : State) (g : Nat) (c : Cmd) (w : Nat) : Plan :=
  let co := s.core g
  let (ta, tb, a) := (mxTa w, mxTb w, mxAcc w)
  let tag := (co.tile ta).tag
  .mk ([tileCheck co ta, tileCheck co tb, accCheck co a] ++ abcTags co ta tb a [2, 3, 4, 9, 10, 11, 12] ++
      mnkShape c w ++ [coverCheck w (mmaRanges c w), productPoison s g (useMNK c w) (mxZc w) (mmaRanges c w)])
    ⟨productRows s g c.by_ a (mxM c w) (mxN c w) (mxK c w) (mxZc w) fun i j =>
      mmaElement s g ta tb tag i j (mxK c w) (mxMode w) (oldAcc s g a i j (mxZc w)), stOk, [], none⟩

def execMma (g q : Nat) (s : State) : Host.Outcome State Fault Refusal :=
  .next (fireCmd s g q [0x00] useMNK (runMma s g))

/-! ### mma.bs (R156) -/

def mxTs (w : Nat) : Nat := bitsOf w 217 215

def runMmaBs (s : State) (g : Nat) (c : Cmd) (w : Nat) : Plan :=
  let co := s.core g
  let (ta, tb, a, ts) := (mxTa w, mxTb w, mxAcc w, mxTs w)
  let ranges := mmaRanges c w ++ [tileRows ts 0 (mxM c w) false]
  .mk ([tileCheck co ta, tileCheck co tb, tileCheck co ts, accCheck co a, tileTag co ta [13], tileTag co tb [13],
      tileTag co ts [0, 1], accTag co a 14] ++ mnkShape c w ++
      [failIf (512 < mxK c w) stShape (mxK c w), coverCheck w ranges, productPoison s g (useMNK c w) (mxZc w) ranges])
    ⟨productRows s g c.by_ a (mxM c w) (mxN c w) (mxK c w) (mxZc w) fun i j =>
      mmaBsElement s g ta tb ts i j (mxK c w) (mxMode w) (oldAcc s g a i j (mxZc w)), stOk, [], none⟩

def execMmaBs (g q : Nat) (s : State) : Host.Outcome State Fault Refusal :=
  .next (fireCmd s g q [0x01] useMNK (runMmaBs s g))

/-! ### mma.seg (R157) -/

def runMmaSeg (s : State) (g : Nat) (c : Cmd) (w : Nat) : Plan :=
  let co := s.core g
  let (ta, tb, a) := (mxTa w, mxTb w, mxAcc w)
  let tag := (co.tile ta).tag
  let la := layOf c (bitsOf w 218 215)
  let lb := layOf c (bitsOf w 222 219)
  let offA := offsVector s g (64 * la.offs) (la.nseg + 1)
  let offB := offsVector s g (64 * lb.offs) (lb.nseg + 1)
  let mask := engCvt 1 14 false (bitsOf w 254 223 ^^^ 0xFF800000)
  let (M, N, K, zc) := (mxM c w, mxN c w, mxK c w, mxZc w)
  let elem := fun i j =>
    if K == 0 then (⟨0, false⟩ : AccVal)
    else if segmentOf offA i == -1 || segmentOf offB j == -1 || segmentOf offA i != segmentOf offB j then ⟨mask, false⟩
    else mmaElement s g ta tb tag i j K (mxMode w) (oldAcc s g a i j zc)
  .mk ([failIf (127 < la.nseg) stShape la.nseg, failIf (127 < lb.nseg) stShape lb.nseg,
      sidePlace (64 * la.offs) (4 * (la.nseg + 1)), sidePlace (64 * lb.offs) (4 * (lb.nseg + 1)),
      tileCheck co ta, tileCheck co tb, accCheck co a] ++ abcTags co ta tb a [2, 3, 4] ++
      mnkShape c w ++ [coverCheck w (mmaRanges c w),
        ownPoison s g [byteRange 0 (64 * la.offs) (4 * (la.nseg + 1)) false, byteRange 0 (64 * lb.offs) (4 * (lb.nseg + 1)) false],
        productPoison s g (useMNK c w) zc (mmaRanges c w)])
    ⟨productRows s g c.by_ a M N K zc elem, stOk, [], none⟩

def execMmaSeg (g q : Nat) (s : State) : Host.Outcome State Fault Refusal :=
  .next (fireCmd s g q [0x02] useMNK (runMmaSeg s g))

/-! ### mma.grp (R158) -/

/-- An entry of a group list. -/
structure Group where
  tb : Nat
  crow : Nat
  m : Nat
  arow : Nat
  bad : Bool
  deriving DecidableEq, Repr

/-- Reads entry i of a list; the ranges that R158 gives its fields are of its field map. -/
def groupAt (s : State) (g list i : Nat) : Group :=
  let e := sideNat s g (64 * list + 8 * i) 8
  ⟨bitsOf e 50 48, bitsOf e 47 32, bitsOf e 31 16, bitsOf e 15 0,
    bitsOf e 63 51 != 0 || decide (127 < bitsOf e 47 32) || decide (128 < bitsOf e 31 16) || decide (127 < bitsOf e 15 0)⟩

/-- The group list of a word. -/
def groupsOf (s : State) (g : Nat) (c : Cmd) (w : Nat) : List Group :=
  (List.range (mxM c w)).map (groupAt s g (bitsOf w 228 215))

/-- R155: a product is computed when some group has rows, and N and K are at least 1. -/
def useGrp (s : State) (g : Nat) (c : Cmd) (w : Nat) : ArrayUse :=
  if mxN c w == 0 || mxK c w == 0 || (groupsOf s g c w).all (·.m == 0) then .neither else .array

/-- One group's rows into C. A row that an earlier group of the command wrote is added to, whatever zc says; `acc` holds
those rows. -/
def runGroup (g : Nat) (c : Cmd) (w tag : Nat) (acc : State × List Nat) (e : Group) : State × List Nat :=
  let (s, rows) := acc
  let (N, K, a, zc) := (mxN c w, mxK c w, mxAcc w, mxZc w)
  if e.m == 0 || N == 0 || (K == 0 && !zc) then acc
  else
    (writeAcc s g c.by_ a ((List.range e.m).map fun i => (e.crow + i, (List.range N).map fun j =>
      mmaElement s g (mxTa w) e.tb tag (e.arow + i) j K (mxMode w)
        (oldAcc s g a (e.crow + i) j (zc && !rows.contains (e.crow + i))))),
      rows ++ (List.range e.m).map (e.crow + ·))

def runMmaGrp (s : State) (g : Nat) (c : Cmd) (w : Nat) : Plan :=
  let co := s.core g
  let (ta, a, N, K) := (mxTa w, mxAcc w, mxN c w, mxK c w)
  let tag := (co.tile ta).tag
  let gs := groupsOf s g c w
  let ra := c.tile ta
  let shapes := gs.flatMap fun e =>
    [failIf (ra.rows < e.arow + e.m) stShape (e.arow + e.m), failIf (128 < e.crow + e.m) stShape (e.crow + e.m),
     failIf ((c.tile e.tb).rows < N) stShape N, failIf (min ra.cols (c.tile e.tb).cols < K) stShape K]
  let ranges := gs.flatMap fun e =>
    if e.m == 0 then []
    else [tileRows ta e.arow e.m false, tileRows e.tb 0 N false, accRowsRange a e.crow e.m]
  .mk ([failIf (256 < mxM c w) stShape (mxM c w), sidePlace (64 * bitsOf w 228 215) (8 * mxM c w),
      failIf (gs.any (·.bad)) stMalformed 0, tileCheck co ta, accCheck co a] ++ gs.map (fun e => tileCheck co e.tb) ++
      [tileTag co ta [2, 3, 4, 9, 10, 11, 12]] ++ gs.map (fun e => tileTag co e.tb [tag]) ++ [accTag co a (accTagFor tag)] ++
      shapes ++ [coverCheck w ranges, ownPoison s g [byteRange 0 (64 * bitsOf w 228 215) (8 * mxM c w) false],
        productPoison s g (useGrp s g c w) (mxZc w) ranges])
    ⟨(gs.foldl (runGroup g c w tag) (s, [])).1, stOk, [], none⟩

def execMmaGrp (g q : Nat) (s : State) : Host.Outcome State Fault Refusal :=
  .next (fireCmd s g q [0x03] (useGrp s g) (runMmaGrp s g))

/-! ### acc.zero (R160) and acc.rd (R161) -/

def runAccZero (s : State) (g : Nat) (c : Cmd) (w : Nat) : Plan :=
  let a := mxAcc w
  let s' := engWrite s g c.by_ 2 (0x14000 * a) (List.replicate 81920 0)
  .mk [accCheck (s.core g) a, coverCheck w [⟨2, 1280 * a, 1280, true⟩]]
    ⟨s'.modCore g fun co => co.modAcc a fun x => { x with tag := if bitOf w 58 then 7 else 14, sat := false }, stOk, [], none⟩

def execAccZero (g q : Nat) (s : State) : Host.Outcome State Fault Refusal :=
  .next (fireCmd s g q [0x08] (fun _ _ => .neither) (runAccZero s g))

/-- R161: one element converted, with whether its value changed beyond rounding. -/
def accConvert (tag dtag : Nat) (sat : Bool) (x : Nat) : Nat × Bool :=
  if tag == 14 then
    let b := engCvt 14 dtag sat x
    match fpValue 14 x with
    | .nan .. => (b, false)
    | .inf _ => (b, !(hasInf dtag && !sat))
    | .fin .. => (b, (cvtBetween 14 dtag .rne sat x).flags &&& flagOF != 0)
  else
    let v := sextN 40 x
    (if sat then satInt dtag v else wrapInt dtag v, decide (v < intMin dtag) || decide (intMax dtag < v))

/-- R161: the pitch of a scratchpad destination. -/
def rowPitch (n dtag : Nat) : Nat := roundUp (n * (tagBits dtag / 8)) 64

/-- The ranges of an accumulator that a command reads: the elements 0 to N − 1 of its rows. -/
def accReadRanges (a M N : Nat) : List Range := (List.range M).map fun i => byteRange 2 (0x14000 * a + 640 * i) (5 * N) false

def runAccRd (s : State) (g : Nat) (c : Cmd) (w : Nat) : Plan :=
  let co := s.core g
  let (a, tb, M, N) := (mxAcc w, mxTb w, mxM c w, mxN c w)
  let (dtag, sat, spd) := (bitsOf w 218 215, bitOf w 58, bitOf w 59)
  let tag := (co.accu a).tag
  let accepted := if tag == 14 then [1, 2, 3, 4] else if tag == 7 then [7, 8, 9] else []
  let wb := tagBits dtag / 8
  let p := rowPitch N dtag
  let dst := 64 * bitsOf w 232 219
  let rowOff := fun i => if spd then dst + i * p else 0x10000 * tb + 512 * i
  let win := if spd then 0 else 1
  let ranges := ⟨2, 1280 * a, 10 * M, false⟩ :: (if N == 0 then [] else (List.range M).map fun i => byteRange win (rowOff i) (N * wb) true)
  let vals := (List.range M).map fun i => (List.range N).map fun j => accConvert tag dtag sat (accRead s g a i j)
  let s' := (List.range M).foldl (fun t i =>
    engWrite t g c.by_ win (rowOff i) ((vals.getD i []).flatMap fun v => leBytes wb v.1)) s
  let s' := if spd then s' else s'.modCore g fun co => co.setTileTag tb dtag
  let detail := (if (co.accu a).sat then 1 else 0) + (if vals.any fun r => r.any (·.2) then 2 else 0)
  .mk [accCheck co a, if spd then none else tileCheck co tb,
      failIf (spd && 2 ^ 20 < dst + M * p) stRefused 16384,
      if accepted.contains dtag then none else some ⟨stTag, dtag, tag + (72 + a) * 2 ^ 8⟩,
      failIf (128 < M || (!spd && (c.tile tb).rows < M)) stShape M,
      failIf (128 < N || (!spd && elemsOf dtag < N)) stShape N, coverCheck w ranges, ownPoison s g (accReadRanges a M N)]
    ⟨if N == 0 || M == 0 then (if spd then s else s.modCore g fun co => co.setTileTag tb dtag) else s', ⟨0, detail, 0⟩, [], none⟩

def execAccRd (g q : Nat) (s : State) : Host.Outcome State Fault Refusal :=
  .next (fireCmd s g q [0x09] (fun _ _ => .edge) (runAccRd s g))

end Sys2Proof.Machine
end

