-- ==== Sys2Proof/Machine/Move.lean ====
section
/-! DEFINITION. Movement commands: copy, halo and bcast (R164, R168, R169, R244, R288). -/
namespace Sys2Proof.Machine

/-! ### Moving an element sequence -/

/-- R164: the widths of two layouts' elements must be equal; aux names the destination record. -/
def sameWidth (lf lt : Lay) : CmdCheck :=
  failIf (tagBits lf.tag != tagBits lt.tag) stTag (lt.tag + (16 + lt.k) * 2 ^ 8)

/-- The tiles of core g that places of a window touch take a tag (R58, R164). -/
def State.tagPlaces (s : State) (g win tag : Nat) (l : List Place) : State :=
  if win != 1 then s
  else ((l.map fun p => p.addr.toNat / 0x10000).eraseDups).foldl (fun t i => t.modCore g fun c => c.setTileTag i tag) s

/-- R164: the same for the tile and vector registers that lie at places of this package's windows. -/
def State.tagLocs (s : State) (tag : Nat) (l : List Loc) : State :=
  ((l.filterMap fun x => match x with
    | .win g off =>
      match winOf off with
      | some .tile => some (g, off / 0x10000 * 0x10000)
      | some .vreg => some (g, off / 0x200 * 0x200)
      | _ => none
    | _ => none).eraseDups).foldl (fun t x =>
      if x.2 < 0x180000 then t.modCore x.1 fun c => c.setTileTag ((x.2 - 0x100000) / 0x10000) tag
      else t.modSeqAt x.1 ((x.2 - 0x1D0000) / 0x4000) fun q =>
        { q with r := { q.r with vtag := vput q.r.vtag ⟨(x.2 - 0x1D0000) / 0x200 % 32, Nat.mod_lt _ (by decide)⟩ tag } }) s

/-- The clusters whose windows receive remote writes of core g (R146). -/
def remoteClusters (s : State) (g : Nat) (l : List Loc) : List Nat :=
  (l.filterMap fun x => match x with
    | .win t _ => if t == g then none else some (globalCluster s.pkgid t)
    | .remote p _ a => if isAperture a then some (globalCluster p (apertureCore a)) else none
    | _ => none).eraseDups

/-- The places answered, in order, without those that are not reached. -/
def reached (ans : Place → Answer) (l : List Place) : List Loc :=
  l.filterMap fun p => match ans p with
    | .ok x => some x
    | _ => none

/-- Whether a layout's places reach another core or package through an aperture; of a record whose sequence cannot be told, its
first place. -/
def Lay.reachesOut (s : State) (g : Nat) (l : Lay) : Bool :=
  l.win == 3 && (if Lay.readable s g l then Lay.places s g l else [l.place 0]).any fun p =>
    let va := BitVec.ofInt 64 p.addr
    isAperture va && !(ownerPkg va == s.pkgid && apertureCore va == g)

/-! ### copy (R164) -/

def mvFrom (w : Nat) : Nat := bitsOf w 195 192
def mvTo (w : Nat) : Nat := bitsOf w 199 196

/-- Arrival handlers of a payload: each core that it was written into, with the lowest window offset and the bytes. -/
def arrivalsOf (h : Nat) (l : List (Loc × Nat)) : List (Nat × Arrival) :=
  let here := l.filterMap fun x => match x.1 with
    | .win t off => some (t, off, x.2)
    | _ => none
  ((here.map (·.1)).eraseDups).map fun t =>
    let mine := here.filter fun x => x.1 == t
    (t, ⟨h, (mine.map fun x => x.2.1).foldl min (2 ^ 22), (mine.map fun x => x.2.2).sum⟩)

/-- R244: the arrivals join their cores' handler queues, in a re-execution within the cluster alone (R327); another package is told of the
handler with its payload. -/
def State.arrive (s : State) (g h : Nat) (l : List (Loc × Nat)) : State :=
  if h == 0 then s
  else
    let here := (arrivalsOf h l).filter fun x => !s.replaying g || clusterOfCore x.1 == clusterOfCore g
    let s := here.foldl (fun t x => t.modCore x.1 fun c => { c with handlers := c.handlers ++ [x.2] }) s
    match l.find? fun x => match x.1 with
        | .remote .. => true
        | _ => false with
    | some (.remote p d a, _) => s.sendAfter g ⟨p, d, a, .signal, leBytes 4 h⟩
    | _ => s

/-- R244: the cores among receivers whose handler queues are full. -/
def fullCores (s : State) (l : List Loc) : List Nat :=
  ((l.filterMap fun x => match x with
    | .win t _ => some t
    | _ => none).eraseDups).filter fun t => 16 ≤ (s.core t).handlers.length

/-- The last line that a payload writes in a core's window. -/
def lastLine (l : List Loc) (t : Nat) : Option Nat :=
  (l.filterMap fun x => match x with
    | .win t' off => if t' == t then some (off / 64) else none
    | _ => none).getLast?

/-- R244: whether a place is in the last line of a payload for a core whose handler queue is full. -/
def heldBack (full : List Nat) (l : List Loc) (x : Loc) : Bool :=
  match x with
  | .win t off => full.contains t && lastLine l t == some (off / 64)
  | _ => false

/-- R164's effect on the places of the two sequences. With a handler, the last line for a core whose handler queue is full is held back
(R244). -/
def copyPlaces (s : State) (g : Nat) (c : Cmd) (env : RemoteEnv) (lf lt : Lay) (h : Nat) (pf pt : List Place) : Fired :=
  let r := readPlaces s g c.asid lf.win env env.reads pf
  let ans := placeAnswer s g c.asid lt.win true env
  let all := reached ans (pt.take r.data.length)
  let full := if h == 0 then [] else fullCores s all
  let back := fun (e : Place × Nat) => match ans e.1 with
    | .ok x => heldBack full all x
    | _ => false
  let put := fun (l : List (Place × Nat)) => writePlaces s g c.by_ c.asid lt.win env l
  let whole := put (pt.zip r.data)
  let st := whole.moved r.stop (pt.drop r.data.length) true stOk
  let holds := st.code == 0 && !full.isEmpty
  let wr := if holds then put ((pt.zip r.data).filter fun e => !back e) else whole
  let locs := whole.locs.map (·.1)
  let s' := wr.s.tagLocs lf.tag locs |>.noteUnits g c.asid lf.win
    .engRead (pf.take r.data.length)
  let s' := wr.countRest s' g st
  let payload := whole.locs.map fun x => (x.1, x.2.length)
  let late := (joinNibbles ((pt.zip r.data).filter back)).filterMap fun e => match ans e.1 with
    | .ok x => some (x, e.1.nib, if e.1.nib == 0 then leBytes e.1.n e.2 else [BitVec.ofNat 8 (e.2 % 16)])
    | _ => none
  ⟨if st.code == 0 && !holds then s'.arrive g h payload else s', st, remoteClusters s g locs,
   if holds then some ⟨late, payload, h⟩ else none⟩

def runCopy (s : State) (g : Nat) (env : RemoteEnv) (c : Cmd) (w : Nat) : Plan :=
  let lf := layOf c (mvFrom w)
  let lt := layOf c (mvTo w)
  let pf := Lay.soundPlaces s g lf
  let pt := Lay.soundPlaces s g lt
  .mk (staged [Lay.stages s g c.asid env false lf pf, Lay.stages s g c.asid env true lt pt,
      [[], [], [], [], [sameWidth lf lt], [failIf (pf.length != pt.length) stShape pt.length]]] ++
      [coverCheck w (placeRanges s g lf.win false pf ++ placeRanges s g lt.win true pt), sidePoison s g [lf, lt]])
    (copyPlaces s g c env lf lt (bitsOf w 255 224) pf pt)

def execCopy (g q : Nat) (env : RemoteEnv) (s : State) : Host.Outcome State Fault Refusal :=
  .next (fireCmd s g q [0x20] (fun _ _ => .neither) (runCopy s g env)
    fun c w => (layOf c (mvTo w)).reachesOut s g)

/-- A `copy` that held its last line back writes it, and its handlers arrive. -/
def landLine (s : State) (g q : Nat) (c : Cmd) (x : HeldLine) : State :=
  let s := x.writes.foldl (fun t e =>
    if e.2.1 == 0 then t.writeLoc (.engine g c.by_) e.1 e.2.2 false
    else t.writeNibble (.engine g c.by_) e.1 (e.2.1 == 2) (leNat e.2.2)) s
  (s.arrive g x.h x.payload).modCore g fun co => co.setQueue q ((co.queue q).modCmd c.num fun d => { d with held := none, st := some stOk })

/-- R244: the last line is accepted, and the copy can complete, once the handler queues have room. -/
def landCopy (g q : Nat) (s : State) : State :=
  match ((s.core g).queue q).cmds.find? fun c => c.held.isSome with
  | some c => match c.held with
    | some x => if (fullCores s (x.payload.map (·.1))).isEmpty then (landLine s g q c x).sidesSince s (some (g, q)) else s
    | none => s
  | none => s

/-! ### Sending to other cores of the rectangle (R168, R169, R288) -/

/-- A receiver: its package and core number there, and whether it is reached from another package's launch (R288). -/
structure Peer where
  pkg : Nat
  core : Nat
  xpk : Bool
  deriving DecidableEq, Repr

/-- The aperture address of a window offset of a core of a package (R12). -/
def apertureAddr (pkg g off : Nat) : Word :=
  let d := dieOfCore g
  BitVec.ofNat 64 (pkg * 2 ^ 52 + d * 2 ^ 50 + 0x3FFFF * 2 ^ 32 + d * 2 ^ 30 + g / 32 % 16 * 2 ^ 26 + g % 16 * 2 ^ 22 + off)

/-- How n bytes at a window offset of a receiver are answered. -/
def peerAnswer (s : State) (g asid : Nat) (env : RemoteEnv) (p : Peer) (off n : Nat) : Answer :=
  let d := dieOfCore p.core
  if ownerAbsent s p.pkg d then .absent
  else if p.pkg != s.pkgid then
    remoteLoc (apertureAddr p.pkg p.core off) (unitVerdict env (apertureAddr p.pkg p.core off))
  else if targetAdmits s (if p.xpk then none else some g) asid .engWrite p.core off n then .ok (.win p.core off)
  else .access

/-- How a place of a receiver's layout is answered: the same offset in the receiver's window (R169); a record of window 3
names the place itself. -/
def peerPlace (s : State) (g asid : Nat) (env : RemoteEnv) (p : Peer) (win : Nat) (x : Place) : Answer :=
  if win == 3 then placeAnswer s g asid 3 true env x
  else peerAnswer s g asid env p (unitOffset win 0 + x.addr.toNat) x.n

/-- One payload for one receiver: the places read, and the places written there, with its counter. -/
structure Send where
  peer : Peer
  dest : Lay
  src : List Place
  dst : List Place
  counter : Option Nat
  deriving DecidableEq, Repr

/-- The partitions that judge a receiver's places: this package's cores have their own. -/
def Peer.parts (s : State) (p : Peer) : Core := if p.pkg == s.pkgid then s.core p.core else { tiles := 8, accs := 4 }

/-- The refusal of a send, in R149's third step: R223's windows and partitions first, then the receiver's tables. -/
def Send.refusal (s : State) (g asid : Nat) (env : RemoteEnv) (x : Send) : CmdCheck :=
  match ownPlaces (x.peer.parts s) x.dest.win x.dst with
  | some f => some f
  | none =>
  match x.dst.find? fun p => peerPlace s g asid env x.peer x.dest.win p == .access with
  | some p => some ⟨stRefused, 0, auxOf x.dest.win p⟩
  | none =>
    match x.counter with
    | some o => failIf (peerAnswer s g asid env x.peer o 8 == .access) stRefused (o / 64)
    | none => none

/-- R168: the receiver's counter increases by 1, after its payload; another package is sent the increase when the payload is
acknowledged (R288). -/
def bumpCounter (s : State) (g k asid : Nat) (env : RemoteEnv) (x : Send) : State :=
  match x.counter with
  | none => s
  | some o =>
    match peerAnswer s g asid env x.peer o 8 with
    | .ok (.remote p d a) => s.sendAfter g ⟨p, d, a, .amo, leBytes 8 1⟩
    | .ok l => s.writeLoc (.engine g k) l (leBytes 8 ((readLoc s l 8 + 1) % 2 ^ 64)) false
    | _ => s

/-- How a command's status goes on with that of its next part: the fault met first stays, and of absent owners the units add up
(R148, R149). -/
def Status.after (old new : Status) : Status :=
  if old.code == stAbsent then (if new.code == stAbsent then ⟨stAbsent, 0, old.aux + new.aux⟩ else old)
  else if old.code != 0 then old else new

/-- A command's course over its parts: what it has come to, the bytes of other packages that are still to come, and whether it
stopped. -/
structure Course where
  f : Fired
  rest : List Byte
  stopped : Bool := false
  deriving DecidableEq, Repr

/-- One send performs: the data that `read` gives of places in a window, and the counter when the whole payload was written. A
tag that stands at a place written stays as it is: only a copy's destination takes one (R231). -/
def runSend (g : Nat) (c : Cmd) (env : RemoteEnv) (win : Nat) (read : State → List Byte → Send → ReadResult)
    (acc : Course) (x : Send) : Course :=
  if acc.stopped then acc
  else
    let f := acc.f
    let r := read f.s acc.rest x
    let ans := peerPlace f.s g c.asid env x.peer x.dest.win
    let done := x.dst.take r.data.length
    let wr := writeAnswered f.s g c.by_ x.dest.win ans (done.zip r.data)
    let st := wr.moved r.stop (x.dst.drop r.data.length) true stOk
    let s := (wr.s.noteUnits g c.asid win .engRead (x.src.take r.data.length)).noteUnits g c.asid x.dest.win .engWrite done
    let s := wr.countRest s g st
    let s := if st.code == 0 then bumpCounter s g c.by_ c.asid env x else s
    ⟨⟨s, f.st.after st, (f.clusters ++ remoteClusters f.s g (wr.locs.map (·.1))).eraseDups, none⟩, r.rest,
     wr.stop.isSome || r.stop.any fun e => e.code != stAbsent⟩

/-- The ranges of a send in the issuing core's own windows. -/
def Send.ranges (s : State) (g : Nat) (from_ : Lay) (x : Send) : List Range :=
  placeRanges s g from_.win false x.src ++ (if x.dest.win == 3 then placeRanges s g 3 true x.dst else []) ++
    (if x.peer == ⟨s.pkgid, g, false⟩ then
      (if x.dest.win == 3 then [] else placeRanges s g x.dest.win true x.dst) ++ (match x.counter with
        | some o => [byteRange 0 o 8 true]
        | none => [])
     else [])

/-- A send's checks. The source's places are checked once, by its own stages. -/
def Send.stages (s : State) (g asid : Nat) (env : RemoteEnv) (from_ : Lay) (x : Send) : Stages :=
  [[x.dest.sideShape], [x.dest.sidePos], [], [x.refusal s g asid env], [x.dest.tagCheck, sameWidth from_ x.dest],
   [Lay.shapeCheck s g x.dest, failIf (x.src.length != x.dst.length) stShape x.dst.length]]

/-- Runs sends in order. `side` is the range of a side record that the command reads itself. -/
def runSends (s : State) (g : Nat) (c : Cmd) (w : Nat) (env : RemoteEnv) (read : State → List Byte → Send → ReadResult) (from_ : Lay)
    (src : List Place) (pre : Stages) (side : List Range) (l : List Send) : Plan :=
  .mk (staged ([pre, Lay.stages s g c.asid env false from_ src] ++
      l.map (Send.stages s g c.asid env from_)) ++ [coverCheck w (l.flatMap (Send.ranges s g from_)),
        ownPoison s g (side ++ from_.sideRange :: l.map fun x => x.dest.sideRange)])
    (l.foldl (runSend g c env from_.win read) ⟨⟨s, stOk, [], none⟩, env.reads, false⟩).f

/-! ### halo (R168, R288) -/

/-- A direction of R168: its x and y steps, and the record of its receiver's layout. -/
def haloDir (w d : Nat) : Int × Int × Nat :=
  match d with
  | 0 => (0, -1, bitsOf w 199 196)
  | 1 => (0, 1, bitsOf w 203 200)
  | 2 => (1, 0, bitsOf w 207 204)
  | _ => (-1, 0, bitsOf w 211 208)

/-- Rows and columns of the edge sent: first row, rows, first column, columns. -/
def haloEdge (d h R C : Nat) : Nat × Nat × Nat × Nat :=
  match d with
  | 0 => (0, h, 0, C)
  | 1 => (R - h, h, 0, C)
  | 2 => (0, R, C - h, h)
  | _ => (0, R, 0, h)

/-- The edge's places, row by row. -/
def Lay.block (l : Lay) (b : Nat × Nat × Nat × Nat) : List Place :=
  (List.range b.2.1).flatMap fun (i : Nat) => (List.range b.2.2.2).map fun (j : Nat) =>
    l.place (2 * (((b.1 + i : Nat) : Int) * l.s 1) + ((b.2.2.1 + j : Nat) : Int) * (l.nibs : Int))

/-- R288: the entry of a direction in the side record. -/
def xpkEntry (s : State) (g w d : Nat) : Nat := sideNat s g (64 * bitsOf w 255 242 + 2 * d) 2

/-- The receiver of a direction, or none when it is skipped. -/
def haloPeer (s : State) (g w d : Nat) : Option Peer :=
  let co := s.core g
  let (dx, dy, _) := haloDir w d
  let (wd, ht) := (2 ^ co.lw, 2 ^ co.lh)
  let x : Int := (g % 32 : Nat) - (co.x0 : Int) + dx
  let y : Int := (g / 32 : Nat) - (co.y0 : Int) + dy
  let core := fun (x y : Int) => 32 * (co.y0 + y.toNat) + co.x0 + x.toNat
  if 0 ≤ x && x < (wd : Int) && 0 ≤ y && y < (ht : Int) then some ⟨s.pkgid, core x y, false⟩
  else
    let e := xpkEntry s g w d
    if bitOf w 58 && bitOf e 15 then some ⟨e % 2 ^ 12, core (x % wd) (y % ht), true⟩ else none

def haloSends (s : State) (g : Nat) (c : Cmd) (w : Nat) : List Send :=
  let area := layOf c (bitsOf w 195 192)
  let h := bitsOf w 215 212
  ((List.range 4).filter fun d => bitOf w (216 + d)).filterMap fun d =>
    (haloPeer s g w d).map fun p =>
      let dest := layOf c (haloDir w d).2.2
      let ok := Lay.readable s g area && area.seg == 0 && area.rank == 2 && h ≤ area.e 1 && h ≤ area.e 0
      ⟨p, dest, if ok then area.block (haloEdge d h (area.e 1) (area.e 0)) else [], Lay.soundPlaces s g dest, some (64 * bitsOf w 233 220)⟩

/-- R168's and R288's own checks: the side record's place and map, the rank of the area, and h. -/
def haloStages (s : State) (g : Nat) (c : Cmd) (w : Nat) : Stages :=
  let area := layOf c (bitsOf w 195 192)
  let h := bitsOf w 215 212
  let hp := 64 * bitsOf w 255 242
  let bad := (List.range 4).any (fun d => bitsOf (xpkEntry s g w d) 14 12 != 0) || sideNat s g (hp + 8) 56 != 0
  [[], [if bitOf w 58 then sidePlace hp 64 else none], [failIf (bitOf w 58 && bad) stMalformed 0], [], [],
   [failIf (area.rank != 2 || area.seg != 0) stShape (0x100 + area.k),
    failIf (h == 0 || area.e 1 < h || area.e 0 < h) stShape h]]

def runHalo (s : State) (g : Nat) (env : RemoteEnv) (c : Cmd) (w : Nat) : Plan :=
  let l := haloSends s g c w
  let area := layOf c (bitsOf w 195 192)
  runSends s g c w env (fun t rem x => readPlaces t g c.asid area.win env rem x.src) area
    (if area.win == 3 then l.flatMap (·.src) else Lay.soundPlaces s g area) (haloStages s g c w)
    (if bitOf w 58 then [byteRange 0 (64 * bitsOf w 255 242) 64 false] else []) l

def execHalo (g q : Nat) (env : RemoteEnv) (s : State) : Host.Outcome State Fault Refusal :=
  .next (fireCmd s g q [0x24] (fun _ _ => .neither) (runHalo s g env) fun c w => !(haloSends s g c w).isEmpty)

/-! ### bcast (R169) -/

/-- The sub-rectangle: origin x and y, width and height. -/
def bcastRect (w : Nat) : Nat × Nat × Nat × Nat := (bitsOf w 210 206, bitsOf w 215 211, 2 ^ bitsOf w 202 200, 2 ^ bitsOf w 205 203)

def bcastStages (s : State) (g w : Nat) : Stages :=
  let co := s.core g
  let (ox, oy, bw, bh) := bcastRect w
  [[], [], [], [], [], [failIf (ox % bw != 0 || 2 ^ co.lw < ox + bw) stShape ox, failIf (oy % bh != 0 || 2 ^ co.lh < oy + bh) stShape oy]]

/-- The sends of a bcast. With a sub-rectangle that fails its check nothing is sent; the record `to` is still judged before that
(R149, R223), by this core's own partition. -/
def bcastSends (s : State) (g : Nat) (c : Cmd) (w : Nat) : List Send :=
  let co := s.core g
  let (ox, oy, bw, bh) := bcastRect w
  let dest := layOf c (mvTo w)
  let src := Lay.soundPlaces s g (layOf c (mvFrom w))
  let dst := Lay.soundPlaces s g dest
  let one := fun (g : Nat) => (⟨⟨s.pkgid, g, false⟩, dest, src, dst, if bitOf w 58 then some (64 * bitsOf w 229 216) else none⟩ : Send)
  if (firstFail ((bcastStages s g w).getD 5 [])).isSome then [one g]
  else (List.range (bw * bh)).map fun i => one (32 * (co.y0 + oy + i / bw) + co.x0 + ox + i % bw)

def runBcast (s : State) (g : Nat) (env : RemoteEnv) (c : Cmd) (w : Nat) : Plan :=
  let lf := layOf c (mvFrom w)
  let src := Lay.soundPlaces s g lf
  let r := readPlaces s g c.asid lf.win env env.reads src
  runSends s g c w env (fun _ _ _ => r) lf src (bcastStages s g w) [] (bcastSends s g c w)

def execBcast (g q : Nat) (env : RemoteEnv) (s : State) : Host.Outcome State Fault Refusal :=
  .next (fireCmd s g q [0x25] (fun _ _ => .neither) (runBcast s g env)
    fun c w => (bcastSends s g c w).any fun x => x.peer.core != g || x.dest.reachesOut s g)

end Sys2Proof.Machine
end

