-- ==== Sys2Proof/Machine/Special.lean ====
section
/-! DEFINITION. The special functions (R131 to R137): each is the exact value rounded once, from integer arithmetic wide
enough that the rounding cannot be mistaken: where a result is irrational, its computed value and its exact value lie on
the same side of every rounding boundary, which is at least 2^-70 away (log entry 17). -/
namespace Sys2Proof.Machine

/-- 1 in a format. -/
def oneBits (t : Nat) : Nat := fpBias t * 2 ^ fracBits t

/-- The NaN rule for one operand (R131). -/
def nan1 (t a : Nat) : FRes := nanResult t [a]

/-! ### vrnd (R132) -/

def fpRound (t : Nat) (rm : RMode) (a : Nat) : FRes :=
  match fpValue t a with
  | .nan .. => nan1 t a
  | .inf _ => ⟨a, 0⟩
  | .fin s m e =>
    let (v, _) := roundInt rm (.of s m e)
    ⟨(roundTo t rm false (.of s v.natAbs 0)).bits, 0⟩

/-! ### vfexp2 (R133) -/

/-- Fixed-point scale of the kernel. -/
def expScale : Nat := 2 ^ 320

/-- ln 2 = Σ 1/(k·2^k), scaled; n terms from the k-th on. -/
def ln2Sum : Nat → Nat → Nat
  | 0, _ => 0
  | n + 1, k => expScale / (k * 2 ^ k) + ln2Sum n (k + 1)

/-- ln 2, scaled. -/
def ln2Fix : Nat := ln2Sum 340 1

/-- Σ y^k / k! for n terms, from a term on; y and the terms are scaled, and may be negative. -/
def expSum (y : Int) : Nat → Nat → Int → Int
  | 0, _, _ => 0
  | n + 1, k, term => term + expSum y n (k + 1) (term * y / (expScale : Int) / (k + 1 : Nat))

/-- 2^r, scaled, for r = v / 2^d in [−0.5, 0.5]. -/
def exp2Fix (v : Int) (d : Nat) : Nat :=
  (expSum (v * ln2Fix / (2 ^ d : Nat)) 80 0 expScale).toNat

/-- R133's kernel: 2^r rounded once to the precision of the tag, as a significand and an exponent. -/
def expKernel (t : Nat) (v : Int) (d : Nat) : Nat × Int :=
  if v == 0 then (1, 0)
  else
    let x : Exact := ⟨false, exp2Fix v d, -320, true⟩
    let qe : Int := x.e + bitLen x.m - (fracBits t + 1)
    ((roundAt .rne x qe).1, qe)

/-- Bounds an exponent, beyond any format's range, so that a result already decided stays cheap to compute. -/
def clampExp (n : Int) : Int := max (-4096) (min 4096 n)

/-- vfexp2_elem. -/
def fpExp2 (t a : Nat) : FRes :=
  match fpValue t a with
  | .nan .. => nan1 t a
  | .inf s => if s then ⟨0, 0⟩ else ⟨a, 0⟩
  | .fin s m e =>
    if m == 0 then ⟨oneBits t, 0⟩
    else
      let (n, _) := roundInt .rne (.of s m e)
      let d := (-e).toNat
      let v : Int := (if s then -1 else 1) * ((m * 2 ^ e.toNat : Nat) : Int) - n * 2 ^ d
      let (q, qe) := expKernel t v d
      let x : Exact := .of false q (qe + clampExp n)
      let r := roundTo t .rne false x
      let inexact := v != 0 || r.flags &&& flagNX != 0
      let tiny := decide (x.e + bitLen q - 1 < eminOf t)
      ⟨r.bits, orFlags r.flags ((if inexact then flagNX else 0) + (if inexact && tiny then flagUF else 0))⟩

/-! ### vflog2 (R134) -/

/-- Fixed-point scale of the logarithm's squarings. -/
def logScale : Nat := 2 ^ 384

/-- The next n binary digits of log2 y, for y in [1, 2) scaled. -/
def logDigits : Nat → Nat → Nat → Nat
  | 0, _, acc => acc
  | n + 1, y, acc =>
    let z := y * y / logScale
    if 2 * logScale ≤ z then logDigits n (z / 2) (2 * acc + 1) else logDigits n z (2 * acc)

/-- vflog2 on one element. -/
def fpLog2 (t a : Nat) : FRes :=
  match fpValue t a with
  | .nan .. => nan1 t a
  | .inf s => if s then invalidResult t else ⟨a, 0⟩
  | .fin s m e =>
    if m == 0 then ⟨infOf t true, flagDZ⟩
    else if s then invalidResult t
    else
      let k : Int := e + bitLen m - 1
      if m == 2 ^ (bitLen m - 1) then ⟨(roundTo t .rne false (.of (k < 0) k.natAbs 0)).bits, 0⟩
      else
        let v : Int := k * 2 ^ 128 + logDigits 128 (m * logScale / 2 ^ (bitLen m - 1)) 0
        let r := if 0 ≤ v then roundTo t .rne false ⟨false, v.natAbs, -128, true⟩
          else roundTo t .rne false ⟨true, v.natAbs - 1, -128, true⟩
        ⟨r.bits, orFlags r.flags flagNX⟩

/-! ### vfrcp and vfrsqrt (R135) -/

def fpRcp (t a : Nat) : FRes :=
  if isNan t a then nan1 t a else fpDiv t .rne (oneBits t) a

def fpRsqrt (t a : Nat) : FRes :=
  match fpValue t a with
  | .nan .. => nan1 t a
  | .inf s => if s then invalidResult t else ⟨0, 0⟩
  | .fin s m e =>
    if m == 0 then ⟨infOf t s, flagDZ⟩
    else if s then invalidResult t
    else
      let odd := (e % 2).toNat
      let n := m * 2 ^ odd
      let r := isqrt (2 ^ 320 / n)
      roundTo t .rne false ⟨false, r, -160 - (e - odd) / 2, r * r * n != 2 ^ 320⟩

/-! ### vgetexp, vgetmant (R136) and vscale (R137) -/

def fpGetexp (t a : Nat) : FRes :=
  match fpValue t a with
  | .nan .. => nan1 t a
  | .inf _ => ⟨infOf t false, 0⟩
  | .fin _ m e =>
    if m == 0 then ⟨infOf t true, 0⟩
    else
      let k : Int := e + bitLen m - 1
      ⟨(roundTo t .rne false (.of (k < 0) k.natAbs 0)).bits, 0⟩

def fpGetmant (t a : Nat) : FRes :=
  match fpValue t a with
  | .nan .. => nan1 t a
  | .inf _ => invalidResult t
  | .fin s m _ =>
    if m == 0 then ⟨a, 0⟩ else ⟨(roundTo t .rne false (.of s m (1 - (bitLen m : Int)))).bits, 0⟩

def fpScale (t : Nat) (rm : RMode) (a b : Nat) : FRes :=
  if isNan t a || isNan t b then nanResult t [a, b]
  else
    match fpValue t a, fpValue t b with
    | .inf _, .inf sb => if sb then invalidResult t else ⟨a, 0⟩
    | .fin s m _, .inf sb =>
      if sb then ⟨withSign t s 0, 0⟩ else if m == 0 then invalidResult t else ⟨infOf t s, 0⟩
    | .inf _, _ => ⟨a, 0⟩
    | .fin s m e, .fin sb mb eb =>
      let (n, _) := roundInt .rdn (.of sb mb eb)
      roundTo t rm false (.of s m (e + clampExp n))
    | _, _ => nanResult t [a, b]

/-! ### vfclass (R125) -/

def fpClass (t a : Nat) : Nat :=
  match fpValue t a with
  | .nan _ sn => if sn then 2 ^ 8 else 2 ^ 9
  | .inf s => if s then 2 ^ 0 else 2 ^ 7
  | .fin s m _ =>
    if m == 0 then (if s then 2 ^ 3 else 2 ^ 4)
    else if m < 2 ^ fracBits t then (if s then 2 ^ 2 else 2 ^ 5)
    else (if s then 2 ^ 1 else 2 ^ 6)

end Sys2Proof.Machine
end

