-- ==== Sys2Proof/Machine/VecFp.lean ====
section
/-! DEFINITION. Floating-point operations on vectors, major VA2 and the special functions of VC (R119, R120, R122 to R125,
R131 to R137), native and emulated (R62). `emu` is set when Derdengo serves the word. -/
namespace Sys2Proof.Machine

/-- The tags that every floating-point vector word accepts natively. -/
def fpTags : List Nat := [1, 2, 3, 4]

/-- The rounding mode of `frm`. -/
def State.vrm (s : State) : RMode := rmodeOf s.me.r.frm.toNat

/-- Whether a tag's words are emulated (R58, R62). -/
def isEmulated (t : Nat) : Bool := t == 5 || t == 6

/-- R62: an operation on elements of a tag: natively, or widened to FP32, performed there and converted back. -/
def emuOp (t : Nat) (rm : RMode) (f : Nat → List Nat → FRes) (args : List Nat) : FRes :=
  if isEmulated t then
    let ws := args.map (cvtElem t 1 .rne false)
    let r := f 1 (ws.map (·.bits))
    let z := cvtElem 1 t rm false r.bits
    ⟨z.bits, orFlags (ws.foldl (fun a x => orFlags a x.flags) r.flags) z.flags⟩
  else f t args

/-- R120: writes the active elements and raises the OR of their flags. -/
def State.fpWrite (s : State) (o : VA) (t : Nat) (f : Nat → FRes) : State :=
  let l := s.actives o.qp (elemsOf t)
  (s.vwrite o t fun i => (f i).bits).raise (l.foldl (fun a i => orFlags a (f i).flags) 0)

/-- How many operands a word takes from vs1, vs2 and vd. -/
inductive FpForm where
  | one | two | three
  deriving DecidableEq, Repr

/-- The operands at element i in the order a, b, c. -/
def fpArgs (s : State) (form : FpForm) (o : VA) (t i : Nat) : List Nat :=
  match form with
  | .one => [s.el t o.vs1 i]
  | .two => [s.el t o.vs1 i, s.el t o.vs2 i]
  | .three => [s.el t o.vs1 i, s.el t o.vs2 i, s.el t o.vd i]

/-- A floating-point word of VA or VU form under a rounding mode. `f t args` is the operation. -/
def fpResIn (rm : RMode) (form : FpForm) (f : Nat → List Nat → FRes) (emu : Bool) (o : VA) (w : Word) (s : State) : Res :=
  let t := s.vtagOf o.vs1
  .checked (vaPre s o w (form != .one) ++ vaTags s fpTags emu o o.vs1 (form != .one) (form == .three) t (elemsOf t))
    (.done (s.fpWrite o t fun i => emuOp t rm f (fpArgs s form o t i)))

/-- A floating-point word under `frm`. -/
def fpRes (form : FpForm) (f : RMode → Nat → List Nat → FRes) (emu : Bool) (o : VA) (w : Word) (s : State) : Res :=
  fpResIn s.vrm form (f s.vrm) emu o w s

/-- R131: a special function that does not depend on `frm`, also where it is emulated. -/
def fixedRes (f : Nat → Nat → FRes) : Bool → VA → Word → State → Res := fpResIn .rne .one fun t l => f t (l.getD 0 0)

/-- A VX word: b = vs2[i], s = the low bits of xs1, and c = vd[i] where it is read. -/
def fpxRes (readsVd : Bool) (f : RMode → Nat → List Nat → FRes) (emu : Bool) (o : VA) (w : Word) (s : State) : Res :=
  let t := s.vtagOf o.vs2
  .checked (vxPre s o w ++ vaTags s fpTags emu o o.vs2 false readsVd t (elemsOf t))
    (.done (s.fpWrite o t fun i =>
      emuOp t s.vrm (f s.vrm) ([s.el t o.vs2 i, s.xElem t o.vs1] ++ if readsVd then [s.el t o.vd i] else [])))

/-- A sign operation: bits only, in the element's own format (R124). -/
def signRes (two : Bool) (f : Nat → Nat → Nat → Nat) (emu : Bool) (o : VA) (w : Word) (s : State) : Res :=
  let t := s.vtagOf o.vs1
  .checked (vaPre s o w two ++ vaTags s fpTags emu o o.vs1 two false t (elemsOf t))
    (.done (s.vwrite o t fun i => f t (s.el t o.vs1 i) (s.el t o.vs2 i)))

/-! ### Element operations -/

/-- Operand n of a list. -/
def arg (l : List Nat) (n : Nat) : Nat := l.getD n 0

/-- R123: NaN-propagating choice. -/
def pickNan (wantMax : Bool) (t a b : Nat) : FRes :=
  let fl := if isSnan t a || isSnan t b then flagNV else 0
  if isNan t a then ⟨quietNan t a, fl⟩ else if isNan t b then ⟨quietNan t b, fl⟩ else ⟨orderedPick t wantMax a b, fl⟩

/-- R123: number-preferring choice. -/
def pickNum (wantMax : Bool) (t a b : Nat) : FRes :=
  let fl := if isSnan t a || isSnan t b then flagNV else 0
  if isNan t a && isNan t b then ⟨canonNan t, fl⟩ else if isNan t a then ⟨b, fl⟩ else if isNan t b then ⟨a, fl⟩
  else ⟨orderedPick t wantMax a b, fl⟩

/-! ### The instructions -/

def vfaddRes (emu : Bool) : VA → Word → State → Res := fpRes .two (fun rm t l => fpAdd t rm (arg l 0) (arg l 1)) emu
def execVfadd (o : VA) (s : State) : Host.Outcome State Fault Refusal := (vfaddRes false o (wordOf (.vfadd o)) s).finish s

def vfsubRes (emu : Bool) : VA → Word → State → Res := fpRes .two (fun rm t l => fpSub t rm (arg l 0) (arg l 1)) emu
def execVfsub (o : VA) (s : State) : Host.Outcome State Fault Refusal := (vfsubRes false o (wordOf (.vfsub o)) s).finish s

def vfmulRes (emu : Bool) : VA → Word → State → Res := fpRes .two (fun rm t l => fpMul t rm (arg l 0) (arg l 1)) emu
def execVfmul (o : VA) (s : State) : Host.Outcome State Fault Refusal := (vfmulRes false o (wordOf (.vfmul o)) s).finish s

def vfmaRes (emu : Bool) : VA → Word → State → Res := fpRes .three (fun rm t l => fpFma t rm l (arg l 0) (arg l 1) (arg l 2)) emu
def execVfma (o : VA) (s : State) : Host.Outcome State Fault Refusal := (vfmaRes false o (wordOf (.vfma o)) s).finish s

def vfmsRes (emu : Bool) : VA → Word → State → Res := fpRes .three (fun rm t l => fpFma t rm l (arg l 0) (arg l 1) (fpNeg t (arg l 2))) emu
def execVfms (o : VA) (s : State) : Host.Outcome State Fault Refusal := (vfmsRes false o (wordOf (.vfms o)) s).finish s

def vfdivRes (emu : Bool) : VA → Word → State → Res := fpRes .two (fun rm t l => fpDiv t rm (arg l 0) (arg l 1)) emu
def execVfdiv (o : VA) (s : State) : Host.Outcome State Fault Refusal := (vfdivRes false o (wordOf (.vfdiv o)) s).finish s

def vfminRes (emu : Bool) : VA → Word → State → Res := fpRes .two (fun _ t l => pickNan false t (arg l 0) (arg l 1)) emu
def execVfmin (o : VA) (s : State) : Host.Outcome State Fault Refusal := (vfminRes false o (wordOf (.vfmin o)) s).finish s

def vfmaxRes (emu : Bool) : VA → Word → State → Res := fpRes .two (fun _ t l => pickNan true t (arg l 0) (arg l 1)) emu
def execVfmax (o : VA) (s : State) : Host.Outcome State Fault Refusal := (vfmaxRes false o (wordOf (.vfmax o)) s).finish s

def vfminnumRes (emu : Bool) : VA → Word → State → Res := fpRes .two (fun _ t l => pickNum false t (arg l 0) (arg l 1)) emu
def execVfminnum (o : VA) (s : State) : Host.Outcome State Fault Refusal := (vfminnumRes false o (wordOf (.vfminnum o)) s).finish s

def vfmaxnumRes (emu : Bool) : VA → Word → State → Res := fpRes .two (fun _ t l => pickNum true t (arg l 0) (arg l 1)) emu
def execVfmaxnum (o : VA) (s : State) : Host.Outcome State Fault Refusal := (vfmaxnumRes false o (wordOf (.vfmaxnum o)) s).finish s

def vfsqrtRes (emu : Bool) : VA → Word → State → Res := fpRes .one (fun rm t l => fpSqrt t rm (arg l 0)) emu
def execVfsqrt (o : VA) (s : State) : Host.Outcome State Fault Refusal := (vfsqrtRes false o (wordOf (.vfsqrt o)) s).finish s

def vrndRes (emu : Bool) : VA → Word → State → Res := fpRes .one (fun rm t l => fpRound t rm (arg l 0)) emu
def execVrnd (o : VA) (s : State) : Host.Outcome State Fault Refusal := (vrndRes false o (wordOf (.vrnd o)) s).finish s

def vfexp2Res (emu : Bool) : VA → Word → State → Res := fixedRes fpExp2 emu
def execVfexp2 (o : VA) (s : State) : Host.Outcome State Fault Refusal := (vfexp2Res false o (wordOf (.vfexp2 o)) s).finish s

def vflog2Res (emu : Bool) : VA → Word → State → Res := fixedRes fpLog2 emu
def execVflog2 (o : VA) (s : State) : Host.Outcome State Fault Refusal := (vflog2Res false o (wordOf (.vflog2 o)) s).finish s

def vfrcpRes (emu : Bool) : VA → Word → State → Res := fixedRes fpRcp emu
def execVfrcp (o : VA) (s : State) : Host.Outcome State Fault Refusal := (vfrcpRes false o (wordOf (.vfrcp o)) s).finish s

def vfrsqrtRes (emu : Bool) : VA → Word → State → Res := fixedRes fpRsqrt emu
def execVfrsqrt (o : VA) (s : State) : Host.Outcome State Fault Refusal := (vfrsqrtRes false o (wordOf (.vfrsqrt o)) s).finish s

def vgetexpRes (emu : Bool) : VA → Word → State → Res := fpRes .one (fun _ t l => fpGetexp t (arg l 0)) emu
def execVgetexp (o : VA) (s : State) : Host.Outcome State Fault Refusal := (vgetexpRes false o (wordOf (.vgetexp o)) s).finish s

def vgetmantRes (emu : Bool) : VA → Word → State → Res := fpRes .one (fun _ t l => fpGetmant t (arg l 0)) emu
def execVgetmant (o : VA) (s : State) : Host.Outcome State Fault Refusal := (vgetmantRes false o (wordOf (.vgetmant o)) s).finish s

def vscaleRes (emu : Bool) : VA → Word → State → Res := fpRes .two (fun rm t l => fpScale t rm (arg l 0) (arg l 1)) emu
def execVscale (o : VA) (s : State) : Host.Outcome State Fault Refusal := (vscaleRes false o (wordOf (.vscale o)) s).finish s

def vfmaXRes (emu : Bool) : VA → Word → State → Res := fpxRes true (fun rm t l => fpFma t rm l (arg l 0) (arg l 1) (arg l 2)) emu
def execVfmaX (o : VA) (s : State) : Host.Outcome State Fault Refusal := (vfmaXRes false o (wordOf (.vfmaX o)) s).finish s

def vfmulXRes (emu : Bool) : VA → Word → State → Res := fpxRes false (fun rm t l => fpMul t rm (arg l 0) (arg l 1)) emu
def execVfmulX (o : VA) (s : State) : Host.Outcome State Fault Refusal := (vfmulXRes false o (wordOf (.vfmulX o)) s).finish s

def vfsgnjRes (emu : Bool) : VA → Word → State → Res := signRes true (fun t a b => withSign t (fpSign t b) (fpMag t a)) emu
def execVfsgnj (o : VA) (s : State) : Host.Outcome State Fault Refusal := (vfsgnjRes false o (wordOf (.vfsgnj o)) s).finish s

def vfsgnjnRes (emu : Bool) : VA → Word → State → Res := signRes true (fun t a b => withSign t (!fpSign t b) (fpMag t a)) emu
def execVfsgnjn (o : VA) (s : State) : Host.Outcome State Fault Refusal := (vfsgnjnRes false o (wordOf (.vfsgnjn o)) s).finish s

def vfsgnjxRes (emu : Bool) : VA → Word → State → Res := signRes true (fun t a b => withSign t (fpSign t a != fpSign t b) (fpMag t a)) emu
def execVfsgnjx (o : VA) (s : State) : Host.Outcome State Fault Refusal := (vfsgnjxRes false o (wordOf (.vfsgnjx o)) s).finish s

def vfabsRes (emu : Bool) : VA → Word → State → Res := signRes false (fun t a _ => fpMag t a) emu
def execVfabs (o : VA) (s : State) : Host.Outcome State Fault Refusal := (vfabsRes false o (wordOf (.vfabs o)) s).finish s

def vfnegRes (emu : Bool) : VA → Word → State → Res := signRes false (fun t a _ => fpNeg t a) emu
def execVfneg (o : VA) (s : State) : Host.Outcome State Fault Refusal := (vfnegRes false o (wordOf (.vfneg o)) s).finish s

def vfclassRes (o : VA) (w : Word) (s : State) : Res :=
  let t := s.vtagOf o.vs1
  let d := if t == 1 then 7 else 8
  .checked (vaPre s o w false ++ [trapIf (!([1, 2, 3].contains t)) causeFormat (formatVal 1 t (s.vreg o.vs1)),
      destTag s o.qp (elemsOf t) d o.vd])
    (.done (s.vwrite o d fun i => fpClass t (s.el t o.vs1 i)))
def execVfclass (o : VA) (s : State) : Host.Outcome State Fault Refusal := (vfclassRes o (wordOf (.vfclass o)) s).finish s

end Sys2Proof.Machine
end

