-- ==== Sys2Proof/Machine/Collective.lean ====
section
/-! DEFINITION. The collective engine (R173 to R180, R269 to R272, R278 to R286): set-ups, agreement and trees, the
Clearing, and the operations chunk by chunk; and tile tables (R181, R243, R287). -/
namespace Sys2Proof.Machine

/-! ### Fields (R173) -/

def clId (w : Nat) : Nat := bitsOf w 247 232
def clBase (w : Nat) : Nat := bitsOf w 231 220
def clLg (w : Nat) : Nat := bitsOf w 219 216
def clTmax (w : Nat) : Nat := bitsOf w 215 211
def clCs (w : Nat) : Nat := bitsOf w 210 201
def clProg (w : Nat) : Nat := 64 * bitsOf w 231 218
def clOp (w : Nat) : Nat := bitsOf w 209 208
def clN (c : Cmd) (w : Nat) : Nat := shpVal c.sh (bitsOf w 204 200)

/-- The collective of an identifier at this member. -/
def findColl (s : State) (id : Nat) : Option Coll := (s.colls.find? fun e => e.1 == id).map (·.2)

/-- Sets a collective. -/
def State.setColl (s : State) (id : Nat) (c : Coll) : State := { s with colls := tabPut s.colls id c }

/-- Ends a collective at this member: its reservation is released with it (R180). -/
def State.dropColl (s : State) (id : Nat) : State := { s with colls := tabDel s.colls id }

/-- Members of the group. -/
def Coll.members (c : Coll) : Nat := 2 ^ c.lg

/-- This package's member number. -/
def Coll.me (s : State) (c : Coll) : Nat := s.pkgid - c.base

/-- The lowest member that is unreachable (R179). -/
def Coll.absent (s : State) (c : Coll) : Option Nat :=
  (List.range c.members).find? fun m => c.base + m != s.pkgid && !s.peers.contains (c.base + m)

/-! ### Firing a command that completes later -/

/-- A command has fired and has no status yet. -/
def State.markFired (s : State) (g q num : Nat) : State :=
  s.modCore g fun c => c.setQueue q ((c.queue q).modCmd num fun d => { d with fired := true })

/-- A fired command receives its status. -/
def State.setStatus (s : State) (g q num : Nat) (st : Status) : State :=
  s.modCore g fun c => c.setQueue q ((c.queue q).modCmd num fun d => { d with st := some st })

/-- Fires a command that completes later: R146 first, then its own checks; `start` sees the command fired. -/
def fireLong (s : State) (g q : Nat) (ops : List Nat) (check : Cmd → Nat → CmdCheck)
    (start : Cmd → Nat → State → State) : State :=
  match mayFire s g q ops .neither with
  | none => s
  | some (c, w) =>
    if cwEprop w && tokensError (s.cluster (clusterOfCore g)) w then
      (Fired.fail s ⟨stUpstream, 0, 0⟩).record g q c.num .neither
    else
      match check c w with
      | some x => (Fired.fail s x).record g q c.num .neither
      | none => ((start c w (s.markFired g q c.num)).track s.outbox.length g (some (q, c.num))).sidesSince s (some (g, q))

/-! ### coll.setup (R174) -/

/-- A member's own checks: fields in the order id, lg, tmax, cs; the group; the identifier. -/
def setupCheck (s : State) (w : Nat) : CmdCheck :=
  let P := 2 ^ clLg w
  firstFail [failIf (clId w == 0) stShape (clId w), failIf (12 < clLg w) stShape (clLg w),
    failIf (clTmax w == 0 || 16 < clTmax w) stShape (clTmax w), failIf (clCs w == 0) stShape (clCs w),
    failIf (clBase w % P != 0 || s.pkgid < clBase w || clBase w + P ≤ s.pkgid) stShape (clBase w),
    failIf (findColl s (clId w)).isSome stShape (clId w)]

def execCollSetup (g q : Nat) (s : State) : Host.Outcome State Fault Refusal :=
  .next (fireLong s g q [0x60] (fun _ w => setupCheck s w) fun c w t =>
    t.setColl (clId w) { g := g, q := q, num := c.num, base := clBase w, lg := clLg w, tmax := clTmax w, cs := clCs w })

/-! ### Trees (R279, R280) -/

/-- An edge with its key and its members. -/
structure KeyedEdge where
  link : Nat
  mem : Nat
  a : Nat
  b : Nat
  deriving DecidableEq, Repr

/-- R279: the key of an edge. -/
def keyed (e : LinkEdge) : KeyedEdge :=
  if e.linkA < e.linkB || (e.linkA == e.linkB && e.memA ≤ e.memB) then ⟨e.linkA, e.memA, e.memA, e.memB⟩
  else ⟨e.linkB, e.memB, e.memA, e.memB⟩

/-- Ascending keys, compared first by link index. -/
def KeyedEdge.le (x y : KeyedEdge) : Bool := x.link < y.link || (x.link == y.link && x.mem ≤ y.mem)

/-- One forest: edges in key order that join two components. `comp` maps a member to its component. -/
def forest (comp : Nat → Nat) : List KeyedEdge → List KeyedEdge
  | [] => []
  | e :: t =>
    if comp e.a == comp e.b then forest comp t
    else e :: forest (fun m => if comp m == comp e.b then comp e.a else comp m) t

/-- R279's loop over the edges not yet used. -/
def treesFrom (P : Nat) : Nat → List KeyedEdge → List (List KeyedEdge)
  | 0, _ => []
  | n + 1, es =>
    let f := forest id es
    if f.length < P - 1 then [] else f :: treesFrom P n (es.filter fun e => !f.contains e)

/-- R279 derive_trees: each tree as its member pairs. -/
def deriveTrees (P tmax : Nat) (es : List LinkEdge) : List (List (Nat × Nat)) :=
  if P == 1 then [[]]
  else (treesFrom P tmax ((es.map keyed).mergeSort KeyedEdge.le)).map fun t => t.map fun e => (e.a, e.b)

/-- Members connected to member 0 by edges, grown n times. -/
def reach (es : List (Nat × Nat)) : Nat → List Nat → List Nat
  | 0, l => l
  | n + 1, l =>
    reach es n (l ++ ((es.filterMap fun e =>
      if l.contains e.1 && !l.contains e.2 then some e.2
      else if l.contains e.2 && !l.contains e.1 then some e.1 else none).eraseDups))

/-- R280: the parent of every member but the root, grown from the root n times. -/
def parents (es : List (Nat × Nat)) : Nat → List (Nat × Nat) → List (Nat × Nat)
  | 0, acc => acc
  | n + 1, acc =>
    let known := fun m => m == 0 || acc.any fun x => x.1 == m
    parents es n (acc ++ ((es.filterMap fun e =>
      if known e.1 && !known e.2 then some (e.2, e.1)
      else if known e.2 && !known e.1 then some (e.1, e.2) else none).eraseDups))

/-- The parent of a member in a tree; none for the root. -/
def parentOf (t : List (Nat × Nat)) (m : Nat) : Option Nat :=
  ((parents t t.length []).find? fun x => x.1 == m).map (·.2)

/-- R280: children in ascending member number. -/
def childrenOf (t : List (Nat × Nat)) (m : Nat) : List Nat :=
  (((parents t t.length []).filter fun x => x.2 == m).map (·.1)).mergeSort fun a b => decide (a ≤ b)

/-- R280: a member's level; `fuel` bounds the depth. -/
def levelOf (t : List (Nat × Nat)) : Nat → Nat → Nat
  | 0, _ => 0
  | fuel + 1, m =>
    match childrenOf t m with
    | [] => 0
    | l => 1 + (l.map (levelOf t fuel)).foldl max 0

/-- A member and all below it, each before its children: the order in which a node value of R281 carries their bytes (log entry
33). -/
def subtree (t : List (Nat × Nat)) : Nat → Nat → List Nat
  | 0, m => [m]
  | fuel + 1, m => m :: (childrenOf t m).flatMap (subtree t fuel)

/-- R174 step 5: 64-byte units that member m reserves. -/
def reserveUnits (trees : List (List (Nat × Nat))) (cs m : Nat) : Nat :=
  (trees.map fun t => ((childrenOf t m).length + 2) * cs).sum

/-! ### The end of an operation (R176, R177, R271) -/

/-- The operation that the command at (g, q) carries out, with its identifier. -/
def collOpAt (s : State) (g q : Nat) : Option (Nat × Coll × CollOp) :=
  s.colls.findSome? fun e => match e.2.op with
    | some o => if o.g == g && o.q == q then some (e.1, e.2, o) else none
    | none => none

/-- A command of a queue by its number. -/
def cmdAt (s : State) (g q num : Nat) : Option Cmd := ((s.core g).queue q).cmds.find? fun c => c.num == num

/-- R280: the levels at which a chunk may be reducing as far as a member can tell: those that hold a member whose node value it
does not know to be formed. A member that has formed its own knows those below it to be formed. -/
def openLevels (t : List (Nat × Nat)) (P me : Nat) (sent : Bool) : List Nat :=
  ((List.range P).filterMap fun m =>
    let l := levelOf t P m
    if if sent then !(subtree t P me).contains m else l ≤ levelOf t P me then some l else none).eraseDups

/-- The final mark of chunk i. How far the chunk has come at the other members is a free value within what this member knows: a
chunk whose node value has not been formed here is pending or reducing, one whose value has been sent up is reducing or
reduced; `adds` tells that the operation adds, so that a node above may have marked it (R177). With `discard` no chunk is reduced any
more: all are pending (R179). -/
def finalMark (s : State) (c : Coll) (matched discard adds : Bool) (i : Nat) (k : Chunk) : Nat :=
  let f := (Config.freeByte (s.free * 2 ^ 22 + i)).toNat
  let tail := fun (ovf : Bool) => k.tree % 16 * 2 ^ 20 + (if ovf then 2 ^ 19 else 0)
  let levels := openLevels (c.trees.getD (k.tree % max 1 c.trees.length) []) c.members (Coll.me s c) (k.st == 1)
  let reducing := 2 ^ 28 + min 15 (levels.getD (f / 4 % max 1 levels.length) 0) * 2 ^ 24 + tail k.ovf
  if discard then 0
  else
    match k.st with
    | 0 => if !matched || f % 2 == 0 then 0 else reducing
    | 1 => if f % 2 == 0 then reducing else 2 * 2 ^ 28 + tail (k.ovf || (adds && f / 2 % 2 == 1))
    | 2 => 2 * 2 ^ 28 + tail k.ovf
    | _ => 3 * 2 ^ 28 + tail k.ovf

/-- R177: whether a command's operation adds. -/
def collAdds (w : Nat) : Bool := (cwOpcode w == 0x61 || cwOpcode w == 0x62) && clOp w == 0

/-- Writes of an engine of core g for sequencer k at places that have passed its checks. -/
def writeRuns (s : State) (g k : Nat) (l : List (Loc × List Byte)) : State :=
  (joinRuns l).foldl (fun t e => t.writeLoc (.engine g k) e.1 e.2 false) s

/-- A chunk whose result has come in part is distributed once the rest is written. -/
def Chunk.landed (k : Chunk) : Chunk := if k.held.isEmpty then k else { st := 3, tree := k.tree, ovf := k.ovf }

/-- An operation completes with a status: no chunk is left written in part (R179), its marks are written, and the set-up stays. -/
def finishColl (s : State) (id : Nat) (c : Coll) (o : CollOp) (discard : Bool) (st : Status) : State :=
  match cmdAt s o.g o.q o.num with
  | none => s.setColl id { c with op := none }
  | some cmd =>
    let w := (cmd.word.getD 0).toNat
    let s := o.chunks.foldl (fun t k => writeRuns t o.g cmd.by_ k.held) s
    let marks := (o.chunks.map Chunk.landed).zipIdx.flatMap fun k => leBytes 4 (finalMark s c o.matched discard (collAdds w) k.2 k.1)
    let s := engWrite s o.g cmd.by_ 0 (clProg w) marks
    (({ s with free := s.free + 1 } : State).setStatus o.g o.q o.num st).setColl id { c with op := none, slots := [] }

/-- The same where it ends before its last chunk: what it has still written into its core from outside is recorded (R326). -/
def cutColl (s : State) (id : Nat) (c : Coll) (o : CollOp) (discard : Bool) (st : Status) : State :=
  ((finishColl s id c o discard st).recordRuns s o.g).sidesSince s (some (o.g, o.q))

/-- R177: the status of an operation whose chunks are all distributed. -/
def collStatus (o : CollOp) : Status :=
  let marked := (o.chunks.zipIdx.filter fun k => k.1.ovf).map (·.2)
  if o.missed != 0 then ⟨stAbsent, 0, o.missed⟩
  else match marked with
    | [] => stOk
    | i :: _ => ⟨stOvfTransit, min i 0xFFFF, marked.length⟩

/-- R179: an operation meets an unreachable member. -/
def abortUnreachable (s : State) (e : Nat × Coll) : State :=
  match e.2.op, Coll.absent s e.2 with
  | some o, some m =>
    if o.chunks.any fun k => k.landed.st == 3 then cutColl s e.1 e.2 o false ⟨stAborted, 3, e.2.base + m⟩
    else cutColl s e.1 e.2 o true ⟨stPeerAbsent, m, e.2.base + m⟩
  | _, _ => s

/-- R179 for every operation in flight. -/
def State.loseMembers (s : State) : State := s.colls.foldl abortUnreachable s

/-- A message of the collective engine to every other member. -/
def State.tellMembers (s : State) (c : Coll) (addr : Word) (data : List Byte) : State :=
  (((List.range c.members).filter fun m => c.base + m != s.pkgid).map fun m => (⟨c.base + m, 0, addr, .coll, data⟩ : Sent)).foldl State.send s

/-- What a package that ends a collective tells the other members (R180): `why` is 0 for `coll.end`, 1 for a teardown. -/
def State.announceEnd (s : State) (id why : Nat) (c : Coll) : State :=
  s.tellMembers c (BitVec.ofNat 64 (id * 2 ^ 32)) [BitVec.ofNat 8 why]

/-- R180: the collectives of a queue that is torn down end at this member; its operation completes ABORTED. -/
def State.tearDownColls (s : State) (g q : Nat) : State :=
  (s.colls.filter fun e => (e.2.g == g && e.2.q == q) || e.2.op.any fun o => o.g == g && o.q == q).foldl (fun t e =>
    let t := match e.2.op with
      | some o => cutColl t e.1 e.2 o false ⟨stAborted, 1, t.pkgid⟩
      | none => if e.2.stage == CollStage.ready then t else t.setStatus e.2.g e.2.q e.2.num ⟨stAborted, 1, t.pkgid⟩
    (t.announceEnd e.1 1 e.2).dropColl e.1) s

/-! ### Matching (R174 step 2, R175) -/

/-- Whether the peers are every other member, once each. -/
def coversGroup (s : State) (c : Coll) (ps : List PeerCommand) : Bool :=
  ps.length + 1 == c.members &&
    (List.range c.members).all fun m => m == Coll.me s c || ps.any fun p => p.member == m

/-- R180, R313: the status of a command whose id has ended at a member, or one of whose chunks is damaged at a member: the
lowest such member decides. -/
def endedStatus (c : Coll) (ps : List PeerCommand) : Option Status :=
  let l := (ps.filter fun p => p.opcode == 0x6f && p.member < c.members).mergeSort fun a b => decide (a.member ≤ b.member)
  l.head?.map fun p => if p.op == 2 then ⟨stMemory, 0, p.count⟩ else ⟨stAborted, if p.op == 0 then 2 else 1, c.base + p.member⟩

/-- R174 step 2. -/
def setupAgrees (id : Nat) (c : Coll) (p : PeerCommand) : Bool :=
  p.opcode == 0x60 && p.id == id && p.base == c.base && p.lg == c.lg && p.tmax == c.tmax && p.cs == c.cs

/-- A set-up ends without a collective. -/
def State.failSetup (s : State) (id : Nat) (c : Coll) (st : Status) : State :=
  (s.setStatus c.g c.q c.num st).dropColl id

/-- R278: the up links of this package whose peer is a member, as it sends them to every other member with the epoch's number. -/
def State.announceLinks (s : State) (id : Nat) (c : Coll) : State :=
  let mine := (List.range 32).filter fun l =>
    let x := tabGet {} s.links l
    x.state == 2 && c.base ≤ x.peer && x.peer < c.base + c.members
  let data := leBytes 4 c.epoch ++ mine.flatMap fun l => leBytes 4 ((tabGet {} s.links l).peer * 2 ^ 10 + (tabGet {} s.links l).plink * 2 ^ 5 + l)
  s.tellMembers c (BitVec.ofNat 64 (id * 2 ^ 32)) data

/-- A set-up's match. -/
def matchSetup (s : State) (id : Nat) (c : Coll) (ps : List PeerCommand) : State :=
  match endedStatus c (ps.filter fun p => p.op != 2) with
  | some st => s.failSetup id c st
  | none =>
    if !coversGroup s c ps || !(ps.all fun p => p.opcode == 0x60 && p.id == id) then s
    else if ps.all (setupAgrees id c) then (s.setColl id { c with stage := .matched }).announceLinks id c
    else s.failSetup id c ⟨stShape, 0, id⟩

/-- Elements of one chunk (R270). -/
def chunkElems (op cs : Nat) (lf : Lay) : Nat := if op == 0x61 || op == 0x62 then 16 * cs else cs * 128 / lf.nibs

/-- Elements of the source sequence (R177). -/
def sourceCount (op n P : Nat) : Nat := if op == 0x64 then P * n else n

/-- Chunks of an operation. -/
def chunkCount (op n P cs : Nat) (lf : Lay) : Nat :=
  (sourceCount op n P + chunkElems op cs lf - 1) / chunkElems op cs lf

/-- R175: chunk i travels on tree i mod T. -/
def newChunks (c : Coll) (n : Nat) : List Chunk := (List.range n).map fun (i : Nat) => ({ tree := i % max 1 c.trees.length } : Chunk)

/-- R175, R177: whether a peer's operation agrees with this member's command. -/
def opAgrees (c : Cmd) (w id : Nat) (p : PeerCommand) : Bool :=
  let op := cwOpcode w
  p.opcode == op && p.id == id && p.count == clN c w &&
    if op == 0x61 || op == 0x62 then p.op == clOp w
    else tagBits p.fromTag == tagBits (layOf c (mvFrom w)).tag

/-- An operation's match. -/
def matchOp (s : State) (id : Nat) (c : Coll) (o : CollOp) (ps : List PeerCommand) : State :=
  match cmdAt s o.g o.q o.num with
  | none => s
  | some cmd =>
    let w := (cmd.word.getD 0).toNat
    match endedStatus c (if o.matched then ps.filter fun p => p.op != 0 else ps) with
    | some st => finishColl s id c o false st
    | none =>
      if o.matched || !coversGroup s c ps || !(ps.all fun p => p.id == id && 0x61 ≤ p.opcode && p.opcode ≤ 0x64) then s
      else if !(ps.all (opAgrees cmd w id)) then
        (s.setStatus o.g o.q o.num ⟨stShape, 0, id⟩).setColl id { c with op := none }
      else
        let n := chunkCount (cwOpcode w) (clN cmd w) c.members c.cs (layOf cmd (mvFrom w))
        let o' := { o with matched := true, chunks := newChunks c n }
        if n == 0 then finishColl s id c o' false stOk else s.setColl id { c with op := some o' }

/-- COLLECTIVE_MATCH: what the other members have published for the command of queue q that waits for them. -/
def execCollectiveMatch (g q : Nat) (peers : List PeerCommand) (s : State) : Host.Outcome State Fault Refusal :=
  .next (match collOpAt s g q with
    | some (id, c, o) => matchOp s id c o peers
    | none =>
      match s.colls.find? fun e => e.2.g == g && e.2.q == q && e.2.stage == .published with
      | some e => matchSetup s e.1 e.2 peers
      | none => s)

/-! ### Agreement and reservation (R174 steps 3 to 5, R178, R278, R286) -/

/-- An edge with its ends in order. -/
def LinkEdge.ends (e : LinkEdge) : Nat × Nat × Nat × Nat :=
  if e.memA < e.memB then (e.memA, e.linkA, e.memB, e.linkB) else (e.memB, e.linkB, e.memA, e.linkA)

/-- Whether an edge set is one that this member reports too: each link stands in it once, of links 0 to 31, and its own ends are
up and name the other end. -/
def edgesAgree (s : State) (c : Coll) (es : List LinkEdge) : Bool :=
  decide ((es.map LinkEdge.ends).Nodup) && es.all fun e =>
    decide (e.linkA < 32) && decide (e.linkB < 32) &&
    let own := fun (l m l' m' : Nat) => m != Coll.me s c ||
      (let x := tabGet {} s.links l
       x.state == 2 && x.peer == c.base + m' && x.plink == l')
    e.memA != e.memB && e.memA < c.members && e.memB < c.members &&
      own e.linkA e.memA e.linkB e.memB && own e.linkB e.memB e.linkA e.memA

/-- The lowest member that the edges do not connect to member 0. -/
def unconnected (c : Coll) (es : List LinkEdge) : Nat :=
  let l := reach (es.map fun e => (e.memA, e.memB)) c.members [0]
  ((List.range c.members).find? fun m => !l.contains m).getD 0

/-- R178: whether a chunk whose node value this member has sent up has been reduced at the root: a free value, since only the
root knows. -/
def reducedAtRoot (s : State) (i : Nat) : Bool := (Config.freeByte (s.free * 2 ^ 22 + i)).toNat % 2 == 1

/-- R178: chunks that are neither reduced nor distributed return to pending on the trees that are left; the others keep their
value and their tree. -/
def CollOp.restripe (o : CollOp) (n : Nat) (kept : Nat → Bool) : CollOp :=
  { o with chunks := o.chunks.zipIdx.map fun k =>
      if k.1.st == 0 || (k.1.st == 1 && !kept k.2) then { tree := k.2 % max 1 n }
      else if k.1.st == 1 then { k.1 with st := 2 } else k.1 }

/-- LINK_AGREEMENT: an epoch completes with an edge set. -/
def agreeLinks (s : State) (id : Nat) (c : Coll) (es : List LinkEdge) : State :=
  let trees := deriveTrees c.members (if c.stage == .ready then c.most else c.tmax) es
  let cut := unconnected c es
  match c.stage with
  | .published =>
    if trees.isEmpty && (Coll.absent s c).isSome then s.failSetup id c ⟨stPeerAbsent, cut, c.base + cut⟩ else s
  | .matched =>
    if trees.isEmpty then s.failSetup id c ⟨stPeerAbsent, cut, c.base + cut⟩
    else s.setColl id { c with stage := .agreed, fresh := true, edges := es, trees := trees, most := trees.length }
  | .agreed =>
    if c.fresh then s
    else if trees.isEmpty then s.failSetup id c ⟨stPeerAbsent, cut, c.base + cut⟩
    else s.setColl id { c with fresh := true, edges := es, trees := trees, most := trees.length }
  | .ready =>
    if c.fresh then s
    else
      ({ s with free := s.free + 1 } : State).setColl id
        { c with fresh := true, edges := es, trees := trees, slots := [],
                 op := c.op.map fun (o : CollOp) => o.restripe trees.length (reducedAtRoot s) }

/-- R278: an epoch that another member's failed link has begun is one for this member too, which sends its own list. -/
def joinEpoch (s : State) (id : Nat) (c : Coll) (epoch : Nat) : State × Coll :=
  if c.epoch < epoch then
    let c := { c with epoch := epoch, fresh := false }
    ((s.setColl id c).announceLinks id c, c)
  else (s, c)

/-- LINK_AGREEMENT: of an epoch that has been given up nothing is used. -/
def execLinkAgreement (id : Nat) (edges : EpochEdges) (s : State) : Host.Outcome State Fault Refusal :=
  .next (match findColl s id with
    | some c =>
      if c.epoch ≤ edges.epoch && edgesAgree s c edges.links then
        let (t, d) := joinEpoch s id c edges.epoch
        agreeLinks t id d edges.links
      else s
    | none => s)

/-- 64-byte units of the Clearing: 96 MiB. -/
def clearingUnits : Nat := 96 * 2 ^ 20 / 64

/-- CLEARING_RESERVATION: under the locks, a set-up that every member has room for reserves at every member and completes;
`fits` is what the other members' allocators say. While a lower id waits at this member it is not attempted. -/
def reserveClearing (s : State) (id : Nat) (c : Coll) (fits : Bool) : State :=
  let mine := reserveUnits c.trees c.cs (Coll.me s c)
  let held := (s.colls.map fun e => e.2.reserved).sum
  match (List.range c.members).find? fun m => clearingUnits < reserveUnits c.trees c.cs m with
  | some m => s.failSetup id c ⟨stShape, 0, reserveUnits c.trees c.cs m⟩
  | none =>
    if !c.fresh || !fits || clearingUnits < held / 64 + mine || s.colls.any fun e => e.1 < id && e.2.stage == .agreed then s
    else (s.setStatus c.g c.q c.num stOk).setColl id { c with stage := .ready, reserved := 64 * mine }

def execClearingReservation (g q : Nat) (fits : Bool) (s : State) : Host.Outcome State Fault Refusal :=
  .next (match s.colls.find? fun e => e.2.g == g && e.2.q == q && e.2.stage == .agreed with
    | some e => reserveClearing s e.1 e.2 fits
    | none => s)

/-! ### Operations: firing (R175, R177) -/

/-- The tags an operation takes. -/
def collTags (op : Nat) (lf lt : Lay) : List CmdCheck :=
  if op == 0x61 || op == 0x62 then
    [lf, lt].map fun l => failIf (l.tag != 1 && l.tag != 2) stTag (l.tag + (16 + l.k) * 2 ^ 8)
  else [lf, lt].map (fun l => failIf (13 < l.tag) stTag (l.tag + (16 + l.k) * 2 ^ 8)) ++ [sameWidth lf lt]

/-- Elements a destination holds. -/
def destCount (op n P : Nat) : Nat := if op == 0x61 then n else if op == 0x62 then n / P else P * n

/-- The checks of an operation. -/
def collCheck (s : State) (g : Nat) (c : Cmd) (w : Nat) : CmdCheck :=
  let op := cwOpcode w
  let lf := layOf c (mvFrom w)
  let lt := layOf c (mvTo w)
  let pf := Lay.soundPlaces s g lf
  let pt := Lay.soundPlaces s g lt
  let n := clN c w
  let (P, cs) := match findColl s (clId w) with
    | some x => (x.members, x.cs)
    | none => (1, 1)
  let k := chunkCount op n P cs lf
  let up := match findColl s (clId w) with
    | some x => x.stage == .ready
    | none => false
  firstFail (staged [Lay.stages s g c.asid ⟨[], []⟩ false lf pf, Lay.stages s g c.asid ⟨[], []⟩ true lt pt,
      [[], [], [], [], collTags op lf lt,
       [failIf (!up) stShape (clId w), failIf (op == 0x62 && n % P != 0) stShape n,
        failIf (pf.length != sourceCount op n P) stShape pf.length, failIf (pt.length != destCount op n P) stShape pt.length,
        failIf (4096 < k) stShape k]]] ++
    [coverCheck w (byteRange 0 (clProg w) (4 * k) true :: placeRanges s g lf.win false pf ++ placeRanges s g lt.win true pt),
     sidePoison s g [lf, lt]])

/-- R151: the offsets of a firing operation's layouts, which hold for its whole course. -/
def heldSides (s : State) (g : Nat) (c : Cmd) (w : Nat) : List Host.Cell :=
  ([layOf c (mvFrom w), layOf c (mvTo w)].filter fun l => l.seg == 1).flatMap fun l =>
    (List.range (4 * (l.nseg + 1))).map fun i =>
      (winKey g (64 * l.offs + i), BitVec.ofNat 8 (sideNat s g (64 * l.offs + i) 1))

/-- The state as the operation of a command sees its side records. -/
def State.sided (s : State) (c : Cmd) : State := { s with side := c.side }

/-- R175: an operation starts; with a member unreachable it completes PEER-ABSENT at once (R179). -/
def startOp (g q : Nat) (c : Cmd) (w : Nat) (s : State) : State :=
  match findColl s (clId w) with
  | none => s
  | some x =>
    let o : CollOp :=
      { g := g, q := q, num := c.num,
        chunks := newChunks x (chunkCount (cwOpcode w) (clN c w) x.members x.cs (layOf c (mvFrom w))) }
    let s := s.modCore g fun co => co.setQueue q ((co.queue q).modCmd c.num fun d => { d with side := heldSides s g c w })
    match Coll.absent s x with
    | some m => finishColl s (clId w) x o true ⟨stPeerAbsent, m, x.base + m⟩
    | none => s.setColl (clId w) { x with op := some o }

/-- An operation waits while an earlier one on its id is in flight, which holds the slots. -/
def fireOp (s : State) (g q opcode : Nat) : State :=
  let busy := match headCmd ((s.core g).queue q) with
    | some c => ((findColl s (clId (c.word.getD 0).toNat)).bind (·.op)).isSome
    | none => false
  if busy then s else fireLong s g q [opcode] (collCheck s g) (startOp g q)

def execCollLdred (g q : Nat) (s : State) : Host.Outcome State Fault Refusal := .next (fireOp s g q 0x61)

def execCollRs (g q : Nat) (s : State) : Host.Outcome State Fault Refusal := .next (fireOp s g q 0x62)

def execCollAg (g q : Nat) (s : State) : Host.Outcome State Fault Refusal := .next (fireOp s g q 0x63)

def execCollA2a (g q : Nat) (s : State) : Host.Outcome State Fault Refusal := .next (fireOp s g q 0x64)

/-! ### Chunks (R270, R272, R281 to R283) -/

/-- Indices of chunk i in the source sequence. -/
def chunkIdx (op n P cs : Nat) (lf : Lay) (i : Nat) : List Nat :=
  let e := chunkElems op cs lf
  (List.range e).filterMap fun j => if e * i + j < sourceCount op n P then some (e * i + j) else none

/-- R69, R177: two contributions combined. -/
def combine (op a b : Nat) : Nat :=
  match op with
  | 0 => engAdd 1 a b
  | 1 => canonical 1 (pickNan true 1 a b)
  | _ => canonical 1 (pickNan false 1 a b)

/-- Whether a pattern is finite, and whether it is infinite. -/
def finite32 (a : Nat) : Bool := a / 2 ^ 23 % 256 != 255
def infinite32 (a : Nat) : Bool := a % 2 ^ 31 == 0x7F800000

/-- One element at a node: contributions in order, with the mark of R177; the last addition at the root sets none. -/
def nodeFold (op : Nat) (root : Bool) : Nat → List Nat → Nat × Bool
  | acc, [] => (acc, false)
  | acc, x :: t =>
    let r := combine op acc x
    let hit := op == 0 && infinite32 r && finite32 acc && finite32 x && !(root && t.isEmpty)
    let (v, o) := nodeFold op root r t
    (v, hit || o)

/-- R282: the node value of a chunk from the children's values and the member's own. -/
def nodeValue (op : Nat) (root : Bool) (kids : List (List (BitVec 32))) (own : List Nat) : List (Nat × Bool) :=
  own.zipIdx.map fun x =>
    match kids.map fun k => (k.getD x.2 0).toNat with
    | [] => (x.1, false)
    | y :: t => nodeFold op root y (t ++ [x.1])

/-- R283: a source element as it goes on the wire. -/
def onWire (op : Nat) (lf : Lay) (v : Nat) : Nat := if (op == 0x61 || op == 0x62) && lf.tag == 2 then v * 2 ^ 16 else v

/-- The places of this member's contribution to a chunk. -/
def ownPlacesOf (s : State) (g : Nat) (cmd : Cmd) (w : Nat) (c : Coll) (i : Nat) : List Place :=
  let lf := layOf cmd (mvFrom w)
  let ps := Lay.soundPlaces (s.sided cmd) g lf
  (chunkIdx (cwOpcode w) (clN cmd w) c.members c.cs lf i).filterMap fun j => ps[j]?

/-- This member's contribution to a chunk, read now (R285). -/
def ownChunk (s : State) (g : Nat) (cmd : Cmd) (w : Nat) (c : Coll) (env : RemoteEnv) (i : Nat) : ReadResult :=
  let lf := layOf cmd (mvFrom w)
  let r := readPlaces s g cmd.asid lf.win env env.reads (ownPlacesOf s g cmd w c i)
  { r with data := r.data.map (onWire (cwOpcode w) lf) }

/-- R283: the elements of a message as they go on the wire: a reduction's as FP32, the others as their bytes, nibbles two by two. -/
def wireBytes (bits : Nat) : List (BitVec 32) → List Byte
  | [] => []
  | [v] => leBytes ((bits + 7) / 8) (v.toNat % 2 ^ bits)
  | v :: u :: t =>
    if bits == 4 then BitVec.ofNat 8 (v.toNat % 16 + 16 * (u.toNat % 16)) :: wireBytes bits t
    else leBytes (bits / 8) (v.toNat % 2 ^ bits) ++ wireBytes bits (u :: t)

/-- The width of an operation's elements on the wire. -/
def wireBits (cmd : Cmd) (w : Nat) : Nat :=
  if cwOpcode w == 0x61 || cwOpcode w == 0x62 then 32 else tagBits (layOf cmd (mvFrom w)).tag

/-- A chunk's values go to a member. -/
def State.sendChunk (s : State) (c : Coll) (id i m bits : Nat) (data : List (BitVec 32)) : State :=
  s.send ⟨c.base + m, 0, BitVec.ofNat 64 (id * 2 ^ 32 + i), .coll, wireBytes bits data⟩

/-- Replaces chunk i of the operation. -/
def CollOp.setChunk (o : CollOp) (i : Nat) (k : Chunk) : CollOp := { o with chunks := o.chunks.set i k }

/-- The tree that serves a chunk: its own, or after a re-derivation that left fewer the one of R178's modulus. -/
def Coll.treeOf (c : Coll) (tree : Nat) : Nat := tree % max 1 c.trees.length

/-- The edges of that tree. -/
def Coll.tree (c : Coll) (tree : Nat) : List (Nat × Nat) := c.trees.getD (c.treeOf tree) []

/-- R281: the earlier chunks that a tree serves have all come to a state: they pass in ascending order, one at a time in each
slot. -/
def Coll.inTurn (c : Coll) (o : CollOp) (i tree st : Nat) : Bool :=
  o.chunks.zipIdx.all fun k => i ≤ k.2 || c.treeOf k.1.tree != c.treeOf tree || st ≤ k.1.st

/-- R284: the slots each tree has at a member, from tree t on: c_t + 2, or two when the pool, less two for every later tree, holds
no more. -/
def slotsFrom (c : Coll) (me : Nat) : Nat → List (List (Nat × Nat)) → List Nat
  | _, [] => []
  | pool, t :: ts =>
    let want := (childrenOf t me).length + 2
    let n := if want + 2 * ts.length ≤ pool then want else 2
    n :: slotsFrom c me (pool - n) ts

/-- The slots of a tree at this member, of those its reservation holds. -/
def Coll.slotsOf (c : Coll) (me tree : Nat) : Nat := (slotsFrom c me (c.reserved / (64 * max 1 c.cs)) c.trees).getD (c.treeOf tree) 2

/-- Whether a tree is served with two slots at this member (R284). -/
def Coll.twoSlots (c : Coll) (me tree : Nat) : Bool := c.slotsOf me tree < (childrenOf (c.tree tree) me).length + 2

/-- R284: a later child's value is combined with the running one, element by element; what carries bytes goes on behind it. -/
def runningValue (red : Bool) (op : Nat) (run x : List (BitVec 32)) : List (BitVec 32 × Bool) :=
  if red then (run.zip x).map fun e =>
    let r := nodeFold op false e.1.toNat [e.2.toNat]
    (BitVec.ofNat 32 r.1, r.2)
  else (run ++ x).map fun v => (v, false)

/-- R282, R284: a child's value arrives in its tree's slots: its own, or with two slots the running one, to which each later child's is
added; with the mark that this addition sets. -/
def arriveValue (two red : Bool) (op : Nat) (slots : List (List (BitVec 32))) (x : List (BitVec 32)) : List (List (BitVec 32)) × Bool :=
  match two, slots with
  | true, run :: _ =>
    let r := runningValue red op run x
    ([r.map (·.1), x], r.any (·.2))
  | _, _ => (slots ++ [x], false)

/-- The values of the next children of a chunk's node arrive, in ascending index. -/
def Chunk.arriveAll (k : Chunk) (two red : Bool) (op : Nat) : List (List (BitVec 32)) → List (List (BitVec 32)) → Chunk × List (List (BitVec 32))
  | slots, [] => (k, slots)
  | slots, x :: t =>
    let r := arriveValue two red op slots x
    Chunk.arriveAll { k with got := k.got + 1, ovf := k.ovf || r.2 } two red op r.1 t

/-- R282, R284: the node value, once every slot that it needs is filled: the children's in ascending index, then the member's own. -/
def sweptValue (two red root : Bool) (op : Nat) (slots : List (List (BitVec 32))) (own : List Nat) : List (BitVec 32 × Bool) :=
  let kids := if two then slots.take 1 else slots
  if red then (nodeValue op root kids own).map fun x => (BitVec.ofNat 32 x.1, x.2)
  else (own.map (BitVec.ofNat 32 ·) ++ kids.flatten).map fun v => (v, false)

/-- R282, R284: what the slots hold once a chunk has been swept: with the children's values the member's own contribution and the node
value; with two slots the node value in place of the running one. -/
def sweptSlots (two : Bool) (slots : List (List (BitVec 32))) (own val : List (BitVec 32)) : List (List (BitVec 32)) :=
  if two then val :: slots.drop 1 else slots ++ [own, val]

/-- R177, R283: the bytes of every member in member order, from a root's node value. -/
def memberOrder (t : List (Nat × Nat)) (P n : Nat) (val : List (BitVec 32)) : List (BitVec 32) :=
  (List.range P).flatMap fun q => (val.drop ((subtree t P 0).idxOf q * n)).take n

/-- Whether the values of the children that follow the first `got` have the lengths of a chunk of n elements: one for each, or one for
each member below. -/
def kidsFit (t : List (Nat × Nat)) (P me n got : Nat) (red : Bool) (kids : List (List (BitVec 32))) : Bool :=
  let ch := (childrenOf t me).drop got
  kids.length ≤ ch.length &&
    (kids.zip ch).all fun x => x.1.length == if red then n else n * (subtree t P x.2).length

/-- The values that arrive for chunk i take their slots. -/
def Coll.arrived (c : Coll) (o : CollOp) (i tree : Nat) (k : Chunk) (slots : List (List (BitVec 32))) : Coll :=
  { c with op := some (o.setChunk i k), slots := tabPut c.slots (c.treeOf tree) slots }

/-- CHUNK_SWEEP: values of children arrive in their slots; once every slot of the chunk is filled, its node value is formed here; it goes
to the parent, and at the root it is the result, which keeps its slot until it has been distributed. A source that cannot be read ends
the operation. -/
def sweepChunk (s : State) (id : Nat) (c : Coll) (o : CollOp) (cmd : Cmd) (i : Nat) (kids : List (List (BitVec 32)))
    (env : RemoteEnv) : State :=
  let w := (cmd.word.getD 0).toNat
  let op := cwOpcode w
  let k := o.chunks.getD i {}
  let tree := c.tree k.tree
  let me := Coll.me s c
  let n := (chunkIdx op (clN cmd w) c.members c.cs (layOf cmd (mvFrom w)) i).length
  let red := op == 0x61 || op == 0x62
  let two := c.twoSlots me k.tree
  if !o.matched || !c.fresh || c.trees.isEmpty || o.chunks.length ≤ i || k.st != 0 || !c.inTurn o i k.tree (if me == 0 then 3 else 1) ||
      !kidsFit tree c.members me n k.got red kids then s
  else
    let (k, slots) := k.arriveAll two red (clOp w) (if k.got == 0 then [] else tabGet [] c.slots (c.treeOf k.tree)) kids
    if k.got < (childrenOf tree me).length then s.setColl id (c.arrived o i k.tree k slots)
    else
      let r := ownChunk s o.g cmd w c env i
      match r.stop with
      | some st => finishColl s id c o false st
      | none =>
        let nodes := sweptValue two red (me == 0) (clOp w) slots r.data
        let all := nodes.map (·.1)
        let val := if !red && me == 0 then memberOrder tree c.members n all else all
        let k' : Chunk := { k with st := if me == 0 then 2 else 1, ovf := k.ovf || nodes.any (·.2), val := val }
        let s := (s.noteUnits o.g cmd.asid (layOf cmd (mvFrom w)).win .engRead (ownPlacesOf s o.g cmd w c i)).setColl id
          (c.arrived o i k.tree k' (sweptSlots two slots (r.data.map (BitVec.ofNat 32 ·)) val))
        match parentOf tree me with
        | some p => s.sendChunk c id i p (wireBits cmd w) val
        | none => s

def execChunkSweep (g q c : Nat) (kids : List (List (BitVec 32))) (env : RemoteEnv) (s : State) :
    Host.Outcome State Fault Refusal :=
  .next (match collOpAt s g q with
    | some (id, x, o) =>
      match cmdAt s g q o.num with
      | some cmd => sweepChunk s id x o cmd c kids env
      | none => s
    | none => s)

/-- R177: where the elements of a chunk's result go at this member: destination indices in the order of the result. -/
def destIdx (op n P me : Nat) (idx : List Nat) : List Nat :=
  match op with
  | 0x61 => idx
  | 0x62 => (idx.filter fun i => i / (n / P) == me).map fun i => i - me * (n / P)
  | 0x63 => (List.range P).flatMap fun q => idx.map fun i => q * n + i
  | _ => (List.range P).flatMap fun q => (idx.filter fun i => i / n == me).map fun i => q * n + (i - me * n)

/-- The result's elements in that order: a reduction's are the chunk's own elements that fall here; otherwise the result holds
every member's chunk, in member order, and of each the part for this member. -/
def resultElems (op n P me : Nat) (idx : List Nat) (result : List Nat) : List Nat :=
  let part := fun (q : Nat) => (result.drop (q * idx.length)).take idx.length
  match op with
  | 0x61 => result
  | 0x62 => (idx.zip result).filterMap fun x => if x.1 / (n / P) == me then some x.2 else none
  | 0x63 => (List.range P).flatMap part
  | _ => (List.range P).flatMap fun q => (idx.zip (part q)).filterMap fun x => if x.1 / n == me then some x.2 else none

/-- The places of the destination at some indices, with the values as they are stored there (R177, R272, R283); a collective
command treats rsig as 0 (R172). -/
def chunkWrites (s : State) (g : Nat) (cmd : Cmd) (w : Nat) (idx vals : List Nat) : List (Place × Nat) :=
  let lt := layOf cmd (mvTo w)
  let ps := Lay.soundPlaces (s.sided cmd) g lt
  let red := cwOpcode w == 0x61 || cwOpcode w == 0x62
  let conv := fun v => if red && lt.tag == 2 then engCvt 1 2 false v else v
  (idx.filterMap fun j => ps[j]?).zip (vals.map conv)

/-- R238: how many of a result's elements are written at one time, when a number n is picked: whole lines of the tags whose engine
writes are single to the line. -/
def cutRuns (tag n : Nat) (l : List (Loc × List Byte)) : Nat :=
  let line := fun (x : Loc × List Byte) => x.1.key.map (· / 64)
  if [6, 10, 12, 13].contains tag then n + ((l.drop n).takeWhile fun x => some (line x) == (l[n - 1]?).map line).length else n

/-- R272, R238: whether others may see the elements of a result come one by one: whole bytes, all of which are written here, in DRAM
or a scratchpad. -/
def WriteResult.piecewise (r : WriteResult) (l : List Place) : Bool :=
  r.stop.isNone && r.missed == 0 && l.all (fun p => p.nib == 0) && r.locs.all fun x =>
    match x.1 with
    | .dram .. => true
    | .win _ off => decide (off < 0x100000)
    | _ => false

/-- Chunk i is distributed here: its slots are free and the result goes on to its children; the last one completes the
operation. -/
def chunkDone (s : State) (id : Nat) (c : Coll) (o : CollOp) (cmd : Cmd) (i : Nat) (k : Chunk) (res : List (BitVec 32)) : State :=
  let me := Coll.me s c
  let o := o.setChunk i { st := 3, tree := k.tree, ovf := k.ovf }
  let c' := { c with op := some o, slots := if me == 0 then tabDel c.slots (c.treeOf k.tree) else c.slots }
  let s := (childrenOf (c.tree k.tree) me).foldl
    (fun u m => u.sendChunk c id i m (wireBits cmd (cmd.word.getD 0).toNat) res) (s.setColl id c')
  if o.chunks.all fun x => x.st == 3 then finishColl s id c' o false (collStatus o) else s

/-- CHUNK_DISTRIBUTE: a chunk's result reaches this member over the tree that the chunk is on, after its own part has been sent up
(R281). The member writes its elements, at once or in parts (`landChunk`), and then passes the result on. At the root the result is
the value formed here. Only a completed epoch is used (R278). -/
def distributeChunk (s : State) (id : Nat) (c : Coll) (o : CollOp) (cmd : Cmd) (i : Nat) (result : List (BitVec 32))
    (ovf : Bool) (tree : Nat) (env : RemoteEnv) : State :=
  let w := (cmd.word.getD 0).toNat
  let op := cwOpcode w
  let red := op == 0x61 || op == 0x62
  let (n, P, me) := (clN cmd w, c.members, Coll.me s c)
  let k := o.chunks.getD i {}
  let root := me == 0
  let idx := chunkIdx op n P c.cs (layOf cmd (mvFrom w)) i
  let res := if root then k.val else result
  let full := if red then idx.length else P * idx.length
  if !o.matched || !c.fresh || o.chunks.length ≤ i || k.st == 3 || k.st == 0 || (root && k.st != 2) || (!root && k.tree != tree) ||
      !k.held.isEmpty || !c.inTurn o i k.tree 3 || res.length != full then s
  else
    let lt := layOf cmd (mvTo w)
    let l := chunkWrites s o.g cmd w (destIdx op n P me idx) (resultElems op n P me idx (res.map (·.toNat)))
    let r := writePlaces s o.g cmd.by_ cmd.asid lt.win env l
    let k := { k with ovf := k.ovf || ovf }
    let m := cutRuns lt.tag (Config.chunkPart s.free + 1) r.locs
    if r.piecewise (l.map (·.1)) && m < r.locs.length then
      let k' := { k with st := 2, val := res, held := r.locs.drop m }
      let t := writeRuns { s with free := s.free + 1 } o.g cmd.by_ (r.locs.take m)
      (t.noteUnits o.g cmd.asid lt.win .engWrite (l.map (·.1))).setColl id { c with op := some (o.setChunk i k') }
    else
      let s := r.s.track s.outbox.length o.g (some (o.q, o.num))
      let o := { o with missed := o.missed + r.missed }
      match r.stop with
      | some st => finishColl s id c (o.setChunk i { st := 3, tree := k.tree, ovf := k.ovf }) false st
      | none => chunkDone s id c o cmd i k res

def execChunkDistribute (g q c : Nat) (result : List (BitVec 32)) (ovf : Bool) (tree : Nat) (env : RemoteEnv) (s : State) :
    Host.Outcome State Fault Refusal :=
  .next (match collOpAt s g q with
    | some (id, x, o) =>
      match cmdAt s g q o.num with
      | some cmd => ((distributeChunk s id x o cmd c result ovf tree env).recordRuns s g).sidesSince s (some (g, q))
      | none => s
    | none => s)

/-- R272: further elements of a result that has come in part are written; with the last the chunk is distributed. -/
def landChunk (g q : Nat) (s : State) : State :=
  match collOpAt s g q with
  | none => s
  | some (id, c, o) =>
    match o.chunks.findIdx? fun k => !k.held.isEmpty, cmdAt s g q o.num with
    | some i, some cmd =>
      let k := o.chunks.getD i {}
      let m := cutRuns (layOf cmd (mvTo (cmd.word.getD 0).toNat)).tag (Config.chunkPart s.free + 1) k.held
      let t := writeRuns { s with free := s.free + 1 } g cmd.by_ (k.held.take m)
      if !c.fresh then s
      else
        ((if m < k.held.length then t.setColl id { c with op := some (o.setChunk i { k with held := k.held.drop m }) }
          else chunkDone t id c o cmd i k k.val).recordRuns s g).sidesSince s (some (g, q))
    | _, _ => s

/-! ### coll.end (R180) -/

/-- Whether an earlier command on the id has not completed at this member. -/
def collPending (s : State) (g : Nat) (c : Cmd) (id : Nat) : Bool :=
  s.cores.any fun e => (List.range 16).any fun i => (e.2.queue i).cmds.any fun d =>
    let w := cmdWord s e.1 d
    ((0x60 ≤ cwOpcode w && cwOpcode w ≤ 0x64) || cwOpcode w == 0x6f) && clId w == id &&
      (if e.1 == g then d.stamp < c.stamp else d.fired)

/-- R180: the collective ends at this member and its reservation is released. A set-up that still waits is not set up. An
operation of a later command that waits or runs here ends with the id (R175). -/
def runCollEnd (s : State) (_ : Cmd) (w : Nat) : Plan :=
  match (findColl s (clId w)).filter fun x => x.stage == .ready with
  | none => ⟨[some ⟨stShape, 0, clId w⟩], ⟨s, stOk, [], none⟩⟩
  | some x =>
    let t := match x.op with
      | some o => finishColl s (clId w) x o false ⟨stAborted, 2, s.pkgid⟩
      | none => s
    ⟨[], ⟨(t.announceEnd (clId w) 0 x).dropColl (clId w), stOk, [], none⟩⟩

/-- Fires when this member's earlier commands on the id have completed. -/
def fireEnd (s : State) (g q : Nat) : State :=
  let held := match headCmd ((s.core g).queue q) with
    | some c => collPending s g c (clId (c.word.getD 0).toNat)
    | none => false
  if held then s
  else fireCmd s g q [0x6f] (fun _ _ => .neither) (runCollEnd s)

def execCollEnd (g q : Nat) (s : State) : Host.Outcome State Fault Refusal := .next (fireEnd s g q)

/-! ### Tile tables (R181, R243, R287) -/

/-- Entry i of the table at an offset, as its 256 bits. -/
def ttabBits (s : State) (g off i : Nat) : Nat := sideNat s g (off + 32 * i) 32

/-- The fields of an entry. -/
def ttabOf (e : Nat) : TtabEntry :=
  ⟨BitVec.ofNat 64 (bitsOf e 255 192), bitsOf e 178 176, bitsOf e 175 168, bitsOf e 167 160, bitsOf e 159 146, bitsOf e 145 132⟩

/-- An entry that breaks its map. -/
def ttabBad (e : Nat) : Bool :=
  let x := ttabOf e
  bitsOf e 191 179 != 0 || bitsOf e 131 0 != 0 || 2 < x.op || x.len == 0 || x.raddr.toNat % 64 != 0

/-- R181: an accumulating entry needs an aperture address of a scratchpad window. -/
def ttabAperture (x : TtabEntry) : Bool :=
  x.op == 0 || (isAperture x.raddr && apertureForm x.raddr && winOf (apertureOff x.raddr) == some .spad)

/-- The checks of `ttab.arm`. -/
def ttabCheck (s : State) (g w : Nat) : CmdCheck :=
  let cnt := bitsOf w 205 192
  let off := 64 * bitsOf w 219 206
  let es := (List.range (min cnt 1024)).map (ttabBits s g off)
  let xs := es.map ttabOf
  firstFail [failIf (cnt == 0 || 1024 < cnt) stShape cnt, sidePlace off (32 * cnt), failIf (es.any ttabBad) stMalformed 0,
    (xs.find? fun x => 16384 < x.lbase + x.len).map fun x => ⟨stRefused, 0, max 16384 x.lbase⟩,
    (xs.findIdx? fun x => !ttabAperture x).map fun i => ⟨stShape, 0, i⟩,
    failIf (!(xs.all fun x => (cwReads w).any fun f => f.covers ⟨0, x.lbase, x.len, false⟩)) stUndeclared 0, ownPoison s g [byteRange 0 off (32 * cnt) false]]

/-- How a unit of an entry's destination is answered, at the alias its op writes (R241). -/
def ttabAnswer (s : State) (g asid : Nat) (env : RemoteEnv) (x : TtabEntry) (p : Place) : Answer :=
  let a := BitVec.ofInt 64 p.addr
  if x.op != 0 && 0x100000 ≤ apertureOff a then .access
  else
    resolve s g asid .engWrite (a + BitVec.ofNat 64 (if x.op == 0 then 0 else if x.op == 1 then 0x200000 else 0x300000)) 64
      (unitVerdict env a)

/-- Units of an entry that were not written add to its table's outcome; the first of them decides its status. -/
def TtabArm.miss (a : TtabArm) (code n addr : Nat) : TtabArm :=
  if n == 0 then a
  else if a.code == 0 then { a with code := code, missed := a.missed + n, addr := addr } else { a with missed := a.missed + n }

/-- How one unit's answer adds to it. -/
def TtabArm.unit (a : TtabArm) (p : Place × Answer) : TtabArm :=
  match p.2 with
  | .ok _ => a
  | .absent => a.miss stAbsent 1 0
  | .xlat => a.miss stXlat 1 ((p.1.addr % 2 ^ 32).toNat)
  | _ => a.miss stRefused 1 0

/-- R148, R181: the status of a table whose entries have all fired. -/
def TtabArm.status (a : TtabArm) : Status :=
  ⟨a.code, 0, (if a.code == stXlat || a.code == stMemory then a.addr else a.missed) % 2 ^ 32⟩

/-- R181: one entry fires: its range is written, and then its token slot is set in the destination's cluster; another package is
told of it once the writes are acknowledged (R287). Each unit is answered by itself. -/
def fireEntry (g : Nat) (env : RemoteEnv) (acc : State × TtabArm) (x : TtabEntry) : State × TtabArm :=
  let (s, a) := acc
  let places := (List.range x.len).map fun (i : Nat) => (⟨x.raddr.toNat + 64 * i, 64, 0⟩ : Place)
  let hurt := (List.range x.len).find? fun i => s.poison.contains (winKey g (64 * (x.lbase + i)) / 64)
  match hurt with
  | some i => (s, a.miss stMemory x.len (x.lbase + i))
  | none =>
    let ans := ttabAnswer s g a.asid env x
    let data := (List.range x.len).map fun i => ownNat s g 0 (64 * (x.lbase + i)) 64
    let good := (places.zip data).filter fun p => match ans p.1 with
      | .ok _ | .absent => true
      | _ => false
    let s' := (writeAnswered s g a.by_ 3 ans good).s.noteUnits g a.asid 3 .engWrite (good.map (·.1))
    let a' := (places.map fun p => (p, ans p)).foldl TtabArm.unit a
    let ok := places.all fun p => match ans p with
      | .ok _ => true
      | _ => false
    if !ok || x.rtok == 0 || !isAperture x.raddr then (s', a')
    else if ownerPkg x.raddr == s.pkgid then
      ({ s' with remoteSignals := s'.remoteSignals ++ [(clusterOfCore (apertureCore x.raddr), x.rtok, false)] }, a')
    else
      (s'.sendAfter g ⟨ownerPkg x.raddr, ownerDie x.raddr, x.raddr, .token, leBytes 1 x.rtok⟩, a')

/-- The entries of one table that a predicate names fire; a table with none left gives its command its status. -/
def fireEntries (s : State) (g : Nat) (env : RemoteEnv) (a : TtabArm) (now : TtabEntry → Bool) : State × Option TtabArm :=
  let (s, a') := (a.left.filter now).foldl (fireEntry g env) (s, { a with left := a.left.filter fun x => !now x })
  if a'.left.isEmpty then (s.setStatus g a'.q a'.num a'.status, none) else (s, some a')

/-- Fires entries of every table of core g. -/
def State.fireTables (s : State) (g : Nat) (env : RemoteEnv) (now : TtabEntry → Bool) : State :=
  let (s, l) := (s.core g).arms.foldl (fun (acc : State × List TtabArm) a =>
    let (t, r) := fireEntries acc.1 g env a now
    (t.track acc.1.outbox.length g (some (a.q, a.num)), acc.2 ++ r.toList)) (s, [])
  s.modCore g fun c => { c with arms := l }

/-- `ttab.arm`: entries whose flag is set already fire at once. -/
def execTtabArm (g q : Nat) (env : RemoteEnv) (s : State) : Host.Outcome State Fault Refusal :=
  .next (fireLong s g q [0x68] (fun _ w => ttabCheck s g w) fun c w t =>
    let es := (List.range (bitsOf w 205 192)).map fun i => ttabOf (ttabBits s g (64 * bitsOf w 219 206) i)
    let a : TtabArm := { q := q, num := c.num, by_ := c.by_, asid := c.asid, left := es }
    let (u, r) := fireEntries t g env a fun x => (tabGet {} (t.core g).flags x.flag).ready
    u.modCore g fun co => { co with arms := co.arms ++ r.toList })

/-- A flag once its rise has taken place. -/
def ReadyFlag.risen (f : ReadyFlag) : ReadyFlag := { f with ready := f.ready || f.crossed, pending := false, crossed := false }

/-- READY_FLAG_RISE (R242, R243): the crossing of the expected count sets the ready bit; a bit that a store set is as the latest
store leaves it. -/
def execReadyFlagRise (g flag : Nat) (env : RemoteEnv) (s : State) : Host.Outcome State Fault Refusal :=
  let f := tabGet {} (s.core g).flags flag
  .next (if !f.pending then s
    else
      ((s.modCore g fun c => { c with flags := tabPut c.flags flag f.risen }).fireTables
        g env fun x => x.flag == flag).sidesSince s none)

end Sys2Proof.Machine
end

