-- ==== Sys2Proof/Machine/Scalar.lean ====
section
/-! DEFINITION. The standard words: base instructions, scalar memory accesses, LR, SC and AMO, fences, calls and CSR
accesses (R4 to R12, R19, R20, R81). -/
namespace Sys2Proof.Machine

/-! ### Base arithmetic (R4) -/

/-- The low 32 bits, sign-extended. -/
def sext32 (w : Word) : Word := (w.setWidth 32).signExtend 64

/-- Signed division as RV64M states it: −1 on a zero divisor, the dividend on overflow. -/
def divS (a b : Word) : Word :=
  if b = 0 then BitVec.allOnes 64 else ofSigned (Int.tdiv a.toInt b.toInt)

/-- Unsigned division: all ones on a zero divisor. -/
def divU (a b : Word) : Word := if b = 0 then BitVec.allOnes 64 else a / b

/-- Signed remainder: the dividend on a zero divisor. -/
def remS (a b : Word) : Word := if b = 0 then a else ofSigned (Int.tmod a.toInt b.toInt)

/-- Unsigned remainder. -/
def remU (a b : Word) : Word := if b = 0 then a else a % b

/-- Bits 127:64 of a product of two integers. -/
def mulHigh (a b : Int) : Word := ofSigned (a * b / 2 ^ 64)

/-- A truth value as a word. -/
def flagWord (b : Bool) : Word := if b then 1 else 0

/-- The OP functions (I, M and Zba). -/
def opFn (f : OpFn) (a b : Word) : Word :=
  match f with
  | .add => a + b
  | .sub => a - b
  | .sll => a <<< (b.toNat % 64)
  | .slt => flagWord (a.slt b)
  | .sltu => flagWord (a.ult b)
  | .xor => a ^^^ b
  | .srl => a >>> (b.toNat % 64)
  | .sra => a.sshiftRight (b.toNat % 64)
  | .or => a ||| b
  | .and => a &&& b
  | .mul => a * b
  | .mulh => mulHigh a.toInt b.toInt
  | .mulhsu => mulHigh a.toInt b.toNat
  | .mulhu => mulHigh a.toNat b.toNat
  | .div => divS a b
  | .divu => divU a b
  | .rem => remS a b
  | .remu => remU a b
  | .sh1add => (a <<< 1) + b
  | .sh2add => (a <<< 2) + b
  | .sh3add => (a <<< 3) + b

/-- The low 32 bits, zero-extended. -/
def zext32 (w : Word) : Word := (w.setWidth 32).setWidth 64

/-- The OP-32 functions. -/
def op32Fn (f : Op32Fn) (a b : Word) : Word :=
  match f with
  | .addw => sext32 (a + b)
  | .subw => sext32 (a - b)
  | .sllw => sext32 (a <<< (b.toNat % 32))
  | .srlw => sext32 (zext32 a >>> (b.toNat % 32))
  | .sraw => (sext32 a).sshiftRight (b.toNat % 32)
  | .mulw => sext32 (a * b)
  | .divw => sext32 (divS (sext32 a) (sext32 b))
  | .divuw => sext32 (divU (zext32 a) (zext32 b))
  | .remw => sext32 (remS (sext32 a) (sext32 b))
  | .remuw => sext32 (remU (zext32 a) (zext32 b))
  | .adduw => zext32 a + b
  | .sh1adduw => (zext32 a <<< 1) + b
  | .sh2adduw => (zext32 a <<< 2) + b
  | .sh3adduw => (zext32 a <<< 3) + b

/-- The OP-IMM functions. -/
def opImmFn (f : OpImmFn) (a : Word) (imm : Int) : Word :=
  let b := ofSigned imm
  match f with
  | .addi => a + b
  | .slti => flagWord (a.slt b)
  | .sltiu => flagWord (a.ult b)
  | .xori => a ^^^ b
  | .ori => a ||| b
  | .andi => a &&& b
  | .slli => a <<< (imm.toNat % 64)
  | .srli => a >>> (imm.toNat % 64)
  | .srai => a.sshiftRight (imm.toNat % 64)

/-- The OP-IMM-32 functions. -/
def opImm32Fn (f : OpImm32Fn) (a : Word) (imm : Int) : Word :=
  match f with
  | .addiw => sext32 (a + ofSigned imm)
  | .slliw => sext32 (a <<< (imm.toNat % 32))
  | .srliw => sext32 (zext32 a >>> (imm.toNat % 32))
  | .sraiw => (sext32 a).sshiftRight (imm.toNat % 32)
  | .slliuw => zext32 a <<< (imm.toNat % 64)

/-- The condition of a branch. -/
def branchTaken (c : BrCond) (a b : Word) : Bool :=
  match c with
  | .beq => a == b
  | .bne => a != b
  | .blt => a.slt b
  | .bge => !a.slt b
  | .bltu => a.ult b
  | .bgeu => !a.ult b

/-- The upper immediate of LUI and AUIPC, sign-extended. -/
def upperImm (imm : Nat) : Word := sext32 (BitVec.ofNat 64 (imm * 4096))

/-- A base instruction's effect. -/
def stdRes (op : StdInstr) (s : State) : Res :=
  match op with
  | .lui rd imm => .checked [needX s [rd]] (.done (s.wx rd (upperImm imm)))
  | .auipc rd imm => .checked [needX s [rd]] (.done (s.wx rd (s.pc + upperImm imm)))
  | .jal rd off => .checked [needX s [rd]] (.jump (s.wx rd (s.pc + 4)) (s.pc + ofSigned off))
  | .branch c rs1 rs2 off =>
    .checked [needX s [rs1, rs2]] (if branchTaken c (s.rx rs1) (s.rx rs2) then .jump s (s.pc + ofSigned off) else .done s)
  | .op f rd rs1 rs2 => .checked [needX s [rs1, rs2, rd]] (.done (s.wx rd (opFn f (s.rx rs1) (s.rx rs2))))
  | .op32 f rd rs1 rs2 => .checked [needX s [rs1, rs2, rd]] (.done (s.wx rd (op32Fn f (s.rx rs1) (s.rx rs2))))
  | .opImm f rd rs1 imm => .checked [needX s [rs1, rd]] (.done (s.wx rd (opImmFn f (s.rx rs1) imm)))
  | .opImm32 f rd rs1 imm => .checked [needX s [rs1, rd]] (.done (s.wx rd (opImm32Fn f (s.rx rs1) imm)))

def execStandardInstruction (op : StdInstr) (s : State) : Host.Outcome State Fault Refusal := (stdRes op s).finish s

/-- R6: JALR traps MISALIGN on a target with bit 1 set, and does not write rd. -/
def jalrRes (rd rs1 : XReg) (imm : Int) (s : State) : Res :=
  let t := (s.rx rs1 + ofSigned imm) &&& ~~~1#64
  .checked [needX s [rs1, rd], trapIf (bitOf t.toNat 1) causeMisalign t] (.jump (s.wx rd (s.pc + 4)) t)

def execJalr (rd rs1 : XReg) (imm : Int) (s : State) : Host.Outcome State Fault Refusal := (jalrRes rd rs1 imm s).finish s

/-! ### Calls (R10) -/

def execEcall (s : State) : Host.Outcome State Fault Refusal := (Res.trap causeEcall 0).finish s

def execEbreak (s : State) : Host.Outcome State Fault Refusal := (Res.trap causeBreak 0).finish s

/-! ### Scalar loads and stores (R6, R12, R18, R250) -/

/-- The effective address. -/
def effAddr (s : State) (rs1 : XReg) (imm : Int) : Word := s.rx rs1 + ofSigned imm

/-- The destination check of a load: an f register being loaded, or an empty x register. -/
def loadDest (s : State) (k : LoadKind) (rd : XReg) : Check :=
  match k with
  | .flw => needF s [rd]
  | _ => needX s [rd]

def scalarLoadRes (k : LoadKind) (rd rs1 : XReg) (imm : Int) (s : State) : Res :=
  let a := effAddr s rs1 imm
  .checked ([needX s [rs1], loadDest s k rd] ++ scalarChecks a (loadBytes k) ++ [needRoom s 1 0])
    (.wait (s.await [] { op := .load k rd, va := true, elems := [{ addr := a, n := loadBytes k }] } []))

def execScalarLoad (k : LoadKind) (rd rs1 : XReg) (imm : Int) (s : State) : Host.Outcome State Fault Refusal :=
  (scalarLoadRes k rd rs1 imm s).finish s

/-- The value a store form stores. -/
def storeData (s : State) (k : StoreKind) (rs2 : XReg) : Nat :=
  match k with
  | .fsw => s.me.r.f[rs2].toNat
  | _ => (s.rx rs2).toNat

/-- The source check of a store form. -/
def storeSource (s : State) (k : StoreKind) (rs1 rs2 : XReg) : List Check :=
  match k with
  | .fsw => [needX s [rs1], needF s [rs2]]
  | _ => [needX s [rs1, rs2]]

def scalarStoreRes (k : StoreKind) (rs2 rs1 : XReg) (imm : Int) (s : State) : Res :=
  let a := effAddr s rs1 imm
  let n := storeBytes k
  .checked (storeSource s k rs1 rs2 ++ [trapIf (regionAlias s a) causeRegion a] ++ scalarChecks a n ++ [needRoom s 0 1])
    (.wait (s.await [] { op := .store, va := true,
                         elems := [{ addr := a, n := n, data := storeData s k rs2 % 2 ^ (8 * n) }] } []))

def execScalarStore (k : StoreKind) (rs2 rs1 : XReg) (imm : Int) (s : State) : Host.Outcome State Fault Refusal :=
  (scalarStoreRes k rs2 rs1 imm s).finish s

/-- LR (R8). -/
def lrRes (w : AmoWidth) (aq rl : Bool) (rd rs1 : XReg) (s : State) : Res :=
  let a := s.rx rs1
  let m := amoMarks aq rl
  .checked ([needX s [rs1, rd]] ++ scalarChecks a (amoBytes w) ++
      [needRoom s (1 + m.1.length + m.2.length) (m.1.length + m.2.length)])
    (.wait (s.await m.1 { op := .lr w rd, va := true, elems := [{ addr := a, n := amoBytes w }] } m.2))

def execLr (w : AmoWidth) (aq rl : Bool) (rd rs1 : XReg) (s : State) : Host.Outcome State Fault Refusal :=
  (lrRes w aq rl rd rs1 s).finish s

/-- An access of the store queue on one location, with markers around it (R8): SC and the AMOs. -/
def amoAccess (op : EntryOp) (n : Nat) (m : List Entry × List Entry) (rd rs2 rs1 : XReg) (region : Check) (s : State) : Res :=
  let a := s.rx rs1
  .checked ([needX s [rs1, rs2, rd], region, trapIf (regionAlias s a) causeRegion a] ++ scalarChecks a n ++
      [needRoom s (m.1.length + m.2.length) (1 + m.1.length + m.2.length)])
    (.wait (s.await m.1 { op := op, va := true,
                          elems := [{ addr := a, n := n, data := (s.rx rs2).toNat % 2 ^ (8 * n) }] } m.2))

def execSc (w : AmoWidth) (aq rl : Bool) (rd rs2 rs1 : XReg) (s : State) : Host.Outcome State Fault Refusal :=
  (amoAccess (.sc w rd) (amoBytes w) (amoMarks aq rl) rd rs2 rs1 none s).finish s

/-- R267: AMOADD and AMOXOR trap REGION inside a region, with the instruction word. -/
def regionAmo (op : AmoOp) (w : Word) (s : State) : Check :=
  trapIf (s.inRegion && (op == .add || op == .xor)) causeRegion w

def execAmo (op : AmoOp) (w : AmoWidth) (aq rl : Bool) (rd rs2 rs1 : XReg) (s : State) : Host.Outcome State Fault Refusal :=
  (amoAccess (.amo (.int op w) rd) (amoBytes w) (amoMarks aq rl) rd rs2 rs1
    (regionAmo op (wordOf (.amo op w aq rl rd rs2 rs1)) s) s).finish s

/-- R8: a posted AMO ignores aq; rl places a release marker before it. -/
def postedMarks (rl : Bool) : List Entry × List Entry := (if rl then [{ op := .marker .pod .rel }] else [], [])

def execPostedAmo (op : AmoOp) (w : AmoWidth) (aq rl : Bool) (rs2 rs1 : XReg) (s : State) : Host.Outcome State Fault Refusal :=
  (amoAccess (.amo (.int op w) 0) (amoBytes w) (postedMarks rl) 0 rs2 rs1
    (regionAmo op (wordOf (.postedAmo op w aq rl rs2 rs1)) s) s).finish s

/-! ### Floating-point AMOs (R38, R81) -/

/-- The five share their operands; `op` names the operation and `i` the word. -/
def famoRes (op : FAmoOp) (i : Instr) (o : FAmo) (s : State) : Res :=
  amoAccess (.amo (.fp op) o.rd) 4 (if o.rd = 0 then postedMarks o.rl else amoMarks o.aq o.rl) o.rd o.rs2 o.rs1
    (trapIf (s.inRegion && op == .add) causeRegion (wordOf i)) s

def execAmoaddS (o : FAmo) (s : State) : Host.Outcome State Fault Refusal := (famoRes .add (.amoaddS o) o s).finish s

def execAmominS (o : FAmo) (s : State) : Host.Outcome State Fault Refusal := (famoRes .min (.amominS o) o s).finish s

def execAmomaxS (o : FAmo) (s : State) : Host.Outcome State Fault Refusal := (famoRes .max (.amomaxS o) o s).finish s

def execAmominnumS (o : FAmo) (s : State) : Host.Outcome State Fault Refusal := (famoRes .minnum (.amominnumS o) o s).finish s

def execAmomaxnumS (o : FAmo) (s : State) : Host.Outcome State Fault Refusal := (famoRes .maxnum (.amomaxnumS o) o s).finish s

/-! ### Fences (R7) -/

/-- A marker enters both queues (R79). -/
def markRes (sc : Scope) (k : MarkKind) (s : State) : Res :=
  .checked [needRoom s 1 1] (.done (s.enqueue s.cur.1 s.cur.2 [{ op := .marker sc k }]))

def execFence (_rd _rs1 : XReg) (_fm _pred _succ : Fin 16) (s : State) : Host.Outcome State Fault Refusal :=
  (markRes .pod .full s).finish s

def execFenceTso (_rd _rs1 : XReg) (s : State) : Host.Outcome State Fault Refusal := (markRes .pod .full s).finish s

def execFenceI (_rd _rs1 : XReg) (_imm : Nat) (s : State) : Host.Outcome State Fault Refusal := (markRes .pod .full s).finish s

/-! ### CSRs (R9, R11, R19, R20) -/

/-- R20: `parkmap`. -/
def parkmap (c : Core) : Nat :=
  ((List.range 8).map fun k => c.freeBlocks k * 2 ^ (4 * k)).sum +
    ((List.range 4).map fun k => c.freeBlocks (8 + k) * 2 ^ (32 + 4 * k)).sum

/-- R11: `coreid`. -/
def coreidOf (g : Nat) : Nat := g + dieOfCore g * 2 ^ 10

/-- R11: `rectpos`. -/
def rectposOf (c : Core) (g : Nat) : Nat :=
  (g % 32 - c.x0) % 32 + (g / 32 - c.y0) % 32 * 2 ^ 5 + c.lw % 8 * 2 ^ 10 + c.lh % 8 * 2 ^ 13

/-- The value a CSR reads. -/
def csrRead (s : State) (n : Nat) : Word :=
  let q := s.me
  let r := q.r
  match n with
  | 0x001 => r.fflags.setWidth 64
  | 0x002 => r.frm.setWidth 64
  | 0x003 => BitVec.ofNat 64 (r.frm.toNat * 32 + r.fflags.toNat)
  | 0x800 => r.ttvec
  | 0x801 => r.tepc
  | 0x802 => r.tcause.setWidth 64
  | 0x803 => r.tval
  | 0x804 => r.tscratch
  | 0x805 => flagWord r.act
  | 0x806 => BitVec.ofNat 64 r.vrb.val
  | 0x807 => BitVec.ofNat 64 r.prb.val
  | 0x808 => BitVec.ofNat 64 (s.myCore.hen.toNat * 4)
  | 0xC00 => BitVec.ofNat 64 s.cycle
  | 0xC01 => BitVec.ofNat 64 (s.cycle * 10 / 21)
  | 0xC02 => BitVec.ofNat 64 r.instret
  | 0xCC0 => BitVec.ofNat 64 (coreidOf s.cur.1)
  | 0xCC1 => BitVec.ofNat 64 (rectposOf s.myCore s.cur.1)
  | 0xCC2 => BitVec.ofNat 64 (s.pkgid % 4096)
  | 0xCC3 => BitVec.ofNat 64 (s.cur.2 % 8)
  | 0xCC4 => flagWord r.vctx
  | 0xCC5 => BitVec.ofNat 64 r.loops.length
  | 0xCC6 => BitVec.ofNat 64 (parkmap s.myCore)
  | 0xCC7 => BitVec.ofNat 64 (q.asid % 256)
  | 0xCC8 => BitVec.ofNat 64 (s.myCore.launchid % 2 ^ 32)
  | 0xCC9 => BitVec.ofNat 64 q.rwcount
  | _ => 0

/-- R9: a value of `frm` from 5 up is stored as 0. -/
def frmOf (n : Nat) : BitVec 3 := if n % 8 < 5 then BitVec.ofNat 3 n else 0

/-- Clears bits [1:0]. -/
def clear2 (w : Word) : Word := w &&& ~~~3#64

/-- What a write of a per-sequencer CSR leaves in the registers. -/
def Regs.csrWrite (r : Regs) (n : Nat) (w : Word) : Regs :=
  match n with
  | 0x001 => { r with fflags := w.setWidth 5 }
  | 0x002 => { r with frm := frmOf w.toNat }
  | 0x003 => { r with frm := frmOf (w.toNat / 32), fflags := w.setWidth 5 }
  | 0x800 => { r with ttvec := clear2 w }
  | 0x801 => { r with tepc := clear2 w }
  | 0x802 => { r with tcause := w.setWidth 8 }
  | 0x803 => { r with tval := w }
  | 0x804 => { r with tscratch := w }
  | 0x805 => { r with act := w.getLsbD 0 }
  | 0x806 => { r with vrb := ⟨w.toNat % 16, Nat.mod_lt _ (by decide)⟩ }
  | 0x807 => { r with prb := ⟨w.toNat % 8, Nat.mod_lt _ (by decide)⟩ }
  | _ => r

/-- R19: a CSR write; reserved bits are ignored (R3) and read-only CSRs are never written (R5). -/
def csrWrite (s : State) (n : Nat) (w : Word) : State :=
  if n = 0x808 then s.modCore s.cur.1 fun c => { c with hen := BitVec.ofNat 6 (w.toNat / 4) }
  else s.modRegs fun r => r.csrWrite n w

/-- The operand of a CSR form. -/
def csrOperand (s : State) (op : CsrOp) (src : XReg) : Word :=
  match op with
  | .rw | .rs | .rc => s.rx src
  | .rwi | .rsi | .rci => BitVec.ofNat 64 src.val

/-- The value a CSR form writes. -/
def csrNew (op : CsrOp) (old v : Word) : Word :=
  match op with
  | .rw | .rwi => v
  | .rs | .rsi => old ||| v
  | .rc | .rci => old &&& ~~~v

/-- The x registers a CSR form reads. -/
def csrSources (op : CsrOp) (src : XReg) : List XReg :=
  match op with
  | .rw | .rs | .rc => [src]
  | _ => []

def csrRes (op : CsrOp) (rd : XReg) (csr : Nat) (src : XReg) (s : State) : Res :=
  let old := csrRead s csr
  let s' := if csrWrites op src then csrWrite s csr (csrNew op old (csrOperand s op src)) else s
  .checked [needX s (csrSources op src ++ [rd])] (.done (s'.wx rd old))

def execCsrAccess (op : CsrOp) (rd : XReg) (csr : Nat) (src : XReg) (s : State) : Host.Outcome State Fault Refusal :=
  (csrRes op rd csr src s).finish s

end Sys2Proof.Machine
end

