-- ==== Sys2Proof/Machine/ScalarFp.lean ====
section
/-! DEFINITION. The scalar F instructions (R4, R9) with the standard's NaN rule: every NaN result is the canonical one. -/
namespace Sys2Proof.Machine

/-- The rounding mode of an instruction: static, or `frm` (R9). -/
def State.rmode (s : State) (rm : Rm) : RMode :=
  match rm with
  | .rne => .rne
  | .rtz => .rtz
  | .rdn => .rdn
  | .rup => .rup
  | .rmm => .rmm
  | .dyn => rmodeOf s.me.r.frm.toNat

/-- The standard's NaN rule: any NaN result is canonical. -/
def stdNan (r : FRes) : FRes := ⟨canonical 1 r, r.flags⟩

/-- Two-operand arithmetic. -/
def fArith (f : FArith) (rm : RMode) (a b : Nat) : FRes :=
  stdNan (match f with
    | .add => fpAdd 1 rm a b
    | .sub => fpSub 1 rm a b
    | .mul => fpMul 1 rm a b
    | .div => fpDiv 1 rm a b)

/-- The fused forms; ∞ × 0 raises invalid whatever the addend is. -/
def fFused (f : FFused) (rm : RMode) (a b c : Nat) : FRes :=
  let a' := match f with
    | .nmsub | .nmadd => fpNeg 1 a
    | _ => a
  let c' := match f with
    | .msub | .nmadd => fpNeg 1 c
    | _ => c
  stdNan (fpFma 1 rm [a', b, c'] a' b c')

/-- Sign injection, minimum and maximum. -/
def fSel (f : FSel) (a b : Nat) : FRes :=
  let inject := fun (s : Bool) => (⟨withSign 1 s (fpMag 1 a), 0⟩ : FRes)
  let pick := fun (wantMax : Bool) =>
    let fl := if isSnan 1 a || isSnan 1 b then flagNV else 0
    if isNan 1 a && isNan 1 b then (⟨canonNan 1, fl⟩ : FRes)
    else if isNan 1 a then ⟨b, fl⟩
    else if isNan 1 b then ⟨a, fl⟩
    else ⟨orderedPick 1 wantMax a b, fl⟩
  match f with
  | .sgnj => inject (fpSign 1 b)
  | .sgnjn => inject !(fpSign 1 b)
  | .sgnjx => inject (fpSign 1 a != fpSign 1 b)
  | .min => pick false
  | .max => pick true

/-- A compare: its truth and flags; `lt` and `le` raise invalid on any NaN, `eq` on a signalling one. -/
def fCmp (f : FCmp) (a b : Nat) : Bool × Nat :=
  let nan := isNan 1 a || isNan 1 b
  let sn := isSnan 1 a || isSnan 1 b
  match f with
  | .eq => (!nan && orderKey 1 a == orderKey 1 b, if sn then flagNV else 0)
  | .lt => (!nan && orderKey 1 a < orderKey 1 b, if nan then flagNV else 0)
  | .le => (!nan && orderKey 1 a ≤ orderKey 1 b, if nan then flagNV else 0)

/-- The class bit of a value: −∞, negative normal, negative subnormal, −0, +0, positive subnormal, positive normal, +∞,
signalling NaN, quiet NaN, from bit 0 up. -/
def classBit (t b : Nat) : Nat :=
  match fpValue t b with
  | .nan _ sn => if sn then 8 else 9
  | .inf s => if s then 0 else 7
  | .fin s m _ =>
    if m == 0 then (if s then 3 else 4)
    else if m < 2 ^ fracBits t then (if s then 2 else 5)
    else if s then 1 else 6

/-- Range of a conversion's integer format. -/
def cvtRange (t : CvtInt) : Int × Int :=
  match t with
  | .w => (-(2 ^ 31), 2 ^ 31 - 1)
  | .wu => (0, 2 ^ 32 - 1)
  | .l => (-(2 ^ 63), 2 ^ 63 - 1)
  | .lu => (0, 2 ^ 64 - 1)

/-- How a converted integer is written into an x register: 32-bit results are sign-extended. -/
def cvtWord (t : CvtInt) (v : Int) : Word :=
  match t with
  | .w | .wu => sext32 (ofSigned v)
  | _ => ofSigned v

/-- FCVT to an integer: NaN gives the greatest value; out of range is clamped with invalid. -/
def fToInt (t : CvtInt) (rm : RMode) (a : Nat) : Word × Nat :=
  let (lo, hi) := cvtRange t
  match fpValue 1 a with
  | .nan .. => (cvtWord t hi, flagNV)
  | .inf s => (cvtWord t (if s then lo else hi), flagNV)
  | .fin s m e =>
    let (v, inexact) := roundInt rm (.of s m e)
    if v < lo then (cvtWord t lo, flagNV)
    else if hi < v then (cvtWord t hi, flagNV)
    else (cvtWord t v, if inexact then flagNX else 0)

/-- The integer an x register holds for a conversion. -/
def cvtSource (t : CvtInt) (w : Word) : Int :=
  match t with
  | .w => (w.setWidth 32).toInt
  | .wu => (w.setWidth 32).toNat
  | .l => w.toInt
  | .lu => w.toNat

/-- FCVT from an integer. -/
def fFromInt (t : CvtInt) (rm : RMode) (w : Word) : FRes :=
  let v := cvtSource t w
  roundTo 1 rm false (.of (v < 0) v.natAbs 0)

/-- An f register's bits. -/
def State.rf (s : State) (i : XReg) : Nat := s.me.r.f[i].toNat

/-- Writes an FP32 result and raises its flags. -/
def State.putF (s : State) (rd : XReg) (r : FRes) : State := (s.wf rd (BitVec.ofNat 32 r.bits)).raise r.flags

/-- Writes an x result and raises its flags. -/
def State.putX (s : State) (rd : XReg) (w : Word) (fl : Nat) : State := (s.wx rd w).raise fl

/-- A scalar F instruction's effect. -/
def scalarFpRes (op : FpInstr) (s : State) : Res :=
  match op with
  | .arith f rd rs1 rs2 rm => .checked [needF s [rs1, rs2, rd]] (.done (s.putF rd (fArith f (s.rmode rm) (s.rf rs1) (s.rf rs2))))
  | .sqrt rd rs1 rm => .checked [needF s [rs1, rd]] (.done (s.putF rd (stdNan (fpSqrt 1 (s.rmode rm) (s.rf rs1)))))
  | .fused f rd rs1 rs2 rs3 rm =>
    .checked [needF s [rs1, rs2, rs3, rd]] (.done (s.putF rd (fFused f (s.rmode rm) (s.rf rs1) (s.rf rs2) (s.rf rs3))))
  | .sel f rd rs1 rs2 => .checked [needF s [rs1, rs2, rd]] (.done (s.putF rd (fSel f (s.rf rs1) (s.rf rs2))))
  | .cmp f rd rs1 rs2 =>
    let c := fCmp f (s.rf rs1) (s.rf rs2)
    .checked [needF s [rs1, rs2], needX s [rd]] (.done (s.putX rd (flagWord c.1) c.2))
  | .fclass rd rs1 =>
    .checked [needF s [rs1], needX s [rd]] (.done (s.wx rd (BitVec.ofNat 64 (2 ^ classBit 1 (s.rf rs1)))))
  | .mvXW rd rs1 => .checked [needF s [rs1], needX s [rd]] (.done (s.wx rd ((s.me.r.f[rs1]).signExtend 64)))
  | .mvWX rd rs1 => .checked [needX s [rs1], needF s [rd]] (.done (s.wf rd ((s.rx rs1).setWidth 32)))
  | .cvtToInt t rd rs1 rm =>
    let c := fToInt t (s.rmode rm) (s.rf rs1)
    .checked [needF s [rs1], needX s [rd]] (.done (s.putX rd c.1 c.2))
  | .cvtFromInt t rd rs1 rm => .checked [needX s [rs1], needF s [rd]] (.done (s.putF rd (fFromInt t (s.rmode rm) (s.rx rs1))))

def execScalarFpOp (op : FpInstr) (s : State) : Host.Outcome State Fault Refusal := (scalarFpRes op s).finish s

end Sys2Proof.Machine
end

