-- ==== Sys2Proof/Machine/Sparse.lean ====
section
/-! DEFINITION. Index-engine and sparse commands: gather, scatter.bin, bin.replay, smma, pat.load, pat.drop and the end of a
compilation (R112, R159, R165 to R167, R170, R171, R256 to R265). -/
namespace Sys2Proof.Machine

/-! ### gather (R165) -/

/-- The table's places of one row. -/
def Lay.rowPlaces (l : Lay) (r : Nat) : List Place :=
  (List.range (l.e 0)).map fun (j : Nat) => l.place (2 * ((r : Int) * l.s 1) + (j : Int) * (l.nibs : Int))

/-- The signed indices of a word. -/
def gatherIndices (s : State) (g : Nat) (c : Cmd) (w : Nat) : List Int :=
  (List.range (shpVal c.sh (bitsOf w 204 200))).map fun q => sextN 32 (ownNat s g 0 (64 * bitsOf w 218 205 + 4 * q) 4)

/-- Whether an index names a row. -/
def Lay.hasRow (l : Lay) (i : Int) : Bool := 0 ≤ i && i < (l.e 1 : Int)

/-- Reads rows in order; a row outside the table reads as zero bits. -/
def gatherRows (s : State) (g asid : Nat) (env : RemoteEnv) (tab : Lay) : List Byte → List Int → ReadResult
  | rem, [] => ⟨[], none, rem⟩
  | rem, i :: t =>
    let r := if tab.hasRow i then readPlaces s g asid tab.win env rem (tab.rowPlaces i.toNat)
      else ⟨List.replicate (tab.e 0) 0, none, rem⟩
    match r.stop with
    | some _ => r
    | none =>
      let r' := gatherRows s g asid env tab r.rest t
      { r' with data := r.data ++ r'.data }

def runGather (s : State) (g : Nat) (env : RemoteEnv) (c : Cmd) (w : Nat) : Plan :=
  let tab := layOf c (bitsOf w 195 192)
  let dest := layOf c (bitsOf w 199 196)
  let m := shpVal c.sh (bitsOf w 204 200)
  let idxAt := 64 * bitsOf w 218 205
  let idxOk := idxAt + 4 * m ≤ 2 ^ 20
  let idx := if idxOk then gatherIndices s g c w else []
  let tabOk := Lay.readable s g tab && tab.rank == 2 && tab.seg == 0
  let src := if tabOk then (idx.filter tab.hasRow).flatMap fun i => tab.rowPlaces i.toNat else []
  let dst := Lay.soundPlaces s g dest
  let ranges := byteRange 0 idxAt (4 * m) false :: placeRanges s g tab.win false src ++ placeRanges s g dest.win true dst
  let r := gatherRows s g c.asid env tab env.reads idx
  let wr := writePlaces s g c.by_ c.asid dest.win env (dst.zip r.data)
  let missedIdx := min (idx.filter fun i => !tab.hasRow i).length 0xFFFF
  let st := wr.moved r.stop (dst.drop r.data.length) false ⟨0, missedIdx, 0⟩
  .mk (staged [[[], [], [], [sidePlace idxAt (4 * m)], [], []], Lay.stages s g c.asid env false tab (if tab.win == 3 then src else Lay.soundPlaces s g tab),
      Lay.stages s g c.asid env true dest dst,
      [[], [], [], [], [sameWidth tab dest],
       [failIf (tab.rank != 2 || tab.seg != 0) stShape (0x100 + tab.k), failIf (dst.length != m * tab.e 0) stShape dst.length]]] ++
      [coverCheck w ranges, sidePoison s g [dest], ownPoison s g [byteRange 0 idxAt (4 * m) false]])
    ⟨wr.countRest (wr.s.noteUnits g c.asid tab.win .engRead src) g st, st, remoteClusters s g (wr.locs.map (·.1)), none⟩

def execGather (g q : Nat) (env : RemoteEnv) (s : State) : Host.Outcome State Fault Refusal :=
  .next (fireCmd s g q [0x21] (fun _ _ => .neither) (runGather s g env)
    fun c w => (layOf c (mvTo w)).reachesOut s g)

/-! ### Bins of a command (R112) -/

/-- The place of record j of bin r, modulo 2^64 (R105). -/
def BinHeader.record (h : BinHeader) (r j : Nat) : Place := ⟨((h.base + 8 * (r * h.cap + j)) % 2 ^ 64 : Nat), 8, 0⟩

/-- The window code of a mode. -/
def modeWin (va : Bool) : Nat := if va then 3 else 0

/-! ### scatter.bin (R166) -/

/-- The (index, value) pairs of a word. -/
def scatterPairs (s : State) (g : Nat) (c : Cmd) (w : Nat) : List (Nat × Nat) :=
  (List.range (shpVal c.sh (bitsOf w 204 200))).map fun i =>
    (ownNat s g 0 (64 * bitsOf w 218 205 + 4 * i) 4, ownNat s g 0 (64 * bitsOf w 232 219 + 4 * i) 4)

/-- The records each bin will be given: their places below cap, with their 8 bytes. -/
def scatterRecords (s : State) (g tailAt : Nat) (h : BinHeader) (b : Nat × List (Nat × Nat)) : List (Place × Nat) :=
  let t0 := ownNat s g 0 (tailAt + 4 * b.1) 4
  (b.2.zipIdx.filter fun e => t0 + e.2 < h.cap).map fun e => (h.record b.1 (t0 + e.2), e.1.1 + 2 ^ 32 * e.1.2)

/-- One bin: the tail's addition, then its records. -/
def scatterBin (g : Nat) (c : Cmd) (env : RemoteEnv) (tailAt : Nat) (h : BinHeader) (va : Bool) (acc : Course)
    (b : Nat × List (Nat × Nat)) : Course :=
  if acc.stopped then acc
  else
    let f := acc.f
    let recs := scatterRecords f.s g tailAt h b
    let t0 := ownNat f.s g 0 (tailAt + 4 * b.1) 4
    let s := engWrite f.s g c.by_ 0 (tailAt + 4 * b.1) (leBytes 4 ((t0 + b.2.length) % 2 ^ 32))
    let wr := writePlaces s g c.by_ c.asid (modeWin va) env recs
    ⟨⟨wr.s, f.st.after (wr.status stOk), (f.clusters ++ remoteClusters s g (wr.locs.map (·.1))).eraseDups, none⟩, acc.rest, wr.stop.isSome⟩

def runScatterBin (s : State) (g : Nat) (env : RemoteEnv) (c : Cmd) (w : Nat) : Plan :=
  let va := bitOf w 58
  let (n, at_, idxAt, valAt) := (shpVal c.sh (bitsOf w 204 200), 64 * bitsOf w 246 233, 64 * bitsOf w 218 205, 64 * bitsOf w 232 219)
  let h := binHeader (sideNat s g at_ 64)
  let inside := idxAt + 4 * n ≤ 2 ^ 20 && valAt + 4 * n ≤ 2 ^ 20
  let pairs := if inside then scatterPairs s g c w else []
  let groups := binGroups h.shift pairs h.regions
  let places := groups.flatMap fun b => (scatterRecords s g (at_ + 64) h b).map (·.1)
  let own := [byteRange 0 idxAt (4 * n) false, byteRange 0 valAt (4 * n) false]
  let s1 := s.modSeqAt g c.by_ fun q => q.fillTails false (BitVec.ofNat 64 at_)
    ((List.range 64).map fun r => ownNat s g 0 (at_ + 64 + 4 * r) 4)
  .mk ([sidePlace at_ 320, failIf (!h.ok) stMalformed 0, sidePlace idxAt (4 * n), sidePlace valAt (4 * n),
      ownPlaces (s.core g) (modeWin va) places, refusedCheck s g c.asid (modeWin va) true env places,
      (pairs.find? fun p => h.regions ≤ p.1 / 2 ^ h.shift).map fun p => ⟨stShape, 0, p.1⟩,
      coverCheck w (own ++ placeRanges s g (modeWin va) true places), ownPoison s g (byteRange 0 at_ 64 false :: groups.map (fun b => byteRange 0 (at_ + 64 + 4 * b.1) 4 false) ++ own)])
    (groups.foldl (scatterBin g c env (at_ + 64) h va) ⟨⟨if pairs.isEmpty then s else s1, stOk, [], none⟩, env.reads, false⟩).f

/-- R146: whether the records' base lies in another core's window or another package's. -/
def scatterAway (s : State) (g w : Nat) : Bool :=
  let va := BitVec.ofNat 64 (binHeader (sideNat s g (64 * bitsOf w 246 233) 64)).base
  bitOf w 58 && isAperture va && !(ownerPkg va == s.pkgid && apertureCore va == g)

def execScatterBin (g q : Nat) (env : RemoteEnv) (s : State) : Host.Outcome State Fault Refusal :=
  .next (fireCmd s g q [0x22] (fun _ _ => .neither) (runScatterBin s g env) fun _ w => scatterAway s g w)

/-! ### bin.replay (R167, R265) -/

/-- The word in place combined with a record's value; no flag is raised. -/
def replayOp (op old v : Nat) : Nat :=
  match op with
  | 0 => (old + v) % 2 ^ 32
  | 1 => (fpAdd 1 .rne old v).bits
  | _ => amoFp .max old v

/-- Applies records in order; the result is the state and the number skipped. -/
def replayRecords (g k tgt lo n op : Nat) : State → List Nat → State × Nat
  | s, [] => (s, 0)
  | s, r :: t =>
    let i := r % 2 ^ 32
    if i < lo || lo + n ≤ i then
      let (s, m) := replayRecords g k tgt lo n op s t
      (s, m + 1)
    else
      let o := tgt + 4 * (i - lo)
      replayRecords g k tgt lo n op (engWrite s g k 0 o (leBytes 4 (replayOp op (ownNat s g 0 o 4) (r / 2 ^ 32)))) t

def runBinReplay (s : State) (g : Nat) (env : RemoteEnv) (c : Cmd) (w : Nat) : Plan :=
  let (va, rst, b, at_, tgt) := (bitOf w 58, bitOf w 59, bitsOf w 219 214, 64 * bitsOf w 213 200, 64 * bitsOf w 233 220)
  let h := binHeader (sideNat s g at_ 64)
  let tail := sideNat s g (at_ + 64 + 4 * b) 4
  let places := if h.ok && b < h.regions then (List.range (min tail h.cap)).map (h.record b) else []
  let inPlace := h.ok && tgt + 4 * 2 ^ h.shift ≤ 2 ^ 20
  let r := readPlaces s g c.asid (modeWin va) env env.reads places
  let (s', skipped) := replayRecords g c.by_ tgt (b * 2 ^ h.shift) (2 ^ h.shift) (bitsOf w 235 234) s r.data
  let beyond := h.cap < tail
  let s'' := if rst && r.stop.isNone then engWrite s' g c.by_ 0 (at_ + 64 + 4 * b) (leBytes 4 0) else s'
  let st := match r.stop with
    | some x => if x.code == stAbsent then ⟨stAbsent, 0, unitCount (places.drop r.data.length)⟩ else x
    | none => ⟨if beyond then stBinOverflow else 0, min skipped 0xFFFF, if beyond then tail else 0⟩
  let words := byteRange 0 tgt (if inPlace then 4 * 2 ^ h.shift else 0) true
  let touched := ((r.data.map (· % 2 ^ 32)).filter fun i => b * 2 ^ h.shift ≤ i && i < (b + 1) * 2 ^ h.shift).map fun i =>
    byteRange 0 (tgt + 4 * (i - b * 2 ^ h.shift)) 4 false
  .mk [sidePlace at_ 320, failIf (!h.ok) stMalformed 0, sidePlace tgt (4 * 2 ^ h.shift),
      ownPlaces (s.core g) (modeWin va) places, refusedCheck s g c.asid (modeWin va) false env places,
      failIf (h.regions ≤ b) stShape b, coverCheck w (words :: placeRanges s g (modeWin va) false places),
      ownPoison s g (byteRange 0 at_ 64 false :: byteRange 0 (at_ + 64 + 4 * b) 4 false :: if inPlace then touched else [])]
    ⟨s''.noteUnits g c.asid (modeWin va) .engRead places, st, [], none⟩

def execBinReplay (g q : Nat) (env : RemoteEnv) (s : State) : Host.Outcome State Fault Refusal :=
  .next (fireCmd s g q [0x23] (fun _ _ => .neither) (runBinReplay s g env))

/-! ### Sparse tiles and their identity (R256, R257) -/

/-- R257: the digest block as a number. -/
def Lay.digest (l : Lay) : Nat :=
  l.tag + l.win * 2 ^ 8 + l.e 1 % 2 ^ 16 * 2 ^ 16 + l.e 0 % 2 ^ 16 * 2 ^ 32 + intBits 32 (l.s 1) * 2 ^ 64

/-- R257: the base of an identity. -/
def Lay.idBase (s : State) (g : Nat) (l : Lay) : Word :=
  if l.win == 3 then BitVec.ofNat 64 l.base else apertureAddr s.pkgid g (l.base % 2 ^ 22)

/-- Whether a held tile is the identity. Equal digest blocks have equal checksums. -/
def CopTile.isTile (s : State) (g : Nat) (c : Cmd) (l : Lay) (t : CopTile) : Bool :=
  t.asid == c.asid && t.base == l.idBase s g && t.digest == l.digest

/-- R256's conditions on the record: SHAPE, and the tags. -/
def Lay.sparseShape (l : Lay) : CmdCheck :=
  failIf (l.seg != 0 || l.rank != 2 || !(l.win == 0 || l.win == 3) || l.e 1 < 1 || 128 < l.e 1 || l.e 0 < 1 ||
    elemsOf l.tag < l.e 0) stShape (0x100 + l.k)

def Lay.sparseTag (l : Lay) : CmdCheck := failIf (!([2, 3, 4, 9, 11].contains l.tag)) stTag (l.tag + (16 + l.k) * 2 ^ 8)

/-- R256: whether an element's bits encode neither zero. -/
def isNonzero (tag b : Nat) : Bool :=
  if isIntTag tag then b != 0 else b % 2 ^ (tagBits tag - 1) != 0

/-- The columns of the non-zeros of each row, from the elements in sequence. -/
def sparseRows (tag cols : Nat) : Nat → List Nat → List (List Nat)
  | 0, _ => []
  | n + 1, l => ((List.range cols).filter fun k => isNonzero tag (l.getD k 0)) :: sparseRows tag cols n (l.drop cols)

/-- Number of non-zeros. -/
def nnz (rows : List (List Nat)) : Nat := (rows.map (·.length)).sum

/-- R259: the number of sub-tile programs; the current program's count is carried. A tile without a non-zero has one. -/
def programsFrom (cur : Nat) : List (List Nat) → Nat
  | [] => 1
  | r :: t =>
    let n := if r.isEmpty then 0 else 1 + r.length
    if cur + n ≤ 4096 then programsFrom (cur + n) t else 1 + programsFrom n t

/-! ### smma (R159, R262, R263) -/

def spLys (w : Nat) : Nat := bitsOf w 218 215

/-- The tile an `smma` finds in its cluster's Coppice. -/
def findTile (s : State) (g : Nat) (c : Cmd) (l : Lay) : Option CopTile :=
  (s.cluster (clusterOfCore g)).coppice.find? fun t => t.isTile s g c l

/-- R159: one element over the structure of row j. -/
def smmaElement (s : State) (g ta tb tag i j : Nat) (cols : List Nat) (old : Nat) : AccVal :=
  cols.zipIdx.foldl (fun (a : AccVal) e =>
    let x := tileElem s g ta tag i e.1
    let y := tileElem s g tb tag j e.2
    if isIntTag tag then addInt40 a (intValue tag x * intValue tag y)
    else { a with bits := fp40Add a.bits (engRound 14 (mulVal (fpValue tag x) (fpValue tag y))) }) ⟨old, false⟩

/-- How an `smma` runs: over a structure, on the dense path, once a compilation with this stamp and structure is complete,
not at all, or stopped by a fault of its reading. -/
inductive SmmaWay where
  | rows (l : List (List Nat))
  | dense
  | wait (born : Nat) (l : List (List Nat))
  | noPattern
  | stop (x : Status)
  deriving DecidableEq, Repr

/-- The state in which the firing command meets its side records, as memory (R151). -/
def State.withSides (s : State) : State := { s with mem := s.side.foldl (fun m c => memPut m c.1 c.2) s.mem }

/-- The tile's structure as it stands in memory, or why it cannot be read. -/
def readStructure (s : State) (g : Nat) (c : Cmd) (l : Lay) (env : RemoteEnv) : Except Status (List (List Nat) × List Nat) :=
  let ps := Lay.soundPlaces s g l
  let r := readPlaces s g c.asid l.win env env.reads ps
  match readStop r ps with
  | some x => .error x
  | none => .ok (sparseRows l.tag (l.e 0) (l.e 1) r.data, r.data)

/-- R159: whether the interpreter runs. -/
def interprets (s : State) (g : Nat) (c : Cmd) (w : Nat) : Bool :=
  bitOf w 59 && (findTile s g c (layOf c (spLys w))).all fun t => t.compiling && !t.dense

/-- R159's table, for a command that fires. -/
def smmaWay (s : State) (g : Nat) (c : Cmd) (w : Nat) (env : RemoteEnv) : SmmaWay :=
  let l := layOf c (spLys w)
  if interprets s g c w then
    match readStructure s.withSides g c l env with
    | .ok (rows, _) => .rows rows
    | .error x => .stop x
  else
    match findTile s g c l with
    | some t => if t.dense then .dense else if t.compiling then .wait t.born t.rows else .rows t.rows
    | none => .noPattern

/-- R155: no array use when the tile has no non-zero, or M or N is 0. -/
def useSmma (s : State) (g : Nat) (env : RemoteEnv) (c : Cmd) (w : Nat) : ArrayUse :=
  if mxM c w == 0 || mxN c w == 0 then .neither
  else
    match smmaWay s g c w env with
    | .rows l | .wait _ l => if nnz l == 0 then .neither else .array
    | .dense => .array
    | _ => .neither

/-- R258: a use of a held tile. -/
def State.useTile (s : State) (g : Nat) (c : Cmd) (l : Lay) : State :=
  s.modCluster (clusterOfCore g) fun cl =>
    { cl with stamp := cl.stamp + 1,
              coppice := cl.coppice.map fun t => if t.isTile s g c l then { t with used := cl.stamp + 1 } else t }

/-- R258: the firing of an `smma` or `pat.load` on queue q is a use of its tile, whatever it comes to. -/
def useAtFiring (s : State) (g q op : Nat) (u : ArrayUse) (ly : Nat → Nat) : State :=
  match mayFire s g q [op] u with
  | some (c, w) => s.useTile g c (layOf c (ly w))
  | none => s

/-- R159: the product over the structure of a tile, or on the dense path without one. -/
def smmaProduct (s : State) (g : Nat) (c : Cmd) (w : Nat) (rows : Option (List (List Nat))) : State :=
  let (ta, tb, a, zc) := (mxTa w, mxTb w, mxAcc w, mxZc w)
  let tag := ((s.core g).tile ta).tag
  productRows s g c.by_ a (mxM c w) (mxN c w) (mxK c w) zc fun i j =>
    match rows with
    | some l => smmaElement s g ta tb tag i j (l.getD j []) (oldAcc s g a i j zc)
    | none => mmaElement s g ta tb tag i j (mxK c w) 1 (oldAcc s g a i j zc)

/-- What a way comes to. -/
def smmaDone (s : State) (g : Nat) (c : Cmd) (w : Nat) (way : SmmaWay) : Fired :=
  match way with
  | .noPattern => .fail s ⟨stNoPattern, 0, 0⟩
  | .stop x => .fail s x
  | .dense => ⟨smmaProduct s g c w none, stOk, [], none⟩
  | .rows l | .wait _ l => ⟨smmaProduct s g c w (some l), stOk, [], none⟩

def runSmma (s : State) (g : Nat) (env : RemoteEnv) (c : Cmd) (w : Nat) : Plan :=
  let co := s.core g
  let (ta, tb, a, M, N, K) := (mxTa w, mxTb w, mxAcc w, mxM c w, mxN c w, mxK c w)
  let l := layOf c (spLys w)
  let ps := Lay.soundPlaces s g l
  .mk (staged [[[l.sideShape], [l.sidePos], [],
        [tileCheck co ta, tileCheck co tb, accCheck co a, ownPlaces co l.win ps,
         if interprets s g c w then refusedCheck s g c.asid l.win false env ps else none],
        abcTags co ta tb a [2, 3, 4, 9, 11] ++ [l.tagCheck, l.sparseTag],
        [Lay.shapeCheck s g l, l.sparseShape, failIf ((c.tile ta).rows < M) stShape M, failIf (N != l.e 1) stShape N,
         failIf (K != l.e 0) stShape K]]] ++
      [coverCheck w (mmaRanges c w), productPoison s g (useSmma s g env c w) (mxZc w) (mmaRanges c w)])
    (let f := smmaDone s g c w (smmaWay s g c w env)
     if interprets s g c w then { f with s := f.s.noteUnits g c.asid l.win .engRead ps } else f)

/-- The `smma` that has fired on a queue and waits for its program. -/
def waitingSmma (q : Queue) : Option Cmd := q.cmds.find? fun c => c.fired && c.st.isNone && cwOpcode (c.word.getD 0).toNat == 0x04

/-- A waiting `smma` goes on: with the program once it is complete, as NOPATTERN when the compilation was abandoned (R159, R261);
until then nothing happens. -/
def finishSmma (s : State) (g q : Nat) (c : Cmd) : State :=
  let w := (c.word.getD 0).toNat
  let left := fun (f : Fired) => f.s.modCore g fun co => co.setQueue q ((co.queue q).modCmd c.num fun d =>
    { d with read := !f.st.notRun, st := some f.st, patWait := none, program := none })
  match c.program with
  | some l =>
    left (((.mk [productPoison s g (if nnz l == 0 then .neither else useMNK c w) (mxZc w) (mmaRanges c w)]
      ⟨smmaProduct s g c w (some l), stOk, [], none⟩ : Plan).fired s))
  | none =>
    if ((s.cluster (clusterOfCore g)).coppice.any fun t => c.patWait == some t.born) then s
    else left (.fail s ⟨stNoPattern, 0, 0⟩)

/-- What the `smma` at the fetch point of a queue needs of the array. -/
def smmaUse (s : State) (g q : Nat) (env : RemoteEnv) : ArrayUse :=
  match headCmd ((s.core g).queue q) with
  | some c => useSmma s g env c (c.word.getD 0).toNat
  | none => .neither

/-- R159: the stamp of the compilation that an `smma` waits for: its checks pass, it is not to propagate an error, and its tile
is compiling and is not to be interpreted. -/
def smmaWaits (s : State) (g : Nat) (env : RemoteEnv) (c : Cmd) (w : Nat) : Option Nat :=
  match smmaWay s g c w env, firstFail (runSmma s g env c w).checks,
      cwEprop w && tokensError (s.cluster (clusterOfCore g)) w with
  | .wait born _, none, false => some born
  | _, _, _ => none

/-- An `smma` fires and waits, and holds its queue. -/
def State.parkSmma (s : State) (g q num born : Nat) (u : ArrayUse) : State :=
  let t := s.modCore g fun co => co.setQueue q ((co.queue q).modCmd num fun d => { d with fired := true, patWait := some born, use := u })
  if u == .neither then t else t.modCluster (clusterOfCore g) fun x => { x with termCmds := x.termCmds + 1 }

/-- An `smma` fires: it waits for its program, or its effect takes place. -/
def startSmma (s : State) (g q : Nat) (env : RemoteEnv) : State :=
  let u := smmaUse s g q env
  let used := useAtFiring s g q 0x04 u spLys
  match mayFire s g q [0x04] u with
  | none => s
  | some (c, w) =>
    match smmaWaits s g env c w with
    | some born => used.parkSmma g q c.num born u
    | none => fireCmd used g q [0x04] (fun _ _ => u) (runSmma used g env)

/-- SMMA. -/
def fireSmma (s : State) (g q : Nat) (env : RemoteEnv) : State :=
  match waitingSmma ((s.core g).queue q) with
  | some c => (finishSmma s g q c).sidesSince s (some (g, q))
  | none => startSmma s g q env

def execSmma (g q : Nat) (env : RemoteEnv) (s : State) : Host.Outcome State Fault Refusal :=
  .next (fireSmma s g q env)

/-! ### pat.load (R170, R258 to R262) -/

/-- Bits of a tile row: packed non-zeros from element 0, the rest +0. -/
def packedRow (tag cols : Nat) (row : List Nat) (elems : List Nat) : VBits :=
  let vals := row.map fun k => elems.getD k 0
  setElems tag 0 (List.range (min vals.length cols)) fun i => vals.getD i 0

/-- The dense form of a row. -/
def expandedRow (tag cols : Nat) (elems : List Nat) : VBits := setElems tag 0 (List.range cols) fun i => elems.getD i 0

/-- The lines a range of bytes occupies; another package's are known by the address sent there. -/
def lineRange (s : State) (g asid win : Nat) (off n : Nat) : Option (Nat × Nat) :=
  match placeAnswer s g asid win false ⟨[], []⟩ ⟨off, 1, 0⟩ with
  | .ok (.remote p d a) => some (remoteKey p d a / 64, (remoteKey p d a + n - 1) / 64)
  | .ok l => l.key.map fun k => (k / 64, (k + n - 1) / 64)
  | _ => none

/-- R261: the ranges watched, from the lowest element to the highest; a virtual range is taken page by page. -/
def watchRanges (s : State) (g asid win : Nat) (ps : List Place) : List (Nat × Nat) :=
  match ps with
  | [] => []
  | p :: _ =>
    let lo := (ps.map (·.addr)).foldl min p.addr
    let hi := (ps.map fun x => x.addr + (x.n : Int)).foldl max 0
    let (a, n) := (lo.toNat, (hi - lo).toNat)
    if win != 3 || isAperture (BitVec.ofNat 64 a) then (lineRange s g asid win a n).toList
    else
      (List.range ((a + n - 1) / 0x10000 + 1 - a / 0x10000)).filterMap fun i =>
        let b := max a ((a / 0x10000 + i) * 0x10000)
        let e := min (a + n) ((a / 0x10000 + i + 1) * 0x10000)
        lineRange s g asid win b (e - b)

/-- R261: the die, as 4·package + die, whose watches the tile takes one of. -/
def watchDie (s : State) (g : Nat) (l : Lay) : Nat :=
  if l.win == 3 then 4 * ownerPkg (BitVec.ofNat 64 l.base) + ownerDie (BitVec.ofNat 64 l.base) else 4 * s.pkgid + dieOfCore g

/-- Whether a watch can be registered: 8,192 for each die; another package's die is the environment's to answer. -/
def watchFree (s : State) (d : Nat) (ok : Bool) : Bool :=
  if d / 4 == s.pkgid then ((s.clusters.map fun c => (c.2.coppice.filter fun t => t.die == d).length).sum < 8192) else ok

/-- Entries in use. -/
def entriesUsed (l : List CopTile) : Nat := (l.map (·.entries)).sum

/-- R258: a tile that no eviction takes: one that is compiling, or that a fired command of its cluster uses. -/
def tileBusy (s : State) (cl : Nat) (t : CopTile) : Bool :=
  t.compiling || (List.range 4).any fun i =>
    let g := coreOfCluster cl i
    (List.range 16).any fun q => ((s.core g).queue q).cmds.any fun d =>
      let w := cmdWord s g d
      d.fired && ((cwOpcode w == 0x04 && t.isTile s g d (layOf d (spLys w))) ||
        (cwOpcode w == 0x40 && t.isTile s g d (layOf d (bitsOf w 195 192))))

/-- Evicts least-recently-used tiles, of those that are not busy, until `need` entries of 32 are free; `fuel` bounds it. -/
def evict (busy : CopTile → Bool) (need : Nat) : Nat → List CopTile → Option (List CopTile)
  | 0, l => if entriesUsed l + need ≤ 32 then some l else none
  | fuel + 1, l =>
    if entriesUsed l + need ≤ 32 then some l
    else
      let can := l.filter fun t => !busy t
      match can.map (·.used) with
      | [] => none
      | u :: us =>
        let oldest := us.foldl min u
        evict busy need fuel (l.filter fun t => busy t || t.used != oldest)

/-- The form `pat.load` writes and the Coppice it leaves: whether the identity was present, whether the form is dense, and
the sub-tile programs its detail reports. -/
def patPlan (s : State) (g : Nat) (c : Cmd) (w : Nat) (l : Lay) (watchOk : Bool) (rows : List (List Nat)) (ps : List Place) :
    Cluster × Bool × Nat :=
  let cl := s.cluster (clusterOfCore g)
  let n := cl.stamp + 1
  match cl.coppice.find? fun t => t.isTile s g c l with
  | some t =>
    ({ cl with stamp := n, coppice := cl.coppice.map fun x => if x.isTile s g c l then { x with used := n } else x }, t.dense,
     1 + (if t.dense then 2 else 4 * t.entries))
  | none =>
    let dense := bitOf w 58 && decide (l.e 0 * l.e 1 < 4 * nnz rows)
    let need := if dense then 1 else programsFrom 0 rows
    let d := watchDie s g l
    match if watchFree s d watchOk then evict (tileBusy s (clusterOfCore g)) need 32 cl.coppice else none with
    | none => (cl, dense, 0)
    | some kept =>
      ({ cl with stamp := n,
                 coppice := kept ++ [{ asid := c.asid, base := l.idBase s g, digest := l.digest, dense := dense, entries := need,
                                       compiling := !dense, watch := watchRanges s g c.asid l.win ps, used := n, born := n,
                                       die := d, rows := rows }] }, dense, if dense then 2 else 4 * need)

/-- The bytes of the tile's rows in the form written. -/
def patRows (l : Lay) (dense : Bool) (rows : List (List Nat)) (elems : List Nat) : List VBits :=
  (List.range (l.e 1)).map fun j =>
    let e := (elems.drop (j * l.e 0)).take (l.e 0)
    if dense then expandedRow l.tag (l.e 0) e else packedRow l.tag (elemsOf l.tag) (rows.getD j []) e

def runPatLoad (s : State) (g : Nat) (watchOk : Bool) (env : RemoteEnv) (c : Cmd) (w : Nat) : Plan :=
  let co := s.core g
  let l := layOf c (bitsOf w 195 192)
  let tb := bitsOf w 198 196
  let ps := Lay.soundPlaces s g l
  let done : Fired := match l.sparseShape, readStructure s g c l env with
    | some x, _ => .fail s x
    | _, .error x => .fail s x
    | _, .ok (rows, elems) =>
      let (cl, dense, detail) := patPlan s g c w l watchOk rows ps
      let s' := (patRows l dense rows elems).zipIdx.foldl
        (fun t r => engWrite t g c.by_ 1 (0x10000 * tb + 512 * r.2) (regBytes r.1 0 512)) (s.setCluster (clusterOfCore g) cl)
      ⟨(s'.modCore g fun x => x.setTileTag tb l.tag).noteUnits g c.asid l.win .engRead ps, ⟨0, detail, 0⟩, [], none⟩
  .mk (staged [[[l.sideShape], [l.sidePos], [],
        [tileCheck co tb, ownPlaces co l.win ps, refusedCheck s g c.asid l.win false env ps], [l.tagCheck, l.sparseTag],
        [Lay.shapeCheck s g l, l.sparseShape, failIf ((c.tile tb).rows < l.e 1) stShape (l.e 1)]]] ++
      [coverCheck w (tileRows tb 0 (l.e 1) true :: placeRanges s g l.win false ps), ownPoison s g (placeRanges s g l.win false ps)])
    done

def execPatLoad (g q : Nat) (watchOk : Bool) (env : RemoteEnv) (s : State) : Host.Outcome State Fault Refusal :=
  let t := useAtFiring s g q 0x40 .neither (bitsOf · 195 192)
  .next (fireCmd t g q [0x40] (fun _ _ => .neither) (runPatLoad t g watchOk env))

/-! ### pat.drop (R171) and the end of a compilation (R258) -/

def runPatDrop (s : State) (g : Nat) (c : Cmd) (w : Nat) : Plan :=
  let l := layOf c (bitsOf w 195 192)
  .mk (staged [Lay.stages s g c.asid ⟨[], []⟩ false l (if l.win == 3 then [] else Lay.soundPlaces s g l)])
    ⟨s.modCluster (clusterOfCore g) fun cl => { cl with coppice := cl.coppice.filter fun t => !t.isTile s g c l }, stOk, [], none⟩

def execPatDrop (g q : Nat) (s : State) : Host.Outcome State Fault Refusal :=
  .next (fireCmd s g q [0x41] (fun _ _ => .neither) (runPatDrop s g))

/-- The `smma` commands of a core that wait for a tile hold its program. -/
def Core.giveProgram (c : Core) (t : CopTile) : Core :=
  (List.range 16).foldl (fun c i => c.setQueue i { c.queue i with
    cmds := (c.queue i).cmds.map fun d => if d.patWait == some t.born then { d with patWait := none, program := some t.rows } else d }) c

/-- COMPILATION_COMPLETE: the program of a compiling tile of a cluster is ready, and those that wait for it hold it (R261). -/
def execCompilationComplete (cl i : Nat) (s : State) : Host.Outcome State Fault Refusal :=
  .next (match (s.cluster cl).coppice[i]? with
    | some t =>
      if t.compiling then
        (List.range 4).foldl (fun s j => s.modCore (coreOfCluster cl j) fun c => c.giveProgram t)
          (s.modCluster cl fun c =>
            { c with coppice := c.coppice.zipIdx.map fun t => if t.2 == i then { t.1 with compiling := false } else t.1 })
      else s
    | none => s)

end Sys2Proof.Machine
end

