-- ==== Sys2Proof/Machine/VecCmp.lean ====
section
/-! DEFINITION. Compare-pairs, major VP (R35, R36, R126). -/
namespace Sys2Proof.Machine

/-! ### Writing the pair (R35, R36) -/

/-- The first n elements as a mask. -/
def firstMask (n : Nat) : PBits := BitVec.ofNat 1024 (2 ^ n - 1)

/-- The other name of the pair. -/
def pairName (pa : PReg) : PReg := ⟨pa.val / 2 * 2 + (1 - pa.val % 2), by omega⟩

/-- pa's bit where the qualifier is 1, from its old bits and the compare's (R36). -/
def foldBits (ctype : Fin 8) (old c : PBits) : PBits :=
  match ctype with
  | 0 | 1 => c
  | 2 => old &&& c
  | 3 => old ||| c
  | 4 => old &&& ~~~c
  | 5 => old ||| ~~~c
  | 6 => old ^^^ c
  | 7 => old

/-- R36: writes the pair for n elements. -/
def Regs.writePair (r : Regs) (o : VP) (n : Nat) (c : PBits) : Regs :=
  let q := r.rp o.qp &&& firstMask n
  let a := foldBits o.ctype (r.rp o.pa) c
  let z := if o.ctype == 1 then firstMask n &&& ~~~q else 0
  let keep := ~~~(q ||| z)
  let newA := (r.rp o.pa &&& keep) ||| (a &&& q)
  let newB := (r.rp (pairName o.pa) &&& keep) ||| (~~~a &&& q)
  (r.wp o.pa newA).wp (pairName o.pa) newB

/-! ### Vector compares (R126) -/

/-- Conditions of a vector compare. -/
inductive VCond where
  | eq | ne | lt | le | unord
  deriving DecidableEq, Repr

/-- The tags a condition accepts natively. -/
def VCond.tags : VCond → List Nat
  | .eq | .ne => 0 :: fpTags ++ intTags
  | .lt | .le => fpTags ++ intTags
  | .unord => fpTags

/-- A floating-point compare of non-emulated elements, with its flags. -/
def fpCmp (k : VCond) (t a b : Nat) : Bool × Nat :=
  let nan := isNan t a || isNan t b
  let snan := isSnan t a || isSnan t b
  let x := orderKey t a
  let y := orderKey t b
  match k with
  | .eq => (!nan && x == y, if snan then flagNV else 0)
  | .ne => (nan || x != y, if snan then flagNV else 0)
  | .lt => (!nan && decide (x < y), if nan then flagNV else 0)
  | .le => (!nan && decide (x ≤ y), if nan then flagNV else 0)
  | .unord => (nan, if snan then flagNV else 0)

/-- One element's compare. -/
def cmpElem (k : VCond) (t a b : Nat) : Bool × Nat :=
  if isEmulated t then
    let x := cvtElem t 1 .rne false a
    let y := cvtElem t 1 .rne false b
    let r := fpCmp k 1 x.bits y.bits
    (r.1, orFlags r.2 (orFlags x.flags y.flags))
  else if isFpTag t then fpCmp k t a b
  else
    let x := intValue t a
    let y := intValue t b
    (match k with
      | .eq => x == y
      | .ne => x != y
      | .lt => decide (x < y)
      | .le => decide (x ≤ y)
      | .unord => false, 0)

/-- A vector compare: elements whose qualifier is 0 are not compared. -/
def vcmpRes (k : VCond) (emu : Bool) (o : VP) (w : Word) (s : State) : Res :=
  let t := s.vtagOf o.s1
  let l := s.actives o.qp (elemsOf t)
  let rs := l.map fun i => (i, cmpElem k t (s.el t o.s1 i) (s.el t o.s2 i))
  let c := rs.foldl (fun (a : PBits) x => if x.2.1 then a ||| BitVec.ofNat 1024 (2 ^ x.1) else a) 0
  .checked ([needCtx s w] ++ needV s [(o.s1, false), (o.s2, false)] ++
      [needTag s k.tags emu o.s1, sameTag s t t o.s2])
    (.done ((s.raise (rs.foldl (fun a x => orFlags a x.2.2) 0)).modRegs fun r => r.writePair o (elemsOf t) c))

/-! ### Scalar compares (R35) -/

/-- A scalar compare: the same result for all 1,024 elements; no vector context is needed. -/
def xcmpRes (f : Word → Word → Bool) (o : VP) (s : State) : Res :=
  .checked [needX s [o.s1, o.s2]]
    (.done (s.modRegs fun r => r.writePair o 1024 (if f (s.rx o.s1) (s.rx o.s2) then BitVec.allOnes 1024 else 0)))

def execVcmpEq (o : VP) (s : State) : Host.Outcome State Fault Refusal := (vcmpRes .eq false o (wordOf (.vcmpEq o)) s).finish s
def execVcmpNe (o : VP) (s : State) : Host.Outcome State Fault Refusal := (vcmpRes .ne false o (wordOf (.vcmpNe o)) s).finish s
def execVcmpLt (o : VP) (s : State) : Host.Outcome State Fault Refusal := (vcmpRes .lt false o (wordOf (.vcmpLt o)) s).finish s
def execVcmpLe (o : VP) (s : State) : Host.Outcome State Fault Refusal := (vcmpRes .le false o (wordOf (.vcmpLe o)) s).finish s
def execVcmpUnord (o : VP) (s : State) : Host.Outcome State Fault Refusal := (vcmpRes .unord false o (wordOf (.vcmpUnord o)) s).finish s
def execXcmpEq (o : VP) (s : State) : Host.Outcome State Fault Refusal := (xcmpRes (fun a b => a == b) o s).finish s
def execXcmpNe (o : VP) (s : State) : Host.Outcome State Fault Refusal := (xcmpRes (fun a b => a != b) o s).finish s
def execXcmpLt (o : VP) (s : State) : Host.Outcome State Fault Refusal := (xcmpRes (fun a b => a.slt b) o s).finish s
def execXcmpGe (o : VP) (s : State) : Host.Outcome State Fault Refusal := (xcmpRes (fun a b => b.sle a) o s).finish s
def execXcmpLtu (o : VP) (s : State) : Host.Outcome State Fault Refusal := (xcmpRes (fun a b => a.ult b) o s).finish s
def execXcmpGeu (o : VP) (s : State) : Host.Outcome State Fault Refusal := (xcmpRes (fun a b => b.ule a) o s).finish s
def execXcmpTst (o : VP) (s : State) : Host.Outcome State Fault Refusal := (xcmpRes (fun a b => a &&& b != 0) o s).finish s

end Sys2Proof.Machine
end

