-- ==== Sys2Proof/Machine/VecConv.lean ====
section
/-! DEFINITION. Conversions of major VC (R127 to R130). -/
namespace Sys2Proof.Machine

/-- The tags 1 to 12 of a width. -/
def widthClass (bits : Nat) : List Nat := ((List.range 13).drop 1).filter fun t => tagBits t == bits

/-- R58 items 3 and 4 for a conversion: a source outside the accepted set traps FORMAT with vs1; a source or a named
destination of tag 5 or 6 is served by emulation. Where no tag is accepted the expected field is 0 (DESIGN CHOICE, log
entry 71). -/
def cvtTag (s : State) (accepted : List Nat) (emu : Bool) (d : Nat) (j : XReg) : Check :=
  let t := s.vtagOf j
  if !accepted.contains t then
    some (.trap causeFormat (formatVal (if accepted.isEmpty then 0 else accepted.foldl min 15) t (s.vreg j)))
  else if (isEmulated t || isEmulated d) && !emu then some (.emulate (formatVal 0 t (s.vreg j)))
  else none

/-- The conversions' words as VA words, for the shared checks. -/
def convVA (o : VCv) : VA := ⟨o.vd, o.vs1, 0, o.qp, o.b1, false⟩

/-! ### vcvt (R127) -/

def vcvtWith (rm : RMode) (emu : Bool) (o : VCv) (w : Word) (s : State) : Res :=
  let t := s.vtagOf o.vs1
  let d := o.tag.val
  .checked (vaPre s (convVA o) w false ++ [cvtTag s (widthClass (tagBits d)) emu d o.vs1, destTag s o.qp (elemsOf d) d o.vd])
    (.done (s.fpWrite (convVA o) d fun i => cvtElem t d rm o.sat (s.el t o.vs1 i)))

def vcvtRes (emu : Bool) (o : VCv) (w : Word) (s : State) : Res := vcvtWith s.vrm emu o w s
def execVcvt (o : VCv) (s : State) : Host.Outcome State Fault Refusal := (vcvtRes false o (wordOf (.vcvt o)) s).finish s

def vcvtRzRes (emu : Bool) (o : VCv) (w : Word) (s : State) : Res := vcvtWith .rtz emu o w s
def execVcvtRz (o : VCv) (s : State) : Host.Outcome State Fault Refusal := (vcvtRzRes false o (wordOf (.vcvtRz o)) s).finish s

/-! ### vwiden (R128) -/

/-- The sources that widen to a destination. -/
def widenSources (d : Nat) : List Nat :=
  match d with
  | 1 => [2, 3, 4, 5, 8, 9, 11]
  | 2 | 3 => [4, 5, 6, 9, 10, 11, 12]
  | 4 => [6, 10, 12]
  | 5 => [6]
  | 7 => [8, 9, 11]
  | 8 => [9, 10, 11, 12]
  | 9 => [10, 12]
  | 11 => [12]
  | _ => []

/-- R32 over a group: an inactive element needs every register of the group untyped or of the result tag. -/
def groupDest (s : State) (qp : PReg) (n result : Nat) (l : List XReg) : List Check :=
  l.map fun j => destTag s qp n result j

/-- Writes the active elements of a group of f registers, with every register's tag. -/
def State.groupWrite (s : State) (qp : PReg) (vg : XReg) (f t n : Nat) (val : Nat → Nat) : State :=
  (List.range f).foldl (fun u m =>
    let l := (s.actives qp n).filter fun i => i % f == m
    u.vset (groupName vg m) (l.foldl (fun v i => setElem t v (i / f) (val i)) (s.vget (groupName vg m))) t) s

/-- R104, R128, R129: the registers of the wider side of a conversion: 2 or 4, or 1 where no group comes about. -/
def groupSize (wide narrow : Nat) : Nat := if wide == 2 * narrow then 2 else if wide == 4 * narrow then 4 else 1

def vwidenRes (emu : Bool) (o : VCv) (w : Word) (s : State) : Res :=
  let t := s.vtagOf o.vs1
  let d := o.tag.val
  let f := groupSize (tagBits d) (tagBits t)
  let n := elemsOf t
  let names := groupNames o.vd f
  let r := fun i => cvtElem t d .rne false (s.el t o.vs1 i)
  .checked ([needCtx s w] ++ needV s [(o.vs1, o.b1)] ++ [needVd s names, groupAligned o.vd f w,
      cvtTag s (widenSources d) emu d o.vs1] ++ groupDest s o.qp n d names)
    (.done ((s.groupWrite o.qp o.vd f d n fun i => (r i).bits).raise
      ((s.actives o.qp n).foldl (fun a i => orFlags a (r i).flags) 0)))
def execVwiden (o : VCv) (s : State) : Host.Outcome State Fault Refusal := (vwidenRes false o (wordOf (.vwiden o)) s).finish s

/-! ### vnarrow (R129) -/

/-- The sources that narrow to a destination: those 2 or 4 times as wide. -/
def narrowSources (d : Nat) : List Nat :=
  ((List.range 13).drop 1).filter fun t => tagBits t == 2 * tagBits d || tagBits t == 4 * tagBits d

def vnarrowRes (emu : Bool) (o : VCv) (w : Word) (s : State) : Res :=
  let t := s.vtagOf o.vs1
  let d := o.tag.val
  let f := groupSize (tagBits t) (tagBits d)
  let names := groupNames o.vs1 f
  .checked ([needCtx s w] ++ needV s (names.map fun j => (j, o.b1)) ++ [needVd s [o.vd], groupAligned o.vs1 f w,
      cvtTag s (narrowSources d) emu d o.vs1] ++ names.map (sameTag s t t) ++ [destTag s o.qp (elemsOf d) d o.vd])
    (.done (s.fpWrite (convVA o) d fun i => cvtElem t d s.vrm o.sat (s.groupElem o.vs1 f t i)))
def execVnarrow (o : VCv) (s : State) : Host.Outcome State Fault Refusal := (vnarrowRes false o (wordOf (.vnarrow o)) s).finish s

/-! ### vtag (R130) -/

def vtagRes (emu : Bool) (o : VCv) (w : Word) (s : State) : Res :=
  let d := o.tag.val
  .checked (vaPre s (convVA o) w false ++ [needTag s byteTags emu o.vs1,
      (if isEmulated d && !emu then some (.emulate (formatVal 0 (s.vtagOf o.vs1) (s.vreg o.vs1))) else none),
      destTag s o.qp (elemsOf d) d o.vd])
    (.done (s.vwrite (convVA o) d fun i => s.el d o.vs1 i))
def execVtag (o : VCv) (s : State) : Host.Outcome State Fault Refusal := (vtagRes false o (wordOf (.vtag o)) s).finish s

end Sys2Proof.Machine
end

