-- ==== Sys2Proof/Machine/VecRed.lean ====
section
/-! DEFINITION. Reductions and scans (R68, R138 to R142), and the permutes of major VC (R116 to R118). -/
namespace Sys2Proof.Machine

/-! ### The tree (R68) -/

/-- Combines neighbours; an absent child passes the other one up. -/
def treeLevel (f : Nat → Nat → FRes) : List (Option Nat) → List (Option Nat) × Nat
  | a :: b :: t =>
    let (l, fl) := treeLevel f t
    match a, b with
    | some x, some y => let r := f x y; (some r.bits :: l, orFlags r.flags fl)
    | some x, none => (some x :: l, fl)
    | none, y => (y :: l, fl)
  | l => (l, 0)

/-- The root of the tree and its flags, after a number of levels. -/
def treeRoot (f : Nat → Nat → FRes) : Nat → List (Option Nat) → Option Nat × Nat
  | 0, l => (l.head?.bind id, 0)
  | n + 1, l =>
    let (l', fl) := treeLevel f l
    let (r, fl') := treeRoot f n l'
    (r, orFlags fl fl')

/-- Tags of the reductions' sources. -/
def redTags : List Nat := fpTags ++ intTags

/-- The reduced elements in place, absent where inactive; `g` prepares an element. -/
def redElems (s : State) (o : VA) (t : Nat) (g : Nat → Nat) : List (Option Nat) :=
  (List.range (elemsOf t)).map fun i => if s.active o.qp i then some (g (s.el t o.vs1 i)) else none

/-- R139, R141: invalid for a signalling NaN among the reduced elements. -/
def redSnan (s : State) (o : VA) (t : Nat) : Nat :=
  if isFpTag t && (s.actives o.qp (elemsOf t)).any fun i => isSnan t (s.el t o.vs1 i) then flagNV else 0

/-- R138: the destination's tag, whatever the predicate. -/
def redDest (s : State) (o : VA) (result : Nat) : Check :=
  let t := s.vtagOf o.vd
  if t == 0 || t == result then none else some (.trap causeFormat (formatVal result t (s.vreg o.vd)))

/-- R138: the result goes to element 0. -/
def redRes (result : Nat → Nat) (val : Nat → FRes) (emu : Bool) (o : VA) (w : Word) (s : State) : Res :=
  let t := s.vtagOf o.vs1
  let d := result t
  let r := val t
  .checked (vaPre s o w false ++ [needTag s redTags emu o.vs1, redDest s o d])
    (.done ((s.vset o.vd (setElem d (s.vget o.vd) 0 r.bits) d).raise r.flags))

/-- The FP32 bits of an element of a floating-point tag. -/
def widen32 (t b : Nat) : Nat := if t == 1 then b else (cvtElem t 1 .rne false b).bits

def redsumVal (s : State) (o : VA) (t : Nat) : FRes :=
  if isIntTag t then
    let l := redElems s o t fun b => wrapInt 7 (intValue t b)
    ⟨((treeRoot (fun a b => ⟨(a + b) % 2 ^ 32, 0⟩) 10 l).1).getD 0, 0⟩
  else
    let (r, fl) := treeRoot (fpAdd 1 s.vrm) 10 (redElems s o t (widen32 t))
    ⟨r.getD 0, orFlags fl (redSnan s o t)⟩

def vredsumRes (emu : Bool) (o : VA) (w : Word) (s : State) : Res :=
  redRes (fun t => if isIntTag t then 7 else 1) (redsumVal s o) emu o w s
def execVredsum (o : VA) (s : State) : Host.Outcome State Fault Refusal := (vredsumRes false o (wordOf (.vredsum o)) s).finish s

/-- R140: the result with no reduced element. -/
def redEmpty (wantMax : Bool) (t : Nat) : Nat :=
  if isIntTag t then intBits (tagBits t) (if wantMax then intMin t else intMax t)
  else if hasInf t then withSign t wantMax (infBits t)
  else withSign t wantMax (maxFinite t)

def redPick (wantMax : Bool) (s : State) (o : VA) (t : Nat) : FRes :=
  if isIntTag t then
    let f := fun a b => (⟨if wantMax == decide (intValue t a < intValue t b) then b else a, 0⟩ : FRes)
    let g := fun a b => if intValue t a == intValue t b then (⟨a, 0⟩ : FRes) else f a b
    ⟨((treeRoot g 10 (redElems s o t id)).1).getD (redEmpty wantMax t), 0⟩
  else if isEmulated t then
    let (r, fl) := treeRoot (pickNan wantMax 1) 10 (redElems s o t (widen32 t))
    let z := cvtElem 1 t s.vrm false (r.getD (redEmpty wantMax 1))
    ⟨z.bits, orFlags z.flags (orFlags fl (redSnan s o t))⟩
  else
    let (r, fl) := treeRoot (pickNan wantMax t) 10 (redElems s o t id)
    let r' := match r with
      | some b => if isNan t b then quietNan t b else b
      | none => redEmpty wantMax t
    ⟨r', orFlags fl (redSnan s o t)⟩

def vredmaxRes (emu : Bool) (o : VA) (w : Word) (s : State) : Res := redRes id (redPick true s o) emu o w s
def execVredmax (o : VA) (s : State) : Host.Outcome State Fault Refusal := (vredmaxRes false o (wordOf (.vredmax o)) s).finish s

def vredminRes (emu : Bool) (o : VA) (w : Word) (s : State) : Res := redRes id (redPick false s o) emu o w s
def execVredmin (o : VA) (s : State) : Host.Outcome State Fault Refusal := (vredminRes false o (wordOf (.vredmin o)) s).finish s

/-- R141: a key under which the greatest element wins; every NaN is above every number. -/
def argKey (t b : Nat) : Int := if isIntTag t then intValue t b else if isNan t b then 2 ^ 64 else pickKey t b

/-- R141: the lowest index of the greatest of some elements. -/
def argMax (key : Nat → Int) : List Nat → Option Nat
  | [] => none
  | i :: t =>
    match argMax key t with
    | none => some i
    | some j => some (if key j ≤ key i then i else j)

def redArg (s : State) (o : VA) (t : Nat) : FRes :=
  ⟨(argMax (fun i => argKey t (s.el t o.vs1 i)) (s.actives o.qp (elemsOf t))).getD (2 ^ 32 - 1), redSnan s o t⟩

def vredargmaxRes (emu : Bool) (o : VA) (w : Word) (s : State) : Res := redRes (fun _ => 7) (redArg s o) emu o w s
def execVredargmax (o : VA) (s : State) : Host.Outcome State Fault Refusal :=
  (vredargmaxRes false o (wordOf (.vredargmax o)) s).finish s

/-! ### vscan (R142) -/

/-- The running sums over a list of elements with their indices, and the flags. -/
def scanFrom (add : Nat → Nat → FRes) : Option Nat → List (Nat × Nat) → List (Nat × Nat) × Nat
  | _, [] => ([], 0)
  | none, (i, x) :: t =>
    let (l, fl) := scanFrom add (some x) t
    ((i, x) :: l, fl)
  | some a, (i, x) :: t =>
    let r := add a x
    let (l, fl) := scanFrom add (some r.bits) t
    ((i, r.bits) :: l, orFlags r.flags fl)

/-- The prefix sums of the active elements under the tag's rules; emulated tags are summed in FP32 (R62). -/
def scanSums (s : State) (o : VA) (t : Nat) : List (Nat × Nat) × Nat :=
  let l := (s.actives o.qp (elemsOf t)).map fun i => (i, s.el t o.vs1 i)
  if isIntTag t then scanFrom (fun a b => ⟨wrap2 (· + ·) t a b, 0⟩) none l
  else if isEmulated t then
    let (r, fl) := scanFrom (fpAdd 1 s.vrm) none (l.map fun e => (e.1, widen32 t e.2))
    let z := r.map fun e => (e.1, cvtElem 1 t s.vrm false e.2)
    (z.map fun e => (e.1, e.2.bits), z.foldl (fun a e => orFlags a e.2.flags) (orFlags fl (redSnan s o t)))
  else scanFrom (fpAdd t s.vrm) none l

/-- R138. `vscan` writes every active element: where all elements are active no other tag of vd stands in the way, as R32 has it of
every word (DEDUCED, log entry 75). -/
def vscanRes (emu : Bool) (o : VA) (w : Word) (s : State) : Res :=
  let t := s.vtagOf o.vs1
  let (l, fl) := scanSums s o t
  .checked (vaPre s o w false ++ [needTag s redTags emu o.vs1, destTag s o.qp (elemsOf t) t o.vd])
    (.done ((s.vset o.vd (l.foldl (fun v e => setElem t v e.1 e.2) (s.vget o.vd)) t).raise fl))
def execVscan (o : VA) (s : State) : Host.Outcome State Fault Refusal := (vscanRes false o (wordOf (.vscan o)) s).finish s

/-! ### Permute, select, compress and expand (R116 to R118) -/

def vpermRes (o : VA) (w : Word) (s : State) : Res :=
  let t := s.vtagOf o.vs1
  let n := elemsOf t
  let f := if tagBits t == 4 then 1 else indexRegs t
  let pick := fun i =>
    let x := sextN 32 (s.groupElem o.vs2 f 7 i)
    if 0 ≤ x && x < (n : Int) then s.el t o.vs1 x.toNat else 0
  .checked ([needCtx s w] ++ needV s ((o.vs1, o.b1) :: (groupNames o.vs2 f).map fun j => (j, o.b2)) ++ [needVd s [o.vd],
      groupAligned o.vs2 f w, trapIf (tagBits t == 4 || 13 < t) causeFormat (formatVal 0 t (s.vreg o.vs1))] ++ needIndexTags s o.vs2 f ++
      [destTag s o.qp n t o.vd])
    (.done (s.vwrite o t pick))
def execVperm (o : VA) (s : State) : Host.Outcome State Fault Refusal := (vpermRes o (wordOf (.vperm o)) s).finish s

/-- R117: the old bits of vd select between the sources. -/
def vselRes : VA → Word → State → Res := intRes byteTags false fun t a b m => (a &&& m) ||| (b &&& (2 ^ tagBits t - 1 - m))
def execVsel (o : VA) (s : State) : Host.Outcome State Fault Refusal := (vselRes o (wordOf (.vsel o)) s).finish s

/-- R118: the active elements packed from position 0. -/
def vcompressRes (o : VA) (w : Word) (s : State) : Res :=
  let t := s.vtagOf o.vs1
  let l := s.actives o.qp (elemsOf t)
  .checked (vaPre s o w false ++ vaTags s byteTags false o o.vs1 false false t (elemsOf t))
    (.done (s.vset o.vd (l.zipIdx.foldl (fun v e => setElem t v e.2 (s.el t o.vs1 e.1)) (s.vget o.vd)) t))
def execVcompress (o : VA) (s : State) : Host.Outcome State Fault Refusal := (vcompressRes o (wordOf (.vcompress o)) s).finish s

/-- R118: packed elements spread over the active positions. -/
def vexpandRes (o : VA) (w : Word) (s : State) : Res :=
  let t := s.vtagOf o.vs1
  let l := s.actives o.qp (elemsOf t)
  .checked (vaPre s o w false ++ vaTags s byteTags false o o.vs1 false false t (elemsOf t))
    (.done (s.vset o.vd (l.zipIdx.foldl (fun v e => setElem t v e.1 (s.el t o.vs1 e.2)) (s.vget o.vd)) t))
def execVexpand (o : VA) (s : State) : Host.Outcome State Fault Refusal := (vexpandRes o (wordOf (.vexpand o)) s).finish s

end Sys2Proof.Machine
end

