-- ==== Sys2Proof/Machine/Events.lean ====
section
/-! DEFINITION. Events of the queues and engines: acceptance, performing and return of accesses (R234, R250), publication,
fetch and completion of commands (R47, R91, R143), signals (R146), the array lease (R225, R226), the Ride (R227) and the
emulation service (R62). An event whose rule does not allow it now changes nothing. -/
namespace Sys2Proof.Machine

/-! ### Accesses -/

def execAccessAccept (g k : Nat) (r : RemoteAnswer) (s : State) : Host.Outcome State Fault Refusal :=
  .next (acceptAccess s g k r)

def execAccessPerform (g k idx el : Nat) (c : PerformChoice) (s : State) : Host.Outcome State Fault Refusal :=
  .next (performIn s g k idx el c none)

def execLoadReturn (g k idx : Nat) (s : State) : Host.Outcome State Fault Refusal := .next (returnLoad s g k idx)

def execVectorDestFull (g k idx : Nat) (s : State) : Host.Outcome State Fault Refusal := .next (fillVector s g k idx)

def execAcknowledgement (g k idx : Nat) (s : State) : Host.Outcome State Fault Refusal := .next (acknowledge s g k idx)

/-- In a re-execution claims are served only as the recording tells (R327). -/
def execMboxClaimServed (g mb : Nat) (s : State) : Host.Outcome State Fault Refusal :=
  .next (if s.replaying g then s else serveClaim s g mb)

/-- The choices of a window store: nothing is open. -/
def noChoice : PerformChoice := ⟨false, [], []⟩

def execMailboxWindowStore (g k idx : Nat) (s : State) : Host.Outcome State Fault Refusal :=
  .next (performIn s g k idx 0 noChoice (some .mbox))

def execTokenWindowStore (g k idx : Nat) (s : State) : Host.Outcome State Fault Refusal :=
  .next (performIn s g k idx 0 noChoice (some .tok))

def execReadyFlagWrite (g k idx el : Nat) (s : State) : Host.Outcome State Fault Refusal :=
  .next (performIn s g k idx el noChoice (some .flag))

def execAccumulateOnWrite (g k idx el : Nat) (s : State) : Host.Outcome State Fault Refusal :=
  .next (performIn s g k idx el noChoice (some .iacc))

def execVregWindowWrite (g k idx el : Nat) (s : State) : Host.Outcome State Fault Refusal :=
  .next (performIn s g k idx el noChoice (some .vreg))

/-! ### Commands -/

def execCommandPublish (g k idx : Nat) (s : State) : Host.Outcome State Fault Refusal := .next (publishCommand s g k idx)

/-- Whether an `smma` will be interpreted over a tile that another package holds, whose non-zeros are not known before it fires. -/
def farStructure (s : State) (g : Nat) (c : Cmd) (w : Nat) : Bool :=
  let l := layOf c (spLys w)
  interprets s g c w && l.win == 3 && (Lay.soundPlaces s g l).any fun p => ownerPkg (BitVec.ofInt 64 p.addr) != s.pkgid

/-- R224: what a command needs of the shared array. An `smma` over a structure that is not known yet is taken to need it. -/
def arrayUse (s : State) (g : Nat) (c : Cmd) (w : Nat) : ArrayUse :=
  match cwOpcode w with
  | 0x00 | 0x01 | 0x02 => useMNK c w
  | 0x03 => useGrp s g c w
  | 0x04 => if farStructure s g c w && mxM c w != 0 && mxN c w != 0 then .array else useSmma s g ⟨[], []⟩ c w
  | 0x09 | 0x0a => .edge
  | _ => .neither

/-- R225: a sequencer whose command needs the lease makes an implicit request. -/
def Cluster.requestImplicit (c : Cluster) (w : Nat × Nat) : Cluster :=
  if c.holder == some w || c.waiters.contains w then c
  else { c with waiters := c.waiters ++ [w], implicits := c.implicits ++ [w] }

/-- R47, R313: the status a word has at its fetch: malformed, or from a poisoned slot. -/
def fetchStatus (s : State) (g : Nat) (q : Queue) (c : Cmd) (w : Nat) : Option Status :=
  if poisoned s (.win g c.slot) 32 then some ⟨stMemory, 0, c.slot / 64⟩
  else if malformed q.kind c.byTail w then some ⟨stMalformed, 0, 0⟩ else none

/-- R225, R100: a command at its fetch point that needs the lease makes an implicit request. -/
def State.askLease (s : State) (g : Nat) (c : Cmd) (w : Nat) : State :=
  if arrayUse s g c w != .neither && !beingSaved s g && (s.seqAt g c.by_).leased.isNone then s.modCluster (clusterOfCore g) fun cl => cl.requestImplicit (g, c.by_) else s

/-- COMMAND_FETCH: the engine reads the word at the fetch point and checks it; a word that needs the lease requests it,
and while it stands there requests it again. -/
def fetchCmd (s : State) (g q : Nat) : State :=
  let qu := (s.core g).queue q
  match headCmd qu with
  | none => s
  | some c =>
    if s.halted then s
    else if c.word.isSome then s.askLease g c (cmdWord s g c)
    else
      let w := spadNat s g c.slot 32
      let st := fetchStatus s g qu c w
      let s := s.modCore g fun co => co.setQueue q ((co.queue q).modCmd c.num fun d =>
        { d with word := some (BitVec.ofNat 256 w), fired := st.isSome, st := st })
      if st.isNone then s.askLease g c w else s

def execCommandFetch (g q : Nat) (s : State) : Host.Outcome State Fault Refusal := .next (fetchCmd s g q)

/-- R145, R146, R193: the signal fires locally or, with rsig and a remote destination, in the clusters that received the
command's remote writes alone; `sig` names its cluster itself. A command that did not fire, and one of a collective queue, signals
locally (R47, R172). The writes are acknowledged by then (R143, R287). In a re-execution no other cluster is signalled (R327). -/
def State.signal (s : State) (g q : Nat) (c : Cmd) (err : Bool) : State :=
  let w := (c.word.getD 0).toNat
  let slot := cwSignal w
  let named := [256 * bitsOf w 219 208 + bitsOf w 207 200]
  let dests := if cwOpcode w == 0xc2 then named else c.clusters
  if slot == 0 then s
  else if cwRsig w && c.remote then
    let dests := dests.filter fun x => !s.replaying g || x == globalCluster s.pkgid g
    let here := (dests.filter fun x => x / 256 == s.pkgid).map fun x => (x % 256, slot, err)
    let away := (dests.filter fun x => x / 256 != s.pkgid).map fun x =>
      (⟨x / 256, x % 256 / 64, 0, .signal, leBytes 4 (c.asid * 2 ^ 24 + x % 256 * 2 ^ 16 + slot * 2 ^ 8 + if err then 1 else 0)⟩ : Sent)
    (away.foldl State.send { s with remoteSignals := s.remoteSignals ++ here }).track s.outbox.length g (some (q, c.num))
  else s.putToken (clusterOfCore g) slot true err (some g)

/-- R195: whether an opcode is index-engine or sparse work. -/
def isSparseOp (op : Nat) : Bool := [0x04, 0x21, 0x22, 0x23, 0x40, 0x41].contains op

/-- R268: the open region of a stopped sequencer whose index-engine or sparse command completes only now is to be thrown back. -/
def Seq.doom (q : Seq) : Seq := if q.stopped then { q with region := q.region.map fun r => { r with doomed := true } } else q

/-- COMMAND_COMPLETION: the oldest command of a queue, when it has executed and its writes to other packages are acknowledged, publishes
its status record, its completion word and its signal, in that order. -/
def completeCmd (s : State) (g q : Nat) : State :=
  let qu := (s.core g).queue q
  match qu.cmds with
  | [] => s
  | c :: rest =>
    match c.st with
    | none => s
    | some st =>
      if s.owes g (q, c.num) then s
      else
      let slot := cwStatus (c.word.getD 0).toNat
      let s := if bitOf slot 31 then s.writeWin (.engine g c.by_) g (16 * bitsOf slot 15 0) (statusRecord c.num st) else s
      let s := s.modCore g fun co => co.setQueue q { co.queue q with cmds := rest, comp := c.num }
      let s := if isSparseOp (cwOpcode (c.word.getD 0).toNat) then s.modSeqAt g c.by_ Seq.doom else s
      s.signal g q c st.isError

def execCommandCompletion (g q : Nat) (s : State) : Host.Outcome State Fault Refusal :=
  .next ((completeCmd s g q).sidesSince s (some (g, q)))

/-- REMOTE_SIGNAL (R146): a signal reaches a receiving cluster. -/
def deliverSignal (s : State) (i : Nat) : State :=
  match s.remoteSignals[i]? with
  | none => s
  | some (cl, slot, err) =>
    { s.putToken cl slot true err none with remoteSignals := s.remoteSignals.eraseIdx i }

def execRemoteSignal (i : Nat) (s : State) : Host.Outcome State Fault Refusal := .next (deliverSignal s i)

/-! ### Control commands (R193, R194) -/

/-- R193: completes at once. -/
def runFence (s : State) (_ : Cmd) (_ : Nat) : Plan := ⟨[], ⟨s, stOk, [], none⟩⟩

def execCmdFence (g q : Nat) (s : State) : Host.Outcome State Fault Refusal :=
  .next (fireCmd s g q [0xc0] (fun _ _ => .neither) (runFence s))

/-- R194: at fetch the engine completes the word; the fetch point moves with it, since each command names its slot. -/
def runChain (s : State) (_ : Cmd) (_ : Nat) : Plan := ⟨[], ⟨s, stOk, [], none⟩⟩

def execChainLink (g q : Nat) (s : State) : Host.Outcome State Fault Refusal :=
  .next (fireCmd s g q [0xc1] (fun _ _ => .neither) (runChain s))

/-- R193: a signal, in the cluster it names when rsig is set (`State.signal`). -/
def runSig (s : State) (_ : Cmd) (_ : Nat) : Plan := ⟨[], ⟨s, stOk, [], none⟩⟩

def execSig (g q : Nat) (s : State) : Host.Outcome State Fault Refusal :=
  .next (fireCmd s g q [0xc2] (fun _ _ => .neither) (runSig s) fun _ w => cwRsig w)

/-! ### The array lease (R225, R226) -/

/-- What a command needs of the array: once it has fired, what it needed then. -/
def Cmd.useNow (s : State) (g : Nat) (c : Cmd) : ArrayUse := if c.fired then c.use else arrayUse s g c (cmdWord s g c)

/-- The commands of a core published by sequencer k that need the lease, with their queues. -/
def leaseCmds (s : State) (g k : Nat) : List (Queue × Cmd) :=
  (List.range 16).flatMap fun i =>
    let q := (s.core g).queue i
    (q.cmds.filter fun c => c.by_ == k && c.useNow s g != .neither).map fun c => (q, c)

/-- A lease-needing command of the sequencer is running. -/
def leaseRunning (s : State) (w : Nat × Nat) : Bool := (leaseCmds s w.1 w.2).any fun x => x.2.fired

/-- One waits at a fetch point. -/
def leaseWaiting (s : State) (w : Nat × Nat) : Bool :=
  (leaseCmds s w.1 w.2).any fun x => !x.2.fired && x.2.word.isSome && (headCmd x.1).map (·.num) == some x.2.num

/-- R226: the next holder: the first waiting core after the last holder's, and there the first waiting sequencer after
the one last served. -/
def nextHolder (cl : Nat) (c : Cluster) : Option (Nat × Nat) :=
  let cores := (List.range 4).map fun i => coreOfCluster cl ((c.lastCore + 1 + i) % 4)
  match cores.find? fun g => c.waiters.any fun w => w.1 == g with
  | none => none
  | some g =>
    let last := c.lastServed[coreIndex g]'(by unfold coreIndex; omega)
    ((List.range 8).map fun i => (g, (last + 1 + i) % 8)).find? fun w => c.waiters.contains w

/-- A term begins for a holder. -/
def Cluster.grant (c : Cluster) (w : Nat × Nat) : Cluster :=
  { c with holder := some w, implicitLease := c.implicits.contains w, giveUp := false, termCmds := 0, termCycles := 0,
           waiters := c.waiters.filter (fun x => x != w), implicits := c.implicits.filter (fun x => x != w),
           lastCore := coreIndex w.1,
           lastServed := c.lastServed.set (coreIndex w.1) w.2 (by unfold coreIndex; omega) }

/-- LEASE_GRANT. A re-executing core is granted it as the recording tells alone (R327). -/
def grantLease (s : State) (cl : Nat) : State :=
  let c := s.cluster cl
  match c.holder, nextHolder cl { c with waiters := c.waiters.filter fun w => !s.replaying w.1 } with
  | none, some w => (s.record w.1 3 w.2 cl (if c.implicits.contains w then 3 else 0) 0).setCluster cl (c.grant w)
  | _, _ => s

def execLeaseGrant (cl : Nat) (s : State) : Host.Outcome State Fault Refusal := .next (grantLease s cl)

/-- The commands of a core that sequencer k published. -/
def ownCmds (s : State) (g k : Nat) : List Cmd :=
  (List.range 16).flatMap fun i => ((s.core g).queue i).cmds.filter fun c => c.by_ == k

/-- Nothing of a sequencer is outstanding. -/
def Seq.drained (q : Seq) : Bool := q.queue.isEmpty && q.pending.isNone && q.emul.isNone

/-- R226: whether a holder has been stopped by a pre-emption and its fired commands are complete, but for those that are thrown back
(R268). Its queued accesses come first: a publication may wait for room that only its own commands make. -/
def stoppedHolder (s : State) (w : Nat × Nat) : Bool :=
  (s.seqAt w.1 w.2).stopped && (s.seqAt w.1 w.2).drained && ((s.nodeOf w.1).any fun n => n.preemptAt.isSome) &&
    (ownCmds s w.1 w.2).all fun c => !c.fired || isSparseOp (cwOpcode (cmdWord s w.1 c))

/-- R226: its lease is given up, which its save will tell. -/
def State.stopHolder (s : State) (cl : Nat) (w : Nat × Nat) : State :=
  let c := s.cluster cl
  (s.modSeqAt w.1 w.2 fun q => { q with leased := if c.giveUp then none else some c.implicitLease }).setCluster cl
    { c with holder := none, giveUp := false, implicitLease := false }

/-- LEASE_TERM_END: the 16th command or 4,096 cycles of array or edge time end a term; so do giving the lease up (R100), and for
an implicit lease having no command left for it (R225). With others waiting the holder loses the lease and requests it again. -/
def endTerm (s : State) (cl : Nat) : State :=
  let c := s.cluster cl
  match c.holder with
  | none => s
  | some w =>
    if stoppedHolder s w then s.stopHolder cl w
    else if leaseRunning s w then s
    else if c.giveUp then s.setCluster cl { c with holder := none, giveUp := false, implicitLease := false }
    else if c.implicitLease && !leaseWaiting s w then s.setCluster cl { c with holder := none, implicitLease := false }
    else if 16 ≤ c.termCmds || 4096 ≤ c.termCycles then
      if c.waiters.isEmpty then s.setCluster cl { c with termCmds := 0, termCycles := 0 }
      else
        s.setCluster cl { c with holder := none, implicitLease := false, waiters := c.waiters ++ [w],
                                 implicits := if c.implicitLease then c.implicits ++ [w] else c.implicits }
    else s

def execLeaseTermEnd (cl : Nat) (s : State) : Host.Outcome State Fault Refusal := .next (endTerm s cl)

/-! ### The Ride (R212, R227) -/

/-- R212: the Ride tokens of a die: the demands of the resident nodes, and at least one. -/
def rideDemand (s : State) (d : Nat) : Nat :=
  max 1 ((s.nodes.filter fun n => n.placed && (List.range nCores).any fun g =>
    dieOfCore g == d && (s.core g).node == some (n.pool, n.idx)).map (·.power)).sum

/-- Clusters of a die that hold a token. -/
def rideHeld (s : State) (d : Nat) : Nat := ((List.range 64).filter fun i => (s.cluster (64 * d + i)).ride).length

/-- The stop a free token has reached. -/
def RideToken.at_ (t : RideToken) (now : Nat) : Nat := (t.stop + (now - t.since)) % 64

/-- R227: the token count follows the demand: new tokens enter at the lowest stop; when it falls, as many leave, each at the next
stop it reaches. -/
def State.adjustRide (s : State) (d : Nat) : State :=
  let x := s.die d
  let have_ := rideHeld s d + x.ride.length
  let want := rideDemand s d
  s.setDie d (if have_ ≤ want then { x with ride := x.ride ++ List.replicate (want - have_) { since := s.cycle }, rideOver := 0 }
    else { x with rideOver := have_ - want })

/-- At the end of a cycle every free token reaches its next stop, where those that are too many leave. -/
def Die.passStops (x : Die) : Die := { x with ride := x.ride.drop x.rideOver, rideOver := x.rideOver - x.ride.length }

/-- Whether a cluster's array has a command that waits only for a token. -/
def rideWanted (s : State) (cl : Nat) : Bool :=
  let c := s.cluster cl
  c.termCmds < 16 && c.termCycles < 4096 && !c.giveUp &&
    match c.holder with
    | none => false
    | some w => (leaseCmds s w.1 w.2).any fun x =>
        !x.2.fired && (headCmd x.1).map (·.num) == some x.2.num &&
          match x.2.word with
          | none => false
          | some v => arrayUse s w.1 x.2 v.toNat == .array && tokensPresent c v.toNat && footprintsAdmit s w.1 x.2.stamp v.toNat

/-- Whether an array command of the cluster runs. -/
def rideRunning (s : State) (cl : Nat) : Bool :=
  (List.range 4).any fun i =>
    let g := coreOfCluster cl i
    (List.range 16).any fun j => ((s.core g).queue j).cmds.any fun c => c.fired && c.use == .array && c.patWait.isNone

/-- RIDE_TOKEN_TAKE. -/
def takeRide (s : State) (cl : Nat) : State :=
  let d := cl / 64
  let here := fun (t : RideToken) =>
    t.at_ s.cycle == cl % 64 && !(t.freedBy == some (cl % 64) && s.cycle - t.since < 64)
  match (s.die d).ride.findIdx? here with
  | some i =>
    if (s.cluster cl).ride || !rideWanted s cl then s
    else
      let s := ((List.range 4).map (coreOfCluster cl)).foldl (fun (t : State) g => t.record g 3 0 cl 2 0) s
      (s.setDie d { s.die d with ride := (s.die d).ride.eraseIdx i }).modCluster cl fun c =>
        { c with ride := true, rideCycles := 0, rideDone := false }
  | none => s

def execRideTokenTake (cl : Nat) (s : State) : Host.Outcome State Fault Refusal := .next (takeRide s cl)

/-- A cluster's token is freed at its stop; it leaves when the count has fallen. -/
def State.freeRide (s : State) (cl : Nat) : State :=
  let d := cl / 64
  let s := s.modCluster cl fun c => { c with ride := false, rideDone := false }
  let x := s.die d
  s.setDie d (if x.rideOver == 0 then { x with ride := x.ride ++ [⟨cl % 64, s.cycle, some (cl % 64)⟩] }
    else { x with rideOver := x.rideOver - 1 })

def execRideTokenFree (cl : Nat) (s : State) : Host.Outcome State Fault Refusal :=
  .next (if (s.cluster cl).ride && !rideRunning s cl && !rideWanted s cl then s.freeRide cl else s)

/-- The Ride's hold limit at one cluster: no further array command fires, and the token is freed once the running one completes. -/
def limitRide (s : State) (cl : Nat) : State :=
  let c := s.cluster cl
  let waiting := (List.range 64).any fun i => 64 * (cl / 64) + i != cl && rideWanted s (64 * (cl / 64) + i)
  if !c.ride || !(c.rideDone || (4096 ≤ c.rideCycles && waiting)) then s
  else if rideRunning s cl then s.setCluster cl { c with rideDone := true }
  else s.freeRide cl

/-- RIDE_HOLD_LIMIT. -/
def execRideHoldLimit (cl : Nat) (s : State) : Host.Outcome State Fault Refusal := .next (limitRide s cl)

/-- R217, R225 to R227: what the rules of the lease and the Ride let no cycle put off: a term that is over ends, a waiting
sequencer is granted a free lease, a token that is not wanted or has been held for its limit is freed, and one at the stop of a
cluster that waits for it is taken. -/
def settleArray (s : State) (cl : Nat) : State :=
  let s := grantLease (endTerm s cl) cl
  let s := limitRide s cl
  takeRide (if (s.cluster cl).ride && !rideRunning s cl && !rideWanted s cl then s.freeRide cl else s) cl

/-- Whether a command of a sequencer uses the array or its edge now: one that waits for its program does not. -/
def leaseBusy (s : State) (w : Nat × Nat) : Bool := (leaseCmds s w.1 w.2).any fun x => x.2.fired && x.2.patWait.isNone

/-- A cycle's array and edge time (R225, R227). -/
def Cluster.countCycle (s : State) (cl : Nat) (c : Cluster) : Cluster :=
  { c with termCycles := if c.holder.any (leaseBusy s) then c.termCycles + 1 else c.termCycles,
           rideCycles := if c.ride && rideRunning s cl then c.rideCycles + 1 else c.rideCycles }

/-- The clusters and dies at the end of a cycle. -/
def State.settleArrays (s : State) : State :=
  let s := s.clusters.foldl (fun t c => settleArray t c.1) s
  { s with clusters := s.clusters.map fun c => (c.1, c.2.countCycle s c.1), dies := s.dies.map fun d => (d.1, d.2.passStops) }

/-! ### Emulation (R62) -/

/-- R62: the word's own meaning, run as Derdengo runs it; none for a word that is never emulated. -/
def emulated (i : Instr) (s : State) : Option Res :=
  let w := wordOf i
  match i with
  | .vfadd o => some (vfaddRes true o w s)
  | .vfsub o => some (vfsubRes true o w s)
  | .vfmul o => some (vfmulRes true o w s)
  | .vfma o => some (vfmaRes true o w s)
  | .vfms o => some (vfmsRes true o w s)
  | .vfdiv o => some (vfdivRes true o w s)
  | .vfmin o => some (vfminRes true o w s)
  | .vfmax o => some (vfmaxRes true o w s)
  | .vfminnum o => some (vfminnumRes true o w s)
  | .vfmaxnum o => some (vfmaxnumRes true o w s)
  | .vfsqrt o => some (vfsqrtRes true o w s)
  | .vrnd o => some (vrndRes true o w s)
  | .vfexp2 o => some (vfexp2Res true o w s)
  | .vflog2 o => some (vflog2Res true o w s)
  | .vfrcp o => some (vfrcpRes true o w s)
  | .vfrsqrt o => some (vfrsqrtRes true o w s)
  | .vgetexp o => some (vgetexpRes true o w s)
  | .vgetmant o => some (vgetmantRes true o w s)
  | .vscale o => some (vscaleRes true o w s)
  | .vfmaX o => some (vfmaXRes true o w s)
  | .vfmulX o => some (vfmulXRes true o w s)
  | .vfsgnj o => some (vfsgnjRes true o w s)
  | .vfsgnjn o => some (vfsgnjnRes true o w s)
  | .vfsgnjx o => some (vfsgnjxRes true o w s)
  | .vfabs o => some (vfabsRes true o w s)
  | .vfneg o => some (vfnegRes true o w s)
  | .vcvt o => some (vcvtRes true o w s)
  | .vcvtRz o => some (vcvtRzRes true o w s)
  | .vwiden o => some (vwidenRes true o w s)
  | .vnarrow o => some (vnarrowRes true o w s)
  | .vtag o => some (vtagRes true o w s)
  | .vredsum o => some (vredsumRes true o w s)
  | .vredmax o => some (vredmaxRes true o w s)
  | .vredmin o => some (vredminRes true o w s)
  | .vredargmax o => some (vredargmaxRes true o w s)
  | .vscan o => some (vscanRes true o w s)
  | .vcmpEq o => some (vcmpRes .eq true o w s)
  | .vcmpNe o => some (vcmpRes .ne true o w s)
  | .vcmpLt o => some (vcmpRes .lt true o w s)
  | .vcmpLe o => some (vcmpRes .le true o w s)
  | .vcmpUnord o => some (vcmpRes .unord true o w s)
  | _ => none

/-- EMULATION_SERVICE: the word that a sequencer which waits on Derdengo issued takes its effect, and the sequencer goes on. -/
def serveEmulation (s : State) (g k : Nat) : Host.Outcome State Fault Refusal :=
  let q := s.seqAt g k
  match q.emul with
  | some _ =>
    let w := q.word
    let t : State := { (s.setSeqAt g k { q with emul := none }) with cur := (g, k) }
    match decode w with
    | .ok i =>
      match emulated i t with
      | some r =>
        match r.finish t with
        | .next u => .next { u.awaitCycle g k with cur := s.cur }
        | x => x
      | none => .next s
    | .error _ => .next s
  | none => .next s

def execEmulationService (g k : Nat) (s : State) : Host.Outcome State Fault Refusal := serveEmulation s g k

end Sys2Proof.Machine
end

