-- ==== Sys2Proof/Machine/Epilogue.lean ====
section
/-! DEFINITION. The epilogue at the array edge (R162, R163) and the random numbers of the sampling unit (R294). -/
namespace Sys2Proof.Machine

/-! ### Random numbers (R294) -/

/-- One round of Philox-4x32. -/
def philoxRound (c : Nat × Nat × Nat × Nat) (k0 k1 : Nat) : Nat × Nat × Nat × Nat :=
  let (c0, c1, c2, c3) := c
  let p0 := 0xD2511F53 * c0
  let p1 := 0xCD9E8D57 * c2
  ((p1 / 2 ^ 32) ^^^ c1 ^^^ k0, p1 % 2 ^ 32, (p0 / 2 ^ 32) ^^^ c3 ^^^ k1, p0 % 2 ^ 32)

/-- The rounds that are left. -/
def philoxRounds : Nat → Nat × Nat × Nat × Nat → Nat → Nat → Nat × Nat × Nat × Nat
  | 0, c, _, _ => c
  | n + 1, c, k0, k1 =>
    philoxRounds n (philoxRound c k0 k1) ((k0 + 0x9E3779B9) % 2 ^ 32) ((k1 + 0xBB67AE85) % 2 ^ 32)

/-- philox4x32_10. -/
def philox (key : Nat) (c : Nat × Nat × Nat × Nat) : Nat × Nat × Nat × Nat :=
  philoxRounds 10 c (key % 2 ^ 32) (key / 2 ^ 32 % 2 ^ 32)

/-- R163: the uniform of a generated word, an FP32 value in [2^-24, 1 − 2^-24]. -/
def uniformOf (q : Nat) : Nat := (roundTo 1 .rne false (.of false (2 * (q / 2 ^ 9) + 1) (-24))).bits

/-- The uniform of a seed and a counter. -/
def uniformAt (seed : Nat) (c : Nat × Nat × Nat × Nat) : Nat := uniformOf (philox seed c).1

/-! ### Engine arithmetic under tag 1 -/

def e32add (a b : Nat) : Nat := engAdd 1 a b
def e32mul (a b : Nat) : Nat := engMul 1 a b
def e32sub (a b : Nat) : Nat := canonical 1 (fpSub 1 .rne a b)
def e32exp2 (a : Nat) : Nat := canonical 1 (fpExp2 1 a)
def e32log2 (a : Nat) : Nat := canonical 1 (fpLog2 1 a)

/-- a < b for FP32 values, false for a NaN. -/
def e32lt (a b : Nat) : Bool := !isNan 1 a && !isNan 1 b && decide (orderKey 1 a < orderKey 1 b)

/-- −∞ and 1 in FP32, and the FP32 value nearest log2(ln 2). -/
def e32negInf : Nat := 0xFF800000
def e32one : Nat := 0x3F800000
def e32L : Nat := 0xBF075D3C

/-! ### The epilogue block and the row records (R162) -/

/-- The fields of an epilogue block. -/
structure EpiBlock where
  relu : Bool
  dsat : Bool
  dtag : Nat
  dst : Nat
  rows : Nat
  bv : Bool
  bias : Nat
  c : Nat
  a : Nat
  ok : Bool
  deriving DecidableEq, Repr

/-- Reads a block by its field map. -/
def epiBlock (b : Nat) : EpiBlock :=
  let act := bitsOf b 151 149
  let dtag := bitsOf b 147 144
  ⟨act == 1, bitOf b 148, dtag, 64 * bitsOf b 141 128, 64 * bitsOf b 109 96, bitOf b 78, 64 * bitsOf b 77 64, bitsOf b 63 32,
   bitsOf b 31 0,
   bitsOf b 511 152 == 0 && act ≤ 1 && 1 ≤ dtag && dtag ≤ 4 && bitsOf b 143 142 == 0 && bitsOf b 127 110 == 0 &&
     bitsOf b 95 79 == 0⟩

/-- A row record. -/
structure RowRec where
  seed : Nat
  step : Nat
  mz : Nat
  z : Nat
  gmax : Nat
  garg : Nat
  deriving DecidableEq, Repr

/-- Row record i of an array. -/
def rowRec (s : State) (g rows i : Nat) : RowRec :=
  let r := sideNat s g (rows + 32 * i) 32
  ⟨bitsOf r 63 0, bitsOf r 95 64, bitsOf r 159 128, bitsOf r 191 160, bitsOf r 223 192, bitsOf r 255 224⟩

/-- The bytes 16 to 31 of a row record, which the engine writes. -/
def RowRec.bytes (r : RowRec) : List Byte := leBytes 4 r.mz ++ leBytes 4 r.z ++ leBytes 4 r.gmax ++ leBytes 4 r.garg

/-! ### One row (R163) -/

/-- The scaled value y of an element. -/
def epiValue (b : EpiBlock) (c40 bias : Nat) : Nat :=
  let y := engFma 1 (engCvt 14 1 false c40) b.a bias
  if b.relu && !isNan 1 y && fpSign 1 y then 0 else y

/-- The running maximum and partition sum after a log weight. -/
def RowRec.zStep (r : RowRec) (l : Nat) : RowRec :=
  if isNan 1 l || isNan 1 r.mz then { r with mz := canonNan 1, z := canonNan 1 }
  else if l == e32negInf then r
  else if e32lt r.mz l then { r with z := e32add (e32mul r.z (e32exp2 (e32sub r.mz l))) e32one, mz := l }
  else { r with z := e32add r.z (e32exp2 (e32sub l r.mz)) }

/-- The perturbed maximum after a log weight at vocabulary index j. -/
def RowRec.gStep (r : RowRec) (l j : Nat) : RowRec :=
  let u := uniformAt r.seed (j, r.step, 0, 0)
  let v := e32sub l (e32add (e32log2 (fpNeg 1 (e32log2 u))) e32L)
  if r.garg == 0xFFFFFFFF || e32lt r.gmax v || (isNan 1 v && !isNan 1 r.gmax) then { r with gmax := v, garg := j } else r

/-- One row: the record after its values, in ascending j. -/
def epiRow (b : EpiBlock) (cb : Nat) (gum zacc : Bool) (ys : List Nat) (r : RowRec) : RowRec :=
  (ys.zipIdx.foldl (fun (r : RowRec) y =>
    let l := e32mul y.1 b.c
    let r := if zacc then r.zStep l else r
    if gum then r.gStep l ((cb + y.2) % 2 ^ 32) else r) r)

/-! ### The command -/

/-- The bias of column j. -/
def epiBias (s : State) (g : Nat) (b : EpiBlock) (j : Nat) : Nat := if b.bv then sideNat s g (b.bias + 4 * j) 4 else 0

def runAccEpi (s : State) (g : Nat) (c : Cmd) (w : Nat) : Plan :=
  let co := s.core g
  let (a, M, N, cb) := (mxAcc w, mxM c w, mxN c w, mxK c w)
  let (gum, zacc, wr) := (bitOf w 58, bitOf w 59, bitOf w 60)
  let blk := 64 * bitsOf w 228 215
  let b := epiBlock (sideNat s g blk 64)
  let wb := tagBits b.dtag / 8
  let p := rowPitch N b.dtag
  let recsBad := (List.range M).any fun i => bitsOf (sideNat s g (b.rows + 32 * i) 32) 127 96 != 0
  let ranges := [⟨2, 1280 * a, 10 * M, false⟩, byteRange 0 b.rows (32 * M) true] ++
    (if wr && N != 0 then (List.range M).map fun i => byteRange 0 (b.dst + i * p) (N * wb) true else [])
  let sides := [byteRange 0 blk 64 false, byteRange 0 b.rows (32 * M) false, byteRange 0 b.bias (if b.bv then 4 * N else 0) false]
  let ys := fun i => (List.range N).map fun j => epiValue b (accRead s g a i j) (epiBias s g b j)
  let row := fun (t : State) (i : Nat) =>
    let t := engWrite t g c.by_ 0 (b.rows + 32 * i + 16) (epiRow b cb gum zacc (ys i) (rowRec s g b.rows i)).bytes
    if wr then engWrite t g c.by_ 0 (b.dst + i * p) ((ys i).flatMap fun y => leBytes wb (engCvt 1 b.dtag b.dsat y)) else t
  .mk [failIf (128 < M) stShape M, failIf (128 < N) stShape N, sidePlace blk 64,
      failIf (!b.ok) stMalformed 0, sidePlace b.bias (if b.bv then 4 * N else 0), sidePlace b.rows (32 * M),
      failIf recsBad stMalformed 0,
      accCheck co a, failIf (wr && N != 0 && 2 ^ 20 < b.dst + M * p) stRefused 16384,
      failIf ((co.accu a).tag != 14) stTag ((co.accu a).tag + (72 + a) * 2 ^ 8), coverCheck w ranges,
      ownPoison s g (sides ++ accReadRanges a M N)]
    ⟨(List.range M).foldl row s, stOk, [], none⟩

def execAccEpi (g q : Nat) (s : State) : Host.Outcome State Fault Refusal :=
  .next (fireCmd s g q [0x0a] (fun _ _ => .edge) (runAccEpi s g))

end Sys2Proof.Machine
end

