-- ==== Sys2Proof/Machine/Sampling.lean ====
section
/-! DEFINITION. The sampling unit (R182 to R188, R289 to R295). -/
namespace Sys2Proof.Machine

/-! ### Fields (R182) -/

def smMsk (w : Nat) : Nat := 64 * bitsOf w 255 242
def smErow (w : Nat) : Nat := 64 * bitsOf w 241 228
def smSrec (w : Nat) : Nat := 64 * bitsOf w 227 214
def smVreg (w : Nat) : Nat := bitsOf w 213 210
def smM (c : Cmd) (w : Nat) : Nat := shpVal c.sh (bitsOf w 209 205)
def smV (c : Cmd) (w : Nat) : Nat := shpVal c.sh (bitsOf w 204 200)
def smMk (w : Nat) : Bool := bitOf w 58
def smExt (w : Nat) : Bool := bitOf w 59

/-- Bytes of a row's mask. -/
def maskBytes (v : Nat) : Nat := roundUp v 512 / 8

/-- Whether row i's mask allows token j. -/
def maskAllows (s : State) (g w v i j : Nat) : Bool :=
  !smMk w || bitOf (sideNat s g (smMsk w + i * maskBytes v + j / 8) 1) (j % 8)

/-! ### A row (R184, R292) -/

/-- The key of a log weight. -/
def keyOf (l : Nat) : Nat := if l / 2 ^ 31 % 2 == 1 then 2 ^ 32 - 1 - l else l + 2 ^ 31

/-- A candidate: its token, log weight and weight. -/
structure Cand where
  j : Nat
  l : Nat
  w : Nat
  deriving DecidableEq, Repr

/-- R184's weight. -/
def weightOf (mz l : Nat) : Nat := e32exp2 (e32sub l mz)

/-- An FP32 sum from +0, in the order given. -/
def sum32 (l : List Nat) : Nat := l.foldl e32add 0

/-- A row: its candidates in ascending j, and Z. -/
structure Row where
  cand : List Cand
  z : Nat
  deriving DecidableEq, Repr

/-- A row from its logits ys, its scale c, its epilogue record and its mask. -/
def rowOf (ys : List Nat) (c : Nat) (e : RowRec) (mk : Bool) (allows : Nat → Bool) : Row :=
  let cand := ys.zipIdx.filterMap fun y =>
    let l := e32mul y.1 c
    if isNan 1 l || !allows y.2 then none else some ⟨y.2, l, weightOf e.mz l⟩
  ⟨cand, if mk then sum32 (cand.map (·.w)) else e.z⟩

/-- Rank order: descending key, ties in ascending j. -/
def Cand.before (a b : Cand) : Bool := keyOf b.l < keyOf a.l || (keyOf a.l == keyOf b.l && a.j ≤ b.j)

/-- The candidates in rank order. -/
def ranked (l : List Cand) : List Cand := l.mergeSort Cand.before

/-- Length of the shortest prefix whose running sum reaches the target; the whole list when none does. -/
def reachLen (target : Nat) : Nat → List Cand → Nat
  | _, [] => 0
  | acc, c :: t =>
    let acc := e32add acc c.w
    if !isNan 1 acc && !isNan 1 target && !e32lt acc target then 1 else 1 + reachLen target acc t

/-- R185: the kept set of a list in rank order. -/
def keptSet (l : List Cand) (target topk : Nat) : List Cand :=
  let n := reachLen target 0 l
  l.take (if topk == 0 then n else min n topk)

/-! ### Sampling records (R183) -/

/-- Sampling record i. -/
def sampRec (s : State) (g w i : Nat) : Nat := sideNat s g (smSrec w + 64 * i) 64

/-- The record with bits hi down to lo replaced. -/
def putBits (x hi lo v : Nat) : Nat :=
  x - bitsOf x hi lo * 2 ^ lo + v % 2 ^ (hi + 1 - lo) * 2 ^ lo

/-- R184: what a row with nothing to draw from becomes. -/
def emptyRow (r : Nat) : Nat := putBits (putBits (putBits r 511 480 0xFFFFFFFF) 340 336 0) 329 329 1

def recSlow (r : Nat) : Bool := bitOf r 328
def recList (r : Nat) : Nat := 64 * bitsOf r 319 306
def recC (r : Nat) : Nat := bitsOf r 223 192
def recTopp (r : Nat) : Nat := bitsOf r 191 160
def recTopk (r : Nat) : Nat := bitsOf r 255 224

/-- Whether a record breaks its field map: a Program bit that must be 0, a `topk` above 2^20, a `topp` outside (0, 1], or a flag
that the map gives no meaning. -/
def recBad (r : Nat) : Bool :=
  bitsOf r 335 330 != 0 || bitsOf r 327 320 != 0 || bitsOf r 305 256 != 0 || bitsOf r 159 0 != 0 ||
    decide (2 ^ 20 < recTopk r) || recTopp r == 0 || decide (e32one < recTopp r)

/-- The bytes of a record that the engine writes: from its flags up. -/
def recBytes (r : Nat) : List Byte := (leBytes 64 r).drop 41

/-- The first n entries of a row's list area, weighted. -/
def listEntries (s : State) (g r mz n : Nat) : List Cand :=
  (List.range (min n 1024)).map fun k =>
    let e := sideNat s g (recList r + 8 * k) 8
    ⟨e % 2 ^ 32, e / 2 ^ 32, weightOf mz (e / 2 ^ 32)⟩

/-- The bytes of list entries. -/
def entryBytes (l : List Cand) : List Byte := l.flatMap fun c => leBytes 4 c.j ++ leBytes 4 c.l

/-! ### What a command reads, and its checks (R149, R182) -/

/-- The publishing sequencer's register of uniforms. -/
def uniformReg (s : State) (g : Nat) (c : Cmd) (w : Nat) : VBits :=
  (s.seqAt g c.by_).r.v[smVreg w % 32]'(Nat.mod_lt _ (by decide))

/-- R182, R290: with ext, a command waits to fire until its register is full. -/
def uniformsReady (s : State) (g q : Nat) : Bool :=
  match headCmd ((s.core g).queue q) with
  | none => true
  | some c =>
    let w := (c.word.getD 0).toNat
    let sq := s.seqAt g c.by_
    !smExt w || !sq.r.vctx || sq.vReady ⟨smVreg w % 32, Nat.mod_lt _ (by decide)⟩

/-- Whether the word at the fetch point has a variant. -/
def headVariant (s : State) (g q v : Nat) : Bool :=
  match headCmd ((s.core g).queue q) with
  | none => false
  | some c => cwVariant (c.word.getD 0).toNat == v

/-- Element i of the register of uniforms. -/
def uniformElem (s : State) (g : Nat) (c : Cmd) (w i : Nat) : Nat := getElem 1 (uniformReg s g c w) i

/-- A uniform that is no uniform. -/
def badUniform (u : Nat) : Bool := isNan 1 u || e32lt u 0 || !e32lt u e32one

/-- The checks on external uniforms: `reads` of them at most, the elements `idx` in fact (R290); the register must hold tag 1
whatever is read. -/
def extStages (s : State) (g : Nat) (c : Cmd) (w reads : Nat) (idx : List Nat) : Stages :=
  let sq := s.seqAt g c.by_
  let tag := sq.r.vtag[smVreg w % 32]'(Nat.mod_lt _ (by decide))
  let us := idx.map (uniformElem s g c w)
  if !smExt w then []
  else
    [[], [], [], [failIf (!sq.r.vctx) stRefused (32 + smVreg w)],
     [failIf (tag != 1) stTag (tag + (32 + smVreg w) * 2 ^ 8)],
     [failIf (128 < reads) stShape reads, (us.find? badUniform).map fun u => ⟨stShape, 0, u⟩]]

/-- The checks on a logits layout of n rows. -/
def logitStages (s : State) (g : Nat) (c : Cmd) (env : RemoteEnv) (l : Lay) (n v : Nat) : Stages :=
  let ps := Lay.soundPlaces s g l
  [[l.sideShape], [l.sidePos], [], [ownPlaces (s.core g) l.win ps, refusedCheck s g c.asid l.win false env ps],
   [failIf (l.tag != 1) stTag (l.tag + (16 + l.k) * 2 ^ 8)],
   [Lay.shapeCheck s g l, failIf (ps.length != n * v) stShape (0x100 + l.k)]]

/-- The checks on side records at places, with their maps. -/
def sideStages (l : List (Nat × Nat)) (bad : Bool) : Stages :=
  [[], l.map fun x => sidePlace x.1 x.2, [failIf bad stMalformed 0], [], [], []]

/-- The limits on V and D, which come before every side record. -/
def sizeStages (v d : Nat) : Stages :=
  [[failIf (v == 0 || 2 ^ 20 < v) stShape v, failIf (d == 0 || 8 < d) stShape d], [], [], [], [], []]

/-- Rows of v values. -/
def chunkRows (v : Nat) (l : List Nat) (i : Nat) : List Nat := (l.drop (i * v)).take v

/-- What the rows of a command come to: the state with its records and lists written, and the lowest row that had
nothing to draw from. -/
structure RowsDone where
  s : State
  first : Option Nat
  deriving DecidableEq, Repr

/-- One processed row: its new record and the list area it writes; none when it keeps nothing to draw from. -/
abbrev RowFn := Nat → Nat → RowRec → Row → Option (Nat × List Byte)

/-- Rows in ascending order. `skip` tells the rows a command leaves (R185, R186). A row with no candidate is written as its command has
it, and is marked empty (R184). -/
def runRows (g k w : Nat) (old : State) (skip : Nat → Bool) (row : Nat → Nat → RowRec → Row) (f : RowFn) (acc : RowsDone)
    (i : Nat) : RowsDone :=
  let r := sampRec old g w i
  if skip r then acc
  else
    let e := rowRec old g (smErow w) i
    let x := row i r e
    let put := fun (s : State) (r : Nat) => engWrite s g k 0 (smSrec w + 64 * i + 41) (recBytes (putBits r 340 336 0))
    match f i r e x with
    | none => ⟨put acc.s (emptyRow r), acc.first.or (some i)⟩
    | some (r', list) =>
      let s := if list.isEmpty then acc.s else engWrite acc.s g k 0 (recList r) list
      if x.cand.isEmpty then ⟨put s (emptyRow r'), acc.first.or (some i)⟩ else ⟨put s r', acc.first⟩

/-- The status of a command over rows. -/
def RowsDone.fired (d : RowsDone) : Fired :=
  ⟨d.s, match d.first with
    | some i => ⟨stShape, 0, i⟩
    | none => stOk, [], none⟩

/-- A command over M rows of logits: checks, one reading of the logits, then the rows. `lists` tells the rows whose list
area it uses, `reads` the bytes it reads there, `draws` the rows that draw with a uniform. -/
def runSampling (s : State) (g : Nat) (env : RemoteEnv) (draws : Option (Nat → Nat → RowRec → Row → Bool))
    (lists skip : Nat → Bool) (reads : Nat → Nat) (f : RowFn) (c : Cmd) (w : Nat) : Plan :=
  let (M, v) := (smM c w, smV c w)
  let l := layOf c (mvFrom3 w)
  let ps := Lay.soundPlaces s g l
  let recs := (List.range M).map (sampRec s g w)
  let epis := (List.range M).map fun i => bitsOf (sideNat s g (smErow w + 32 * i) 32) 127 96
  let sides := [(smErow w, 32 * M), (smSrec w, 64 * M)] ++ (if smMk w then [(smMsk w, M * maskBytes v)] else [])
  let listAreas := (recs.filter lists).map fun r => (recList r, 8192)
  let ranges := placeRanges s g l.win false ps
  let r := readPlaces s g c.asid l.win env env.reads ps
  let row := fun i rec e => rowOf (chunkRows v r.data i) (recC rec) e (smMk w) (maskAllows s g w v i)
  let drawn := fun i =>
    let e := rowRec s g (smErow w) i
    let x := row i (sampRec s g w i) e
    !x.cand.isEmpty && (draws.map fun d => d i (sampRec s g w i) e x).getD false
  if v != 0 && v ≤ 2 ^ 20 && M == 0 then ⟨[], ⟨s, stOk, [], none⟩⟩
  else
    .mk (staged [sizeStages v 1, sideStages (sides ++ listAreas) (recs.any recBad || epis.any (· != 0)),
        logitStages s g c env l M v,
        extStages s g c w (if draws.isSome then M else 0) ((List.range M).filter drawn)] ++
        [coverCheck w ranges, ownPoison s g (sides.map fun x => byteRange 0 x.1 x.2 false), sidePoison s g [l],
         ownPoison s g ((recs.filter lists).map fun r => byteRange 0 (recList r) (reads r) false), readStop r ps])
      (((List.range M).foldl (runRows g c.by_ w s skip row f) ⟨s.noteUnits g c.asid l.win .engRead ps, none⟩).fired)
where
  /-- The logits layout. -/
  mvFrom3 (w : Nat) : Nat := bitsOf w 195 192

/-! ### rsel.hist and rsel.cut (R185, R186) -/

/-- R185: the shortlist, in ascending j. -/
def shortlist (l : List Cand) : List Cand :=
  let hi := fun (c : Cand) => keyOf c.l / 2 ^ 16
  let top := (l.map hi).mergeSort (fun a b => decide (b ≤ a))
  let b := if 1024 ≤ l.length then top.getD 1023 0 else 0
  let above := l.filter fun c => b < hi c
  let edge := (l.filter fun c => hi c == b).take (1024 - above.length)
  l.filter fun c => above.contains c || edge.contains c

/-- `.coarse` on a row. -/
def coarseRow : RowFn := fun _ r _ x =>
  let sl := shortlist x.cand
  let slow := e32lt (sum32 (sl.map (·.w))) (e32mul (recTopp r) x.z)
  let r := putBits (putBits r 351 341 sl.length) 383 352 x.z
  some (if slow then putBits r 328 328 1 else r, entryBytes sl)

def runCoarse (s : State) (g : Nat) (env : RemoteEnv) (c : Cmd) (w : Nat) : Plan :=
  runSampling s g env none (fun r => !recSlow r) recSlow (fun _ => 0) coarseRow c w

def execRselHistCoarse (g q : Nat) (env : RemoteEnv) (s : State) : Host.Outcome State Fault Refusal :=
  .next (if uniformsReady s g q && headVariant s g q 0 then fireCmd s g q [0x80] (fun _ _ => .neither) (runCoarse s g env)
  else s)

/-- The thr of a row that keeps no token, for which R185 states no value: a free value (log entry 12). -/
def freeThr (s : State) (i : Nat) : Nat := leNat ((List.range 4).map fun b => Config.freeByte (s.free * 2 ^ 22 + 4 * i + b))

/-- `.full` on a row. -/
def fullRow (s : State) : RowFn := fun i r _ x =>
  let kept := keptSet (ranked x.cand) (e32mul (recTopp r) x.z) (recTopk r)
  let thr := (kept.getLast?.map fun c => keyOf c.l).getD (freeThr s i)
  let n := (kept.filter fun c => keyOf c.l == thr).length
  some (putBits (putBits (putBits (putBits r 479 448 thr) 447 416 n) 415 384 (sum32 (kept.map (·.w)))) 383 352 x.z, [])

def runFull (s : State) (g : Nat) (env : RemoteEnv) (c : Cmd) (w : Nat) : Plan :=
  runSampling s g env none (fun _ => false) (fun r => !recSlow r) (fun _ => 0) (fullRow s) c w

def execRselHistFull (g q : Nat) (env : RemoteEnv) (s : State) : Host.Outcome State Fault Refusal :=
  .next (if uniformsReady s g q && headVariant s g q 1 then fireCmd s g q [0x80] (fun _ _ => .neither) (runFull s g env)
  else s)

/-- `rsel.cut` on a row. -/
def cutRow (s : State) (g : Nat) : RowFn := fun _ r e x =>
  let l := ranked (listEntries s g r e.mz (bitsOf r 351 341))
  let kept := keptSet l (e32mul (recTopp r) x.z) (recTopk r)
  some (putBits (putBits r 447 416 kept.length) 415 384 (sum32 (kept.map (·.w))), entryBytes l)

def runCut (s : State) (g : Nat) (env : RemoteEnv) (c : Cmd) (w : Nat) : Plan :=
  runSampling s g env none (fun r => !recSlow r) recSlow (fun r => 8 * bitsOf r 351 341) (cutRow s g) c w

def execRselCut (g q : Nat) (env : RemoteEnv) (s : State) : Host.Outcome State Fault Refusal :=
  .next (if uniformsReady s g q then fireCmd s g q [0x81] (fun _ _ => .neither) (runCut s g env) else s)

/-! ### samp.draw (R187, R291) -/

/-- The first token whose running sum passes t; else the last of the list. -/
def drawFrom (t : Nat) : Nat → List (Nat × Nat) → Nat → Nat
  | _, [], last => last
  | acc, (j, w) :: rest, _ =>
    let acc := e32add acc w
    if e32lt t acc then j else drawFrom t acc rest j

/-- A draw from weighted tokens with a uniform; none from no token. -/
def draw (u total : Nat) (l : List (Nat × Nat)) : Nat := drawFrom (e32mul u total) 0 l 0xFFFFFFFF

/-- R291: the kept set of a slow row, in ascending j. -/
def slowKept (r : Nat) (l : List Cand) : List Cand :=
  let thr := bitsOf r 479 448
  let eq := (l.filter fun c => keyOf c.l == thr).take (bitsOf r 447 416)
  l.filter fun c => thr < keyOf c.l || eq.contains c

/-- `samp.draw` on a row. -/
def drawRow (s : State) (g : Nat) (c : Cmd) (w : Nat) : RowFn := fun i r e x =>
  let kept := if recSlow r then slowKept r x.cand else listEntries s g r e.mz (bitsOf r 447 416)
  let u := if smExt w then uniformElem s g c w i else uniformAt e.seed (0, e.step, 1, 0)
  if kept.isEmpty then none
  else some (putBits r 511 480 (draw u (bitsOf r 415 384) (kept.map fun k => (k.j, k.w))), [])

def runDraw (s : State) (g : Nat) (env : RemoteEnv) (c : Cmd) (w : Nat) : Plan :=
  runSampling s g env (some fun i r e x => (drawRow s g c w i r e x).isSome) (fun r => !recSlow r) (fun _ => false)
    (fun r => 8 * min 1024 (bitsOf r 447 416)) (drawRow s g c w) c w

def execSampDraw (g q : Nat) (env : RemoteEnv) (s : State) : Host.Outcome State Fault Refusal :=
  .next (if uniformsReady s g q && headVariant s g q 0 then fireCmd s g q [0x82] (fun _ _ => .neither) (runDraw s g env)
  else s)

/-- `.gum`: the row record's garg is the token. It reads no logits, mask or list. -/
def runGum (s : State) (g : Nat) (c : Cmd) (w : Nat) : Plan :=
  let (M, v) := (smM c w, smV c w)
  let recs := (List.range M).map (sampRec s g w)
  let epis := (List.range M).map fun i => bitsOf (sideNat s g (smErow w + 32 * i) 32) 127 96
  let sides := [(smErow w, 32 * M), (smSrec w, 64 * M)]
  let put := fun (t : State) (i : Nat) =>
    engWrite t g c.by_ 0 (smSrec w + 64 * i + 41)
      (recBytes (putBits (putBits (sampRec s g w i) 511 480 (rowRec s g (smErow w) i).garg) 340 336 0))
  if v != 0 && v ≤ 2 ^ 20 && M == 0 then ⟨[], ⟨s, stOk, [], none⟩⟩
  else
    .mk (staged [sizeStages v 1, sideStages sides (recs.any recBad || epis.any (· != 0)), extStages s g c w M []] ++
        [ownPoison s g (sides.map fun x => byteRange 0 x.1 x.2 false)])
      ⟨(List.range M).foldl put s, stOk, [], none⟩

def execSampDrawGum (g q : Nat) (s : State) : Host.Outcome State Fault Refusal :=
  .next (if uniformsReady s g q && headVariant s g q 1 then fireCmd s g q [0x82] (fun _ _ => .neither) (runGum s g)
  else s)

/-! ### spec.accept (R188) -/

/-- What the acceptance test reads: drafts, target rows and draft rows, and the uniforms of tests and of the last draw. -/
structure AcceptIn where
  drafts : List Nat
  target : List Row
  draft : List Row
  test : Nat → Nat
  last : Nat → Nat

/-- A row with no candidate, for an index beyond the list. -/
def noRow : Row := ⟨[], 0⟩

/-- The weight of a token in a row; +0 for a token that is no candidate. -/
def Row.weight (r : Row) (j : Nat) : Nat := ((r.cand.find? fun c => c.j == j).map (·.w)).getD 0

/-- The number of drafts accepted, from position i on. -/
def acceptCount (x : AcceptIn) : Nat → Nat → Nat
  | i, 0 => i
  | i, n + 1 =>
    let p := x.target.getD i noRow
    let q := x.draft.getD i noRow
    let d := x.drafts.getD i 0
    if !(p.cand.any fun c => c.j == d) then i
    else if !e32lt (e32mul (x.test i) (e32mul (q.weight d) p.z)) (e32mul (p.weight d) q.z) then i
    else acceptCount x (i + 1) n

/-- The residual of a rejected position. -/
def residual (p q : Row) : List (Nat × Nat) :=
  p.cand.map fun c =>
    let v := e32sub (engDiv 1 c.w p.z) (engDiv 1 (q.weight c.j) q.z)
    (c.j, if isNan 1 v then canonNan 1 else orderedPick 1 true v 0)

/-- The correction token and the status. -/
def correction (x : AcceptIn) (a : Nat) : Nat × Status :=
  let p := x.target.getD a noRow
  let ws := p.cand.map fun c => (c.j, c.w)
  let u := x.last a
  if p.cand.isEmpty then (0xFFFFFFFF, ⟨stShape, 0, a⟩)
  else if a == x.drafts.length then (draw u p.z ws, stOk)
  else
    let r := residual p (x.draft.getD a noRow)
    let R := sum32 (r.map (·.2))
    if R == 0 then let t := draw u p.z ws; (t, ⟨stResidual, a, t⟩) else (draw u R r, stOk)

/-- The 128-byte accept record after the command: bits [1023:512]. -/
def acceptBytes (x : AcceptIn) (a t : Nat) : List Byte :=
  leBytes 4 a ++ ((x.drafts.take a ++ [t] ++ List.replicate (8 - a) 0xFFFFFFFF).flatMap (leBytes 4)) ++ leBytes 24 0

def runAccept (s : State) (g : Nat) (env : RemoteEnv) (c : Cmd) (w : Nat) : Plan :=
  let (D, v) := (smM c w, smV c w)
  let tl := layOf c (bitsOf w 195 192)
  let dl := layOf c (bitsOf w 199 196)
  let pt := Lay.soundPlaces s g tl
  let pd := Lay.soundPlaces s g dl
  let ar := sideNat s g (smSrec w) 64
  let e := rowRec s g (smErow w)
  let e0 := e 0
  let epis := (List.range (2 * D + 1)).map fun i => bitsOf (sideNat s g (smErow w + 32 * i) 32) 127 96
  let sides := [(smErow w, 32 * (2 * D + 1)), (smSrec w, 128)] ++ (if smMk w then [(smMsk w, (D + 1) * maskBytes v)] else [])
  let rt := readPlaces s g c.asid tl.win env env.reads pt
  let rd := readPlaces s g c.asid dl.win env rt.rest pd
  let x : AcceptIn :=
    { drafts := (List.range D).map fun i => bitsOf ar (32 * i + 31) (32 * i),
      target := (List.range (D + 1)).map fun i =>
        rowOf (chunkRows v rt.data i) (bitsOf ar 287 256) (e i) (smMk w) (maskAllows s g w v i),
      draft := (List.range D).map fun i =>
        rowOf (chunkRows v rd.data i) (bitsOf ar 319 288) (e (D + 1 + i)) (smMk w) (maskAllows s g w v i),
      test := fun i => if smExt w then uniformElem s g c w i else uniformAt e0.seed (i, e0.step, 2, 0),
      last := fun a => if smExt w then uniformElem s g c w D else uniformAt e0.seed (a, e0.step, 3, 0) }
  let a := acceptCount x 0 D
  let (t, st) := correction x a
  .mk (staged [sizeStages v D, sideStages sides (bitsOf ar 511 320 != 0 || epis.any (· != 0)),
      logitStages s g c env tl (D + 1) v, logitStages s g c env dl D v, extStages s g c w (D + 1) (List.range (D + 1))] ++
      [coverCheck w (placeRanges s g tl.win false pt ++ placeRanges s g dl.win false pd ++ [byteRange 0 (smSrec w) 128 true]),
       ownPoison s g (sides.map fun x => byteRange 0 x.1 x.2 false), sidePoison s g [tl, dl], readStop rt pt, readStop rd pd])
    ⟨engWrite ((s.noteUnits g c.asid tl.win .engRead pt).noteUnits g c.asid dl.win .engRead pd) g c.by_ 0 (smSrec w + 64) (acceptBytes x a t), st, [], none⟩

def execSpecAccept (g q : Nat) (env : RemoteEnv) (s : State) : Host.Outcome State Fault Refusal :=
  .next (if uniformsReady s g q then fireCmd s g q [0x83] (fun _ _ => .neither) (runAccept s g env) else s)

end Sys2Proof.Machine
end

