-- ==== Sys2Proof/Machine/Grammar.lean ====
section
/-! DEFINITION. The grammar engine (R189 to R192, R296 to R300). A context's branches and stacks are held whole; their
homes in the spill area are not visible (R299). -/
namespace Sys2Proof.Machine

/-! ### Fields (R189) and contexts -/

def gmCtx (w : Nat) : Nat := bitsOf w 195 192
def gmBr (w : Nat) : Nat := bitsOf w 199 196
def gmOff (w : Nat) : Nat := 64 * bitsOf w 218 205

/-- The context a word names, when it is bound. -/
def ctxOf (s : State) (g w : Nat) : Option Grammar :=
  let t := (s.cluster (clusterOfCore g)).grammars
  if tabHas t (gmCtx w) then some (tabGet ⟨0, 0, 0, 0, 0, []⟩ t (gmCtx w)) else none

/-- The homes of a branch's entries, in lines of the spill area of context x. -/
def homeLines (x : Grammar) (b : Nat × Branch) : List Nat :=
  if b.2.status == 0 then [] else (List.range ((b.2.stack.length + 31) / 32)).map fun i => x.spl + 32 * b.1 + i

/-- R299: the engine moves entries of live branches to their homes as it needs, as side data of the bound sequencer: which lines it
writes is free (log entry 32), and a line that it writes is that sequencer's (R246). -/
def State.writeHomes (s : State) (x : Grammar) : State :=
  let s' : State := { s with free := s.free + 1 }
  (x.branches.flatMap (homeLines x)).foldl (fun t l =>
    if (Config.freeByte (s.free * 2 ^ 22 + l)).toNat % 2 == 0 then t
    else
      let key := winKey x.g (64 * l)
      (t.noteWrite (.win x.g (64 * l)) key 64).setOwner key 64 (some x.k)) s'

/-- Sets a context, whose stacks may move to their homes. -/
def State.setCtx (s : State) (g ctx : Nat) (x : Grammar) : State :=
  (s.modCluster (clusterOfCore g) fun c => { c with grammars := tabPut c.grammars ctx x }).writeHomes x

/-- The binding ends: what the engine left in the spill area is unspecified (R299, log entry 12). -/
def State.unbind (s : State) (g ctx : Nat) : State :=
  let t := (s.cluster (clusterOfCore g)).grammars
  if !tabHas t ctx then s
  else
    let x := tabGet ⟨0, 0, 0, 0, 0, []⟩ t ctx
    let bytes := (List.range 18432).map fun i => Config.freeByte (s.free * 2 ^ 22 + 64 * x.spl + i)
    let s := s.modCluster (clusterOfCore g) fun c => { c with grammars := tabDel c.grammars ctx }
    let key := winKey x.g (64 * x.spl)
    (({ s with free := s.free + 1 } : State).putMem key bytes).noteWrite (.win x.g (64 * x.spl)) key bytes.length

/-- Branch b of a context; absent when it is not listed. -/
def Grammar.branch (x : Grammar) (b : Nat) : Branch := tabGet {} x.branches b

/-- R189: the context is bound to the publishing sequencer. -/
def boundCheck (s : State) (g : Nat) (c : Cmd) (w : Nat) : CmdCheck :=
  failIf (!((ctxOf s g w).any fun x => x.g == g && x.k == c.by_)) stRefused (0x200 + gmCtx w)

/-- R189: a branch number above 8. -/
def branchCheck (b : Nat) : CmdCheck := failIf (8 < b) stShape b

/-- R300: an absent branch. -/
def absentCheck (x : Grammar) (b : Nat) : CmdCheck := failIf ((x.branch b).status == 0) stShape b

/-- The check of branch 0's dead or absent state by number, for `pda.commit`. -/
def liveCheck (x : Grammar) (b : Nat) : CmdCheck := failIf ((x.branch b).status != 1) stShape b

/-! ### Compiled tables (R296, R297) -/

/-- The header's fields: K is kc + 1. -/
structure Tables where
  act : Nat
  msk : Nat
  vt : Nat
  K : Nat
  ns : Nat
  gid : Nat
  deriving DecidableEq, Repr

/-- R296's map; none when the header breaks it. -/
def tablesOf (h : Nat) : Option Tables :=
  let t : Tables := ⟨bitsOf h 255 192, bitsOf h 191 128, bitsOf h 116 96, bitsOf h 87 80 + 1, bitsOf h 79 64, bitsOf h 31 0⟩
  if bitsOf h 511 256 != 0 || bitsOf h 127 117 != 0 || bitsOf h 95 88 != 0 || bitsOf h 63 32 != 0 ||
      t.act % 8 != 0 || t.msk % 64 != 0 || t.vt == 0 || 2 ^ 20 < t.vt || t.ns == 0 then none
  else some t

/-- n bytes at an address of the tables. -/
def tablePlace (a n : Nat) : Place := ⟨(a % 2 ^ 64 : Nat), n, 0⟩

/-- Reads n bytes at an address of the tables, n small enough not to leave its 64-byte line: the value, or why not. At an
absent owner that is one unit not read (R148). -/
def readTable (s : State) (g asid : Nat) (env : RemoteEnv) (a n : Nat) : Except Status (Nat × RemoteEnv) :=
  let r := readPlaces s g asid 3 env env.reads [tablePlace a n]
  match r.stop, r.data with
  | none, v :: _ => .ok (v, { env with reads := r.rest })
  | some x, _ => .error (if x.code == stAbsent then ⟨stAbsent, 0, 1⟩ else x)
  | none, [] => .error ⟨stXlat, 0, a % 2 ^ 32⟩

/-- Reads the header at tab; one that is not aligned is not read. -/
def readHeader (s : State) (g asid : Nat) (env : RemoteEnv) (tab : Nat) : Except Status (Tables × RemoteEnv) :=
  if tab % 64 != 0 then .error ⟨stMalformed, 0, 0⟩
  else
  match readTable s g asid env tab 64 with
  | .error x => .error x
  | .ok (h, rest) =>
    match tablesOf h with
    | some t => .ok (t, rest)
    | none => .error ⟨stMalformed, 0, 0⟩

/-- R297: the stack-top class. -/
def Branch.cls (b : Branch) : Nat := (b.stack.getLast?.getD 0) % 256

/-- R297: a branch whose state or class is outside the tables is dead. -/
def Branch.judged (b : Branch) (t : Tables) : Branch :=
  if b.status == 1 && (t.ns ≤ b.state || t.K ≤ b.cls) then { b with status := 2 } else b

/-- R297: the row. -/
def Branch.row (b : Branch) (t : Tables) : Nat := b.state * t.K + b.cls

/-- Replaces branch b. -/
def Grammar.setBranch (x : Grammar) (b : Nat) (y : Branch) : Grammar := { x with branches := tabPut x.branches b y }

/-! ### pda.step (R191) -/

/-- The first v bits of a row's mask, read as 64-byte lines. -/
def maskLines (s : State) (g asid : Nat) : RemoteEnv → Nat → Nat → Except Status (List Byte)
  | _, _, 0 => .ok []
  | env, a, n + 1 =>
    match readTable s g asid env a 64 with
    | .error x => .error (if x.code == stAbsent then ⟨stAbsent, 0, n + 1⟩ else x)
    | .ok (v, rest) =>
      match maskLines s g asid rest (a + 64) n with
      | .error x => .error x
      | .ok l => .ok (leBytes 64 v ++ l)

/-- Bytes of a mask with the bits from v on cleared. -/
def cutMask (v : Nat) (l : List Byte) : List Byte := leBytes (maskBytes v) (leNat l % 2 ^ v)

def stepFired (s : State) (g v : Nat) (c : Cmd) (w : Nat) (x : Grammar) (t : Tables) (rest : RemoteEnv) : Fired :=
  let b := (x.branch (gmBr w)).judged t
  let s := (s.noteUnits g c.asid 3 .engRead [tablePlace x.tab 64]).setCtx g (gmCtx w) (x.setBranch (gmBr w) b)
  let row := t.msk + b.row t * maskBytes t.vt
  if b.status == 2 then ⟨engWrite s g c.by_ 0 (gmOff w) (List.replicate (maskBytes v) 0), ⟨0, 1, 0⟩, [], none⟩
  else
    match maskLines s g c.asid rest row ((v + 511) / 512) with
    | .error e => .fail s e
    | .ok l =>
      let s := s.noteUnits g c.asid 3 .engRead ((List.range ((v + 511) / 512)).map fun i => tablePlace (row + 64 * i) 64)
      ⟨engWrite s g c.by_ 0 (gmOff w) (cutMask v l), stOk, [], none⟩

def runStep (s : State) (g : Nat) (env : RemoteEnv) (c : Cmd) (w : Nat) : Plan :=
  let x := (ctxOf s g w).getD ⟨0, 0, 0, 0, 0, []⟩
  let v := shpVal c.sh (bitsOf w 223 219)
  let h := readHeader s g c.asid env x.tab
  let vt := match h with
    | .ok (t, _) => t.vt
    | .error _ => 2 ^ 20
  let bound := (boundCheck s g c w).isNone
  .mk [failIf (2 ^ 20 < v || (bound && vt < v)) stShape v, sidePlace (gmOff w) (maskBytes v), boundCheck s g c w,
      branchCheck (gmBr w), absentCheck x (gmBr w), coverCheck w [byteRange 0 (gmOff w) (maskBytes v) true]]
    (match h with
      | .error e => .fail s e
      | .ok (t, rest) => stepFired s g v c w x t rest)

def execPdaStep (g q : Nat) (env : RemoteEnv) (s : State) : Host.Outcome State Fault Refusal :=
  .next (fireCmd s g q [0xa0] (fun _ _ => .neither) (runStep s g env))

/-! ### pda.adv (R191, R298) -/

/-- What an action does to a live branch, with the detail. -/
def Branch.act (b : Branch) (w : Nat) : Branch × Nat :=
  let pops := bitsOf w 15 14
  let pushes := bitsOf w 13 12
  let dead := { b with status := 2 }
  if bitsOf w 11 0 != 0 || pushes == 3 || b.stack.length < pops then (dead, 1)
  else if 1024 < b.stack.length - pops + pushes then (dead, 3)
  else
    let kept := b.stack.take (b.stack.length - pops)
    ({ b with state := bitsOf w 31 16, stack := kept ++ ([bitsOf w 47 32, bitsOf w 63 48].take pushes) }, 0)

/-- The branch after token j, with the detail; or why the tables could not be read. -/
def advanced (s : State) (g asid : Nat) (b : Branch) (j : Int) (t : Tables) (rest : RemoteEnv) :
    Except Status (Branch × Nat) :=
  let b := b.judged t
  let dead := { b with status := 2 }
  if b.status == 2 || decide (j < 0) || decide ((t.vt : Int) ≤ j) then .ok (dead, 1)
  else
    let j := j.toNat
    match readTable s g asid rest (t.msk + b.row t * maskBytes t.vt + j / 8) 1 with
    | .error e => .error e
    | .ok (m, rest) =>
      if !bitOf m (j % 8) then .ok (dead, 1)
      else
        match readTable s g asid rest (t.act + 8 * (b.row t * t.vt + j)) 8 with
        | .error e => .error e
        | .ok (a, _) => .ok (((b.act a).1.judged t), (b.act a).2)

def runAdv (s : State) (g : Nat) (env : RemoteEnv) (c : Cmd) (w : Nat) : Plan :=
  let x := (ctxOf s g w).getD ⟨0, 0, 0, 0, 0, []⟩
  let b := x.branch (gmBr w)
  let done : Fired :=
    if b.status == 2 then ⟨s, ⟨0, 1, 0⟩, [], none⟩
    else
      match readHeader s g c.asid env x.tab with
      | .error e => .fail s e
      | .ok (t, rest) =>
        let j := sextN 32 (sideNat s g (gmOff w) 4)
        let row := (b.judged t).row t
        let used := [tablePlace x.tab 64] ++ (if (b.judged t).status == 2 || j < 0 || (t.vt : Int) ≤ j then [] else
          [tablePlace (t.msk + row * maskBytes t.vt + j.toNat / 8) 1, tablePlace (t.act + 8 * (row * t.vt + j.toNat)) 8])
        match advanced s g c.asid b j t rest with
        | .error e => .fail s e
        | .ok (b', d) => ⟨(s.noteUnits g c.asid 3 .engRead used).setCtx g (gmCtx w) (x.setBranch (gmBr w) b'), ⟨0, d, 0⟩, [], none⟩
  .mk [sidePlace (gmOff w) 4, boundCheck s g c w, branchCheck (gmBr w), absentCheck x (gmBr w),
    ownPoison s g [byteRange 0 (gmOff w) 4 false]] done

def execPdaAdv (g q : Nat) (env : RemoteEnv) (s : State) : Host.Outcome State Fault Refusal :=
  .next (fireCmd s g q [0xa1] (fun _ _ => .neither) (runAdv s g env))

/-! ### pda.fork, pda.commit, pda.roll (R192, R300) -/

def runFork (s : State) (g : Nat) (c : Cmd) (w : Nat) : Plan :=
  let x := (ctxOf s g w).getD ⟨0, 0, 0, 0, 0, []⟩
  let src := bitsOf w 203 200
  .mk [boundCheck s g c w, branchCheck (gmBr w), branchCheck src, failIf (gmBr w == 0) stShape 0, absentCheck x src]
    ⟨s.setCtx g (gmCtx w) (x.setBranch (gmBr w) (x.branch src)), stOk, [], none⟩

def execPdaFork (g q : Nat) (s : State) : Host.Outcome State Fault Refusal :=
  .next (fireCmd s g q [0xa2] (fun _ _ => .neither) (runFork s g))

def runCommit (s : State) (g : Nat) (c : Cmd) (w : Nat) : Plan :=
  let x := (ctxOf s g w).getD ⟨0, 0, 0, 0, 0, []⟩
  .mk [boundCheck s g c w, branchCheck (gmBr w), if gmBr w == 0 then none else liveCheck x (gmBr w)]
    ⟨s.setCtx g (gmCtx w) { x with branches := [(0, x.branch (gmBr w))] }, stOk, [], none⟩

def execPdaCommit (g q : Nat) (s : State) : Host.Outcome State Fault Refusal :=
  .next (fireCmd s g q [0xa3] (fun _ _ => .neither) (runCommit s g))

def runRoll (s : State) (g : Nat) (c : Cmd) (w : Nat) : Plan :=
  let x := (ctxOf s g w).getD ⟨0, 0, 0, 0, 0, []⟩
  .mk [boundCheck s g c w] ⟨s.setCtx g (gmCtx w) { x with branches := [(0, x.branch 0)] }, stOk, [], none⟩

def execPdaRoll (g q : Nat) (s : State) : Host.Outcome State Fault Refusal :=
  .next (fireCmd s g q [0xa4] (fun _ _ => .neither) (runRoll s g))

/-! ### pda.save, pda.load (R190, R296, R300) -/

/-- Bytes of an image. -/
def imageBytes (depth : Nat) : Nat := 64 + roundUp (2 * depth) 64

/-- R190's image of branch 0; a dead branch has state 0xFFFF (R300). -/
def Grammar.image (x : Grammar) : List Byte :=
  let b := x.branch 0
  let d := b.stack.length
  leBytes 8 x.tab ++ leBytes 2 (if b.status == 2 then 0xFFFF else b.state) ++ leBytes 2 d ++ leBytes 4 x.gid ++
    List.replicate 48 0 ++ b.stack.flatMap (leBytes 2) ++ List.replicate (imageBytes d - 64 - 2 * d) 0

def runSave (s : State) (g : Nat) (c : Cmd) (w : Nat) : Plan :=
  let x := (ctxOf s g w).getD ⟨0, 0, 0, 0, 0, []⟩
  let n := imageBytes (x.branch 0).stack.length
  let bound := (boundCheck s g c w).isNone
  let s' := engWrite s g c.by_ 0 (gmOff w) x.image
  .mk [if bound then sidePlace (gmOff w) n else none, boundCheck s g c w, coverCheck w [byteRange 0 (gmOff w) n true]]
    ⟨if bitOf w 58 then s'.unbind g (gmCtx w) else s', stOk, [], none⟩

def execPdaSave (g q : Nat) (s : State) : Host.Outcome State Fault Refusal :=
  .next (fireCmd s g q [0xa5] (fun _ _ => .neither) (runSave s g))

/-- The context an image and its tables' header make. -/
def loadedCtx (g spl : Nat) (c : Cmd) (img : Nat) (t : Tables) : Grammar :=
  let st := bitsOf img 79 64
  let b : Branch := { status := if st == 0xFFFF then 2 else 1, state := st,
                      stack := (List.range (bitsOf img 95 80)).map fun k => bitsOf img (527 + 16 * k) (512 + 16 * k) }
  { g := g, k := c.by_, spl := spl, gid := t.gid, tab := bitsOf img 63 0, branches := [(0, b.judged t)] }

def runLoad (s : State) (g : Nat) (env : RemoteEnv) (c : Cmd) (w : Nat) : Plan :=
  let depth := ownNat s g 0 (gmOff w + 10) 2
  let n := imageBytes depth
  let img := ownNat s g 0 (gmOff w) n
  let spl := bitsOf w 255 242
  let other := (ctxOf s g w).any fun x => !(x.g == g && x.k == c.by_)
  let bad := bitsOf img 511 128 != 0 || img / 2 ^ (512 + 16 * depth) != 0
  let done : Fired := match readHeader s g c.asid env (bitsOf img 63 0) with
    | .error e => .fail s e
    | .ok (t, _) =>
      if t.gid != bitsOf img 127 96 then .fail s ⟨stShape, 0, t.gid⟩
      else ⟨((s.noteUnits g c.asid 3 .engRead [tablePlace (bitsOf img 63 0) 64]).unbind g (gmCtx w)).setCtx g (gmCtx w) (loadedCtx g spl c img t), stOk, [], none⟩
  .mk [sidePlace (gmOff w) 64, failIf (1024 < depth) stShape depth, sidePlace (gmOff w) n, failIf bad stMalformed 0,
      failIf other stRefused (0x200 + gmCtx w), failIf (2 ^ 20 < 64 * spl + 18432) stShape spl,
      ownPoison s g [byteRange 0 (gmOff w) n false]] done

def execPdaLoad (g q : Nat) (env : RemoteEnv) (s : State) : Host.Outcome State Fault Refusal :=
  .next (fireCmd s g q [0xa6] (fun _ _ => .neither) (runLoad s g env))

end Sys2Proof.Machine
end

