-- ==== Sys2Proof/Machine/Weald.lean ====
section
/-! DEFINITION. The Weald: flits and links (R274 to R276), and requests that arrive from other packages (R277, R287,
R288, R316, R317). -/
namespace Sys2Proof.Machine

/-! ### CRC-32C (R206) -/

/-- Eight shifts of the reflected Castagnoli polynomial. -/
def crcShift : Nat → Nat → Nat
  | 0, c => c
  | n + 1, c => crcShift n (if c % 2 == 1 then c / 2 ^^^ 0x82F63B78 else c / 2)

/-- CRC-32C of bytes: initial value and final XOR all ones. -/
def crc32c (l : List Byte) : Nat := (l.foldl (fun c b => crcShift 8 (c ^^^ b.toNat)) 0xFFFFFFFF) ^^^ 0xFFFFFFFF

/-! ### Flits (R274, R275) -/

def flitDst (f : Nat) : Nat := bitsOf f 63 52
def flitKind (f : Nat) : Nat := bitsOf f 39 36
def flitSeq (f : Nat) : Nat := bitsOf f 35 24

/-- Whether a flit's CRC holds and its kind is not reserved. -/
def flitGood (f : Nat) : Bool := bitsOf f 1023 992 == crc32c (leBytes 124 f) && flitKind f ≤ 4

/-- A link of the package. -/
def State.link (s : State) (l : Nat) : Link := tabGet {} s.links l

/-- Replaces a link. -/
def State.setLink (s : State) (l : Nat) (x : Link) : State := { s with links := tabPut s.links l x }

/-- An acknowledgement (1) or negative acknowledgement (0) of a flit goes to the far end, as the link's own. -/
def State.ackFlit (s : State) (l : Nat) (x : Link) (good : Bool) : State :=
  s.send ⟨x.peer, 0, BitVec.ofNat 64 (l * 4096 + x.expect), .link, [if good then 1 else 0]⟩

/-- R274: a flit of the fields given, with its CRC. -/
def flitOf (payload dst src kind lseq flow : Nat) : BitVec 1024 :=
  let body := payload % 2 ^ 928 * 2 ^ 64 + dst % 2 ^ 12 * 2 ^ 52 + src % 2 ^ 12 * 2 ^ 40 + kind % 16 * 2 ^ 36 + lseq % 2 ^ 12 * 2 ^ 24 + flow % 2 ^ 24
  BitVec.ofNat 1024 (body + crc32c (leBytes 124 body) * 2 ^ 992)

/-- A flit as a link sends it: its own lseq, and the CRC over that. -/
def relink (f : BitVec 1024) (lseq : Nat) : BitVec 1024 :=
  let x := f.toNat
  flitOf (bitsOf x 991 64) (flitDst x) (bitsOf x 51 40) (flitKind x) lseq (bitsOf x 23 0)

/-- R274: the kind of flit a message travels in. -/
def SentKind.flitKind : SentKind → Nat
  | .reply => 2
  | .coll => 3
  | .link | .debug => 4
  | _ => 1

/-- R274: the flits of message n: 116 bytes of it in each. -/
def flitsOf (s : State) (n : Nat) (m : Sent) : List (BitVec 1024) :=
  (List.range (m.data.length / 116 + 1)).map fun i =>
    flitOf (Config.flitPayload m.data (116 * i)).toNat m.pkg s.pkgid m.kind.flitKind 0 (Config.flitFlow n (116 * i)).toNat

/-- Links that carry traffic (R276). -/
def State.upLinks (s : State) : List Nat := (List.range 32).filter fun l => (s.link l).state == 2

/-- R277: the hops to a package over a link: its far end's own to there, and this one. -/
def State.hops (s : State) (dst l : Nat) : Nat :=
  let p := (s.link l).peer
  if p == dst then 1 else 2 + Config.podHops s.cycle p dst

/-- R277: the link on the route to a package: a shortest path, of several the one over the lowest link; none when there is no path. -/
def State.route (s : State) (dst : Nat) : Option Nat :=
  if !s.peers.contains dst then none
  else s.upLinks.foldl (fun best l => match best with
    | some b => if s.hops dst l < s.hops dst b then some l else best
    | none => some l) none

/-- The next message of the outbox is made into flits. -/
def packetize (s : State) : State :=
  match s.outbox[s.txNext]? with
  | none => s
  | some m => { s with txNext := s.txNext + 1, backlog := s.backlog ++ (flitsOf s s.txNext m).map fun f => (some s.txNext, f) }

/-- The link that a flit leaves on: what a link says for itself leaves on that link (R275), any other flit on its route (R277). -/
def State.flitLink (s : State) (f : Flit) : Option Nat :=
  match f.1.bind fun n => s.outbox[n]? with
  | some m => if m.kind == .link then
      (let l := m.addr.toNat / 4096
       if (s.link l).state == 2 then some l else none)
    else s.route m.pkg
  | none => s.route (flitDst f.2.toNat)

/-- A flit takes the next lseq of a link and its place in the link's replay buffer of 512 flits (R275). -/
def Link.take (x : Link) (f : Flit) : Link := { x with next := (x.next + 1) % 4096, buffer := x.buffer ++ [(f.1, relink f.2 x.next)] }

/-- The first waiting flit whose link has room goes to it; with no path it is dropped (R277). -/
def sendFlit (s : State) : State :=
  let goes := fun (f : Flit) => match s.flitLink f with
    | some l => (s.link l).buffer.length < 512
    | none => true
  match s.backlog.findIdx? goes with
  | none => s
  | some i =>
    match s.backlog[i]? with
    | none => s
    | some f =>
      let t : State := { s with backlog := s.backlog.eraseIdx i }
      match s.flitLink f with
      | none => t
      | some l => t.setLink l ((s.link l).take f)

/-- A link that has nothing to send sends an idle flit (R274). -/
def sendIdle (l : Nat) (s : State) : State :=
  let x := s.link l
  if x.state == 2 && x.buffer.isEmpty then s.setLink l (x.take (none, flitOf 0 x.peer s.pkgid 0 0 0)) else s

/-- The next flit of a link's replay buffer goes on the wire. -/
def wireFlit (l : Nat) (s : State) : State :=
  let x := s.link l
  if x.state == 2 && x.wired < x.buffer.length then s.setLink l { x with wired := x.wired + 1 } else s

/-- The far end's acknowledgement of the oldest flit that a link has sent. -/
def flitAcked (l : Nat) (s : State) : State :=
  let x := s.link l
  if x.state == 2 && 0 < x.wired then s.setLink l { x with buffer := x.buffer.tail, wired := x.wired - 1, replays := 0 } else s

/-- Whether the package takes part in the pod: it has booted, and no fatal error has halted it; else its links stay down (R318, R341). -/
def State.inPod (s : State) : Bool := s.host.booted && !s.halted

/-- A link that is down begins to train (R276). -/
def beginTraining (l : Nat) (s : State) : State :=
  if s.inPod && (s.link l).state == 0 then s.setLink l { s.link l with state := 1 } else s

/-- Whether a flit of message n has still to reach the wire. -/
def State.leaving (s : State) (n : Nat) : Bool :=
  s.txNext ≤ n || s.backlog.any (fun f => f.1 == some n) || s.links.any fun e => (e.2.buffer.drop e.2.wired).any fun f => f.1 == some n

/-- R277: the destination's acknowledgement of a request returns: it has performed there. -/
def requestAcked (n : Nat) (s : State) : State :=
  if s.leaving n || !((s.outbox[n]?).any fun m => s.peers.contains m.pkg) then s
  else { s with unacked := s.unacked.filter fun u => u.n != n }

/-- R277: a link along the route of a request has failed before its acknowledgement returned, and it is sent again. -/
def resend (n : Nat) (s : State) : State :=
  match s.outbox[n]? with
  | some m => if s.isAcked n || s.leaving n then s else { s with backlog := s.backlog ++ (flitsOf s n m).map fun f => (some n, f) }
  | none => s

/-- Whether a message may leave: what its command sent before it is acknowledged. -/
def Awaiting.may (s : State) (a : Awaiting) : Bool := !s.unacked.any fun u => u.g == a.g && u.cmd == a.cmd && u.n < a.before

/-- R168, R287, R288: what a command sends once the writes before it are acknowledged leaves. -/
def sendAwaiting (s : State) : State :=
  match s.awaiting.findIdx? (Awaiting.may s) with
  | none => s
  | some i =>
    match s.awaiting[i]? with
    | none => s
    | some a => (({ s with awaiting := s.awaiting.eraseIdx i } : State).send a.msg).track s.outbox.length a.g a.cmd

/-- FLIT_RECEIVE: a good flit in order is acknowledged and taken, or passed on towards its package; any other is dropped
and negatively acknowledged. -/
def receiveFlit (s : State) (l : Nat) (flit : BitVec 1024) : State :=
  let x := s.link l
  let f := flit.toNat
  if x.state != 2 || 32 ≤ l then s
  else if !flitGood f || flitSeq f != x.expect then s.ackFlit l x false
  else
    let s := (s.ackFlit l x true).setLink l { x with expect := (x.expect + 1) % 4096 }
    if flitKind f == 0 then s
    else if flitKind f == 4 || flitDst f == s.pkgid then { s with inbox := s.inbox ++ [flit] }
    else { s with backlog := s.backlog ++ [(none, flit)] }

def execFlitReceive (link : Nat) (flit : BitVec 1024) (s : State) : Host.Outcome State Fault Refusal :=
  .next (receiveFlit s link flit)

/-! ### Links going down and coming up (R275, R276) -/

/-- Whether a cause of R275 may take a link down now: replays only after 8 that failed, training only in training. -/
def downAllowed (x : Link) (cause : LinkDownCause) : Bool :=
  match cause with
  | .replays => x.state == 2 && 8 ≤ x.replays
  | .training => x.state == 1
  | .laneLock | .farEnd => x.state != 0

/-- R178, R278: collectives with a member at the far end need a new epoch, and send every member their up links. -/
def State.staleEpochs (s : State) (peer : Nat) : State :=
  s.colls.foldl (fun t e =>
    if e.2.base ≤ peer && peer < e.2.base + e.2.members then
      let c := { e.2 with fresh := false, epoch := e.2.epoch + 1 }
      (t.setColl e.1 c).announceLinks e.1 c
    else t) s

/-- 64-byte units that a message of an engine writes. -/
def Sent.units (m : Sent) : Nat := (m.addr.toNat % 64 + m.data.length + 63) / 64

/-- Whether an element of a sequencer's queue waits for the answer to message n. -/
def State.asks (s : State) (n : Nat) : Bool :=
  s.cores.any fun c => c.2.seqs.any fun q => q.2.queue.any fun e => e.elems.any fun x => x.sent == some n

/-- R148, R253: units that a command of core g will not write, its destination having become absent: they count in oabs, and its
status tells it. -/
def State.missUnits (s : State) (g : Nat) (cmd : Nat × Nat) (n : Nat) : State :=
  let add := fun (x : Status) => if x.code == 0 || x.code == stAbsent then (⟨stAbsent, 0, x.aux + n⟩ : Status) else x
  (s.countAbsent g n).modCore g fun c =>
    let c := c.setQueue cmd.1 ((c.queue cmd.1).modCmd cmd.2 fun d => { d with st := d.st.map add })
    { c with arms := c.arms.map fun a => if a.q == cmd.1 && a.num == cmd.2 then a.miss stAbsent n 0 else a }

/-- R253: a request that is lost with its destination is acknowledged no more. What an engine wrote so is counted; an element of a
queue is counted when its access comes to its end. -/
def loseRequest (s : State) (u : Unacked) : State :=
  if s.asks u.n then s
  else
    let t : State := { s with unacked := s.unacked.filter fun v => v.n != u.n }
    match u.cmd, s.outbox[u.n]? with
    | some c, some m => t.missUnits u.g c m.units
    | _, _ => t

/-- R287, R288: what was to follow a lost write does not leave; a counter's increase is counted. -/
def loseAwaiting (s : State) (a : Awaiting) : State :=
  match a.cmd with
  | some c => if a.msg.kind == .amo then s.missUnits a.g c 1 else s
  | none => s

/-- Packages no longer reachable: absent under R253 to what was sent to them, and lost to their collectives (R179). -/
def State.losePeers (s : State) (lost : List Nat) : State :=
  let s := (s.unacked.filter fun u => (s.outbox[u.n]?).any fun m => lost.contains m.pkg).foldl loseRequest s
  let s := (s.awaiting.filter fun a => lost.contains a.msg.pkg).foldl loseAwaiting s
  ({ s with awaiting := s.awaiting.filter (fun a => !lost.contains a.msg.pkg),
            peers := s.peers.filter fun p => !lost.contains p } : State).loseMembers

/-- A link is down: its unacknowledged flits are handed back to routing, ahead of those that wait (R275, R277). -/
def State.dropLink (s : State) (l : Nat) : State :=
  let x := s.link l
  ({ s with backlog := x.buffer ++ s.backlog } : State).setLink l { x with state := 0, replays := 0, buffer := [], next := 0, expect := 0, wired := 0 }

/-- R275, R277: a link goes down. `lost` names packages to which no path is left; with the last link all are lost. -/
def State.linkFails (s : State) (l : Nat) (lost : List Nat) : State :=
  let x := s.link l
  let s := s.dropLink l
  if x.state == 2 then (s.staleEpochs x.peer).losePeers (if s.upLinks.isEmpty then lost ++ s.peers else lost) else s

/-- LINK_DOWN. -/
def execLinkDown (link : Nat) (cause : LinkDownCause) (lost : List Nat) (s : State) : Host.Outcome State Fault Refusal :=
  .next (if downAllowed (s.link link) cause && link < 32 then s.linkFails link lost else s)

/-- The packages to which a link's failure leaves no path, where nothing names them: of those that are no neighbours over another
link, the ones a free value picks. -/
def State.cutOff (s : State) (l : Nat) : List Nat :=
  s.peers.filter fun p => !((s.upLinks.filter (· != l)).any fun l' => (s.link l').peer == p) && Config.pathLost s.free p

/-- FLIT_REPLAY: a negative acknowledgement makes the transmitter send its unacknowledged flits again, as they stand in its
replay buffer; `again` tells that it names the flit of the last replay, whose replay has then failed. After 8 that failed the link goes
down (R275). -/
def execFlitReplay (link : Nat) (again : Bool) (s : State) : Host.Outcome State Fault Refusal :=
  let x := s.link link
  let n := if again then x.replays + 1 else 0
  .next (if x.state != 2 then s
    else if 8 ≤ n then ({ s with free := s.free + 1 } : State).linkFails link (s.cutOff link)
    else s.setLink link { x with replays := n, wired := 0 })

/-- LINK_TRAINING: training ends; the link is down, fenced or up, with its peer recorded. `gained` names the packages to
which there is now a path. -/
def execLinkTraining (link peer plink : Nat) (ok inPod : Bool) (gained : List Nat) (s : State) :
    Host.Outcome State Fault Refusal :=
  .next (if !s.inPod || (s.link link).state != 1 || 32 ≤ link then s
    else if !ok then s.setLink link { s.link link with state := 0 }
    else if peer == s.pkgid || !inPod then s.setLink link { state := 3, peer := peer % 4096, plink := plink % 32 }
    else
      { s.setLink link { state := 2, peer := peer % 4096, plink := plink % 32 } with
        peers := (s.peers ++ peer % 4096 :: gained).eraseDups.filter fun p => p != s.pkgid })

/-! ### Requests from other packages (R277, R287) -/

/-- A reply to a request: how it was answered (0 performed, 1 unmapped, 2 refused, 3 absent, 4 damaged), and data. -/
def State.reply (s : State) (src seqNo code : Nat) (data : List Byte) : State :=
  s.send ⟨src, 0, BitVec.ofNat 64 seqNo, .reply, BitVec.ofNat 8 code :: data⟩

/-- The code of an answer that refuses. -/
def refusalCode : Answer → Nat
  | .ok _ => 0
  | .xlat => 1
  | .absent => 3
  | .memory => 4
  | .access | .misalign => 2

/-- What a request at a place comes to: the state with its effect, and what is replied. -/
abbrev Served := State × Nat × List Byte

/-- A request whose page stands at a holder in another package goes on to it (R252). -/
def passOn (s : State) (l : Loc) (data : List Byte) : State :=
  match l with
  | .remote p d a => s.send ⟨p, d, a, .forward, data⟩
  | _ => s

/-- An access that an owner in another package sends to this one as the holder of the page (R252): translation has passed there, so the
frame is read or written as it stands, when its region is granted to the identifier (R316). -/
def serveHeld (s : State) (asid die pa n : Nat) (whole : Bool) (f : State → Served) : Served :=
  if !regionGranted s die pa asid then (s, 2, [])
  else if poisoned s (.dram die pa) n && !whole then (s, 4, []) else f s

/-- R316: whether a cluster's token windows take a master of an identifier: one of its cores holds a node of it. -/
def tokenAdmits (s : State) (cl asid : Nat) : Bool := 
  s.cores.any fun c => clusterOfCore c.1 == cl && c.2.node.isSome && c.2.asid == asid

/-- Whether an access writes whole lines, so that it clears their poison (R247, R313). -/
def wholeLines (k : AccKind) (va : Word) (n : Nat) : Bool :=
  (k == .store || k == .engWrite) && va.toNat % 64 == 0 && n % 64 == 0

/-- Performs an access of another package's master at its place, once translation and tables have passed. -/
def serveAt (s : State) (src core asid : Nat) (k : AccKind) (va : Word) (n : Nat) (data : List Byte)
    (f : State → Loc → Served) : Served :=
  let s := s.noteAccess src core asid k va
  match resolveFrom s none asid k va n .accepted with
  | .ok l =>
    match l with
    | .remote .. => (passOn s l data, 0, [])
    | _ => if poisoned s l n && !wholeLines k va n then (s, 4, []) else f s l
  | a => (s, refusalCode a, [])

/-- The reservation a remote sequencer holds here. -/
def State.heldBy (s : State) (src who : Nat) : Option RemoteResv := s.remoteResv.find? fun r => r.pkg == src && r.who == who

/-- Drops it. -/
def State.dropHeld (s : State) (src who : Nat) : State :=
  { s with remoteResv := s.remoteResv.filter fun r => !(r.pkg == src && r.who == who) }

/-- Whether two places share a 64-byte line. -/
def sameLine (a b : Loc) : Bool :=
  match a.key, b.key with
  | some x, some y => x / 64 == y / 64
  | _, _ => false

/-- Whether a request can be taken now: a message needs room (R87), and an arriving handler a place in the queue (R244). -/
def requestFits (s : State) (r : RemoteReq) : Bool :=
  match r with
  | .mbox _ g mb _ => mailRoom (s.core g) mb
  | .store _ _ va _ h =>
    let c := s.core (apertureCore va)
    !isAperture va || ((h == 0 || c.handlers.length < 16) &&
      (winOf (apertureOff va) != some .mbox || mailRoom c ((apertureOff va - 0x1D8000) / 8)))
  | _ => true

/-- A remote AMO performs at its place and returns the old value. -/
def serveAmo (s : State) (src core asid : Nat) (k : AmoKind) (n : Nat) (va : Word) (v : Nat) : Served :=
  serveAt s src core asid .amo va n (leBytes n v) fun s l =>
    let old := readLoc s l n
    (s.writeLoc .outside l (leBytes n (amoNew k old v)) false, 0, leBytes n old)

/-- R316, R277: the effect of a request. -/
def serveRequest (s : State) (src core : Nat) (r : RemoteReq) : Served :=
  match r with
  | .load asid eng va n =>
    serveAt s src core asid (if eng then .engRead else .load) va n [] fun s l => (s, 0, leBytes n (readLoc s l n))
  | .store asid eng va data h =>
    serveAt s src core asid (if eng then .engWrite else .store) va data.length data fun s l =>
      ((s.writeLoc .outside l data false).arrive core h [(l, data.length)], 0, [])
  | .amo asid op w va v => serveAmo s src core asid (.int op w) (amoBytes w) va v.toNat
  | .famo asid op va v => serveAmo s src core asid (.fp op) 4 va v.toNat
  | .lr asid who w va =>
    serveAt s src core asid .lr va (amoBytes w) [] fun s l =>
      let t := s.dropHeld src who
      ({ t with remoteResv := t.remoteResv ++ [⟨src, who, l⟩] }, 0, leBytes (amoBytes w) (readLoc s l (amoBytes w)))
  | .sc asid who w va v =>
    serveAt s src core asid .sc va (amoBytes w) (leBytes (amoBytes w) v.toNat) fun s l =>
      if (s.heldBy src who).any fun r => sameLine r.loc l then
        ((s.dropHeld src who).writeLoc .outside l (leBytes (amoBytes w) v.toNat) false, 0, [0])
      else (s.dropHeld src who, 0, [1])
  | .bump asid va =>
    serveAt s src core asid .engWrite va 8 [] fun s l => (s.writeLoc .outside l (leBytes 8 (readLoc s l 8 + 1)) false, 0, [])
  | .mbox asid g mb v =>
    let c := s.core g
    if c.node.isSome && c.asid == asid then ((s.record g 1 0 (0x1D8000 + 8 * (mb % 8)) 8 v.toNat).modCore g fun c => c.postMail mb v, 0, []) else (s, 2, [])
  | .token asid cl slot err => if tokenAdmits s cl asid then (s.putToken cl slot true err none, 0, []) else (s, 2, [])
  | .heldRead asid die pa n => serveHeld s asid (die % 4) pa n false fun s => (s, 0, leBytes n (readLoc s (.dram (die % 4) pa) n))
  | .heldWrite asid die pa data =>
    serveHeld s asid (die % 4) pa data.length (pa % 64 == 0 && data.length % 64 == 0) fun s =>
      (s.writeLoc .outside (.dram (die % 4) pa) data false, 0, [])

/-- REMOTE_REQUEST: a request of core `core` of package `src`, performed at most once and acknowledged; a copy of one
already performed is discarded. -/
def execRemoteRequest (src core seqNo : Nat) (r : RemoteReq) (s : State) : Host.Outcome State Fault Refusal :=
  .next (if !s.inPod || src == s.pkgid || s.remoteDone.contains (src, seqNo) || !requestFits s r then s
    else
      let (t, code, data) := serveRequest s src core r
      ({ t.sidesSince s none with remoteDone := t.remoteDone ++ [(src, seqNo)] } : State).reply src seqNo code data)

end Sys2Proof.Machine
end

