-- ==== Sys2Proof/Machine/Record.lean ====
section
/-! DEFINITION. Node records (R197, R199 to R201), rectangles (R202), completion records and retirement (R204, R205), and
what leaving its cores does to a node. -/
namespace Sys2Proof.Machine

/-! ### The scheduler as a master of the pool's address space (R198, R204) -/

/-- A master of this package that is no core: the scheduler and Derdengo. -/
def noCore : Nat := nCores

/-- n bytes at a virtual address of an identifier; none when they cannot be read. What another package holds is a free value
(log entry 43). -/
def schedRead (s : State) (asid : Nat) (va : Word) (n : Nat) : Option (List Byte) :=
  match resolveFrom s (some noCore) asid .load va n .accepted with
  | .ok (.remote ..) => (Config.remoteRecord s.free va).map fun b => (List.range n).map fun i => b.getD i 0
  | .ok (.doorbell ..) | .ok .absent => none
  | .ok l => if poisoned s l n then none else some (leBytes n (readLoc s l n))
  | _ => none

/-- Writes bytes at a virtual address of an identifier; a write that is refused is lost. -/
def schedWrite (s : State) (asid : Nat) (va : Word) (b : List Byte) : State :=
  match resolveFrom s (some noCore) asid .store va b.length .accepted with
  | .ok (.doorbell ..) => s
  | .ok l => s.writeLoc .outside l b false
  | _ => s

/-- `time` (R9). -/
def State.time (s : State) : Nat := s.cycle * 10 / 21

/-! ### Node records -/

/-- A launch pool. -/
def State.pool (s : State) (p : Nat) : Pool := tabGet {} s.pools p

/-- Replaces it. -/
def State.setPool (s : State) (p : Nat) (x : Pool) : State := { s with pools := tabPut s.pools p x }

/-- The address of record i of a pool. -/
def recAddr (x : Pool) (i : Nat) : Word := x.base + BitVec.ofNat 64 (64 * i)

/-- R200: the bits of a record; 0 when it cannot be read. -/
def recBits (s : State) (x : Pool) (i : Nat) : Nat := leNat ((schedRead s x.asid (recAddr x i) 64).getD [])

/-- R199: the state of a record. -/
def recState (s : State) (x : Pool) (i : Nat) : Nat := bitsOf (recBits s x i) 7 0

/-- The scheduler writes a record's state. -/
def State.setRecState (s : State) (p i code : Nat) : State :=
  schedWrite s (s.pool p).asid (recAddr (s.pool p) i) [BitVec.ofNat 8 code]

/-- R200: the node that a record describes, taken up with a rank. -/
def nodeOfRec (s : State) (p i w rank : Nat) : Node :=
  { pool := p, idx := i, preds := (List.range 8).map fun k => bitsOf w (16 * k + 399) (16 * k + 384),
    entry := BitVec.ofNat 64 (bitsOf w 383 320), arg := BitVec.ofNat 64 (bitsOf w 319 256),
    plane := BitVec.ofNat 64 (bitsOf w 255 192), done := BitVec.ofNat 64 (bitsOf w 191 128), launchid := bitsOf w 127 96,
    power := bitsOf w 95 88, scratch := bitsOf w 87 73, lw := bitsOf w 72 70, lh := bitsOf w 69 67, seq := bitsOf w 66 63,
    vctx := bitsOf w 62 61, tiles := bitsOf w 60 57, accs := bitsOf w 56 54, cls := bitsOf w 53 52, tol := bitOf w 51,
    asid := (s.pool p).asid, rank := rank, eff := bitsOf w 53 52 }

/-! ### Rectangles (R202) -/

/-- The cores of a rectangle at an origin. -/
def rectAt (lw lh o : Nat) : List Nat := (List.range (2 ^ lh)).flatMap fun j => (List.range (2 ^ lw)).map fun i => o + 32 * j + i

/-- The cores a placed node holds. -/
def Node.cores (n : Node) : List Nat :=
  match n.placed, n.origin with
  | true, some o => rectAt n.lw n.lh o
  | _, _ => []

/-- The cores of a node that its sequencers run on. -/
def Node.live (n : Node) : List Nat := if n.dispatched then n.cores else []

/-- Every origin a rectangle may have, by ascending core number. -/
def origins (n : Node) : List Nat :=
  (List.range (32 / 2 ^ n.lh)).flatMap fun j => (List.range (32 / 2 ^ n.lw)).map fun i => 32 * (j * 2 ^ n.lh) + i * 2 ^ n.lw

/-- The clusters of some cores. -/
def clustersOf (l : List Nat) : List Nat := (l.map clusterOfCore).eraseDups

/-- The dies of some cores. -/
def diesOf (l : List Nat) : List Nat := (l.map dieOfCore).eraseDups

/-! ### Take-up checks (R201) -/

/-- Whether the node's power could be met on an empty package. -/
def powerFits (s : State) (n : Node) : Bool :=
  (origins n).any fun o => (diesOf (rectAt n.lw n.lh o)).all fun d => n.power ≤ (s.die d).budget

/-- R201: the field of a record that the first failing check judges. -/
def recFault (s : State) (x : Pool) (i w : Nat) (n : Node) : Option Nat :=
  let bad := fun (l : List (Bool × Nat)) => (l.find? fun c => c.1).map (·.2)
  let preds := n.preds.zipIdx.map fun p => (p.1 != 0xFFFF && (p.1 == i || x.cap ≤ p.1), 384 + 16 * p.2)
  let perCluster := min (2 ^ n.lw) 2 * min (2 ^ n.lh) 2
  (((bad [(bitsOf w 50 8 != 0, 8), (decide (4 < n.accs), 54), (decide (8 < n.tiles), 57), (decide (2 < n.vctx), 61),
      (n.seq == 0 || decide (8 < n.seq), 63), (decide (5 < n.lh), 67), (decide (5 < n.lw), 70),
      (decide (16384 < n.scratch), 73), (decide (64 < n.power), 88)]).orElse fun _ =>
    bad [(decide (n.seq < n.vctx), 61)]).orElse fun _ =>
    bad [(n.done.toNat % 64 != 0, 128), (n.plane.toNat % 64 != 0, 192), (n.entry.toNat % 4 != 0, 320)]).orElse fun _ =>
    (bad preds).orElse fun _ =>
      bad [(decide (8 < n.tiles * perCluster), 57), (decide (4 < n.accs * perCluster), 54), (!powerFits s n, 88)]

/-! ### Completion (R204, R205) -/

/-- The earliest fault of a node: by time, then core, then sequencer. -/
def firstFault (l : List FaultRec) : Option FaultRec :=
  l.foldl (fun best f => match best with
    | none => some f
    | some b => if f.time < b.time || (f.time == b.time && (f.g < b.g || (f.g == b.g && f.k < b.k))) then some f else some b) none

/-- R204: the completion record. -/
def completionRecord (s : State) (n : Node) (status detail aux : Nat) : List Byte :=
  let f := (firstFault n.faults).getD ⟨0, 0, 0, 0, 0, 0⟩
  leBytes 64 (status % 2 ^ 16 + detail % 2 ^ 16 * 2 ^ 48 + f.cause % 2 ^ 8 * 2 ^ 72 + f.g % 2 ^ 10 * 2 ^ 80 + f.k % 8 * 2 ^ 90 +
    aux % 2 ^ 32 * 2 ^ 128 + n.launchid * 2 ^ 160 + n.npre % 2 ^ 32 * 2 ^ 192 + n.oabs % 2 ^ 32 * 2 ^ 224 +
    s.time % 2 ^ 64 * 2 ^ 256 + n.tstart % 2 ^ 64 * 2 ^ 320 + f.fpc.toNat * 2 ^ 384 + f.tval.toNat * 2 ^ 448)

/-- A dormant sequencer with the breakpoints that the debug fabric set in it. -/
def Seq.bare (q : Seq) : Seq := { breakpoints := q.breakpoints }

/-- The cluster once some of its cores are left: none of their sequencers holds or waits for the lease. -/
def Cluster.left (c : Cluster) (l : List Nat) : Cluster :=
  let out := c.holder.any fun w => l.contains w.1
  { c with
    holder := if out then none else c.holder, giveUp := c.giveUp && !out, implicitLease := c.implicitLease && !out,
    waiters := c.waiters.filter fun w => !l.contains w.1, implicits := c.implicits.filter fun w => !l.contains w.1 }

/-- A node leaves its cores: its grammar contexts are unbound, its sequencers return to dormant (R15) and leave the lease,
and its Ride demand falls (R212). -/
def State.leaveCores (s : State) (n : Node) : State :=
  let l := n.cores
  let id := (n.pool, n.idx)
  let bound := (clustersOf n.live).flatMap fun cl => ((s.cluster cl).grammars.filter fun e => l.contains e.2.g).map fun e => (e.2.g, e.1)
  let s := bound.foldl (fun t e => t.unbind e.1 e.2) s
  let s := (clustersOf n.live).foldl (fun t cl => t.modCluster cl fun c => c.left n.live) s
  let s := l.foldl (fun t g => t.modCore g fun c =>
    { c with node := if c.node == some id then none else c.node, seqs := if c.node == some id then c.seqs.map (fun q => (q.1, q.2.bare)) else c.seqs,
             reservedFor := if c.reservedFor == some id then none else c.reservedFor,
             prof := if c.node == some id then none else c.prof }) s
  let s := s.modNode id fun m => { m with placed := false, dispatched := false }
  { (diesOf l).foldl (fun t d => t.adjustRide d) s with sched := { s.sched with due := true } }

/-- The reservation made for a node (R215) is released. -/
def State.unreserve (s : State) (n : Node) : State :=
  let id := (n.pool, n.idx)
  let held := (n.reserve.map (rectAt n.lw n.lh)).getD []
  let s := held.foldl (fun t g => t.modCore g fun c =>
    { c with reservedFor := if c.reservedFor == some id then none else c.reservedFor }) s
  s.modNode id fun m => { m with reserve := none }

/-- R204: a node retires: the completion record, then state RETIRED. -/
def State.retire (s : State) (n : Node) (status detail aux : Nat) : State :=
  let s := if n.placed then s.leaveCores n else s
  let s := s.unreserve n
  let s := schedWrite s n.asid n.done (completionRecord s n status detail aux)
  let s := s.setRecState n.pool n.idx 6
  let p := s.pool n.pool
  { s.setPool n.pool { p with retired := tabPut p.retired n.idx status } with
    nodes := s.nodes.filter fun m => !(m.pool == n.pool && m.idx == n.idx) }

def nsCancelled : Nat := 0x13
def nsFault : Nat := 0x20
def nsPlane : Nat := 0x21
def nsRejected : Nat := 0x22

/-! ### Predecessors (R201) -/

/-- What a waiting node's predecessors come to: a failed one, all retired, or still waiting. -/
inductive PredsNow where
  | failed (i : Nat)
  | done
  | wait
  deriving DecidableEq, Repr

def predsNow (s : State) (n : Node) : PredsNow :=
  let x := s.pool n.pool
  let named := n.preds.filter fun p => p != 0xFFFF
  let retired := fun (p : Nat) => recState s x p == 6
  match named.find? fun p => retired p && tabGet 0 x.retired p != 0 && !n.tol with
  | some p => .failed p
  | none => if named.all retired then .done else .wait

/-- Settles the waiting nodes once: the first that a predecessor decides retires or becomes READY. -/
def settleOne (s : State) : Option State :=
  let act := fun (n : Node) => match predsNow s n with
    | .failed p => some (s.retire n nsCancelled 2 p)
    | .done =>
      let t := (s.modNode (n.pool, n.idx) fun m => { m with st := .ready }).setRecState n.pool n.idx 3
      some { t with sched := { t.sched with due := true } }
    | .wait => none
  (s.nodes.filter fun n => n.st == .waiting).findSome? act

/-- Settles until nothing more is decided. -/
def settleWaiting : Nat → State → State
  | 0, s => s
  | n + 1, s =>
    match settleOne s with
    | some t => settleWaiting n t
    | none => s

/-- A node retires, and what that decides for the nodes that wait. -/
def State.retireNode (s : State) (n : Node) (status detail aux : Nat) : State :=
  settleWaiting (2 * s.nodes.length) (s.retire n status detail aux)

/-! ### Doorbells (R198) -/

/-- The scheduler scans one record: a SUBMITTED record is checked and taken up. -/
def takeUp (s : State) (p i : Nat) : State :=
  let x := s.pool p
  if x.cap ≤ i || recState s x i != 1 then s
  else
    let w := recBits s x i
    let n := nodeOfRec s p i w s.sched.nextRank
    match recFault s x i w n with
    | some f => s.retire n nsRejected f 0
    | none =>
      let n := { n with image := (List.range 16).map fun k => schedRead s x.asid (n.plane + BitVec.ofNat 64 (64 * k)) 64 }
      let s := s.setRecState p i 2
      { s with nodes := s.nodes ++ [n], sched := { s.sched with nextRank := s.sched.nextRank + 1 } }

/-- Scans records from `i` up. -/
def scanRecords (p : Nat) : Nat → Nat → State → State
  | 0, _, s => s
  | n + 1, i, s => scanRecords p n (i + 1) (takeUp s p i)

/-- DOORBELL: the oldest doorbell store is heard; it may name any pool of the identifier that the store was made under. -/
def hearDoorbell (s : State) : State :=
  match s.doorbells with
  | [] => s
  | (_, asid, v) :: rest =>
    let s := { s with doorbells := rest }
    let v := v.toNat
    let p := bitsOf v 37 32
    let x := s.pool p
    if bitsOf v 63 38 != 0 || !tabHas s.pools p || x.asid != asid || x.closing then s
    else
      let s := scanRecords p (min (bitsOf v 31 16) x.cap) (bitsOf v 15 0) s
      settleWaiting (2 * s.nodes.length) s

def execDoorbell (s : State) : Host.Outcome State Fault Refusal := .next (hearDoorbell s)

end Sys2Proof.Machine
end

