-- ==== Sys2Proof/Machine/Launch.lean ====
section
/-! DEFINITION. The scheduler's rounds (R211 to R215): fit, placement, aging, anchors and requests for pre-emption. -/
namespace Sys2Proof.Machine

/-! ### Who holds and reserves what (R212, R344) -/

/-- R344: the compute island of a core: 16·die + 4·(y mod 16 div 4) + x mod 16 div 4. -/
def islandOf (g : Nat) : Nat := 16 * dieOfCore g + 4 * (g / 32 % 16 / 4) + g % 32 % 16 / 4

/-- The node resident on a core: dispatched there, or placed there and on its way. -/
def residentOf (s : State) (g : Nat) : Option Node :=
  match s.nodeOf g with
  | some n => some n
  | none => ((s.core g).reservedFor.bind s.findNode).filter fun n => n.placed

/-- The two names of a node. -/
def Node.id (n : Node) : Nat × Nat := (n.pool, n.idx)

/-- Nodes other than n for which R215 reserves an origin. -/
def reservers (s : State) (n : Node) : List Node := s.nodes.filter fun m => m.reserve.isSome && m.id != n.id

/-- Cores of cluster cl. -/
def coresOfCluster (cl : Nat) : List Nat := (List.range 4).map (coreOfCluster cl)

/-- R212: physical tiles or accumulators (as `amount` tells) of a cluster that are not free for node n; the residents
that `gone` names are taken as gone. What R215 reserves is taken first from those that it pre-empts. -/
def heldIn (s : State) (n : Node) (amount : Node → Nat) (gone : Node → Bool) (cl : Nat) : Nat :=
  let here := (coresOfCluster cl).filterMap fun g => (residentOf s g).filter fun m => !gone m
  let rs := reservers s n
  let evicted := fun (r m : Node) => m.preemptFor == some r.id
  let plain := ((here.filter fun m => !(rs.any fun r => evicted r m)).map amount).sum
  let held := rs.map fun r =>
    max ((here.filter (evicted r)).map amount).sum
      (amount r * (((r.reserve.map (rectAt r.lw r.lh)).getD []).filter fun g => clusterOfCore g == cl).length)
  plain + held.sum

/-- R212: the power demands on die d of the residents and of R215's reservations. -/
def demandOn (s : State) (n : Node) (gone : Node → Bool) (d : Nat) : Nat :=
  let res := s.nodes.filter fun m => m.placed && !gone m && m.cores.any fun g => dieOfCore g == d
  let rs := (reservers s n).filter fun r => ((r.reserve.map (rectAt r.lw r.lh)).getD []).any fun g => dieOfCore g == d
  (res.map (·.power)).sum + (rs.map (·.power)).sum

/-- Whether core g lies in another node's anchor (R214). -/
def inAnchor (s : State) (n : Node) (g : Nat) : Bool :=
  s.nodes.any fun m => m.id != n.id && ((m.anchor.map (rectAt m.lw m.lh)).getD []).contains g

/-- R212 item 1 for one core. -/
def coreFree (s : State) (n : Node) (gone : Node → Bool) (g : Nat) : Bool :=
  ((residentOf s g).all gone) && ((s.core g).reservedFor.all fun i => i == n.id || (s.findNode i).any fun m => m.placed && gone m) &&
    !inAnchor s n g && !s.gated.contains (islandOf g) && !(s.die (dieOfCore g)).absent

/-- R212: whether an origin fits a node, the residents that `gone` names taken as gone. -/
def fitsWithout (s : State) (n : Node) (gone : Node → Bool) (o : Nat) : Bool :=
  let l := rectAt n.lw n.lh o
  let per := fun (cl : Nat) => (l.filter fun g => clusterOfCore g == cl).length
  l.all (coreFree s n gone) &&
    (clustersOf l).all (fun cl => heldIn s n (·.tiles) gone cl + n.tiles * per cl ≤ 8 &&
      heldIn s n (·.accs) gone cl + n.accs * per cl ≤ 4) &&
    (diesOf l).all fun d => demandOn s n gone d + n.power ≤ (s.die d).budget

/-- R212. -/
def fits (s : State) (n : Node) (o : Nat) : Bool := fitsWithout s n (fun _ => false) o

/-! ### Placement (R213) -/

/-- The origins a round may place a node on, by ascending core number: a PREEMPTED node's own (R213), an anchored one's
anchor (R214) and what is reserved for it (R215), else all. -/
def candidates (n : Node) : List Nat :=
  if n.st == .preempted then n.origin.toList
  else
    match n.anchor, n.reserve with
    | none, _ => origins n
    | some a, some r => if a ≤ r then [a, r] else [r, a]
    | some a, none => [a]

/-- A node is placed on an origin: its cores are kept for it until it is dispatched there. -/
def State.placeNode (s : State) (n : Node) (o : Nat) : State :=
  let s := s.unreserve n
  let s := (rectAt n.lw n.lh o).foldl (fun t g => t.modCore g fun c => { c with reservedFor := some n.id }) s
  s.modNode n.id fun m => { m with placed := true, origin := some o, anchor := none }

/-! ### Passing over (R214, R215) -/

/-- Nodes whose cores meet a rectangle. -/
def residentsAt (s : State) (l : List Nat) : List Node := s.nodes.filter fun m => m.placed && m.cores.any l.contains

/-- R214: the least origin that would fit if its cores held no node, and that overlaps no earlier anchor. -/
def findAnchor (s : State) (n : Node) : Option Nat :=
  let list := if n.st == .preempted then n.origin.toList else origins n
  list.find? fun o =>
    let l := rectAt n.lw n.lh o
    fitsWithout s n (fun m => m.cores.any l.contains) o

/-- R214: one more pass. -/
def State.age (s : State) (n : Node) : State :=
  if n.anchor.isSome then s
  else
    let p := n.passes + 1
    if p < s.sched.a then s.modNode n.id fun m => { m with passes := p }
    else if n.eff < 3 then s.modNode n.id fun m => { m with eff := n.eff + 1, passes := 0 }
    else
      match findAnchor s n with
      | some o =>
        { s.modNode n.id fun m => { m with passes := p, anchor := some o, anchorRank := s.sched.nextAnchor } with
          sched := { s.sched with nextAnchor := s.sched.nextAnchor + 1 } }
      | none => s.modNode n.id fun m => { m with passes := p }

/-- R215: an origin at which pre-emption would let the node fit, with its residents. -/
def preemptable (s : State) (n : Node) (o : Nat) : Option (List Node) :=
  let l := rectAt n.lw n.lh o
  let rs := residentsAt s l
  if !rs.isEmpty && rs.all (fun m => m.st == .running && m.cls < n.cls && m.preemptAt.isNone && !m.teardown) &&
      fitsWithout s n (fun m => m.cores.any l.contains) o
  then some rs else none

/-- The origin with the fewest residents, then of least core number. -/
def bestPreempt (s : State) (n : Node) : Option (Nat × List Node) :=
  (origins n).foldl (fun best o => match preemptable s n o, best with
    | some rs, some b => if rs.length < b.2.length then some (o, rs) else some b
    | some rs, none => some (o, rs)
    | none, b => b) none

/-- R309: the request to stop reaches every sequencer of a core that runs. -/
def State.requestStop (s : State) (g : Nat) : State :=
  s.modCore g fun c => { c with seqs := c.seqs.map fun q =>
    (q.1, if q.2.status == .ready || q.2.status == .blocked then { q.2 with stopReq := true } else q.2) }

/-- R215: pre-emption of the residents of an origin is requested, and the origin reserved. -/
def State.reserveBy (s : State) (n : Node) (o : Nat) (rs : List Node) : State :=
  let s := rs.foldl (fun t m =>
    m.live.foldl (fun u g => u.requestStop g)
      (t.modNode m.id fun m => { m with preemptAt := some t.cycle, preemptFor := some n.id, inTime := false })) s
  let s := (rectAt n.lw n.lh o).foldl (fun t g => t.modCore g fun c => { c with reservedFor := some n.id }) s
  s.modNode n.id fun m => { m with reserve := some o }

/-- A node is passed over. `refused` names the nodes for whose requests Derdengo can hold no spill storage (R216). -/
def State.passOver (s : State) (n : Node) (refused : List (Nat × Nat)) : State :=
  let s := s.age n
  if refused.contains n.id || n.st == .preempted || n.reserve.isSome then s
  else
    match bestPreempt s n with
    | some (o, rs) => s.reserveBy n o rs
    | none => s

/-! ### A round (R211) -/

/-- R211's order. -/
def roundBefore (a b : Node) : Bool :=
  if a.eff != b.eff then b.eff < a.eff
  else
    match a.anchor, b.anchor with
    | some _, some _ => a.anchorRank ≤ b.anchorRank
    | some _, none => true
    | none, some _ => false
    | none, none => a.rank ≤ b.rank

/-- Whether a node is in the ready pool. -/
def Node.pooled (n : Node) : Bool := (n.st == .ready || n.st == .preempted) && !n.placed

/-- One node of the ready pool is considered. -/
def consider (refused : List (Nat × Nat)) (s : State) (id : Nat × Nat) : State :=
  match s.findNode id with
  | none => s
  | some n =>
    if !n.pooled then s
    else
      match (candidates n).find? (fits s n) with
      | some o => s.placeNode n o
      | none => s.passOver n refused

/-- Whether a round begins now: one is due, or 4 µs (8,400 cycles) have passed since the last. -/
def roundDue (s : State) : Bool := s.sched.due || decide (s.sched.last + 8400 ≤ s.cycle)

/-- SCHEDULER_ROUND. -/
def schedulerRound (s : State) (refused : List (Nat × Nat)) : State :=
  if !roundDue s || s.halted || s.held then s
  else
    let ids := ((s.nodes.filter (·.pooled)).mergeSort roundBefore).map (·.id)
    ids.foldl (consider refused) { s with sched := { s.sched with due := false, last := s.cycle } }

def execSchedulerRound (refused : List (Nat × Nat)) (s : State) : Host.Outcome State Fault Refusal :=
  .next (schedulerRound s refused)

end Sys2Proof.Machine
end

