-- ==== Sys2Proof/Machine/Gang.lean ====
section
/-! DEFINITION. Configuration planes (R206 to R208), the state of cores and sequencers at dispatch (R13, R21, R209), gang
dispatch (R210), arrival handlers (R244, R245), retirement (R204, R332) and interval checkpoints (R326). -/
namespace Sys2Proof.Machine

/-! ### Plane images (R206, R207) -/

/-- The n-byte value at an offset of a plane image. -/
def planeNat (b : List Byte) (o n : Nat) : Nat := leNat ((b.drop o).take n)

/-- Fields of a queue binding at its value. -/
def bindKind (v : Nat) : Nat := bitsOf v 30 28
def bindSlots (v : Nat) : Nat := bitsOf v 27 15
def bindBase (v : Nat) : Nat := 32 * bitsOf v 14 0

/-- R206: an access-table entry. -/
def planeEntry (v : Nat) : PlaneEntry := ⟨bitOf v 63, bitsOf v 62 61, bitOf v 60, bitsOf v 59 58, bitsOf v 27 14, bitsOf v 13 0⟩

/-- R207, one value at a time: offset, and whether the field there is bad. -/
def tileField (b : List Byte) (tiles k : Nat) : Nat × Bool :=
  let o := 0x180 + 4 * k
  let v := planeNat b o 4
  let c := tileCfgOf v
  (o, if tiles ≤ k then v != 0 else decide (13 < c.tag) || c.cols == 0 || decide (elemsOf c.tag < c.cols))

def accField (b : List Byte) (accs k : Nat) : Nat × Bool :=
  let o := 0x1A0 + k
  let v := planeNat b o 1
  (o, if accs ≤ k then v != 0 else !(v == 7 || v == 14))

def expectField (b : List Byte) (k : Nat) : Nat × Bool := (0x1B0 + 2 * k, decide (8192 < planeNat b (0x1B0 + 2 * k) 2))

def bindField (b : List Byte) (limit k : Nat) : Nat × Bool :=
  let o := 0x1D0 + 8 * k
  let v := planeNat b o 8
  (o, bitsOf v 63 31 != 0 || bindKind v == 7 ||
    (bindKind v != 0 && (decide (bindSlots v < 2) || decide (4096 < bindSlots v) || decide (limit < bindBase v + 32 * bindSlots v))))

/-- A sequencer's allocator regions, one element of ten words (log entry 37). -/
def allocField (b : List Byte) (limit seq k : Nat) : Nat × Bool :=
  let o := 0x250 + 40 * k
  let v := fun (i : Nat) => planeNat b (o + 4 * i) 4
  (o, if seq ≤ k then (List.range 10).any fun i => v i != 0
      else decide (v 1 < v 0) || decide (limit < v 1) ||
        [2, 4, 6, 8].any fun i => v (i + 1) != 0 && decide (limit < v i + v (i + 1)))

def entryField (b : List Byte) (limit k : Nat) : Nat × Bool :=
  let o := 0x390 + 16 * k
  let v := planeNat b o 16
  let e := planeEntry v
  (o, bitsOf v 127 64 != 0 || bitsOf v 57 28 != 0 || e.window == 3 || e.scope == 3 ||
    (e.valid && decide (limit < 64 * (e.base + e.length))))

/-- R207: every field of a plane for a node, by ascending offset. -/
def planeFields (b : List Byte) (n : Node) : List (Nat × Bool) :=
  let limit := 64 * n.scratch
  (List.range 8).map (tileField b n.tiles) ++ (List.range 4).map (accField b n.accs) ++ [(0x1A4, planeNat b 0x1A4 12 != 0)] ++
    (List.range 16).map (expectField b) ++ (List.range 16).map (bindField b limit) ++
    (List.range 8).map (allocField b limit n.seq) ++ (List.range 4).map (entryField b limit) ++
    [(0x3D0, planeNat b 0x3D0 44 != 0)]

/-- R205, R208: what is wrong with a plane: 0xFFFF for its checksum, else the offset of its first bad field. -/
def planeFault (b : List Byte) (n : Node) : Option Nat :=
  if planeNat b 0x3FC 4 != crc32c (b.take 0x3FC) then some 0xFFFF
  else ((planeFields b n).find? fun f => f.2).map (·.1)

/-- R208: line i of the plane image: as it stands, or, where a program has written it since submission, as it stood. -/
def planeLine (s : State) (n : Node) (i : Nat) : Option (List Byte) :=
  let now := schedRead s n.asid (n.plane + BitVec.ofNat 64 (64 * i)) 64
  if now.isSome && Config.planeOld s.free i then (n.image.getD i none).orElse fun _ => now else now

/-- R208: the plane image, read as 64-byte lines. -/
def readPlane (s : State) (n : Node) : Option (List Byte) :=
  (List.range 16).foldl (fun acc i => acc.bind fun b => (planeLine s n i).map fun l => b ++ l) (some [])

/-! ### What a core holds when it adopts a plane (R206, R209) -/

/-- A queue as its binding gives it (R90). -/
def planeQueue (b : List Byte) (k : Nat) : Queue :=
  let v := planeNat b (0x1D0 + 8 * k) 8
  { kind := bindKind v, n := bindSlots v, base := bindBase v }

/-- A ring of the allocator, fresh (R82). -/
def planeRing (b : List Byte) (k r : Nat) : Ring :=
  { rb := planeNat b (0x258 + 40 * k + 8 * r) 4, rs := planeNat b (0x25C + 40 * k + 8 * r) 4 }

/-- The allocator of sequencer k, fresh. -/
def planeAlloc (b : List Byte) (k : Nat) : Alloc :=
  let bb := planeNat b (0x250 + 40 * k) 4
  { bb := bb, bl := planeNat b (0x254 + 40 * k) 4, bp := bb, rings := Vector.ofFn fun r => planeRing b k r.val }

/-- R206: a barrier's expected count; the default of R85 is every sequencer the launch starts. -/
def planeBarrier (b : List Byte) (n : Node) (k : Nat) : Barrier :=
  let e := planeNat b (0x1B0 + 2 * k) 2
  { expect := if e == 0 then n.seq * 2 ^ n.lw * 2 ^ n.lh else e }

/-- The core that adopts a node's plane. What its flags count and its losses stay only within a node (R242, R329). -/
def Core.adopt (c : Core) (b : List Byte) (n : Node) (o : Nat) (exit : Word) : Core :=
  { c with
    seqs := c.seqs.map (fun q => (q.1, q.2.bare)), node := some n.id, reservedFor := none, lastAsid := some n.asid, x0 := o % 32, y0 := o / 32, lw := n.lw, lh := n.lh,
    entry := n.entry, launchid := n.launchid, asid := n.asid, seqCount := n.seq, scratch := n.scratch, tiles := n.tiles,
    accs := n.accs, tcfg := Vector.ofFn fun k => tileCfgOf (planeNat b (0x180 + 4 * k.val) 4),
    acc := Vector.ofFn fun k => { tag := planeNat b (0x1A0 + k.val) 1 }, park := [],
    queues := Vector.ofFn fun k => planeQueue b k.val, published := 0, mbox := Vector.replicate 8 {}, flags := [], hen := 0x3F,
    handlers := [], plane := b, access := (List.range 4).map fun k => planeEntry (planeNat b (0x390 + 16 * k) 16), arms := [],
    dcache := [], loss := [], prof := n.prof.map (fun k => { n := k, base := 64 * n.scratch }), exitAddr := exit }

/-- Zeroes n bytes of core g's window from an offset up, as dispatch does (R209, R246). -/
def State.zeroRange (s : State) (g off n : Nat) : State :=
  if n == 0 then s
  else
    let key := winKey g off
    ({ s with mem := s.mem.filter fun c => !(decide (key ≤ c.1) && decide (c.1 < key + n)) } : State).noteWrite (.win g off) key n

/-- R246: every line of core g is the node's, as after another node has left it. -/
def State.disown (s : State) (g : Nat) : State :=
  { s with owners := s.owners.filter fun e => !(decide (winKey g 0 / 64 ≤ e.1) && decide (e.1 < winKey (g + 1) 0 / 64)) }

/-- R209: what dispatch zeroes on core g, whose last node ran under identifier `last`. -/
def State.zeroCore (s : State) (n : Node) (zeros : List (Nat × Nat)) (last : Option Nat) (g : Nat) : State :=
  let s := s.disown g
  let s := if last == some n.asid then zeros.foldl (fun t z => t.zeroRange g z.1 z.2) s else s.zeroRange g 0 (64 * n.scratch)
  (s.zeroRange g 0x100000 (0x10000 * n.tiles)).zeroRange g 0x180000 (0x14000 * n.accs)

/-- R145: a cluster in which no other node is resident loses its tokens. One that is placed and not dispatched holds no core yet. -/
def State.clearTokens (s : State) (n : Node) (cl : Nat) : State :=
  if (coresOfCluster cl).any fun g => (s.nodeOf g).any fun m => m.id != n.id then s
  else s.modCluster cl fun c => { c with tokens := [] }

/-! ### NODE_DISPATCH (R208) -/

/-- R22: bounds of the exit address that Derdengo chooses: an address of this package, in no page of the launch and in no pool's
doorbell page. -/
def exitOk (s : State) (n : Node) (a : Word) : Bool :=
  a.toNat % 4 == 0 && !isAperture a && ownerPkg a == s.pkgid && (doorbellAt s n.asid a).isNone &&
    (walk s (ownerDie a) n.asid (vaOffset a)).isNone

/-- R22: the exit addresses that live nodes of an identifier have. No page that holds one is mapped while its node lives. -/
def exitsOf (s : State) (asid : Nat) : List Word :=
  (s.nodes.filter fun n => n.asid == asid && (n.dispatched || n.st == .preempted)).map (·.exitAddr)

/-- The `zero` reservations of a node lie in its range, on lines (R13). -/
def zerosOk (n : Node) (zeros : List (Nat × Nat)) : Bool :=
  zeros.all fun z => z.1 % 64 == 0 && z.1 + z.2 ≤ 64 * n.scratch

/-- All cores of the rectangle adopt the plane together. -/
def State.adoptPlane (s : State) (n : Node) (b : List Byte) (o : Nat) (exit : Word) (zeros : List (Nat × Nat)) : State :=
  let l := n.cores
  let s := (clustersOf l).foldl (fun t cl => t.clearTokens n cl) s
  let s := l.foldl (fun t g =>
    let last := (t.core g).lastAsid
    (t.modCore g fun c => c.adopt b n o exit).zeroCore n zeros last g) s
  let s := s.modNode n.id fun m =>
    { m with dispatched := true, exitAddr := exit, zeros := zeros, barriers := Vector.ofFn fun k => planeBarrier b n k.val }
  (diesOf l).foldl (fun t d => t.adjustRide d) s

/-- NODE_DISPATCH: the plane is read, checked and adopted, or the node retires PLANE-CHECK. -/
def dispatchNode (s : State) (id : Nat × Nat) (exit : Word) (zeros : List (Nat × Nat)) : State :=
  match s.findNode id with
  | none => s
  | some n =>
    if !n.placed || n.dispatched || n.st != .ready || !exitOk s n exit || !zerosOk n zeros || s.halted then s
    else
      let o := n.origin.getD 0
      match readPlane s n with
      | none => s.retireNode n nsPlane 0xFFFF o
      | some b =>
        match planeFault b n with
        | some d => s.retireNode n nsPlane d o
        | none => s.adoptPlane n b o exit zeros

def execNodeDispatch (pool idx : Nat) (exit : Word) (zeros : List (Nat × Nat)) (s : State) : Host.Outcome State Fault Refusal :=
  .next (dispatchNode s (pool, idx) exit zeros)

/-! ### Entry state (R21) -/

/-- R21: the registers of a started sequencer k of core c. -/
def freshRegs (c : Core) (k : Nat) (pc a0 a1 : Word) : Regs :=
  let r : Regs :=
    { pc := pc, sh := Vector.ofFn fun i => BitVec.ofNat 32 (planeNat c.plane (4 * i.val) 4),
      ly := Vector.ofFn fun i => BitVec.ofNat 128 (planeNat c.plane (0x80 + 16 * i.val) 16), alloc := planeAlloc c.plane k,
      p := (Vector.replicate 16 0).set 0 (BitVec.allOnes 1024) }
  ((r.wx 1 c.exitAddr).wx 10 a0).wx 11 a1

/-- A sequencer as the launch starts it. -/
def startedSeq (s : State) (n : Node) (c : Core) (k : Nat) : Seq :=
  let r := freshRegs c k n.entry n.arg (BitVec.ofNat 64 k)
  { status := .ready, r := { r with vctx := decide (k < n.vctx) }, exitAddr := c.exitAddr, asid := n.asid, lastIssue := s.cycle,
    breakpoints := (c.sq k).breakpoints }

/-! ### Checkpoints of intervals (R325, R326) -/

/-- Whether a memory key lies in what a node holds on core g: its scratchpad range, the profiling ring above it (R330),
and its partition. -/
def heldKey (c : Core) (g key : Nat) : Bool :=
  let within := fun (off n : Nat) => decide (winKey g off ≤ key) && decide (key < winKey g off + n)
  within 0 (64 * c.scratch + (c.prof.map fun p => 1856 * p.n).getD 0) || within 0x100000 (0x10000 * c.tiles) ||
    within 0x180000 (0x14000 * c.accs)

/-- The bytes that the node on core g holds. -/
def nodeBytes (s : State) (g : Nat) : List Host.Cell := s.mem.filter fun x => heldKey (s.core g) g x.1

/-- Puts them back, the rest of what the node holds there reading 0. -/
def State.putBytes (s : State) (c : Core) (g : Nat) (b : List Host.Cell) : State :=
  { s with mem := b.foldl (fun m x => memPut m x.1 x.2) (s.mem.filter fun x => !heldKey c g x.1) }

/-- R325: L of the node on core g. -/
def intervalLength (s : State) (g : Nat) : Option Nat := ((s.nodeOf g).bind fun n => n.ivl).map fun k => 2 ^ k

/-- Whether a member's `rwcount` has reached L. -/
def intervalOver (s : State) (g : Nat) : Bool :=
  (intervalLength s g).any fun l => (s.core g).seqs.any fun q => decide (l ≤ q.2.rwcount)

/-- R326: the checkpoint of core g for interval i. -/
def State.checkpoint (s : State) (g i : Nat) : Recording :=
  let c := s.cluster (clusterOfCore g)
  { interval := i, core := s.core g, bytes := nodeBytes s g,
    lease := (c.holder.filter fun w => w.1 == g && !c.giveUp).map fun w => (w.2, c.implicitLease),
    grammars := c.grammars.filter fun e => e.2.g == g }

/-- R326: an interval begins on core g, with its checkpoint when recording is armed. -/
def State.openInterval (s : State) (g i : Nat) : State :=
  let r := s.group g
  let recs := if s.armed g then r.recs ++ [s.checkpoint g i] else r.recs
  s.setGroup g { r with interval := i, ending := none, recs := recs }

/-! ### GANG_DISPATCH (R210) -/

/-- Core g's sequencers start. -/
def State.startCore (s : State) (n : Node) (g : Nat) : State :=
  s.modCore g fun c => (List.range n.seq).foldl (fun c k => c.setSq k (startedSeq s n c k)) c

/-- GANG_DISPATCH: every started sequencer of the rectangle starts together. -/
def gangDispatch (s : State) (id : Nat × Nat) : State :=
  match s.findNode id with
  | none => s
  | some n =>
    if !n.dispatched || n.st != .ready || s.halted then s
    else
      let s := n.cores.foldl (fun t g => t.startCore n g) s
      let s := s.modNode id fun m =>
        { m with st := .running, tstart := s.time, ivl := m.ivl.orElse fun _ => (Config.intervalLog s.free).map fun k => 16 + k % 11 }
      let s := n.cores.foldl (fun t g => (t.setGroup g {}).openInterval g 0) s
      s.setRecState n.pool n.idx 4

def execGangDispatch (pool idx : Nat) (s : State) : Host.Outcome State Fault Refusal := .next (gangDispatch s (pool, idx))

/-! ### HANDLER_START (R244) -/

/-- The sequencer that an arrival starts: the lowest of 2 to 7 that qualifies. -/
def handlerSeq (c : Core) : Option Nat :=
  (List.range 8).find? fun k => 2 ≤ k && c.seqCount ≤ k && (c.sq k).status == .dormant && c.hen.getLsbD (k - 2)

/-- What is left to perform of an access when a handler ends (R22, R245): loads are of no use any more, and what an AMO, an SC or
a receive returns goes nowhere. -/
def EntryOp.orphan : EntryOp → Option EntryOp
  | .load .. | .lr .. | .stream .. | .vload .. | .hprobe .. | .rowRead .. => none
  | .sc w _ => some (.sc w 0)
  | .amo k _ => some (.amo k 0)
  | .mboxRecv _ mb => some (.mboxRecv 0 mb)
  | op => some op

/-- R245: a handler's sequencer started again: what the handler before has left in its queue still performs, and its retired
instructions of the interval count on (R325). -/
def Seq.restart (old new : Seq) : Seq :=
  let left := old.queue.filterMap fun e => (e.op.orphan).map fun op => { e with op := op }
  let sc := left.any fun e => match e.op with
    | .sc .. => true
    | _ => false
  { new with queue := left, resv := if sc then old.resv else none, breakpoints := old.breakpoints, rwcount := old.rwcount }

/-- The oldest waiting arrival of core g starts its handler. The start is an acquire of scope `.pod`. -/
def startHandler (s : State) (g : Nat) : State :=
  let c := s.core g
  match c.handlers, handlerSeq c, s.nodeOf g with
  | a :: rest, some k, some n =>
    if n.st != .running || n.preemptAt.isSome || n.teardown || s.halted then s
    else
      let r := freshRegs c k (n.entry + BitVec.ofNat 64 (4 * a.h)) (BitVec.ofNat 64 a.off) (BitVec.ofNat 64 a.len)
      let q : Seq :=
        (c.sq k).restart { status := .ready, r := r, handler := true, exitAddr := c.exitAddr, asid := n.asid, lastIssue := s.cycle }
      (s.record g 4 k a.h a.len a.off).setCore g { (c.setSq k q) with handlers := rest, dcache := [] }
  | _, _, _ => s

/-- In a re-execution handlers start only as the recording tells (R327). -/
def execHandlerStart (g : Nat) (s : State) : Host.Outcome State Fault Refusal :=
  .next (if s.replaying g then s else startHandler s g)

/-! ### NODE_RETIRE (R204, R332, R195) -/

/-- Whether a sequencer issues no more: dormant, ended, or stopped or halted where it stands. -/
def Seq.still (q : Seq) : Bool := q.status == .dormant || q.status == .ended || q.stopped || q.halted

/-- Whether a sequencer has left the kernel. -/
def Seq.gone (q : Seq) : Bool := q.status == .dormant || q.status == .ended

/-- Whether every listed sequencer of core g passes. -/
def allSeqs (s : State) (g : Nat) (f : Seq → Bool) : Bool := (s.core g).seqs.all fun q => f q.2

/-- No command of core g is outstanding. -/
def coreCommandsDone (s : State) (g : Nat) : Bool :=
  ((List.range 16).all fun i => ((s.core g).queue i).cmds.isEmpty) && (s.core g).arms.isEmpty

/-- R195: a command when its queue is torn down: one that has not fired, and fired index-engine and sparse work, ends
CANCELLED. -/
def cancelCmd (s : State) (g : Nat) (c : Cmd) : Cmd :=
  let w := cmdWord s g c
  if !c.fired then { c with word := some (BitVec.ofNat 256 w), fired := true, st := some ⟨stCancelled, 0, 0⟩ }
  else if isSparseOp (cwOpcode w) then { c with st := some ⟨stCancelled, 0, 0⟩ } else c

/-- Whether a command of a torn-down core is still to be cancelled, or its collective to be ended. -/
def cancelLeft (s : State) (g : Nat) (c : Cmd) : Bool :=
  let op := cwOpcode (cmdWord s g c)
  !c.fired || (c.st.isNone && 0x60 ≤ op && op ≤ 0x64) || (isSparseOp op && !c.st.any fun x => x.code == stCancelled)

/-- Whether an entry is a claim on a mailbox. -/
def Entry.isClaim (e : Entry) : Bool :=
  match e.op with
  | .mboxRecv .. => true
  | _ => false

/-- R332 step 1 for a claim that no message serves: it is discarded with its sequencer. -/
def Core.dropClaims (c : Core) : Core :=
  { c with mbox := c.mbox.map fun m => { m with claims := [] },
           seqs := c.seqs.map fun q => (q.1, { q.2 with queue := q.2.queue.filter fun e => !e.isClaim }) }

/-- R332: a torn-down core whose sequencers stand still: its queues are torn down, its arrivals discarded, and each
sequencer's access that no owner has accepted dropped with it. -/
def State.cancelCore (s : State) (g : Nat) : State :=
  let s := (List.range 16).foldl (fun t q => t.tearDownColls g q) s
  s.modCore g fun c =>
    { c.dropClaims with handlers := [], queues := c.queues.map fun q => { q with cmds := q.cmds.map (cancelCmd s g) },
                        seqs := c.dropClaims.seqs.map fun q => (q.1, { q.2 with pending := none, emul := none }) }

/-- Whether a torn-down core has something left to cancel. -/
def hasUnfired (s : State) (g : Nat) : Bool :=
  !(s.core g).handlers.isEmpty || ((List.range 16).any fun i => ((s.core g).queue i).cmds.any (cancelLeft s g)) ||
    (s.colls.any fun e => e.2.g == g || e.2.op.any fun o => o.g == g) ||
    (s.core g).seqs.any fun q => q.2.pending.isSome || q.2.emul.isSome || q.2.queue.any Entry.isClaim

/-- R255: whether what cores have sent to other packages is acknowledged or counted. -/
def sentDone (s : State) (l : List Nat) : Bool :=
  (s.unacked.all fun u => !l.contains u.g) && s.awaiting.all fun a => !l.contains a.g

/-- NODE_RETIRE: a node whose sequencers have ended and whose accesses and commands are done retires. One that is torn
down first has its queues torn down, once its sequencers stand still. -/
def retireRunning (s : State) (id : Nat × Nat) : State :=
  match s.findNode id with
  | none => s
  | some n =>
    let l := n.live
    let quiet := sentDone s l && l.all fun g => allSeqs s g Seq.drained && coreCommandsDone s g && (s.core g).handlers.isEmpty
    if n.st != .running then s
    else if n.teardown then
      if !(l.all fun g => allSeqs s g Seq.still) then s
      else if l.any (hasUnfired s) then l.foldl (fun t g => t.cancelCore g) s
      else if quiet then s.retireNode n nsCancelled 1 0 else s
    else if quiet && l.all fun g => allSeqs s g Seq.gone then
      match n.faults with
      | [] => s.retireNode n 0 0 0
      | _ :: rest => s.retireNode n nsFault 0 rest.length
    else s

def execNodeRetire (pool idx : Nat) (s : State) : Host.Outcome State Fault Refusal := .next (retireRunning s (pool, idx))

end Sys2Proof.Machine
end

