-- ==== Sys2Proof/Machine/SaveArea.lean ====
section
/-! DEFINITION. The bytes of a save area (R303 to R305). -/
namespace Sys2Proof.Machine

/-- Packs 16 bits, the first lowest. -/
def packBits (l : List Bool) : Nat := l.foldr (fun b n => 2 * n + if b then 1 else 0) 0

/-- R304: the header. -/
def saveHeader (r : Regs) (lease rgn : Bool) (nbin : Nat) (valid : Bool) : Nat :=
  (if valid then 1 else 0) + nbin * 2 ^ 327 + (if rgn then 2 ^ 331 else 0) + (if lease then 2 ^ 332 else 0) +
    (if r.vctx then 2 ^ 333 else 0) + r.loops.length * 2 ^ 334 + r.prb.val * 2 ^ 337 + r.vrb.val * 2 ^ 340 +
    (r.frm.toNat * 32 + r.fflags.toNat) * 2 ^ 344 + packBits r.armed.toList * 2 ^ 352 + packBits r.aphase.toList * 2 ^ 368 +
    r.instret % 2 ^ 64 * 2 ^ 384 + r.pc.toNat * 2 ^ 448

/-- R304: a loop level; none above the depth. Level 0 is the outermost. -/
def levelBytes (r : Regs) (i : Nat) : List Byte :=
  match r.loops.reverse[i]? with
  | some l => leBytes 16 (l.n + l.t * 2 ^ 32 + (l.s - 1) * 2 ^ 64)
  | none => leBytes 16 0

/-- R304: the full/empty bits and tags; bit 0 of xfe is 1. -/
def fullEmpty (r : Regs) : Nat :=
  packBits (true :: r.xfull.toList.drop 1) + packBits r.vfull.toList * 2 ^ 32 +
    leNat ((List.range 16).map fun i => BitVec.ofNat 8 ((r.vtag.toList.getD (2 * i) 0) + 16 * r.vtag.toList.getD (2 * i + 1) 0)) * 2 ^ 64

/-- R303: a fibre or stream register. -/
def streamBytes (fibre : Bool) (x : Stream) : List Byte :=
  if !x.isOpen then leBytes 64 0
  else
    let code := if x.width == 1 then 0 else if x.width == 2 then 1 else if x.width == 4 then 2 else 3
    leBytes 32 (x.base.toNat + x.count * 2 ^ 64 + (if fibre then 0 else (x.stride % 2 ^ 32).toNat * 2 ^ 96) + code * 2 ^ 128 +
      (if x.va then 2 ^ 130 else 0) + (if x.sext then 2 ^ 131 else 0)) ++ leBytes 8 x.pos ++ leBytes 24 1

/-- R303: a ring of the allocator, 112 bytes. -/
def ringBytes (r : Ring) : List Byte :=
  leBytes 4 r.rb ++ leBytes 4 r.rs ++ leBytes 4 r.h ++ leBytes 4 r.u ++ leBytes 4 r.fifo.length ++
    leBytes 64 (leNat (r.fifo.flatMap fun e => leBytes 4 (e.1 / 64 + e.2 / 64 * 2 ^ 16))) ++ leBytes 28 0

/-- R303: a queue: tail, fetch point, last number, completion word. -/
def queueBytes (q : Queue) : List Byte :=
  let fetch := match headCmd q with
    | some c => (c.slot - q.base) / 32
    | none => q.tail
  leBytes 2 q.tail ++ leBytes 2 fetch ++ leBytes 4 q.last ++ leBytes 8 q.comp

/-- Offsets 0x0000 to 0x57FF of a save area. -/
def saveImage (r : Regs) (header : Nat) (queues contexts : List Byte) : List Byte :=
  leBytes 64 header ++ r.x.toList.flatMap (fun w => leBytes 8 w.toNat) ++ r.f.toList.flatMap (fun w => leBytes 4 w.toNat) ++
    ([r.ttvec.toNat, r.tepc.toNat, r.tcause.toNat, r.tval.toNat, r.tscratch.toNat, if r.act then 1 else 0].flatMap (leBytes 8) ++
      leBytes 16 0) ++ (List.range 6).flatMap (levelBytes r) ++ leBytes 32 (fullEmpty r) ++
    r.sh.toList.flatMap (fun w => leBytes 4 w.toNat) ++ r.ly.toList.flatMap (fun w => leBytes 16 w.toNat) ++
    r.fb.toList.flatMap (streamBytes true) ++ r.sm.toList.flatMap (streamBytes false) ++
    (leBytes 4 r.alloc.bb ++ leBytes 4 r.alloc.bl ++ leBytes 4 r.alloc.bp ++ leBytes 52 0 ++ r.alloc.rings.toList.flatMap ringBytes) ++
    queues ++ contexts ++ leBytes 256 0 ++ r.p.toList.flatMap (fun w => leBytes 128 w.toNat) ++
    r.v.toList.flatMap fun w => leBytes 512 (if r.vctx then w.toNat else 0)

/-- Bytes whose places R303 does not fix: free values (log entry 12). -/
def looseBytes (s : State) (i n : Nat) : List Byte := (List.range n).map fun j => Config.freeByte (s.free * 2 ^ 22 + i + j)

/-- The n lowest bits of a field, the lowest first. -/
def fieldBits (n v : Nat) : List Bool := (List.range n).map fun i => bitOf v i

/-- Lays bits at distinct ones of some places: the next bit's place is a free constant of the machine (log entry 47). -/
def laidBits (kind : Nat) : List Nat → List Bool → List (Nat × Bool)
  | _, [] => []
  | places, b :: t =>
    let i := Config.loosePlace kind t.length % max 1 places.length
    (places.getD i 0, b) :: laidBits kind (places.eraseIdx i) t

/-- A block of n bytes that holds the bits at their places; its other bits are free. -/
def looseBlock (s : State) (i n kind : Nat) (l : List Bool) : List Byte :=
  let placed := laidBits kind (List.range (8 * n)) l
  (looseBytes s i n).zipIdx.map fun b => BitVec.ofNat 8 (packBits ((List.range 8).map fun j =>
    match placed.find? fun e => e.1 == 8 * b.2 + j with
    | some e => e.2
    | none => bitOf b.1.toNat j))

/-- R303: a bound grammar context: its bound bit, spl, gid and tab, and the state, depth and status of each branch. -/
def contextBytes (s : State) (i : Nat) (x : Grammar) : List Byte :=
  looseBlock s (64 * i) 64 0 (true :: fieldBits 14 x.spl ++ fieldBits 32 x.gid ++ fieldBits 64 x.tab ++
    (List.range 9).flatMap fun b =>
      let y := tabGet {} x.branches b
      fieldBits 16 y.state ++ fieldBits 11 y.stack.length ++ fieldBits 2 y.status)

/-- R303: a tail checkpoint: its header's address and its mode in the first 64 bytes, then the tails. -/
def tailBytes (s : State) (l : List TailCheckpoint) (i : Nat) : List Byte :=
  match l[i]? with
  | some t => looseBlock s (4096 + 64 * i) 64 1 (t.va :: fieldBits 64 t.hdr.toNat) ++ leBytes 256 (leNat (t.tails.flatMap (leBytes 4)))
  | none => leBytes 320 0

/-- R303: a queue at a region's mark. -/
def markBytes (m : QueueMark) : List Byte := leBytes 2 m.tail ++ leBytes 2 m.fetch ++ leBytes 4 m.last ++ leBytes 8 m.comp

/-- The 64 KiB of a save area that holds a sequencer of core c. -/
def saveBytes (s : State) (x : Save) (c : Core) : List Byte :=
  let r := x.seq.r
  let tails := (x.seq.region.map (·.tails)).getD []
  let contexts := (List.range 16).flatMap fun i => if tabHas x.grammars i then contextBytes s i (tabGet ⟨0, 0, 0, 0, 0, []⟩ x.grammars i) else leBytes 64 0
  let region := match x.seq.region with
    | some g => saveImage g.image (saveHeader g.image g.lease true 0 false) (g.queues.flatMap markBytes) (leBytes 1024 0)
    | none => leBytes 22528 0
  saveImage r (saveHeader r x.lease x.seq.region.isSome tails.length true) (c.queues.toList.flatMap queueBytes) contexts ++
    (List.range 8).flatMap (tailBytes s tails) ++ leBytes 7680 0 ++ region ++ leBytes 10240 0

/-- Where the area of sequencer k of core g stands among the areas. -/
def areaKey (g k : Nat) : Nat := 8 * g + k

/-- A header's first byte with valid cleared (R304, R305). -/
def clearValid (b : Byte) : Byte := b &&& 0xFE

/-- The save area of a sequencer as the debug fabric reads it (R303): what its last save wrote; before the first one only valid is
known, and it is 0 (log entry 47). -/
def saveArea (s : State) (g k : Nat) : List Byte :=
  if tabHas s.areas (areaKey g k) then tabGet [] s.areas (areaKey g k)
  else clearValid (Config.areaByte g k 0) :: (List.range 0xFFFF).map fun i => Config.areaByte g k (i + 1)

/-- R305: the save area is written, with valid set. -/
def State.writeArea (s : State) (x : Save) : State :=
  { s with areas := tabPut s.areas (areaKey x.g x.k) (saveBytes s x (s.core x.g)), free := s.free + 1 }

/-- R305: on resume valid is cleared. -/
def State.clearArea (s : State) (g k : Nat) : State :=
  match saveArea s g k with
  | [] => s
  | b :: rest => { s with areas := tabPut s.areas (areaKey g k) (clearValid b :: rest) }

end Sys2Proof.Machine
end

