-- ==== Sys2Proof/Machine/Preempt.lean ====
section
/-! DEFINITION. Pre-emption across a node (R216, R226, R268, R305, R309 to R311) and the forced stop of a teardown
(R309, R332). -/
namespace Sys2Proof.Machine

/-- Whether every sequencer of a node stands still (R309). -/
def allStill (s : State) (n : Node) : Bool := n.live.all fun g => allSeqs s g Seq.still

/-! ### Throwing a region back (R268) -/

/-- Whether an index-engine or sparse command of the open region had not completed when the sequencer stopped. -/
def mustThrowBack (s : State) (g k : Nat) : Bool :=
  (s.seqAt g k).region.any fun r => r.doomed || (ownCmds s g k).any fun c => isSparseOp (cwOpcode (cmdWord s g c))

/-- Whether the fired commands that run to completion have completed, tile tables among them (R310). -/
def firedDone (s : State) (g k : Nat) : Bool :=
  let stops := mustThrowBack s g k
  (ownCmds s g k).all (fun c => !c.fired || (stops && isSparseOp (cwOpcode (cmdWord s g c)))) &&
    (s.core g).arms.all fun a => a.by_ != k

/-- A queue at a region's mark again: its commands of sequencer k are discarded, and its ring, tail, last number and
completion word return. -/
def Queue.throwBack (q : Queue) (k : Nat) (m : QueueMark) : Queue :=
  { q with base := m.base, n := m.n, tail := m.tail, last := m.last, comp := m.comp, cmds := q.cmds.filter fun c => c.by_ != k }

/-- A checkpointed header's tails are written back. -/
def State.putTails (s : State) (g : Nat) (asid : Nat) (t : TailCheckpoint) : State :=
  (List.range (t.tails.length / 16)).foldl (fun u i =>
    u.writeLoc .unit (placeNow u g asid t.va .vstore (t.hdr + BitVec.ofNat 64 (64 + 64 * i)) 64)
      (((t.tails.drop (16 * i)).take 16).flatMap (leBytes 4)) false) s

/-- R268: a region with unfinished sparse work is thrown back to its mark. -/
def State.throwBack (s : State) (g k : Nat) : State :=
  match (s.seqAt g k).region with
  | none => s
  | some r =>
    let s := s.modCore g fun c =>
      r.queues.zipIdx.foldl (fun c m => if r.used.contains m.2 then c.setQueue m.2 ((c.queue m.2).throwBack k m.1) else c) c
    let s := r.tails.foldl (fun t x => t.putTails g (s.seqAt g k).asid x) s
    s.modSeqAt g k fun q => { q with r := r.image, region := some { r with used := [], tails := [], doomed := false } }

/-! ### SEQUENCER_SAVE (R305) -/

/-- The contexts bound to a sequencer (R189). -/
def boundContexts (s : State) (g k : Nat) : Tab Grammar :=
  (s.cluster (clusterOfCore g)).grammars.filter fun e => e.2.g == g && e.2.k == k

/-- Whether a sequencer holds the lease and has not released it. -/
def keepsLease (s : State) (g k : Nat) : Bool :=
  (s.cluster (clusterOfCore g)).holder == some (g, k) && !(s.cluster (clusterOfCore g)).giveUp

/-- What a save holds of a sequencer; `lease` tells whether it held the lease, and `implicit` that this was an implicit one. -/
def saveOf (s : State) (g k : Nat) (lease implicit : Bool) : Save :=
  { g := g, k := k, seq := { s.seqAt g k with resv := none }, lease := lease, implicit := implicit, grammars := boundContexts s g k }

/-- A sequencer's save is written; its lease is given up (R226), and its grammar contexts go with it (R310). -/
def State.saveSeq (s : State) (n : Node) (save : Save) : State :=
  let g := save.g
  let k := save.k
  let cl := clusterOfCore g
  let s := (s.writeArea save).modCluster cl fun c =>
    { c with holder := if c.holder == some (g, k) then none else c.holder,
             giveUp := if c.holder == some (g, k) then false else c.giveUp,
             waiters := c.waiters.filter fun w => w != (g, k), implicits := c.implicits.filter fun w => w != (g, k),
             grammars := c.grammars.filter fun e => !(e.2.g == g && e.2.k == k) }
  s.modNode n.id fun m => { m with saves := m.saves ++ [save] }

/-- Whether a sequencer's save stands. -/
def Node.saved (n : Node) (g k : Nat) : Bool := n.saves.any fun x => x.g == g && x.k == k

/-- R309, R310: whether a node has stopped entirely: every sequencer stands still with its queues drained, and what has
fired has settled. -/
def stoppedEntirely (s : State) (n : Node) : Bool :=
  allStill s n && n.live.all fun g => (List.range 8).all fun k => (s.seqAt g k).drained && firedDone s g k

/-- R309: whether a pre-empted node has stopped entirely within W cycles of the request. -/
def stoppedInTime (s : State) (n : Node) : Bool :=
  n.inTime || ((n.preemptAt.any fun t => decide (s.cycle < t + s.sched.w)) && stoppedEntirely s n)

/-- R309: at the end of a cycle, the pre-empted nodes that have stopped entirely in time. -/
def State.noteStops (s : State) : State :=
  { s with nodes := s.nodes.map fun (n : Node) => if n.preemptAt.isSome && !n.teardown then { n with inTime := stoppedInTime s n } else n }

/-- SEQUENCER_SAVE: a stopped sequencer of a node that is pre-empted, once the node has stopped entirely. A region thrown back is
saved as it stood at its mark (R268). One that has left the kernel is saved when contexts are still bound to it, for its unfired commands
(R310, log entry 74). An interval that is over ends before the save (R325). -/
def saveSequencer (s : State) (g k : Nat) : State :=
  match s.nodeOf g with
  | none => s
  | some n =>
    let q := s.seqAt g k
    if n.preemptAt.isNone || n.teardown || (q.gone && (boundContexts s g k).isEmpty) || n.saved g k || !stoppedInTime s n || !stoppedEntirely s n ||
        n.live.any (intervalOver s) then s
    else if mustThrowBack s g k then
      (s.throwBack g k).saveSeq n (saveOf (s.throwBack g k) g k (q.region.any fun r => r.lease) false)
    else s.saveSeq n (saveOf s g k (keepsLease s g k || q.leased.isSome)
      ((keepsLease s g k && (s.cluster (clusterOfCore g)).implicitLease) || q.leased == some true))

def execSequencerSave (g k : Nat) (s : State) : Host.Outcome State Fault Refusal := .next (saveSequencer s g k)

/-! ### NODE_SPILL (R216, R311) -/

/-- Whether everything of a core can leave: every sequencer saved or gone, and nothing of it outstanding. -/
def canSpill (s : State) (n : Node) (g : Nat) : Bool :=
  ((s.core g).seqs.all fun q => q.2.drained && ((q.2.gone && (boundContexts s g q.1).isEmpty) || n.saved g q.1)) &&
    ((List.range 16).all fun i => ((s.core g).queue i).cmds.all fun c => !c.fired) && (s.core g).arms.isEmpty

/-- A core's unfired commands are fetched again after resume (R310). -/
def Queue.unfetch (q : Queue) : Queue := { q with cmds := q.cmds.map fun c => { c with word := none } }

/-- What spill storage holds of core g. -/
def spillOf (s : State) (g : Nat) : Spill :=
  let c := s.core g
  ⟨g, { c with queues := c.queues.map Queue.unfetch, dcache := [], icache := [], l1tlb := [] }, nodeBytes s g, s.group g⟩

/-- The clusters all of whose cores the node holds. -/
def wholeClusters (l : List Nat) : List Nat := (clustersOf l).filter fun cl => (coresOfCluster cl).all l.contains

/-- NODE_SPILL: the node's cores are spilled and left; it becomes PREEMPTED. -/
def spillNode (s : State) (id : Nat × Nat) : State :=
  match s.findNode id with
  | none => s
  | some n =>
    if n.st != .running || n.preemptAt.isNone || n.teardown || !allStill s n || !(n.live.all (canSpill s n)) then s
    else
      let spill := n.live.map (spillOf s)
      let tokens := (wholeClusters n.live).map fun cl => (cl, (s.cluster cl).tokens)
      let s := (s.leaveCores n).modNode id fun m =>
        { m with st := .preempted, npre := m.npre + 1, spill := spill, tokens := tokens, preemptAt := none, preemptFor := none,
                 inTime := false }
      s.setRecState n.pool n.idx 5

def execNodeSpill (pool idx : Nat) (s : State) : Host.Outcome State Fault Refusal := .next (spillNode s (pool, idx))

/-! ### PREEMPT_WITHDRAW (R309) -/

/-- A stopped sequencer goes on, and no stop is asked of it. -/
def Seq.goOn (q : Seq) : Seq :=
  { q with stopReq := false, stopped := false, leased := none, region := q.region.map fun r => { r with doomed := false } }

/-- R226: the lease requests of a core's sequencers that the stop had taken the lease from are renewed. -/
def State.renewLeases (s : State) (g : Nat) : State :=
  (s.core g).seqs.foldl (fun t q => match q.2.leased with
    | some implicit => t.modCluster (clusterOfCore g) fun c =>
        { c with waiters := c.waiters ++ [(g, q.1)], implicits := if implicit then c.implicits ++ [(g, q.1)] else c.implicits }
    | none => t) s

/-- The sequencers of a core go on. -/
def State.unstop (s : State) (g : Nat) : State :=
  (s.renewLeases g).modCore g fun c => { c with seqs := c.seqs.map fun q => (q.1, q.2.goOn) }

/-- PREEMPT_WITHDRAW: W cycles have passed, within which the node has not stopped entirely. -/
def withdrawPreempt (s : State) (id : Nat × Nat) : State :=
  match s.findNode id with
  | none => s
  | some n =>
    match n.preemptAt with
    | none => s
    | some t =>
      if n.teardown || s.cycle < t + s.sched.w || n.inTime then s
      else
        let s := n.live.foldl (fun u g => u.unstop g) s
        let s := match n.preemptFor.bind s.findNode with
          | some m => s.unreserve m
          | none => s
        s.modNode id fun m => { m with preemptAt := none, preemptFor := none }

def execPreemptWithdraw (pool idx : Nat) (s : State) : Host.Outcome State Fault Refusal := .next (withdrawPreempt s (pool, idx))

/-! ### NODE_RESUME (R216, R305, R311) -/

/-- A sequencer as its save area gives it. Its age counts from the resume: R17 and R303 give none (log entry 71). -/
def Save.resumed (x : Save) (now : Nat) : Seq :=
  { x.seq with status := if x.seq.gone then x.seq.status else .ready, stopReq := false, stopped := false, leased := none, lastIssue := now }

/-- A spilled core with its saved sequencers. -/
def Spill.restored (x : Spill) (saves : List Save) (now : Nat) : Core :=
  let mine := saves.filter fun v => v.g == x.g
  { x.core with reservedFor := none, lastAsid := some x.core.asid,
                seqs := mine.foldl (fun t v => tabPut t v.k (v.resumed now)) x.core.seqs }

/-- The windows a restore writes: for watches these are writes, and the lines belong to the node (R246, R311). -/
def State.noteRestore (s : State) (c : Core) (g : Nat) : State :=
  let note := fun (t : State) (r : Nat × Nat) =>
    if r.2 == 0 then t else t.noteWrite (.win g r.1) (winKey g r.1) r.2
  [(0, 64 * c.scratch + (c.prof.map fun p => 1856 * p.n).getD 0), (0x100000, 0x10000 * c.tiles), (0x180000, 0x14000 * c.accs)].foldl
    note (s.disown g)

/-- One core is restored. -/
def State.restoreCore (s : State) (n : Node) (x : Spill) : State :=
  let c := x.restored n.saves s.cycle
  (((s.setCore x.g c).putBytes c x.g x.bytes).noteRestore c x.g).setGroup x.g x.group

/-- The lease request, of the kind it was (R226), and the grammar contexts of a save come back; its area holds none any more. -/
def State.resumeSave (s : State) (x : Save) : State :=
  (s.clearArea x.g x.k).modCluster (clusterOfCore x.g) fun c =>
    { c with grammars := x.grammars.foldl (fun t e => tabPut t e.1 e.2) c.grammars,
             waiters := if x.lease then c.waiters ++ [(x.g, x.k)] else c.waiters,
             implicits := if x.lease && x.implicit then c.implicits ++ [(x.g, x.k)] else c.implicits }

/-- Whether the contexts a node had bound are free again in their clusters. -/
def contextsFree (s : State) (n : Node) : Bool :=
  n.saves.all fun x => x.grammars.all fun e => !tabHas (s.cluster (clusterOfCore x.g)).grammars e.1

/-- NODE_RESUME: a PREEMPTED node placed again on its origin comes back whole, and its sequencers go on together. -/
def resumeNode (s : State) (id : Nat × Nat) : State :=
  match s.findNode id with
  | none => s
  | some n =>
    if n.st != .preempted || !n.placed || !contextsFree s n || s.halted then s
    else
      let s := n.spill.foldl (fun t x => t.restoreCore n x) s
      let s := n.tokens.foldl (fun t x => t.modCluster x.1 fun c => { c with tokens := x.2 }) s
      let s := n.saves.foldl (fun t x => t.resumeSave x) s
      let s := s.modNode id fun m => { m with st := .running, dispatched := true, saves := [], spill := [], tokens := [] }
      ((diesOf n.cores).foldl (fun t d => t.adjustRide d) s).setRecState n.pool n.idx 4

def execNodeResume (pool idx : Nat) (s : State) : Host.Outcome State Fault Refusal := .next (resumeNode s (pool, idx))

/-! ### TEARDOWN_FORCED_STOP (R309, R332) -/

/-- TEARDOWN_FORCED_STOP: a sequencer that is blocked, or that W cycles have not stopped, stops where it stands. It does so at the request
and at the end of each cycle. -/
def forceStop (s : State) (g k : Nat) : State :=
  let q := s.seqAt g k
  let late := ((s.nodeOf g).bind fun n => n.preemptAt).any fun t => decide (t + s.sched.w ≤ s.cycle)
  if !((s.nodeOf g).any fun n => n.teardown) || q.still || !(q.status == .blocked || late) then s
  else s.setSeqAt g k { q with stopped := true, stopReq := false, pending := none, emul := none }

/-- R332: the sequencers of a torn-down node that may go no further. -/
def State.stopTorn (s : State) (n : Node) : State :=
  n.live.foldl (fun t g => (List.range 8).foldl (fun t k => forceStop t g k) t) s

def execTeardownForcedStop (g k : Nat) (s : State) : Host.Outcome State Fault Refusal := .next (forceStop s g k)

end Sys2Proof.Machine
end

