-- ==== Sys2Proof/Machine/Errors.lean ====
section
/-! DEFINITION. Errors (R247, R312 to R315) and fatal errors with their dump (R318, R319). -/
namespace Sys2Proof.Machine

/-! ### Counts (R312, R315) -/

/-- The array an error is counted in: a kind of store and its place. A core's scratchpad, tiles and accumulators are three. -/
def arrayOf : ErrorSite → Nat
  | .scratch g off => if off < 0x100000 then g else if off < 0x180000 then 24576 + g else 26624 + g
  | .dram d _ => 2048 + d
  | .mcache d _ => 28672 + d
  | .vreg g .. => 4096 + g
  | .preg g .. => 6144 + g
  | .xreg g .. => 8192 + g
  | .freg g .. => 10240 + g
  | .clearing .. => 12288
  | .coppice cl _ => 14336 + cl
  | .token cl _ => 16384 + cl
  | .mailbox g .. => 18432 + g
  | .icache g .. => 20480 + g
  | .dcache g _ => 22528 + g

/-- A corrected error is counted. -/
def State.countCorrected (s : State) (u : ErrorSite) : State :=
  { s with corrected := tabPut s.corrected (arrayOf u) (tabGet 0 s.corrected (arrayOf u) + 1) }

/-- An uncorrectable error is counted. -/
def State.countUncorrected (s : State) (u : ErrorSite) : State :=
  { s with uncorrected := tabPut s.uncorrected (arrayOf u) (tabGet 0 s.uncorrected (arrayOf u) + 1) }

/-- A cache line found bad is dropped and filled again when it is next read. -/
def State.dropLine (s : State) (u : ErrorSite) : State :=
  match u with
  | .dcache g line => s.modCore g fun c => { c with dcache := c.dcache.filter fun l => l.line != line }
  | .icache g asid line => s.modCore g fun c => { c with icache := c.icache.filter fun l => !(l.asid == asid && l.line == line) }
  | _ => s

/-- SINGLE_BIT_CORRECT: corrected in place, or refetched, and counted. -/
def execSingleBitCorrect (u : ErrorSite) (s : State) : Host.Outcome State Fault Refusal :=
  .next ((s.dropLine u).countCorrected u)

/-! ### Uncorrectable errors (R247, R313) -/

/-- A sequencer that runs ends faulted with cause MEMORY-ERROR, whatever `ttvec` and `tstat` hold. -/
def State.endHurt (s : State) (g k value : Nat) : State :=
  let q := s.seqAt g k
  if q.gone then s else s.endFaulted g k causeMemory q.r.pc (BitVec.ofNat 64 value)

/-- Every sequencer of core g's node there. -/
def State.endAllHurt (s : State) (g value : Nat) : State := (List.range 8).foldl (fun t k => t.endHurt g k value) s

/-- The owner of a line: a sequencer of the core's scratchpad, or none for the node (R246). -/
def lineOwner (s : State) (g off : Nat) : Option Nat :=
  if off < 0x100000 && tabHas s.owners (winKey g off / 64) then some (tabGet 0 s.owners (winKey g off / 64)) else none

/-- R247: a line of a core's scratchpad, tiles or accumulators is poisoned and its owning context ends. -/
def poisonLine (s : State) (g off : Nat) : State :=
  if 1024 ≤ g || 0x1D0000 ≤ off then s
  else
    let line := winKey g off / 64
    let s := { s with poison := if s.poison.contains line then s.poison else line :: s.poison }
    if (s.core g).node.isNone then s
    else
      match lineOwner s g off with
      | some k => s.endHurt g k (off / 64 * 64)
      | none => s.endAllHurt g (off / 64 * 64)

/-- SCRATCHPAD_POISON. -/
def execScratchpadPoison (g off : Nat) (s : State) : Host.Outcome State Fault Refusal :=
  .next ((poisonLine s g off).countUncorrected (.scratch g off))

/-- The operation whose chunk is damaged completes MEMORY-ERROR here, and every other member is told (R313): there COLLECTIVE_MATCH
brings it (`endedStatus`). -/
def hurtChunk (s : State) (g q chunk : Nat) : State :=
  match s.colls.find? fun e => e.2.op.any fun o => o.g == g && o.q == q && decide (chunk < o.chunks.length) with
  | some (id, c) =>
    match c.op with
    | some o =>
      let s := cutColl s id c o false ⟨stMemory, 0, chunk⟩
      { s with outbox := s.outbox ++ ((List.range c.members).filter fun m => c.base + m != s.pkgid).map fun m =>
          ⟨c.base + m, 0, BitVec.ofNat 64 (id * 2 ^ 32 + chunk), .coll, [2]⟩ }
    | none => s
  | none => s

/-- Fired `smma` commands that run on a tile complete MEMORY-ERROR; one that still waits for its compilation does not run on it. -/
def hurtSmma (s : State) (t : CopTile) (g : Nat) (c : Cmd) : Cmd :=
  let w := cmdWord s g c
  let l := layOf c (spLys w)
  if c.fired && cwOpcode w == 0x04 && (c.program.isSome || c.st.any fun x => x.code == 0) && CopTile.isTile s g c l t then
    { c with st := some ⟨stMemory, 0, memAux l.win ⟨l.base, 0, 0⟩⟩ } else c

/-- A damaged Coppice entry: its tile's entries are removed. -/
def hurtTile (s : State) (cl i : Nat) : State :=
  match (s.cluster cl).coppice[i]? with
  | none => s
  | some t =>
    let s := (coresOfCluster cl).foldl (fun (u : State) g => u.modCore g fun c =>
      { c with queues := c.queues.map fun q => { q with cmds := q.cmds.map (hurtSmma s t g) } }) s
    s.modCluster cl fun c => { c with coppice := c.coppice.eraseIdx i }

/-- R313: the effect of an uncorrectable error in its store. -/
def uncorrectable (s : State) (u : ErrorSite) : State :=
  match u with
  | .scratch g off => poisonLine s g off
  | .dram d pa | .mcache d pa => if d < 4 then { s with poison := (dramKey d pa / 64) :: s.poison.filter fun l => l != dramKey d pa / 64 } else s
  | .vreg g k r => s.endHurt g k (32 + r)
  | .preg g k r => s.endHurt g k (96 + r)
  | .xreg g k r => s.endHurt g k r
  | .freg g k r => s.endHurt g k (128 + r)
  | .clearing g q chunk => hurtChunk s g q chunk
  | .coppice cl i => hurtTile s cl i
  | .token cl slot => s.modCluster cl fun c => c.setToken slot true true
  | .mailbox g mb slot => s.modCore g fun c =>
      let i : Fin 8 := ⟨mb % 8, Nat.mod_lt _ (by decide)⟩
      if slot < c.mbox[i].msgs.length && !c.mbox[i].bad.contains slot then
        { c with mbox := vput c.mbox i { c.mbox[i] with bad := slot :: c.mbox[i].bad } }
      else c
  | .icache .. | .dcache .. => s.dropLine u

/-- UNCORRECTABLE_ERROR. -/
def execUncorrectableError (u : ErrorSite) (s : State) : Host.Outcome State Fault Refusal :=
  .next ((uncorrectable s u).countUncorrected u)

/-- RESIDUE_MISMATCH: a result of the vector unit or of the Clearing's adders is handled as an uncorrectable error in its
destination (R314). -/
def execResidueMismatch (u : ErrorSite) (s : State) : Host.Outcome State Fault Refusal :=
  .next (match u with
    | .vreg .. | .preg .. | .xreg .. | .clearing .. => (uncorrectable s u).countUncorrected u
    | _ => s)

/-! ### The scrubber (R315) -/

/-- Whether the scrubber visits a store. -/
def scrubbed : ErrorSite → Bool
  | .scratch .. | .dram .. | .mcache .. | .coppice .. | .clearing .. => true
  | _ => false

/-- SCRUB: the visit changes no program's data; what it cannot correct it poisons. -/
def scrubLine (s : State) (u : ErrorSite) (found : ScrubFinding) : State :=
  if !scrubbed u then s
  else
    match found with
    | .clean => s
    | .corrected => s.countCorrected u
    | .uncorrectable => (uncorrectable s u).countUncorrected u

def execScrub (u : ErrorSite) (found : ScrubFinding) (s : State) : Host.Outcome State Fault Refusal := .next (scrubLine s u found)

/-! ### Fatal errors (R318, R319) -/

/-- The record of a RUNNING or PREEMPTED node, as it stands in its pool. -/
def dumpRecord (s : State) (n : Node) : List Byte := leBytes 64 (recBits s (s.pool n.pool) n.idx)

/-- Error-log entries: R319 counts them and gives them no layout, so their number and bytes are free values (log entry
12). -/
def dumpLogs (s : State) : List Byte :=
  (List.range (32 * (Config.freeByte (s.free * 2 ^ 22)).toNat)).map fun i => Config.freeByte (s.free * 2 ^ 22 + 1 + i)

/-- R319: the dump. When the management core has failed, only the header and the logs are written. -/
def dumpOf (s : State) (e : FatalReport) : List Byte :=
  let nodes := if e.cls == 2 || e.cls == 6 then [] else s.nodes.filter fun n => n.st == .running || n.st == .preempted
  let logs := dumpLogs s
  leBytes 64 (1 + e.cls * 2 + e.die * 2 ^ 5 + e.unit % 2 ^ 8 * 2 ^ 8 + logs.length / 32 * 2 ^ 320 + nodes.length * 2 ^ 352 +
    e.addr.toNat * 2 ^ 384 + s.time % 2 ^ 64 * 2 ^ 448) ++ nodes.flatMap (dumpRecord s) ++ logs

/-- R318: dispatch stops, every sequencer is halted, the links go down, the dump is written in its reserved region and the host is told.
Commands that have fired still come to their boundary (`boundaryEvents`). -/
def fatal (s : State) (e : FatalReport) : State :=
  if e.cls == 0 || 6 < e.cls || 4 < e.die || s.halted then s
  else
    let d := dumpOf s e
    let s := ({ s with halted := true, links := s.links.map fun l => (l.1, { l.2 with state := 0 }) } : State).losePeers s.peers
    let s := s.putMem (dramKey (Config.dumpAt / 2 ^ 48 % 4) (Config.dumpAt % 2 ^ 48)) d
    { s with dump := d, free := s.free + 1, host := { s.host with fatal := true, vectors := s.host.vectors ++ [1] } }

def execFatalError (e : FatalReport) (s : State) : Host.Outcome State Fault Refusal := .next (fatal s e)

/-- WATCHDOG_EXPIRY: a fatal error of class 6 on the Weald die; which unit is a free value. -/
def execWatchdogExpiry (s : State) : Host.Outcome State Fault Refusal :=
  .next (fatal s ⟨6, 4, (Config.freeByte (s.free * 2 ^ 22 + 2 ^ 21)).toNat, 0⟩)

end Sys2Proof.Machine
end

