-- ==== Sys2Proof/Machine/Debug.lean ====
section
/-! DEFINITION. The debug fabric: requests (R320 to R323), breakpoints (R324), checkpoint intervals (R325, R326), precise
stops and divergence (R327, R328) and the arming of profiling (R330). -/
namespace Sys2Proof.Machine

/-! ### Replies (R320, R321) -/

/-- The bytes in which a reply goes to another package's Weald die; their form is open (log entry 49). -/
def DebugReply.bytes : DebugReply → List Byte
  | .ok => [0]
  | .refused => [1]
  | .absent => [2]
  | .values l => 3 :: l.flatMap (leBytes 8)
  | .precise => [4]
  | .approximate i k n e => 5 :: (leBytes 8 i ++ leBytes 1 k ++ leBytes 8 n ++ leBytes 8 e)

/-- A reply leaves for the debug master, which the host reaches; from another package it goes there as link-control flits. -/
def State.answer (s : State) (r : DebugReply) : State :=
  let s := { s with debugOut := s.debugOut ++ [r] }
  if s.host.master == s.pkgid then s else s.send ⟨s.host.master, 0, 0, .debug, r.bytes⟩

/-- The sequencers a request names, ascending. -/
def namedSeqs (t : DebugTarget) : List Nat := (List.range 8).filter fun k => t.mask.getLsbD k

/-- The member that a stop names, else sq0. -/
def RecGroup.member (r : RecGroup) : Nat := (r.target.map fun t => t.2.1).getD 0

/-- The reply of a stop that is reached (R328). -/
def RecGroup.verdict (r : RecGroup) (k count : Nat) : DebugReply :=
  match r.feed, r.diverged with
  | some _, _ => .precise
  | none, some d => .approximate d.1 d.2.1 d.2.2.1 d.2.2.2
  | none, none => .approximate r.interval k count 0

/-- A stop of core g that cannot be reached any more, or that another request ends, is answered as it stands. -/
def State.endStop (s : State) (g : Nat) : State :=
  let r := s.group g
  match r.target with
  | some t =>
    (s.setGroup g { r with target := none, diverged := none }).answer
      (({ r with feed := none } : RecGroup).verdict t.2.1 (s.seqAt g t.2.1).rwcount)
  | none => s

/-! ### HALT and RESUME (R322) -/

/-- HALT: the named sequencers issue no more. Once their queues are drained the reply gives each one's pc and `rwcount`; none until
then. -/
def haltSeqs (s : State) (t : DebugTarget) : State × Option DebugReply :=
  let s := (namedSeqs t).foldl (fun u k => u.modSeqAt t.g k fun q => if q.gone then q else { q with halted := true }) s
  (s, if (namedSeqs t).all fun k => (s.seqAt t.g k).gone || (s.seqAt t.g k).drained then
      some (.values ((namedSeqs t).flatMap fun k => [(s.seqAt t.g k).r.pc.toNat, (s.seqAt t.g k).rwcount]))
    else none)

/-- A recording as it stands at the point from which its group goes on live: of the events that came later nothing is left. -/
def RecGroup.cutTo (r : RecGroup) : RecGroup :=
  if r.feed.isNone then r
  else
    { r with recs := (r.recs.filter fun x => x.interval ≤ r.interval).map fun x =>
        if x.interval == r.interval then { x with events := x.events.take r.fed } else x }

/-- RESUME: the named sequencers go on, live (R327). -/
def resumeSeqs (s : State) (t : DebugTarget) : State :=
  let s := (namedSeqs t).foldl (fun u k => u.modSeqAt t.g k fun q => { q with halted := false }) s
  let s := s.endStop t.g
  s.setGroup t.g { (s.group t.g).cutTo with feed := none, target := none, diverged := none, frozen := false }

/-! ### READ (R321) -/

/-- R321: whether a window access of the debug fabric is one the windows allow: a master of the resident node's
identifier, with no access table. -/
def debugWindow (s : State) (g off n : Nat) (k : AccKind) : Bool :=
  match winOf off with
  | some w => (s.core g).node.isSome && winAdmits w k n && winHeld (s.core g) off && decide (off + n ≤ 2 ^ 22)
  | none => false

/-- R276: an entry of the live link table. -/
def linkEntry (s : State) (i : Nat) : Nat := let l := s.link i; l.plink + l.peer * 2 ^ 5 + l.state * 2 ^ 30

/-- A fibre or stream register as one number: its block of a save area (R303). -/
def streamWord (fibre : Bool) (x : Stream) : Nat := leNat (streamBytes fibre x)

/-- The values one sequencer gives; registers are named by physical number. -/
def readPlace (s : State) (g k : Nat) (w : DebugPlace) : List Nat :=
  let q := s.seqAt g k
  match w with
  | .pc => [q.r.pc.toNat]
  | .xreg r => [(q.r.rx r).toNat]
  | .freg r => [q.r.f[r].toNat]
  | .vreg r => [q.r.v[r].toNat]
  | .preg r => [q.r.p[r].toNat]
  | .csr n => [(csrRead { s with cur := (g, k) } n).toNat]
  | .loopLevel i => (q.r.loops.reverse[i]?.map fun l => [l.n, l.s, l.t]).getD []
  | .shape i => [q.r.sh[i].toNat]
  | .layout i => [q.r.ly[i].toNat]
  | .fibre i => [streamWord true q.r.fb[i]]
  | .stream i => [streamWord false q.r.sm[i]]
  | .saveArea => (saveArea s g k).map (·.toNat)
  | .window .. | .linkTable _ => []

/-- READ. -/
def debugRead (s : State) (t : DebugTarget) (w : DebugPlace) : State × DebugReply :=
  match w with
  | .window off n =>
    if debugWindow s t.g off n .load && !poisoned s (.win t.g off) n then
      (s.noteSpill t.g, .values ((leBytes n (readWin s t.g off n)).map (·.toNat)))
    else (s, .refused)
  | .linkTable i => (s, .values [linkEntry s (i % 32)])
  | .saveArea => ({ s with free := s.free + 1 }, .values ((namedSeqs t).flatMap fun k => readPlace s t.g k w))
  | _ => (s, .values ((namedSeqs t).flatMap fun k => readPlace s t.g k w))

/-! ### WRITE (R323) -/

/-- Whether an entry of a queue is still to fill x register r. -/
def fillsX (q : Seq) (r : XReg) : Bool :=
  q.queue.any fun e => match e.op with
    | .mboxRecv rd _ => rd == r
    | .load .flw _ => false
    | _ => (e.returns.map (·.1)) == some r

/-- Whether an entry of a queue is still to fill vector register r. -/
def fillsV (q : Seq) (r : Fin 32) : Bool :=
  q.vbusy[r] || q.queue.any fun e => match e.op with
    | .vload vd .. | .hprobe vd .. | .rowRead vd .. => vd == r
    | _ => false

/-- A fibre or stream register from such a number. -/
def streamOfWord (fibre : Bool) (v : Nat) : Stream :=
  if !bitOf v 320 then {}
  else
    { isOpen := true, sext := bitOf v 131, va := bitOf v 130, width := 2 ^ bitsOf v 129 128,
      stride := if fibre then (2 ^ bitsOf v 129 128 : Nat) else sextN 32 (bitsOf v 127 96), count := bitsOf v 95 64,
      base := BitVec.ofNat 64 (bitsOf v 63 0), pos := bitsOf v 319 256 }

/-- R323: the tag of a vector register that is written: its own, unless the request names one from 0 to 14. R57 has no vector register
hold tag 14; a WRITE that names it follows R323 (DESIGN CHOICE, log entry 73). -/
def writtenTag (old : Nat) (tag : Option Nat) : Nat :=
  match tag with
  | some t => if t ≤ 14 then t else old
  | none => old

/-- R323: a halted sequencer with a register replaced; none when it is refused. -/
def writeReg (q : Seq) (w : DebugPlace) (v : Nat) (tag : Option Nat) : Option Seq :=
  let r := q.r
  match w with
  | .pc => if v % 4 == 0 then some { q with r := { r with pc := BitVec.ofNat 64 v } } else none
  | .xreg i => if i == 0 || fillsX q i then none else some { q with r := (r.wx i (BitVec.ofNat 64 v)).markX i true }
  | .freg i => if q.fbusy[i] then none else some { q with r := { r with f := vput r.f i (BitVec.ofNat 32 v) } }
  | .vreg i =>
    if !r.vctx || fillsV q i then none
    else some { q with r := { r with v := vput r.v i (BitVec.ofNat 4096 v), vfull := vput r.vfull i true,
                                     vtag := vput r.vtag i (writtenTag r.vtag[i] tag) } }
  | .preg i => if i == 0 then none else some { q with r := { r with p := vput r.p i (BitVec.ofNat 1024 v) } }
  | .loopLevel i =>
    let l : LoopLevel := ⟨bitsOf v 31 0, bitsOf v 66 64 + 1, bitsOf v 63 32⟩
    if i < r.loops.length then some { q with r := { r with loops := r.loops.set (r.loops.length - 1 - i) l } } else none
  | .shape i => some { q with r := { r with sh := vput r.sh i (BitVec.ofNat 32 v) } }
  | .layout i => some { q with r := { r with ly := vput r.ly i (BitVec.ofNat 128 v) } }
  | .fibre i => some { q with r := { r with fb := vput r.fb i (streamOfWord true v) } }
  | .stream i => some { q with r := { r with sm := vput r.sm i (streamOfWord false v) } }
  | _ => none

/-- Every CSR that R19 lets a program write. -/
def csrWritable (n : Nat) : Bool := [0x001, 0x002, 0x003, 0x800, 0x801, 0x802, 0x803, 0x804, 0x805, 0x806, 0x807, 0x808].contains n

/-- WRITE to registers or CSRs of the named sequencers, all of them halted. -/
def writeSeqs (s : State) (t : DebugTarget) (w : DebugPlace) (v : Nat) (tag : Option Nat) : State × DebugReply :=
  if !((namedSeqs t).all fun k => (s.seqAt t.g k).halted) then (s, .refused)
  else
    match w with
    | .csr n =>
      if csrWritable n then
        ((namedSeqs t).foldl (fun (u : State) k =>
          { csrWrite { u with cur := (t.g, k) } n (BitVec.ofNat 64 v) with cur := s.cur }) s, .ok)
      else (s, .refused)
    | _ =>
      if (namedSeqs t).all fun k => (writeReg (s.seqAt t.g k) w v tag).isSome then
        ((namedSeqs t).foldl (fun u k => u.modSeqAt t.g k fun q => (writeReg q w v tag).getD q) s, .ok)
      else (s, .refused)

/-- WRITE. -/
def debugWrite (s : State) (t : DebugTarget) (w : DebugPlace) (v : Nat) (tag : Option Nat) : State × DebugReply :=
  match w with
  | .window off n =>
    if debugWindow s t.g off n .store then (s.writeLoc .outside (.win t.g off) (leBytes n v) false, .ok) else (s, .refused)
  | _ => writeSeqs s t w v tag

/-! ### Breakpoints (R324) -/

/-- ARM: a slot of each named sequencer is set or cleared. -/
def armSlot (s : State) (t : DebugTarget) (slot : Nat) (bp : Breakpoint) : State × DebugReply :=
  if h : slot < 4 then
    ((namedSeqs t).foldl (fun u k => u.modSeqAt t.g k fun q =>
      { q with breakpoints := q.breakpoints.set slot { bp with passed := false } h }) s, .ok)
  else (s, .refused)

/-- Whether a sequencer stands at a breakpoint's point. -/
def bpAtPoint (b : Breakpoint) (q : Seq) (interval : Nat) : Bool :=
  b.enable && match b.addr with
    | some a => q.r.pc == a
    | none => interval == b.interval && q.rwcount == b.count

/-- A breakpoint whose point its sequencer has left otherwise than by its instruction (`bpLeft`) may fire again; in a handler that it started,
not before the handler's end. -/
def bpRearm (b : Breakpoint) (q : Seq) (interval : Nat) : Breakpoint :=
  if bpAtPoint b q interval || (b.trap && b.addr.isSome && q.r.act) then b else { b with passed := false }

/-- The breakpoint that fires before the sequencer issues. -/
def firing (q : Seq) (interval : Nat) : Option Breakpoint := q.breakpoints.toList.find? fun b => bpAtPoint b q interval && !b.passed

/-- The sequencer's slots as its issue leaves them: those it has left re-armed, those at their point passed. -/
def Seq.passPoints (q : Seq) (interval : Nat) : Seq :=
  { q with breakpoints := q.breakpoints.map fun b =>
      let b := bpRearm b q interval
      if bpAtPoint b q interval then { b with passed := true } else b }

/-- R324: what a breakpoint does instead of the issue; none when none fires. -/
def breakpointHit (s : State) (g k : Nat) : Option State :=
  let q := s.seqAt g k
  let i := (s.group g).interval
  (firing q i).map fun b =>
    let s := s.setSeqAt g k (q.passPoints i)
    if b.trap then s.takeTrap g k causeDebug q.r.pc else s.modSeqAt g k fun q => { q with halted := true }

/-! ### Intervals (R325, R326) -/

/-- A divergence of core g's re-execution: it goes on live, and the report is kept (R328). -/
def State.diverge (s : State) (g k : Nat) : State :=
  let r := s.group g
  s.setGroup g { r.cutTo with feed := none, diverged := some (r.interval, k, (s.seqAt g k).rwcount, r.fed) }

/-- Whether every member of core g has stopped at an iteration boundary or has left the kernel. -/
def allStopped (s : State) (g : Nat) : Bool := allSeqs s g fun q => q.gone || q.stopped

/-- The interval ends: a re-execution that has not met its count diverges, a stop that it named is answered, every `rwcount` returns to
0, and the next interval begins. -/
def State.nextInterval (s : State) (g : Nat) : State :=
  let r := s.group g
  let s := if r.feed.isSome then s.diverge g r.member else s
  let s := if r.target.any fun t => t.1 ≤ r.interval then s.endStop g else s
  (s.modCore g fun c => { c with seqs := c.seqs.map fun q => (q.1, { q.2 with rwcount := 0 }) }).openInterval g (r.interval + 1)

/-- CHECKPOINT_INTERVAL_END: a member has reached L and a stop is asked of all; once all have stopped the next interval begins; after W
cycles the members go on. Past L it ends at the next point at which every member has stopped, at a pre-emption too, where one that is halted counts as stopped (R322). -/
def endInterval (s : State) (g : Nat) : State :=
  let r := s.group g
  let node := s.nodeOf g
  if !intervalOver s g || node.any (fun n => n.teardown) then s
  else if node.any (fun n => n.preemptAt.isSome) then (if allSeqs s g Seq.still then s.nextInterval g else s)
  else
    match r.ending with
    | none => (s.requestStop g).setGroup g { r with ending := some s.cycle }
    | some t =>
      if allStopped s g then (s.nextInterval g).unstop g
      else if t + s.sched.w ≤ s.cycle then (s.unstop g).setGroup g { r with ending := none }
      else s

def execCheckpointIntervalEnd (g : Nat) (s : State) : Host.Outcome State Fault Refusal := .next (endInterval s g)

/-- ARM_RECORDING: recording is armed for a node, and L set to 2^k. -/
def armRecording (s : State) (id : Nat × Nat) (k : Nat) : State :=
  if (s.findNode id).isNone || k < 16 || 26 < k then s.answer .refused
  else (s.modNode id fun n => { n with ivl := some k, recording := true }).answer .ok

def execArmRecording (pool idx k : Nat) (s : State) : Host.Outcome State Fault Refusal := .next (armRecording s (pool, idx) k)

/-- ARM_PROFILING: the cores of a node get their rings above the declared range (R330). -/
def armProfiling (s : State) (id : Nat × Nat) (n : Nat) : State :=
  match s.findNode id with
  | none => s.answer .refused
  | some nd =>
    let base := 64 * nd.scratch
    if n == 0 || 64 < n || 2 ^ 20 < base + 1856 * n then s.answer .refused
    else
      let p : Option Profile := some { n := n, base := base }
      let s := nd.live.foldl (fun t g => t.modCore g fun c => { c with prof := p }) s
      (s.modNode id fun m => { m with prof := some n, spill := m.spill.map fun x => { x with core := { x.core with prof := p } } }).answer
        (.values [base])

def execArmProfiling (pool idx n : Nat) (s : State) : Host.Outcome State Fault Refusal := .next (armProfiling s (pool, idx) n)

/-! ### Precise stops (R327, R328) -/

/-- A complete recording of an interval. -/
def RecGroup.whole (r : RecGroup) (i : Nat) : Option Recording := r.recs.find? fun x => x.interval == i && x.whole

/-- A checkpointed member as it starts to re-execute: its breakpoints are those that are armed now (R324). -/
def Seq.again (q now : Seq) (cycle : Nat) : Seq :=
  { q with stopReq := false, stopped := false, halted := false, lastIssue := cycle, breakpoints := now.breakpoints }

/-- The lease and the grammar contexts of a checkpoint come back; another core's lease stays. -/
def Cluster.rewound (c : Cluster) (g : Nat) (x : Recording) : Cluster :=
  let free := c.holder.all fun w => w.1 == g
  { c with
    grammars := x.grammars.foldl (fun t e => tabPut t e.1 e.2) (c.grammars.filter fun e => e.2.g != g),
    holder := if free then x.lease.map fun l => (g, l.1) else c.holder,
    implicitLease := if free then x.lease.any (·.2) else c.implicitLease, giveUp := c.giveUp && !free,
    waiters := c.waiters.filter fun w => w.1 != g, implicits := c.implicits.filter fun w => w.1 != g }

/-- Checkpoint i is restored into the core and its members, and its events are to be fed. The loss matrix and the profiling go on
(R329). -/
def State.replayFrom (s : State) (g : Nat) (x : Recording) (k count : Nat) : State :=
  let r := s.group g
  let now := s.core g
  let c := { x.core with seqs := x.core.seqs.map (fun q => (q.1, q.2.again (now.sq q.1) s.cycle)), icache := now.icache, l1tlb := now.l1tlb,
                         dcache := [], loss := now.loss, prof := now.prof }
  ((((s.setCore g c).putBytes c g x.bytes).noteRestore c g).modCluster (clusterOfCore g) fun cl => cl.rewound g x).setGroup g
    { r with interval := x.interval, ending := none, feed := some x.events, fed := 0, target := some (x.interval, k, count),
             diverged := none, frozen := false }

/-- Every sequencer of a core that runs is halted. -/
def State.haltCore (s : State) (g : Nat) : State :=
  s.modCore g fun c => { c with seqs := c.seqs.map fun q => (q.1, if q.2.gone then q.2 else { q.2 with halted := true }) }

/-- STOP: a precise stop when the interval's recording is complete, once the group is halted and drained; else a live stop. Until it is
performed none; with no sequencer named it is refused; an interval that has passed without a recording is answered at once. -/
def stopAt (s : State) (t : DebugTarget) (interval count : Nat) : State × Bool :=
  match namedSeqs t with
  | [] => (s.answer .refused, true)
  | k :: _ =>
    let r := s.group t.g
    match r.whole interval with
    | some x =>
      let s := s.haltCore t.g
      if allSeqs s t.g Seq.drained then ((s.endStop t.g).replayFrom t.g x k count, true) else (s, false)
    | none =>
      let s := s.endStop t.g
      let s := s.setGroup t.g { (s.group t.g).cutTo with feed := none, target := some (interval, k, count), diverged := none, frozen := false }
      (if interval < r.interval then s.endStop t.g else s, true)

/-- Whether the member that a stop names stands before the instruction that would make `rwcount` pass the count. -/
def targetReached (s : State) (g k : Nat) : Bool :=
  (s.group g).target.any fun t => t.1 == (s.group g).interval && t.2.1 == k && decide (t.2.2 ≤ (s.seqAt g k).rwcount)

/-- The named member halts at the stop, and the reply is sent. After a precise stop the group stands as it is until RESUME, so that READ
shows the state the original run held. -/
def State.reachTarget (s : State) (g k : Nat) : State :=
  let r := s.group g
  let s := s.modSeqAt g k fun q => { q with halted := true }
  (s.setGroup g { r with target := none, diverged := none, frozen := r.feed.isSome }).answer (r.verdict k (s.seqAt g k).rwcount)

/-- A stop whose member is blocked at its count, or has left the kernel before it, is reached too. -/
def stopBlocked (s : State) (g : Nat) : State :=
  match (s.group g).target with
  | some t =>
    let q := s.seqAt g t.2.1
    if targetReached s g t.2.1 && q.status == .blocked && q.pending.isNone && q.emul.isNone then s.reachTarget g t.2.1
    else if q.status == .ended && (s.group g).feed.isNone && t.1 == (s.group g).interval then s.endStop g
    else s
  | none => s

/-- R327: whether a member waits for its own next recorded event. For the lease that it asks for itself it goes on to its `lease.acq`. -/
def eventDue (s : State) (g k : Nat) : Bool :=
  match (s.group g).feed with
  | some l => (l.find? fun e => e.k == k).any fun e => !(e.kind == 3 && e.n == 0) && decide (e.count ≤ (s.seqAt g k).rwcount)
  | none => false

/-- Whether an open access of sequencer k outside the core is the one an event names. -/
def meetsEvent (s : State) (g : Nat) (e : RecEvent) : Bool :=
  (s.seqAt g e.k).queue.any fun x => x.op.returnsValue && x.open_.any fun y => y.outside g && y.addr.toNat == e.addr && y.n == e.n

/-- The recorded effect of a write by another master or of a change of a token. -/
def State.feedEffect (s : State) (g : Nat) (e : RecEvent) : State :=
  match e.kind with
  | 1 => s.writeWin .outside g e.addr (leBytes e.n e.data)
  | 3 => if e.n == 1 then s.modCluster (clusterOfCore g) fun c => c.setToken e.addr (e.data % 2 == 1) (e.data / 2 % 2 == 1) else s
  | _ => s

/-- Whether a recorded lease can still be asked for: the member stands at its count, or a command of it that would ask is unfired. -/
def leaseMayCome (s : State) (g : Nat) (e : RecEvent) : Bool :=
  let q := s.seqAt g e.k
  if e.n == 0 then !q.gone && q.rwcount ≤ e.count else (ownCmds s g e.k).any fun c => !c.fired

/-- What an event that waits for its member comes to: none while it may still be met. -/
inductive Fed where
  | wait | diverged
  | met (s : State)
  deriving DecidableEq, Repr

/-- A recorded lease grant is met by a member that asks for the lease, once no one holds it. -/
def feedLease (s : State) (g : Nat) (e : RecEvent) : Fed :=
  let c := s.cluster (clusterOfCore g)
  if c.waiters.contains (g, e.k) then
    (if c.holder.isNone then .met (s.setCluster (clusterOfCore g) (c.grant (g, e.k))) else .wait)
  else if leaseMayCome s g e then .wait else .diverged

/-- A recorded handler start. -/
def State.feedHandler (s : State) (g : Nat) (e : RecEvent) : State :=
  match s.nodeOf g with
  | none => s
  | some n =>
    let c := s.core g
    let r := freshRegs c e.k (n.entry + BitVec.ofNat 64 (4 * e.addr)) (BitVec.ofNat 64 e.data) (BitVec.ofNat 64 e.n)
    let q : Seq :=
      (c.sq e.k).restart { status := .ready, r := r, handler := true, exitAddr := c.exitAddr, asid := n.asid, lastIssue := s.cycle }
    s.setCore g { (c.setSq e.k q) with handlers := c.handlers.drop 1, dcache := [] }

/-- A recorded `mbox.recv` is met by a member whose claim is the first, with the same message there. -/
def feedClaim (s : State) (g : Nat) (e : RecEvent) : Fed :=
  let q := s.seqAt g e.k
  let m := (s.core g).mbox[e.addr % 8]'(Nat.mod_lt _ (by decide))
  if m.claims.head? != some e.k then (if q.pending.isSome then .wait else .diverged)
  else if m.msgs.head? == some (BitVec.ofNat 64 e.data) then .met (serveClaim s g e.addr)
  else if m.msgs.isEmpty then .wait else .diverged

/-- A recorded handler start is met by a dormant member at its count. -/
def feedStart (s : State) (g : Nat) (e : RecEvent) : Fed :=
  let q := s.seqAt g e.k
  if q.status != .dormant then .wait else if q.rwcount == e.count then .met (s.feedHandler g e) else .diverged

/-- What the next recorded event comes to at a member that has not passed its count. A returned value and a command's status are taken where
the access performs and the command fires (`replayElem`, `fireCmd`). -/
def feedEvent (s : State) (g : Nat) (e : RecEvent) : Fed :=
  let q := s.seqAt g e.k
  if e.kind == 4 then feedStart s g e
  else if e.kind == 3 && e.n == 0 then feedLease s g e
  else if q.rwcount < e.count then (if q.gone then .diverged else .wait)
  else
    match e.kind with
    | 0 => if meetsEvent s g e || q.pending.isSome then .wait else .diverged
    | 2 => feedClaim s g e
    | 3 => if e.n == 3 then feedLease s g e else .met (s.feedEffect g e)
    | 5 => if (ownCmds s g e.k).any fun c => c.num == e.addr / 16 && !c.fired then .wait else .diverged
    | _ => .met (s.feedEffect g e)

/-- R327, R328: the next recorded event of a re-executing core is fed when its member stands at its count; a member that
cannot meet it diverges. None while nothing is to be done. -/
def feedNext (s : State) (g : Nat) : Option State :=
  let r := s.group g
  match r.feed with
  | none | some [] => none
  | some (e :: _) =>
    if r.frozen then none
    else if e.count < (s.seqAt g e.k).rwcount then some (s.diverge g e.k)
    else
      match feedEvent s g e with
      | .wait => none
      | .diverged => some (s.diverge g e.k)
      | .met t => some (t.dropFed g)

/-! ### Requests (R320, R321) -/

/-- A request is performed; whether it is done with, which a HALT and a precise STOP are once their sequencers are drained. -/
def performDebug (s : State) (r : DebugReq) : State × Bool :=
  let done := fun (x : State × DebugReply) => (x.1.answer x.2, true)
  match r with
  | .halt t => match haltSeqs s t with
    | (s, some x) => (s.answer x, true)
    | (s, none) => (s, false)
  | .resume t => done (resumeSeqs s t, .ok)
  | .read t w => done (debugRead s t w)
  | .write t w v tag => done (debugWrite s t w v tag)
  | .arm t slot bp => done (armSlot s t slot bp)
  | .stop t i n => stopAt s t i n

/-- R320: the first of the requests that wait is performed when it can be. -/
def debugGoOn (s : State) : State :=
  match s.debugIn with
  | [] => s
  | r :: rest =>
    match performDebug s r with
    | (s, true) => { s with debugIn := rest }
    | (s, false) => s

/-- R320: a request joins those of this package, which are performed in their order. -/
def State.takeDebug (s : State) (r : DebugReq) : State :=
  match s.debugIn with
  | [] => match performDebug s r with
    | (s, true) => s
    | (s, false) => { s with debugIn := [r] }
  | l => { s with debugIn := l ++ [r] }

/-- The target a request names. -/
def DebugReq.target : DebugReq → DebugTarget
  | .halt t | .resume t | .read t _ | .write t _ _ _ | .arm t _ _ | .stop t _ _ => t

/-- A register by its kind and number, and a window's bytes, as a request names them to another package. -/
def debugPlaceBytes : DebugPlace → List Byte
  | .pc => [0]
  | .xreg r => [1, BitVec.ofNat 8 r.val]
  | .freg r => [2, BitVec.ofNat 8 r.val]
  | .vreg r => [3, BitVec.ofNat 8 r.val]
  | .preg r => [4, BitVec.ofNat 8 r.val]
  | .csr n => 5 :: leBytes 2 n
  | .loopLevel i => [6, BitVec.ofNat 8 i]
  | .shape i => [7, BitVec.ofNat 8 i.val]
  | .layout i => [8, BitVec.ofNat 8 i.val]
  | .fibre i => [9, BitVec.ofNat 8 i.val]
  | .stream i => [10, BitVec.ofNat 8 i.val]
  | .window off n => 11 :: (leBytes 3 off ++ leBytes 3 n)
  | .saveArea => [12]
  | .linkTable i => [13, BitVec.ofNat 8 i]

/-- The bytes in which a request goes to another package: its kind, what it names and its contents; their form is open (log entry 49). -/
def DebugReq.bytes (r : DebugReq) : List Byte :=
  let t := r.target
  leBytes 2 t.g ++ leBytes 1 t.mask.toNat ++ match r with
    | .halt _ => [0]
    | .resume _ => [1]
    | .read _ w => 2 :: debugPlaceBytes w
    | .write _ w v tag => 3 :: (debugPlaceBytes w ++ (match tag with
        | some x => [BitVec.ofNat 8 x]
        | none => [255]) ++ leBytes 512 v)
    | .arm _ slot bp => 4 :: (leBytes 1 slot ++ (match bp.addr with
        | some a => 1 :: leBytes 8 a.toNat
        | none => 0 :: (leBytes 8 bp.interval ++ leBytes 8 bp.count)) ++
        [if bp.trap then 1 else 0, if bp.enable then 1 else 0])
    | .stop _ i n => 5 :: (leBytes 8 i ++ leBytes 8 n)

/-- R320: the master forwards a request to its target package as link-control flits, or answers it ABSENT; a package performs the requests
that reach it. After a boot failure none is served (R341). -/
def atTarget (s : State) (r : DebugReq) : State :=
  let t := r.target
  if s.host.bfail != 0 then s
  else if t.pkg == s.pkgid then (if t.g < nCores then s.takeDebug r else s.answer .refused)
  else if s.host.master != s.pkgid then s
  else if s.peers.contains t.pkg then s.send ⟨t.pkg, 0, BitVec.ofNat 64 t.g, .debug, r.bytes⟩
  else s.answer .absent

def execHalt (t : DebugTarget) (s : State) : Host.Outcome State Fault Refusal := .next (atTarget s (.halt t))

def execResume (t : DebugTarget) (s : State) : Host.Outcome State Fault Refusal := .next (atTarget s (.resume t))

def execRead (t : DebugTarget) (w : DebugPlace) (s : State) : Host.Outcome State Fault Refusal := .next (atTarget s (.read t w))

def execWrite (t : DebugTarget) (w : DebugPlace) (v : Nat) (tag : Option Nat) (s : State) : Host.Outcome State Fault Refusal :=
  .next (atTarget s (.write t w v tag))

def execArm (t : DebugTarget) (slot : Nat) (bp : Breakpoint) (s : State) : Host.Outcome State Fault Refusal :=
  .next (atTarget s (.arm t slot bp))

def execStop (t : DebugTarget) (interval count : Nat) (s : State) : Host.Outcome State Fault Refusal :=
  .next (atTarget s (.stop t interval count))

/-- R320: Derdengo designates the pod's debug master. -/
def setMaster (s : State) : State :=
  match Config.derdengo s.free 6 with
  | some v => if s.inPod then { s with host := { s.host with master := v % 4096 } } else s
  | none => s

end Sys2Proof.Machine
end

