-- ==== Sys2Proof/Machine/Image.lean ====
section
/-! DEFINITION. Images and their loading (R339, R340, R53), and the page tables that Derdengo writes (R251). -/
namespace Sys2Proof.Machine

/-! ### Page tables (R251) -/

/-- Derdengo writes a table entry. -/
def putTable (s : State) (d addr e : Nat) : State := s.writeLoc .outside (.dram d addr) (leBytes 8 e) false

/-- n bytes of a die's DRAM cleared. -/
def clearDram (s : State) (d addr n : Nat) : State :=
  let key := dramKey d addr
  ({ s with mem := s.mem.filter fun c => !(decide (key ≤ c.1) && decide (c.1 < key + n)) } : State).noteWrite (.dram d addr) key n

/-- The address of an identifier's entry for an offset at a level of a table. -/
def entryAddr (tbl off lvl : Nat) : Nat := tbl + 8 * bitsOf off (levelBits lvl).1 (levelBits lvl).2

/-- The root of an identifier on a die, made at `next` when it has none; and what is left of the block for tables. -/
def rootFor (s : State) (d asid next : Nat) : State × Nat × Nat :=
  let x := s.die d
  if tabHas x.roots asid then (s, tabGet 0 x.roots asid, next)
  else ((clearDram s d next 0x4000).setDie d { x with roots := tabPut x.roots asid next }, next, next + 0x4000)

/-- Maps one 64 KiB page from a table at a level down, making the tables it needs from `next` on. -/
def mapFrom (d off leaf : Nat) : Nat → Nat → Nat → State → State × Nat
  | 0, tbl, next, s => (putTable s d (entryAddr tbl off 0) leaf, next)
  | l + 1, tbl, next, s =>
    let a := entryAddr tbl off (l + 1)
    let e := memNat s.mem (dramKey d a) 8
    if bitOf e 0 then mapFrom d off leaf l (bitsOf e 47 12 * 4096) next s
    else mapFrom d off leaf l next (next + 0x1000) (putTable (clearDram s d next 0x1000) d a (next + 1))

/-- A 64 KiB leaf. -/
def leafEntry (pa : Nat) (w x : Bool) : Nat := pa / 2 ^ 16 * 2 ^ 26 + (if x then 8 else 0) + (if w then 4 else 0) + 3

/-- Maps n pages from an address and a frame up. -/
def mapPages (d asid : Nat) (w x : Bool) : Nat → Nat → Nat → Nat → State → State × Nat
  | 0, _, _, next, s => (s, next)
  | n + 1, off, pa, next, s =>
    let (s, root, next) := rootFor s d asid next
    let (s, next) := mapFrom d off (leafEntry pa w x) 3 root next s
    mapPages d asid w x n (off + 0x10000) (pa + 0x10000) next s

/-- The leaf entry that maps an offset: its address and level. -/
def leafAt (s : State) (d off : Nat) : Nat → Nat → Option (Nat × Nat)
  | 0, tbl => if bitOf (memNat s.mem (dramKey d (entryAddr tbl off 0)) 8) 0 then some (entryAddr tbl off 0, 0) else none
  | l + 1, tbl =>
    let a := entryAddr tbl off (l + 1)
    let e := memNat s.mem (dramKey d a) 8
    if !bitOf e 0 then none else if bitOf e 1 then some (a, l + 1) else leafAt s d off l (bitsOf e 47 12 * 4096)

/-- The same for an identifier. -/
def leafFor (s : State) (d asid off : Nat) : Option (Nat × Nat) :=
  if tabHas (s.die d).roots asid then leafAt s d off 3 (tabGet 0 (s.die d).roots asid) else none

/-- R251: a page leaves the owner's memory-side TLB, where Derdengo reads its count (R254), and every L1 TLB of the die. -/
def State.purgePage (s : State) (d asid : Nat) (va size : Nat) : State :=
  let keep := fun (e : TlbEntry) => !(e.asid == asid && decide (va ≤ e.page + (e.size - 1)) && decide (e.page < va + size))
  let x := s.die d
  let s := s.setDie d { x with tlb := x.tlb.filter keep, counts := x.counts ++ x.tlb.filter fun e => !keep e }
  let code := fun (l : CodeLine) => !(l.asid == asid && decide (va ≤ 64 * l.line + 63) && decide (64 * l.line < va + size))
  { s with cores := s.cores.map fun (c : Nat × Core) =>
      (c.1, { c.2 with icache := c.2.icache.filter code, l1tlb := if dieOfCore c.1 == d then c.2.l1tlb.filter keep else c.2.l1tlb }) }

/-! ### What a die's DRAM holds (R316, R339) -/

/-- The valid entries of a table of n bytes. -/
def tableEntries (s : State) (d tbl n : Nat) : List Nat :=
  let key := dramKey d tbl
  (s.mem.filter fun c => decide (key ≤ c.1) && decide (c.1 < key + n) && (c.1 - key) % 8 == 0 && bitOf c.2.toNat 0).map fun c => memNat s.mem c.1 8

/-- The tables below a table of a level, each with its size; a level's table but the root's has 512 entries. -/
def tablesFrom (s : State) (d : Nat) : Nat → Nat → Nat → List (Nat × Nat)
  | 0, tbl, n => [(tbl, n)]
  | l + 1, tbl, n => (tbl, n) :: ((tableEntries s d tbl n).filter fun e => !bitOf e 1).flatMap fun e =>
      tablesFrom s d l (bitsOf e 47 12 * 4096) 0x1000

/-- The page tables in a die's DRAM. -/
def tablesOn (s : State) (d : Nat) : List (Nat × Nat) := (s.die d).roots.flatMap fun r => tablesFrom s d 3 r.2 0x4000

/-- The leaves of a table of a level. -/
def leavesFrom (s : State) (d : Nat) : Nat → Nat → Nat → List Leaf
  | 0, tbl, n => (tableEntries s d tbl n).filterMap fun e => leafOf e 0 0
  | l + 1, tbl, n => (tableEntries s d tbl n).flatMap fun e =>
      if bitOf e 1 then (leafOf e (l + 1) 0).toList else leavesFrom s d l (bitsOf e 47 12 * 4096) 0x1000

/-- The frames of a die's DRAM that some identifier's tables, on whichever die, map, each with its size. -/
def framesOn (s : State) (d : Nat) : List (Nat × Nat) :=
  s.dies.flatMap fun x => x.2.roots.flatMap fun r =>
    ((leavesFrom s x.1 3 r.2 0x4000).filter fun l => leafDie s x.1 l == d).map fun l => (l.pa, l.size)

/-- The regions of n bytes of a die's DRAM (R316). -/
def regionsOf (d pa n : Nat) : List Nat :=
  (List.range ((pa + (n - 1)) / 2 ^ 30 + 1 - pa / 2 ^ 30)).map fun i => d * 2 ^ 18 + pa / 2 ^ 30 + i

/-- The region that holds the dump (R318; log entry 74). -/
def dumpRegion : Nat := Config.dumpAt / 2 ^ 30 % 2 ^ 20

/-- Whether two ranges meet. -/
def rangesMeet (a b : Nat × Nat) : Bool := a.2 != 0 && b.2 != 0 && a.1 < b.1 + b.2 && b.1 < a.1 + a.2

/-- R316: whether n bytes are Derdengo's own: in regions granted to no identifier and not to the host, and clear of the tables there, of
the sample ring and of the dump region. -/
def derdengosOwn (s : State) (d pa n : Nat) : Bool :=
  decide (pa + n ≤ 2 ^ 48) &&
    ((regionsOf d pa n).all fun r => (tabGet [] s.regions r).isEmpty && !s.host.grants.contains r && r != dumpRegion) &&
    !((tablesOn s d).any (rangesMeet (pa, n))) && !rangesMeet (pa, n) ((s.die d).ringBase, 32 * (s.die d).ringSlots)

/-- R316, R339: whether frames may be mapped for an identifier: no table maps them, and their regions hold no tables, sample ring or dump
region; frames that are to be executable are out of the host's reach. -/
def framesFree (s : State) (d pa n : Nat) (x : Bool) : Bool :=
  let rs := regionsOf d pa n
  !rs.contains dumpRegion && decide (pa + n ≤ 2 ^ 48) && !((framesOn s d).any (rangesMeet (pa, n))) &&
    !((tablesOn s d).any fun t => (regionsOf d t.1 t.2).any rs.contains) &&
    !((s.die d).ringSlots != 0 && (regionsOf d (s.die d).ringBase (32 * (s.die d).ringSlots)).any rs.contains) &&
    !(x && rs.any s.host.grants.contains)

/-! ### Images (R340) -/

/-- The n-byte value at a file offset. -/
def imgNat (b : List Byte) (o n : Nat) : Nat := leNat ((b.drop o).take n)

/-- The header of an image. -/
structure Image where
  coff : Nat
  csize : Nat
  doff : Nat
  dsize : Nat
  dstart : Nat
  span : Nat
  rtab : Nat
  rcnt : Nat
  ktab : Nat
  kcnt : Nat
  deriving DecidableEq, Repr

/-- Reads the header. -/
def imageOf (b : List Byte) : Image :=
  let f := fun (i : Nat) => imgNat b (8 + 4 * i) 4
  ⟨f 0, f 1, f 2, f 3, f 4, f 5, f 6, f 7, f 8, f 9⟩

/-- The file ranges of an image: header, code, data, relocations and kernels. -/
def Image.ranges (x : Image) : List (Nat × Nat) :=
  [(0, 64), (x.coff, x.csize), (x.doff, x.dsize), (x.rtab, 16 * x.rcnt), (x.ktab, 32 * x.kcnt)]

/-- Whether any two of a list meet. -/
def anyMeet : List (Nat × Nat) → Bool
  | [] => false
  | a :: t => t.any (rangesMeet a) || anyMeet t

/-- The header's form and its ranges within an image of n bytes. -/
def Image.sound (x : Image) (b : List Byte) : Bool :=
  imgNat b 0 4 == 0x4D494C47 && imgNat b 4 2 == 1 && imgNat b 6 2 == 0 && imgNat b 48 16 == 0 &&
    x.coff % 64 == 0 && x.csize % 4 == 0 && decide (4 ≤ x.csize) && x.doff % 64 == 0 && x.dstart % 0x10000 == 0 &&
    decide (x.csize ≤ x.dstart) && x.span % 0x10000 == 0 && decide (x.dstart + x.dsize ≤ x.span) && x.rtab % 16 == 0 &&
    decide (x.rcnt ≤ 2 ^ 24) && x.ktab % 32 == 0 && decide (1 ≤ x.kcnt) && decide (x.kcnt ≤ 4096) &&
    (x.ranges.all fun r => r.2 == 0 || decide (r.1 + r.2 ≤ b.length)) && !anyMeet x.ranges

/-- Whether n bytes at a loaded offset lie in the data section. -/
def Image.inData (x : Image) (o n : Nat) : Bool := x.dstart ≤ o && o + n ≤ x.dstart + x.dsize

/-- A kernel entry's offsets in their sections. -/
def Image.kernelOk (x : Image) (b : List Byte) (i : Nat) : Bool :=
  let e := imgNat b (x.ktab + 32 * i) 32
  bitsOf e 255 192 == 0 && bitsOf e 191 128 % 64 == 0 && x.inData (bitsOf e 191 128) 1024 && bitsOf e 127 64 % 64 == 0 &&
    x.inData (bitsOf e 127 64) 64 && bitsOf e 63 0 % 4 == 0 && decide (bitsOf e 63 0 < x.csize)

/-- A relocation entry. -/
structure Reloc where
  value : Nat
  type : Nat
  at_ : Nat
  pad : Nat
  deriving DecidableEq, Repr

/-- Relocation i. -/
def Image.reloc (x : Image) (b : List Byte) (i : Nat) : Reloc :=
  let e := imgNat b (x.rtab + 16 * i) 16
  ⟨bitsOf e 127 64, bitsOf e 39 32, bitsOf e 31 0, bitsOf e 63 40⟩

/-- Whether a word has the form a relocation type patches (R53). -/
def formMatches (type w : Nat) : Bool :=
  let op := w % 128
  match type with
  | 3 => op == 0x37 || op == 0x17
  | 4 => [0x03, 0x07, 0x13, 0x1B, 0x67].contains op
  | _ => op == 0x23 || op == 0x27

/-- R340, R53: whether a relocation stands where its type may, and its value within its limit. A value that passes the limit of
type 2 or 3 at the load base makes the image bad (DESIGN CHOICE, log entry 71). -/
def Image.relocOk (x : Image) (b : List Byte) (base : Nat) (r : Reloc) : Bool :=
  let v := (base + r.value) % 2 ^ 64
  r.pad == 0 && decide (r.at_ < x.span) &&
    match r.type with
    | 1 => x.inData r.at_ 8 && r.at_ % 8 == 0
    | 2 => x.inData r.at_ 4 && r.at_ % 4 == 0 && decide (v < 2 ^ 32)
    | 3 => decide (r.at_ + 4 ≤ x.csize) && r.at_ % 4 == 0 && formMatches 3 (imgNat b (x.coff + r.at_) 4) &&
        (decide (v < 2 ^ 31) || decide (2 ^ 64 - 2 ^ 31 ≤ v))
    | 4 | 5 => decide (r.at_ + 4 ≤ x.csize) && r.at_ % 4 == 0 && formMatches r.type (imgNat b (x.coff + r.at_) 4)
    | _ => false

/-- R53: a code word patched with the low 12 or high 20 bits of a value. -/
def patchWord (type v w : Nat) : Nat :=
  match type with
  | 3 => w % 2 ^ 12 + (v + 0x800) / 2 ^ 12 % 2 ^ 20 * 2 ^ 12
  | 4 => w % 2 ^ 20 + v % 2 ^ 12 * 2 ^ 20
  | _ => w % 2 ^ 7 + v % 2 ^ 5 * 2 ^ 7 + w / 2 ^ 12 % 2 ^ 13 * 2 ^ 12 + v / 2 ^ 5 % 2 ^ 7 * 2 ^ 25

/-- Bytes with some replaced from an offset up. -/
def patchBytes (l : List Byte) (o : Nat) (b : List Byte) : List Byte := l.take o ++ b ++ l.drop (o + b.length)

/-- Applies a relocation to the loaded bytes. -/
def Reloc.apply (r : Reloc) (base : Nat) (l : List Byte) : List Byte :=
  let v := (base + r.value) % 2 ^ 64
  match r.type with
  | 1 => patchBytes l r.at_ (leBytes 8 v)
  | 2 => patchBytes l r.at_ (leBytes 4 v)
  | t => patchBytes l r.at_ (leBytes 4 (patchWord t v (imgNat l r.at_ 4)))

/-- The loaded bytes before relocation: code, `nop`s, data and zeros. -/
def Image.laidOut (x : Image) (b : List Byte) : List Byte :=
  (b.drop x.coff).take x.csize ++ (List.range ((x.dstart - x.csize) / 4)).flatMap (fun _ => leBytes 4 0x13) ++
    (b.drop x.doff).take x.dsize ++ leBytes (x.span - x.dstart - x.dsize) 0

/-- The first word of n that the scanner refuses, by its offset (R339 step 3). -/
def firstRefused (l : List Byte) : Nat → Nat → Option Nat
  | 0, _ => none
  | n + 1, o =>
    match decode (imgNat l o 4) with
    | .ok _ => firstRefused l n (o + 4)
    | .error _ => some o

/-- What loading an image comes to. -/
inductive LoadPlan where
  | bad
  | refused (off : Nat)
  | go (bytes : List Byte) (x : Image) (entry : Nat)
  deriving DecidableEq, Repr

/-- R339 steps 1 to 3 for an image and a load base. -/
def planLoad (b : List Byte) (base : Nat) : LoadPlan :=
  let x := imageOf b
  let rs := (List.range x.rcnt).map (x.reloc b)
  if b.length < 64 || !x.sound b || !((List.range x.kcnt).all (x.kernelOk b)) || !(rs.all (x.relocOk b base)) then .bad
  else
    let l := rs.foldl (fun l r => r.apply base l) (x.laidOut b)
    match firstRefused l (x.csize / 4) 0 with
    | some o => .refused o
    | none => .go l x (imgNat b x.ktab 8)

end Sys2Proof.Machine
end

