-- ==== Sys2Proof/Machine/Host.lean ====
section
/-! DEFINITION. The host's requests (R335 to R340), boot and reset (R341, R345), SPDM (R342), power and islands (R343, R344),
the test port (R346), teardown (R218, R331 to R333), and the migration of pages (R251, R252). -/
namespace Sys2Proof.Machine

/-! ### The request ring (R336, R337) -/

/-- Changes the host's side. -/
def State.modHost (s : State) (f : HostSide → HostSide) : State := { s with host := f s.host }

def reqCode (e : Nat) : Nat := bitsOf e 15 8
def reqArg (e k : Nat) : Nat := bitsOf e (64 * k + 319) (64 * k + 256)

/-- Whether an entry breaks R337's map or names no request. -/
def reqBad (e : Nat) : Bool := bitsOf e 47 16 != 0 || bitsOf e 7 1 != 0 || reqCode e == 0 || 8 < reqCode e

def rsOk : Nat := 0
def rsBad : Nat := 1
def rsScan : Nat := 2
def rsSpace : Nat := 3

/-- An entry with its results, its status and done. -/
def served (e : BitVec 512) (status r0 r1 : Nat) : BitVec 512 :=
  let n := e.toNat
  BitVec.ofNat 512 (bitsOf n 511 256 * 2 ^ 256 + r1 % 2 ^ 64 * 2 ^ 192 + r0 % 2 ^ 64 * 2 ^ 128 + bitsOf n 127 64 * 2 ^ 64 +
    status * 2 ^ 48 + bitsOf n 47 1 * 2 + 1)

/-- The oldest entry completes, and vector 0 is raised. -/
def State.finishRequest (s : State) (status r0 r1 : Nat) : State :=
  match s.host.entries with
  | [] => s
  | e :: rest => s.modHost fun h =>
      { h with entries := rest, served := h.served ++ [served e status r0 r1], rhead := (h.rhead + 1) % 2 ^ h.rlog,
               vectors := h.vectors ++ [0], teardown := none }

/-- Malformed entries at the head complete BAD-REQUEST. -/
def serveBad : Nat → State → State
  | 0, s => s
  | n + 1, s =>
    match s.host.entries with
    | e :: _ => if reqBad e.toNat then serveBad n (s.finishRequest rsBad 0 0) else s
    | [] => s

/-- A request completes, and Derdengo goes on to the next entry. -/
def State.complete (s : State) (status r0 r1 : Nat) : State :=
  serveBad s.host.entries.length (s.finishRequest status r0 r1)

/-- Whether Derdengo serves requests. -/
def serving (s : State) : Bool := s.host.booted && !s.halted

/-- Serves the oldest entry, when it is a request of a code. -/
def onRequest (s : State) (code : Nat) (f : Nat → State) : State :=
  match s.host.entries with
  | e :: _ => if serving s && !reqBad e.toNat && reqCode e.toNat == code then f e.toNat else s
  | [] => s

/-- HOST_RING_DOORBELL: the host writes rtail, having written the entries up to it. -/
def ringDoorbell (s : State) (tail : BitVec 64) (entries : List (BitVec 512)) : State :=
  let h := s.host
  let size := 2 ^ h.rlog
  let t := tail.toNat % 4096
  if h.bfail != 0 || h.rlog == 0 || 12 < h.rlog || size ≤ t || (t + size - h.rtail % size) % size != entries.length then s
  else
    let s := s.modHost fun h => { h with rtail := t, entries := h.entries ++ entries }
    if serving s then serveBad s.host.entries.length s else s

def execHostRingDoorbell (tail : BitVec 64) (entries : List (BitVec 512)) (s : State) : Host.Outcome State Fault Refusal :=
  .next (ringDoorbell s tail entries)

/-- BAR0_REGISTER_WRITE: rbase and rlog change only while the ring is empty; every other offset ignores writes, and after a
boot failure every one does (R341). -/
def barWrite (s : State) (off : Nat) (v : BitVec 64) : State :=
  if s.host.bfail != 0 || s.host.rhead != s.host.rtail then s
  else
    match off with
    | 0x08 => s.modHost fun h => { h with rbase := v.toNat }
    | 0x10 => s.modHost fun h => { h with rlog := v.toNat % 4096 }
    | _ => s

def execBar0RegisterWrite (off : Nat) (v : BitVec 64) (s : State) : Host.Outcome State Fault Refusal := .next (barWrite s off v)

/-! ### Identifiers and pools (R338) -/

/-- What a read of BAR0 gives (R336), which is served after a boot failure too (R341). -/
def barRead (s : State) (off : Nat) : Nat :=
  let h := s.host
  match off with
  | 0x00 => h.bfail % 2 ^ 8 * 2 ^ 8 + (if h.fatal then 4 else 0) + (if h.attest then 2 else 0) + if h.booted then 1 else 0
  | 0x08 => h.rbase
  | 0x10 => h.rlog
  | 0x18 => h.rtail
  | 0x20 => h.rhead
  | _ => 0

/-- Whether every record of a pool holds FREE or RETIRED. -/
def poolIdle (s : State) (p : Nat) : Bool :=
  let x := s.pool p
  ((List.range x.cap).all fun i => let c := recState s x i; c == 0 || c == 6) && !(s.nodes.any fun n => n.pool == p)

/-- ASID_NEW. -/
def execAsidNew (s : State) : Host.Outcome State Fault Refusal :=
  .next (onRequest s 1 fun _ =>
    match (List.range 256).find? fun a => !s.host.asids.contains a with
    | some a => (s.modHost fun h => { h with asids := h.asids ++ [a] }).complete rsOk a 0
    | none => s.complete rsSpace 0 0)

/-- An identifier loses its roots, translations, grants and pools. -/
def State.freeAsid (s : State) (a : Nat) : State :=
  let s := { s with dies := s.dies.map fun (d : Nat × Die) =>
    (d.1, { d.2 with roots := tabDel d.2.roots a, tlb := d.2.tlb.filter (fun (e : TlbEntry) => e.asid != a),
                     counts := d.2.counts ++ d.2.tlb.filter fun (e : TlbEntry) => e.asid == a }) }
  let s := { s with cores := s.cores.map fun (c : Nat × Core) => (c.1, { c.2 with l1tlb := c.2.l1tlb.filter (fun e => e.asid != a), icache := c.2.icache.filter fun l => l.asid != a }) }
  { s.modHost fun h => { h with asids := h.asids.filter fun x => x != a } with
    pools := s.pools.filter fun p => p.2.asid != a, regions := s.regions.map fun (r : Nat × List Nat) => (r.1, r.2.filter fun x => x != a) }

/-- ASID_FREE. -/
def execAsidFree (s : State) : Host.Outcome State Fault Refusal :=
  .next (onRequest s 2 fun e =>
    let a := reqArg e 0
    if !s.host.asids.contains a || s.pools.any (fun p => p.2.asid == a && !poolIdle s p.1) then s.complete rsBad 0 0
    else (s.freeAsid a).complete rsOk 0 0)

/-- Whether Derdengo may choose a doorbell page: 64 KiB of this package, unmapped, outside every other pool's (R198), with no live
exit address in it (R22). -/
def pageFree (s : State) (a pool : Nat) (page : Word) : Bool :=
  page.toNat % 0x10000 == 0 && page != 0 && ownerPkg page == s.pkgid && !isAperture page &&
    (walk s (ownerDie page) a (vaOffset page)).isNone &&
    !((exitsOf s a).any fun x => decide (page.toNat ≤ x.toNat) && decide (x.toNat < page.toNat + 0x10000)) && !(s.pools.any fun p => p.1 != pool && p.2.page == page)

/-- POOL. -/
def execPool (page : BitVec 64) (s : State) : Host.Outcome State Fault Refusal :=
  .next (onRequest s 5 fun e =>
    let p := reqArg e 0
    let a := reqArg e 1
    if 63 < p || !s.host.asids.contains a || reqArg e 2 % 64 != 0 || reqArg e 3 == 0 || 65535 < reqArg e 3 ||
        (tabHas s.pools p && !poolIdle s p) then s.complete rsBad 0 0
    else if pageFree s a p page then
      (s.setPool p { base := BitVec.ofNat 64 (reqArg e 2), cap := reqArg e 3, asid := a, page := page }).complete rsOk page.toNat 0
    else s)

/-! ### TEARDOWN (R218, R331) -/

/-- Record i of a pool, when it is idle, retires CANCELLED; and whether it did. -/
def tearRecord (p : Nat) (x : State × Nat) (i : Nat) : State × Nat :=
  let s := x.1
  match s.findNode (p, i) with
  | some n =>
    if n.st == .running then x else ((n.saves.foldl (fun t v => t.clearArea v.g v.k) s).retire n nsCancelled 1 0, x.2 + 1)
  | none =>
    if recState s (s.pool p) i == 1 then (s.retire (nodeOfRec s p i (recBits s (s.pool p) i) 0) nsCancelled 1 0, x.2 + 1) else x

/-- The stop of a running node is requested. -/
def State.tearNode (s : State) (n : Node) : State :=
  let s := s.modNode n.id fun m => { m with teardown := true, preemptAt := some s.cycle, saves := [] }
  (n.live.foldl (fun t g => t.requestStop g) s).stopTorn { n with teardown := true }

/-- R331: the teardown of a pool begins; the count of the records that retire CANCELLED. -/
def beginTeardown (s : State) (p : Nat) : State :=
  let s := s.setPool p { s.pool p with closing := true }
  let s := { s with doorbells := s.doorbells.filter fun x => bitsOf x.2.2.toNat 37 32 != p }
  let (s, n) := (List.range (s.pool p).cap).foldl (tearRecord p) (s, 0)
  let running := s.nodes.filter fun m => m.pool == p
  (running.foldl (fun t m => t.tearNode m) s).modHost fun h => { h with teardown := some (n + running.length) }

/-- TEARDOWN: the request is made, and completes once every record is FREE or RETIRED and the pool accepts doorbells. -/
def execTeardown (s : State) : Host.Outcome State Fault Refusal :=
  .next (onRequest s 6 fun e =>
    let p := reqArg e 0
    if !tabHas s.pools p then s.complete rsBad 0 0
    else
      match s.host.teardown with
      | none => beginTeardown s p
      | some n => if poolIdle s p then (s.setPool p { s.pool p with closing := false }).complete rsOk n 0 else s)

/-! ### LOAD and UNMAP (R338, R339) -/

/-- A byte of the host's window (R335): the DRAM byte of the granted region it falls in. -/
def hostLoc (s : State) (off : Nat) : Option Loc :=
  (s.host.grants[off / 2 ^ 30]?).map fun r => .dram (r / 2 ^ 18) (r % 2 ^ 18 * 2 ^ 30 + off % 2 ^ 30)

/-- n bytes of the window; none when a byte is not granted. -/
def hostBytes (s : State) (off n : Nat) : Option (List Byte) :=
  if n != 0 && (hostLoc s off).isSome && (hostLoc s (off + n - 1)).isSome then
    some ((List.range n).map fun i => match hostLoc s (off + i) with
      | some l => BitVec.ofNat 8 (readLoc s l 1)
      | none => 0)
  else none

/-- Where the block for tables ends when an image of a span is mapped. -/
def tableEnd (s : State) (asid die base frame tables span : Nat) : Nat :=
  (mapPages die asid false false (span / 0x10000) (base % 2 ^ 50) frame tables s).2

/-- Whether Derdengo may choose a die, a load base, frames and a block for tables for an image of a span, `code` bytes of it executable
(R196, R316, R339, R340): the pages are unmapped and hold no live exit address (R22), the frames are free for them, and the whole block
for tables is Derdengo's own and in no region of the frames. -/
def placeOk (s : State) (asid die base frame tables span code : Nat) : Bool :=
  let n := tableEnd s asid die base frame tables span - tables
  base % 0x10000 == 0 && base / 2 ^ 52 == s.pkgid && base / 2 ^ 50 % 4 == die && die < 4 &&
    decide (base % 2 ^ 50 + span ≤ 0x3FFFF * 2 ^ 32) && frame % 0x10000 == 0 && tables % 0x1000 == 0 &&
    framesFree s die frame code true && framesFree s die frame span false && derdengosOwn s die tables n &&
    !((regionsOf die tables n).any (regionsOf die frame span).contains) &&
    !((exitsOf s asid).any fun x => decide (base ≤ x.toNat) && decide (x.toNat < base + span)) &&
    (List.range (span / 0x10000)).all (fun i => (walk s die asid (base % 2 ^ 50 + 0x10000 * i)).isNone) &&
    !(s.pools.any fun p => p.2.asid == asid && decide (base ≤ p.2.page.toNat + 0xFFFF) && decide (p.2.page.toNat < base + span))

/-- The identifier is granted the regions that hold frames. -/
def State.grantRegions (s : State) (die frame span asid : Nat) : State :=
  (List.range ((frame + span - 1) / 2 ^ 30 + 1 - frame / 2 ^ 30)).foldl (fun t i =>
    let r := die * 2 ^ 18 + frame / 2 ^ 30 + i
    let old := tabGet [] t.regions r
    { t with regions := tabPut t.regions r (if old.contains asid then old else old ++ [asid]) }) s

/-- R339 step 4: the image's bytes stand in its frames, and its pages are mapped. -/
def mapImage (s : State) (asid die base frame tables : Nat) (x : Image) (l : List Byte) : State :=
  let off := base % 2 ^ 50
  let s := (s.writeLoc .outside (.dram die frame) l false).grantRegions die frame x.span asid
  let (s, next) := mapPages die asid false true (x.dstart / 0x10000) off frame tables s
  (mapPages die asid true false ((x.span - x.dstart) / 0x10000) (off + x.dstart) (frame + x.dstart) next s).1

/-- LOAD: all or nothing. -/
def execLoad (die base frame tables : Nat) (s : State) : Host.Outcome State Fault Refusal :=
  .next (onRequest s 3 fun e =>
    let a := reqArg e 0
    if !s.host.asids.contains a then s.complete rsBad 0 0
    else
      match hostBytes s (reqArg e 1) (reqArg e 2) with
      | none => s.complete rsBad 0 0
      | some b =>
        match planLoad b base with
        | .bad => s.complete rsBad 0 0
        | .refused o => s.complete rsScan o 0
        | .go l x entry =>
          if placeOk s a die base frame tables x.span x.dstart then (mapImage s a die base frame tables x l).complete rsOk (base + entry) base
          else s)

/-- The pages of a range, from an offset up, lose their leaf entries. -/
def unmapPages (d asid va : Nat) : Nat → Nat → State → State
  | 0, _, s => s
  | n + 1, off, s =>
    let s := match leafFor s d asid off with
      | some (a, lvl) => (putTable s d a 0).purgePage d asid (va - va % 2 ^ 50 + off - off % 2 ^ (levelBits lvl).2) (2 ^ (levelBits lvl).2)
      | none => s
    unmapPages d asid va n (off + 0x10000) s

/-- UNMAP: the pages a range touches; no instruction cache holds their lines then (R27). -/
def execUnmap (s : State) : Host.Outcome State Fault Refusal :=
  .next (onRequest s 4 fun e =>
    let a := reqArg e 0
    let va := BitVec.ofNat 64 (reqArg e 1)
    let n := reqArg e 2
    if !s.host.asids.contains a || ownerPkg va != s.pkgid || isAperture va || 2 ^ 50 < vaOffset va + n then s.complete rsBad 0 0
    else
      let first := vaOffset va / 0x10000
      let count := if n == 0 then 0 else (vaOffset va + n - 1) / 0x10000 + 1 - first
      (unmapPages (ownerDie va) a va.toNat count (first * 0x10000) s).complete rsOk 0 0)

/-! ### Power (R343, R344) -/

/-- The dies' budgets. -/
def budgetsOf (s : State) : List Nat := (List.range 4).map fun d => (s.die d).budget

/-- Sets them. -/
def State.setBudgets (s : State) (l : List Nat) : State :=
  l.zipIdx.foldl (fun t x => t.setDie x.2 { t.die x.2 with budget := x.1 }) s

/-- Whether four budgets are nowhere above four others. -/
def budgetsLe (a b : List Nat) : Bool := (List.range 4).all fun i => decide (a.getD i 0 ≤ b.getD i 0)

/-- Whether the temperature is above the nominal one now. -/
def hotNow (s : State) : Bool := s.host.hot && Config.stillHot s.free

/-- R343: budgets Derdengo may choose for a limit: 1 to 64; at the nominal temperature 64 at 3,000 W, and among all limits that have been
mapped there not falling with a rising limit. -/
def budgetsOk (s : State) (w : Nat) (l : List Nat) : Bool :=
  l.length == 4 && l.all (fun d => decide (1 ≤ d) && decide (d ≤ 64)) &&
    (hotNow s ||
      ((w != 3000 || l.all fun d => d == 64) &&
        s.host.limits.all fun x => (w < x.1 || budgetsLe x.2 l) && (x.1 < w || budgetsLe l x.2)))

/-- Budgets are set for a limit; what Derdengo maps at the nominal temperature it keeps to. -/
def State.setLimit (s : State) (w : Nat) (l : List Nat) : State :=
  let hot := hotNow s
  ((s.setBudgets l).modHost fun h =>
    { h with limit := w, hot := hot, limits := if hot || h.limits.contains (w, l) then h.limits else h.limits ++ [(w, l)] })

/-- R343: the temperature is the nominal one again, and Derdengo sets the budgets of the limit for it. -/
def coolDown (s : State) : State :=
  match Config.derdengo s.free 5 with
  | some v =>
    let l := (List.range 4).map fun d => 1 + v / 64 ^ d % 64
    if s.host.hot && !hotNow s && budgetsOk s s.host.limit l then s.setLimit s.host.limit l else s
  | none => s

/-- LIMIT. -/
def execLimit (budgets : List Nat) (s : State) : Host.Outcome State Fault Refusal :=
  .next (onRequest s 7 fun e =>
    let w := reqArg e 0
    if w < 500 || 3000 < w then s.complete rsBad 0 0
    else if budgetsOk s w budgets then
      (s.setLimit w budgets).complete rsOk w (leNat (budgets.map (BitVec.ofNat 8)))
    else s)

/-- THERMAL_THRESHOLD: every die's budget falls, but for one that is 1 already. -/
def execThermalThreshold (budgets : List Nat) (s : State) : Host.Outcome State Fault Refusal :=
  let old := budgetsOf s
  .next (if budgets.length == 4 && (List.range 4).all (fun i => decide (1 ≤ budgets.getD i 0) && (decide (budgets.getD i 0 < old.getD i 0) || (budgets.getD i 0 == 1 && old.getD i 0 == 1))) then
      (s.setBudgets budgets).modHost fun h => { h with hot := true }
    else s)

/-- ISLAND_GATE: an island none of whose cores holds a node. -/
def execIslandGate (i : Nat) (s : State) : Host.Outcome State Fault Refusal :=
  .next (if i < 64 && !s.gated.contains i && (List.range nCores).all (fun g => islandOf g != i || (residentOf s g).isNone) then
      { s with gated := s.gated ++ [i] }
    else s)

/-- ISLAND_POWER_UP. -/
def execIslandPowerUp (i : Nat) (s : State) : Host.Outcome State Fault Refusal :=
  .next { s with gated := s.gated.filter fun j => j != i }

/-! ### The test port (R346) -/

/-- Changes the test port. -/
def State.modJtag (s : State) (f : Jtag → Jtag) : State := { s with jtag := f s.jtag }

/-- BYPASS selects a one-bit register that captures 0. -/
def Jtag.toBypass (j : Jtag) : Jtag := { j with ir := .bypass, driven := [], dr := [false], tdo := [] }

/-- Once the package is no longer held in reset, EXTEST acts as BYPASS. -/
def Jtag.unheld (j : Jtag) : Jtag := if j.ir == .extest then j.toBypass else j

/-- The register captures the pins, and bits are shifted in at its far end: what stands there then, and what has come out. -/
def shiftedDr (x : BoundaryScan) : List Bool × List Bool :=
  let all := x.found.map (·.2) ++ x.tdi
  (all.drop x.tdi.length, all.take x.tdi.length)

/-- The cells once they are updated from the register. -/
def boundaryCells (x : BoundaryScan) : List (Pin × Bool) := (x.found.map (·.1)).zip (shiftedDr x).1

def execBypass (s : State) : Host.Outcome State Fault Refusal := .next (s.modJtag Jtag.toBypass)

/-- IDCODE selects the 32-bit device identity (log entry 40). -/
def execIdcode (s : State) : Host.Outcome State Fault Refusal :=
  .next (s.modJtag fun j => { j with ir := .idcode, driven := [], dr := (List.range 32).map fun i => Config.idcode.getLsbD i, tdo := [] })

/-- SAMPLE/PRELOAD captures the pins in the boundary register, and the cells take what has been shifted in. -/
def execSamplePreload (pins : BoundaryScan) (s : State) : Host.Outcome State Fault Refusal :=
  .next (s.modJtag fun j => { j with ir := .sample, driven := [], cells := boundaryCells pins, dr := (shiftedDr pins).1, tdo := (shiftedDr pins).2 })

/-- EXTEST drives the cells onto the pins, while the package is held in reset; it captures the pins, and the cells take what is shifted in;
without bits to shift they stay as they were loaded. Else it is BYPASS. -/
def execExtest (pins : BoundaryScan) (s : State) : Host.Outcome State Fault Refusal :=
  .next (if s.held then s.modJtag fun j =>
      let cells := if pins.tdi.isEmpty then j.cells else boundaryCells pins
      { j with ir := .extest, driven := cells, cells := cells, dr := (shiftedDr pins).1, tdo := (shiftedDr pins).2 }
    else s.modJtag Jtag.toBypass)

/-! ### Reset and boot (R338, R341, R345) -/

/-- The package after a reset: everything as after power-on, but for what stands outside it: its number, what it has sent,
the host's memory, and what is still to come to it. -/
def resetPackage (s : State) : State :=
  { State.reset with
    pkgid := s.pkgid, outbox := s.outbox, debugOut := s.debugOut, agenda := s.agenda, free := s.free, spdm := s.spdm,
    host := { served := s.host.served, vectors := s.host.vectors, reads := s.host.reads } }

/-- RESET: the request completes and the package reboots. -/
def execReset (s : State) : Host.Outcome State Fault Refusal :=
  .next (onRequest s 8 fun _ => resetPackage (s.finishRequest rsOk 0 0))

/-- PACKAGE_RESET: this package loses everything; another is absent from then on. -/
def execPackageReset (pkg : Nat) (s : State) : Host.Outcome State Fault Refusal :=
  .next (if pkg == s.pkgid then resetPackage s else s.losePeers [pkg])

/-- BOOT: Derdengo starts, with every byte zero and regions granted to the host, and goes to the requests that have been queued (R337); or a
step fails. The package is no longer held in reset, so a selected EXTEST acts as BYPASS (R346). -/
def execBoot (fail : Nat) (grants : List Nat) (s : State) : Host.Outcome State Fault Refusal :=
  .next (if !s.held || 3 < fail then s
    else if fail != 0 then { s.modHost fun h => { h with bfail := fail, vectors := h.vectors ++ [2] } with held := false, jtag := s.jtag.unheld }
    else if 64 < grants.length || grants.any (fun r => decide (2 ^ 20 ≤ r) || r == dumpRegion) then s
    else
      let s : State := { s.modHost fun h => { h with booted := true, attest := true, grants := grants } with
        held := false, mem := [], poison := [], jtag := s.jtag.unheld }
      serveBad s.host.entries.length s)

/-! ### SPDM (R342) -/

/-- A response, once the package attests; its other bytes are open (log entry 41). -/
def spdmReply (s : State) (x : SpdmResponse) (r : SpdmRequest) : State :=
  if s.host.attest then { s with spdm := s.spdm ++ [{ x with body := Config.spdmBody x.code r.param s.spdm.length }] } else s

/-- A response of a code. -/
def spdmCode (code : Nat) : SpdmResponse := { code := code, body := 0 }

/-- An ERROR response. -/
def spdmError : Nat := 0x7F

def execGetVersion (r : SpdmRequest) (s : State) : Host.Outcome State Fault Refusal := .next (spdmReply s (spdmCode 0x04) r)
def execGetCapabilities (r : SpdmRequest) (s : State) : Host.Outcome State Fault Refusal := .next (spdmReply s (spdmCode 0x61) r)

/-- NEGOTIATE_ALGORITHMS: RSASSA-4096 and SHA-512 only. -/
def execNegotiateAlgorithms (r : SpdmRequest) (s : State) : Host.Outcome State Fault Refusal :=
  .next (spdmReply s { spdmCode 0x63 with algorithms := [.rsassa4096, .sha512] } r)

def execGetDigests (r : SpdmRequest) (s : State) : Host.Outcome State Fault Refusal := .next (spdmReply s (spdmCode 0x01) r)

def execGetCertificate (r : SpdmRequest) (s : State) : Host.Outcome State Fault Refusal :=
  .next (spdmReply s (spdmCode (if r.param < 8 then 0x02 else spdmError)) r)

def execChallenge (r : SpdmRequest) (s : State) : Host.Outcome State Fault Refusal :=
  .next (spdmReply s (spdmCode (if r.param < 8 then 0x03 else spdmError)) r)

/-- The measurements of R342 by index: 1 boot ROM, 2 Derdengo image, 3 fuse configuration, 4 debug unlock state. -/
def measurementsOf (s : State) (l : List Nat) : List (Nat × BitVec 512) :=
  l.map fun i => (i, Config.measured i (if i == 4 then s.free else 0))

/-- GET_MEASUREMENTS: one of the four indices, their count (0), or all of them (0xFF). -/
def execGetMeasurements (r : SpdmRequest) (s : State) : Host.Outcome State Fault Refusal :=
  .next (spdmReply s
    (if r.param == 0 then { spdmCode 0x60 with count := some 4 }
    else if r.param ≤ 4 then { spdmCode 0x60 with measurements := measurementsOf s [r.param] }
    else if r.param == 0xFF then { spdmCode 0x60 with measurements := measurementsOf s [1, 2, 3, 4] }
    else spdmCode spdmError) r)

/-! ### What Derdengo sets (R214, R254, R309; log entry 70) -/

/-- R214: A, from 8 to 1,024. -/
def setAging (s : State) : State :=
  match Config.derdengo s.free 0 with
  | some v => { s with sched := { s.sched with a := 8 + v % 1017 } }
  | none => s

/-- R309: W, from 2^20 to 2^30. -/
def setPatience (s : State) : State :=
  match Config.derdengo s.free 1 with
  | some v => { s with sched := { s.sched with w := 2 ^ 20 + v % (2 ^ 30 - 2 ^ 20 + 1) } }
  | none => s

/-- R254: a die's sampling interval, from 2^8 to 2^20, and its ring, which lies in a region granted to no one. -/
def setSampling (s : State) (d : Nat) : State :=
  match Config.derdengo s.free 2, Config.derdengo s.free 3 with
  | some n, some v =>
    let base := v % 2 ^ 48 / 64 * 64
    let slots := v / 2 ^ 48 % 2 ^ 20
    if derdengosOwn (s.setDie d { s.die d with ringSlots := 0 }) d base (32 * slots) then
      s.setDie d { s.die d with sampleN := 2 ^ (8 + n % 13), ringBase := base, ringSlots := slots, ringHead := 0, ringUnread := 0 }
    else s
  | _, _ => s

/-- R254: Derdengo reads what a die's ring holds. -/
def drainSamples (s : State) (d : Nat) : State :=
  match Config.derdengo s.free 4 with
  | some n => s.setDie d { s.die d with ringUnread := (s.die d).ringUnread - n }
  | none => s

/-! ### The host's window (R335, R316, R317) -/

/-- A host access. -/
def hostAccess (s : State) (a : HostAccess) : State :=
  match a with
  | .read off n =>
    let damaged := (List.range n).any fun i => (hostLoc s (off + i)).any fun l => poisoned s l 1
    s.modHost fun h => { h with reads := h.reads ++ [if damaged then none else hostBytes s off n] }
  | .bar0 off => s.modHost fun h => { h with reads := h.reads ++ [some (leBytes 8 (barRead s off))] }
  | .write off b =>
    if (hostBytes s off b.length).isSome then
      (joinRuns (b.zipIdx.filterMap fun x => (hostLoc s (off + x.2)).map fun l => (l, [x.1]))).foldl
        (fun t r => t.writeLoc .outside r.1 r.2 false) s
    else s.modHost fun h => { h with dropped := h.dropped + 1 }

def execHostWindowAccess (a : HostAccess) (s : State) : Host.Outcome State Fault Refusal := .next (hostAccess s a)

/-! ### PAGE_MIGRATION (R251, R252) -/

/-- A place in a page that moves: the same byte of its new frame. -/
def Loc.moved (l a b : Loc) (size : Nat) : Loc :=
  match l, a, b with
  | .dram d pa, .dram d0 p0, .dram d1 p1 => if d == d0 && p0 ≤ pa && pa < p0 + size then .dram d1 (p1 + (pa - p0)) else l
  | _, _, _ => l

/-- R252: an accepted access to a page that moves performs at the new frame. -/
def Entry.moved (e : Entry) (a b : Loc) (size : Nat) : Entry :=
  { e with elems := e.elems.map fun x => { x with loc := x.loc.moved a b size } }

/-- The same for everything that a sequencer has accepted or reserved. -/
def Seq.moved (q : Seq) (a b : Loc) (size : Nat) : Seq :=
  { q with queue := q.queue.map fun e => e.moved a b size, resv := q.resv.map fun l => l.moved a b size }

/-- The same for a core, whose data cache keeps no older copy of the new frame's lines. -/
def Core.moved (c : Core) (asid : Nat) (a b : Loc) (size : Nat) : Core :=
  let stale := fun (l : CacheLine) => b.key.any fun y => decide (y ≤ 64 * l.line) && decide (64 * l.line < y + size)
  { c with dcache := c.dcache.filter (fun l => !stale l),
           seqs := c.seqs.map fun q => (q.1, if q.2.asid == asid then q.2.moved a b size else q.2) }

/-- R261: a watched range of lines when m lines from p on move to q: the watch stays with the page. -/
def movedRange (p q m : Nat) (r : Nat × Nat) : List (Nat × Nat) :=
  let mid := (max r.1 p, min r.2 (p + m - 1))
  (if r.1 < p then [(r.1, min r.2 (p - 1))] else []) ++ (if mid.1 ≤ mid.2 then [(mid.1 - p + q, mid.2 - p + q)] else []) ++
    if p + m ≤ r.2 then [(max r.1 (p + m), r.2)] else []

/-- The same for every tile of a cluster. -/
def Cluster.movedWatches (c : Cluster) (p q m : Nat) : Cluster :=
  { c with coppice := c.coppice.map fun t => { t with watch := t.watch.flatMap (movedRange p q m) } }

/-- The same for what is still to be written of a collective's results. -/
def Coll.moved (c : Coll) (a b : Loc) (size : Nat) : Coll :=
  { c with op := c.op.map fun o => { o with chunks := o.chunks.map fun k =>
      { k with held := k.held.map fun x => (x.1.moved a b size, x.2) } } }

/-- A page's bytes and their poison move from one frame to another, and with them the accepted accesses of its identifier, its
reservations and its watches: only timing changes (R252). -/
def State.movePage (s : State) (asid : Nat) (a b : Loc) (size : Nat) : State :=
  match a.key, b.key with
  | some x, some y =>
    if x == y then s
    else
      let bytes := (s.mem.filter fun c => decide (x ≤ c.1) && decide (c.1 < x + size)).map fun c => (c.1 - x + y, c.2)
      let bad := (s.poison.filter fun l => decide (x / 64 ≤ l) && decide (l < (x + size) / 64)).map fun l => l - x / 64 + y / 64
      let rest := s.mem.filter fun (c : Host.Cell) => !(decide (y ≤ c.1) && decide (c.1 < y + size))
      let clean := s.poison.filter fun l => !(decide (y / 64 ≤ l) && decide (l < (y + size) / 64))
      let s := { s with mem := bytes.foldl (fun m (c : Host.Cell) => memPut m c.1 c.2) rest }
      { s with poison := clean ++ bad.filter (fun l => !clean.contains l),
               clusters := s.clusters.map (fun (c : Nat × Cluster) => (c.1, c.2.movedWatches (x / 64) (y / 64) (size / 64))),
               cores := s.cores.map (fun (c : Nat × Core) => (c.1, c.2.moved asid a b size)),
               colls := s.colls.map (fun (c : Nat × Coll) =>
                 (c.1, if c.2.op.any fun o => (s.core o.g).asid == asid then c.2.moved a b size else c.2)),
               remoteResv := s.remoteResv.map fun r => { r with loc := r.loc.moved a b size } }
  | _, _ => s

/-- The bits of a leaf entry that a migration keeps: an entry is never writable and executable (R339), and what a page may be used
for stays as LOAD set it (R196). -/
def sameRights (old new : Nat) : Bool := bitOf old 2 == bitOf new 2 && bitOf old 3 == bitOf new 3

/-- R316, R339: whether Derdengo may move a page to a frame: it is the frame that the page has, or one that is free for it, in regions
that the identifier has been granted. -/
def frameOk (s : State) (m : PageChange) (old : Option Leaf) (new : Leaf) : Bool :=
  farDie (leafDie s m.die new) || (old.any fun l => l.pa == new.pa && l.fwd == new.fwd && l.holder == new.holder) ||
    (framesFree s (leafDie s m.die new) new.pa new.size new.x &&
      (regionsOf (leafDie s m.die new) new.pa new.size).all fun r => (tabGet [] s.regions r).contains m.asid)

/-- PAGE_MIGRATION: Derdengo holds the page's accesses, changes its leaf entry, moves its bytes, and invalidates its
translations. -/
def migratePage (s : State) (m : PageChange) : State :=
  let off := vaOffset m.va
  let e := m.entry.toNat
  match leafFor s m.die m.asid off with
  | none => s
  | some (a, lvl) =>
    let old := walk s m.die m.asid (off - off % 2 ^ (levelBits lvl).2)
    let new := if bitOf e 0 then leafOf e lvl 0 else none
    if bitOf e 0 && (!(new.any (frameOk s m old)) || !sameRights (memNat s.mem (dramKey m.die a) 8) e) then s
    else
      let s := match old, new with
        | some l, some n => s.movePage m.asid (leafLoc s m.die l) (leafLoc s m.die n) l.size
        | _, _ => s
      let base := m.va.toNat - off + (off - off % 2 ^ (levelBits lvl).2)
      (putTable s m.die a e).purgePage m.die m.asid base (2 ^ (levelBits lvl).2)

def execPageMigration (m : PageChange) (s : State) : Host.Outcome State Fault Refusal := .next (migratePage s m)

end Sys2Proof.Machine
end

