-- ==== Sys2Proof/Machine/Dispatch.lean ====
section
/-! DEFINITION. exec: what each instruction, command, event and request does, one arm per constructor of Instr. -/
namespace Sys2Proof.Machine

/-- The meaning of every step of the part. -/
def exec (i : Instr) (s : State) : Host.Outcome State Fault Refusal :=
  match i with
  | .scalarLoad k rd rs1 imm => Sys2Proof.Machine.execScalarLoad k rd rs1 imm s
  | .scalarStore k rs2 rs1 imm => Sys2Proof.Machine.execScalarStore k rs2 rs1 imm s
  | .lr w aq rl rd rs1 => Sys2Proof.Machine.execLr w aq rl rd rs1 s
  | .sc w aq rl rd rs2 rs1 => Sys2Proof.Machine.execSc w aq rl rd rs2 rs1 s
  | .amo op w aq rl rd rs2 rs1 => Sys2Proof.Machine.execAmo op w aq rl rd rs2 rs1 s
  | .postedAmo op w aq rl rs2 rs1 => Sys2Proof.Machine.execPostedAmo op w aq rl rs2 rs1 s
  | .jalr rd rs1 imm => Sys2Proof.Machine.execJalr rd rs1 imm s
  | .fence rd rs1 fm pred succ => Sys2Proof.Machine.execFence rd rs1 fm pred succ s
  | .fenceTso rd rs1 => Sys2Proof.Machine.execFenceTso rd rs1 s
  | .fenceI rd rs1 imm => Sys2Proof.Machine.execFenceI rd rs1 imm s
  | .ecall => Sys2Proof.Machine.execEcall s
  | .ebreak => Sys2Proof.Machine.execEbreak s
  | .csrAccess op rd csr src => Sys2Proof.Machine.execCsrAccess op rd csr src s
  | .scalarFpOp op => Sys2Proof.Machine.execScalarFpOp op s
  | .standardInstruction op => Sys2Proof.Machine.execStandardInstruction op s
  | .loopEnd off => Sys2Proof.Machine.execLoopEnd off s
  | .loopBrk off => Sys2Proof.Machine.execLoopBrk off s
  | .loopSet xs1 stages => Sys2Proof.Machine.execLoopSet xs1 stages s
  | .loopIdx rd k => Sys2Proof.Machine.execLoopIdx rd k s
  | .pand pd pa pb => Sys2Proof.Machine.execPand pd pa pb s
  | .por pd pa pb => Sys2Proof.Machine.execPor pd pa pb s
  | .pnot pd pa => Sys2Proof.Machine.execPnot pd pa s
  | .pmov pd pa => Sys2Proof.Machine.execPmov pd pa s
  | .ppop rd pa => Sys2Proof.Machine.execPpop rd pa s
  | .pfirst pd pa => Sys2Proof.Machine.execPfirst pd pa s
  | .pwhile pd xs1 xs2 => Sys2Proof.Machine.execPwhile pd xs1 xs2 s
  | .barInit k xs1 => Sys2Proof.Machine.execBarInit k xs1 s
  | .barArrive k => Sys2Proof.Machine.execBarArrive k s
  | .barWait k => Sys2Proof.Machine.execBarWait k s
  | .mboxSend xs1 xs2 => Sys2Proof.Machine.execMboxSend xs1 xs2 s
  | .mboxRecv rd mb => Sys2Proof.Machine.execMboxRecv rd mb s
  | .mboxPoll rd mb => Sys2Proof.Machine.execMboxPoll rd mb s
  | .tokSet xs1 => Sys2Proof.Machine.execTokSet xs1 s
  | .tokClr xs1 => Sys2Proof.Machine.execTokClr xs1 s
  | .spaBump rd xs1 => Sys2Proof.Machine.execSpaBump rd xs1 s
  | .spaRingGet rd xs1 k => Sys2Proof.Machine.execSpaRingGet rd xs1 k s
  | .spaRingPut xs1 k => Sys2Proof.Machine.execSpaRingPut xs1 k s
  | .spaMark rd => Sys2Proof.Machine.execSpaMark rd s
  | .spaRel xs1 => Sys2Proof.Machine.execSpaRel xs1 s
  | .shpWr sh xs1 => Sys2Proof.Machine.execShpWr sh xs1 s
  | .shpRd rd sh => Sys2Proof.Machine.execShpRd rd sh s
  | .lyWr ly xs1 xs2 => Sys2Proof.Machine.execLyWr ly xs1 xs2 s
  | .lyRd rd ly hi => Sys2Proof.Machine.execLyRd rd ly hi s
  | .tcfgWr tl xs1 => Sys2Proof.Machine.execTcfgWr tl xs1 s
  | .tcfgRd rd tl => Sys2Proof.Machine.execTcfgRd rd tl s
  | .fbOpen k xs1 => Sys2Proof.Machine.execFbOpen k xs1 s
  | .fbAdv rd k => Sys2Proof.Machine.execFbAdv rd k s
  | .fbEnd rd k => Sys2Proof.Machine.execFbEnd rd k s
  | .fbClose k => Sys2Proof.Machine.execFbClose k s
  | .smOpen k xs1 => Sys2Proof.Machine.execSmOpen k xs1 s
  | .smAdv rd k => Sys2Proof.Machine.execSmAdv rd k s
  | .smEnd rd k => Sys2Proof.Machine.execSmEnd rd k s
  | .smClose k => Sys2Proof.Machine.execSmClose k s
  | .qmark scope kind => Sys2Proof.Machine.execQmark scope kind s
  | .qwait m => Sys2Proof.Machine.execQwait m s
  | .regionMark => Sys2Proof.Machine.execRegionMark s
  | .regionEnd => Sys2Proof.Machine.execRegionEnd s
  | .yield => Sys2Proof.Machine.execYield s
  | .feChkX rd k => Sys2Proof.Machine.execFeChkX rd k s
  | .feChkV rd k => Sys2Proof.Machine.execFeChkV rd k s
  | .tret => Sys2Proof.Machine.execTret s
  | .cmdPut rd q xs1 => Sys2Proof.Machine.execCmdPut rd q xs1 s
  | .chainTail q xs1 => Sys2Proof.Machine.execChainTail q xs1 s
  | .seqWait q xs1 => Sys2Proof.Machine.execSeqWait q xs1 s
  | .seqRead rd q => Sys2Proof.Machine.execSeqRead rd q s
  | .leaseAcq => Sys2Proof.Machine.execLeaseAcq s
  | .leaseRel => Sys2Proof.Machine.execLeaseRel s
  | .amoaddS o => Sys2Proof.Machine.execAmoaddS o s
  | .amominS o => Sys2Proof.Machine.execAmominS o s
  | .amomaxS o => Sys2Proof.Machine.execAmomaxS o s
  | .amominnumS o => Sys2Proof.Machine.execAmominnumS o s
  | .amomaxnumS o => Sys2Proof.Machine.execAmomaxnumS o s
  | .vadd o => Sys2Proof.Machine.execVadd o s
  | .vsub o => Sys2Proof.Machine.execVsub o s
  | .vmul o => Sys2Proof.Machine.execVmul o s
  | .vmulh o => Sys2Proof.Machine.execVmulh o s
  | .vmac o => Sys2Proof.Machine.execVmac o s
  | .vand o => Sys2Proof.Machine.execVand o s
  | .vor o => Sys2Proof.Machine.execVor o s
  | .vxor o => Sys2Proof.Machine.execVxor o s
  | .vsll o => Sys2Proof.Machine.execVsll o s
  | .vsr o => Sys2Proof.Machine.execVsr o s
  | .vmin o => Sys2Proof.Machine.execVmin o s
  | .vmax o => Sys2Proof.Machine.execVmax o s
  | .vsadd o => Sys2Proof.Machine.execVsadd o s
  | .vssub o => Sys2Proof.Machine.execVssub o s
  | .vaddX o => Sys2Proof.Machine.execVaddX o s
  | .vnot o => Sys2Proof.Machine.execVnot o s
  | .vneg o => Sys2Proof.Machine.execVneg o s
  | .vabs o => Sys2Proof.Machine.execVabs o s
  | .vmov o => Sys2Proof.Machine.execVmov o s
  | .vfadd o => Sys2Proof.Machine.execVfadd o s
  | .vfsub o => Sys2Proof.Machine.execVfsub o s
  | .vfmul o => Sys2Proof.Machine.execVfmul o s
  | .vfma o => Sys2Proof.Machine.execVfma o s
  | .vfms o => Sys2Proof.Machine.execVfms o s
  | .vfdiv o => Sys2Proof.Machine.execVfdiv o s
  | .vfmin o => Sys2Proof.Machine.execVfmin o s
  | .vfmax o => Sys2Proof.Machine.execVfmax o s
  | .vfminnum o => Sys2Proof.Machine.execVfminnum o s
  | .vfmaxnum o => Sys2Proof.Machine.execVfmaxnum o s
  | .vfsgnj o => Sys2Proof.Machine.execVfsgnj o s
  | .vfsgnjn o => Sys2Proof.Machine.execVfsgnjn o s
  | .vfsgnjx o => Sys2Proof.Machine.execVfsgnjx o s
  | .vfmaX o => Sys2Proof.Machine.execVfmaX o s
  | .vfmulX o => Sys2Proof.Machine.execVfmulX o s
  | .vfsqrt o => Sys2Proof.Machine.execVfsqrt o s
  | .vfabs o => Sys2Proof.Machine.execVfabs o s
  | .vfneg o => Sys2Proof.Machine.execVfneg o s
  | .vfclass o => Sys2Proof.Machine.execVfclass o s
  | .vcmpEq o => Sys2Proof.Machine.execVcmpEq o s
  | .vcmpNe o => Sys2Proof.Machine.execVcmpNe o s
  | .vcmpLt o => Sys2Proof.Machine.execVcmpLt o s
  | .vcmpLe o => Sys2Proof.Machine.execVcmpLe o s
  | .vcmpUnord o => Sys2Proof.Machine.execVcmpUnord o s
  | .xcmpEq o => Sys2Proof.Machine.execXcmpEq o s
  | .xcmpNe o => Sys2Proof.Machine.execXcmpNe o s
  | .xcmpLt o => Sys2Proof.Machine.execXcmpLt o s
  | .xcmpGe o => Sys2Proof.Machine.execXcmpGe o s
  | .xcmpLtu o => Sys2Proof.Machine.execXcmpLtu o s
  | .xcmpGeu o => Sys2Proof.Machine.execXcmpGeu o s
  | .xcmpTst o => Sys2Proof.Machine.execXcmpTst o s
  | .vcvt o => Sys2Proof.Machine.execVcvt o s
  | .vcvtRz o => Sys2Proof.Machine.execVcvtRz o s
  | .vwiden o => Sys2Proof.Machine.execVwiden o s
  | .vnarrow o => Sys2Proof.Machine.execVnarrow o s
  | .vtag o => Sys2Proof.Machine.execVtag o s
  | .vrnd o => Sys2Proof.Machine.execVrnd o s
  | .vfexp2 o => Sys2Proof.Machine.execVfexp2 o s
  | .vflog2 o => Sys2Proof.Machine.execVflog2 o s
  | .vfrcp o => Sys2Proof.Machine.execVfrcp o s
  | .vfrsqrt o => Sys2Proof.Machine.execVfrsqrt o s
  | .vgetexp o => Sys2Proof.Machine.execVgetexp o s
  | .vgetmant o => Sys2Proof.Machine.execVgetmant o s
  | .vscale o => Sys2Proof.Machine.execVscale o s
  | .vredsum o => Sys2Proof.Machine.execVredsum o s
  | .vredmax o => Sys2Proof.Machine.execVredmax o s
  | .vredmin o => Sys2Proof.Machine.execVredmin o s
  | .vredargmax o => Sys2Proof.Machine.execVredargmax o s
  | .vscan o => Sys2Proof.Machine.execVscan o s
  | .vperm o => Sys2Proof.Machine.execVperm o s
  | .vsel o => Sys2Proof.Machine.execVsel o s
  | .vcompress o => Sys2Proof.Machine.execVcompress o s
  | .vexpand o => Sys2Proof.Machine.execVexpand o s
  | .vld o => Sys2Proof.Machine.execVld o s
  | .vldVa o => Sys2Proof.Machine.execVldVa o s
  | .vlds o => Sys2Proof.Machine.execVlds o s
  | .vldsVa o => Sys2Proof.Machine.execVldsVa o s
  | .vldx o => Sys2Proof.Machine.execVldx o s
  | .vldxVa o => Sys2Proof.Machine.execVldxVa o s
  | .vst o => Sys2Proof.Machine.execVst o s
  | .vstVa o => Sys2Proof.Machine.execVstVa o s
  | .vsts o => Sys2Proof.Machine.execVsts o s
  | .vstsVa o => Sys2Proof.Machine.execVstsVa o s
  | .vstx o => Sys2Proof.Machine.execVstx o s
  | .vstxVa o => Sys2Proof.Machine.execVstxVa o s
  | .vldB o => Sys2Proof.Machine.execVldB o s
  | .vldBVa o => Sys2Proof.Machine.execVldBVa o s
  | .vldRow o => Sys2Proof.Machine.execVldRow o s
  | .vstRow o => Sys2Proof.Machine.execVstRow o s
  | .vpark o => Sys2Proof.Machine.execVpark o s
  | .vunpark o => Sys2Proof.Machine.execVunpark o s
  | .hprobe o => Sys2Proof.Machine.execHprobe o s
  | .binAdd o => Sys2Proof.Machine.execBinAdd o s
  | .binAddVa o => Sys2Proof.Machine.execBinAddVa o s
  | .vslideUp o => Sys2Proof.Machine.execVslideUp o s
  | .vslideDown o => Sys2Proof.Machine.execVslideDown o s
  | .vmvX o => Sys2Proof.Machine.execVmvX o s
  | .vmvS o => Sys2Proof.Machine.execVmvS o s
  | .viota o => Sys2Proof.Machine.execViota o s
  | .vsegid o => Sys2Proof.Machine.execVsegid o s
  | .accessAccept g k r => Sys2Proof.Machine.execAccessAccept g k r s
  | .accessPerform g k idx el c => Sys2Proof.Machine.execAccessPerform g k idx el c s
  | .loadReturn g k idx => Sys2Proof.Machine.execLoadReturn g k idx s
  | .vectorDestFull g k idx => Sys2Proof.Machine.execVectorDestFull g k idx s
  | .acknowledgement g k idx => Sys2Proof.Machine.execAcknowledgement g k idx s
  | .mboxClaimServed g mb => Sys2Proof.Machine.execMboxClaimServed g mb s
  | .mailboxWindowStore g k idx => Sys2Proof.Machine.execMailboxWindowStore g k idx s
  | .tokenWindowStore g k idx => Sys2Proof.Machine.execTokenWindowStore g k idx s
  | .readyFlagWrite g k idx el => Sys2Proof.Machine.execReadyFlagWrite g k idx el s
  | .readyFlagRise g flag env => Sys2Proof.Machine.execReadyFlagRise g flag env s
  | .accumulateOnWrite g k idx el => Sys2Proof.Machine.execAccumulateOnWrite g k idx el s
  | .vregWindowWrite g k idx el => Sys2Proof.Machine.execVregWindowWrite g k idx el s
  | .commandPublish g k idx => Sys2Proof.Machine.execCommandPublish g k idx s
  | .commandFetch g q => Sys2Proof.Machine.execCommandFetch g q s
  | .commandCompletion g q => Sys2Proof.Machine.execCommandCompletion g q s
  | .remoteSignal n => Sys2Proof.Machine.execRemoteSignal n s
  | .mma g q => Sys2Proof.Machine.execMma g q s
  | .mmaBs g q => Sys2Proof.Machine.execMmaBs g q s
  | .mmaSeg g q => Sys2Proof.Machine.execMmaSeg g q s
  | .mmaGrp g q => Sys2Proof.Machine.execMmaGrp g q s
  | .smma g q env => Sys2Proof.Machine.execSmma g q env s
  | .accZero g q => Sys2Proof.Machine.execAccZero g q s
  | .accRd g q => Sys2Proof.Machine.execAccRd g q s
  | .accEpi g q => Sys2Proof.Machine.execAccEpi g q s
  | .copy g q env => Sys2Proof.Machine.execCopy g q env s
  | .gather g q env => Sys2Proof.Machine.execGather g q env s
  | .scatterBin g q env => Sys2Proof.Machine.execScatterBin g q env s
  | .binReplay g q env => Sys2Proof.Machine.execBinReplay g q env s
  | .halo g q env => Sys2Proof.Machine.execHalo g q env s
  | .bcast g q env => Sys2Proof.Machine.execBcast g q env s
  | .patLoad g q watchOk env => Sys2Proof.Machine.execPatLoad g q watchOk env s
  | .patDrop g q => Sys2Proof.Machine.execPatDrop g q s
  | .compilationComplete cl n => Sys2Proof.Machine.execCompilationComplete cl n s
  | .collSetup g q => Sys2Proof.Machine.execCollSetup g q s
  | .collectiveMatch g q peers => Sys2Proof.Machine.execCollectiveMatch g q peers s
  | .clearingReservation g q fits => Sys2Proof.Machine.execClearingReservation g q fits s
  | .collLdred g q => Sys2Proof.Machine.execCollLdred g q s
  | .collRs g q => Sys2Proof.Machine.execCollRs g q s
  | .collAg g q => Sys2Proof.Machine.execCollAg g q s
  | .collA2a g q => Sys2Proof.Machine.execCollA2a g q s
  | .collEnd g q => Sys2Proof.Machine.execCollEnd g q s
  | .ttabArm g q env => Sys2Proof.Machine.execTtabArm g q env s
  | .chunkSweep g q c kids env => Sys2Proof.Machine.execChunkSweep g q c kids env s
  | .chunkDistribute g q c result ovf tree env => Sys2Proof.Machine.execChunkDistribute g q c result ovf tree env s
  | .rselHistCoarse g q env => Sys2Proof.Machine.execRselHistCoarse g q env s
  | .rselHistFull g q env => Sys2Proof.Machine.execRselHistFull g q env s
  | .rselCut g q env => Sys2Proof.Machine.execRselCut g q env s
  | .sampDraw g q env => Sys2Proof.Machine.execSampDraw g q env s
  | .sampDrawGum g q => Sys2Proof.Machine.execSampDrawGum g q s
  | .specAccept g q env => Sys2Proof.Machine.execSpecAccept g q env s
  | .pdaStep g q env => Sys2Proof.Machine.execPdaStep g q env s
  | .pdaAdv g q env => Sys2Proof.Machine.execPdaAdv g q env s
  | .pdaFork g q => Sys2Proof.Machine.execPdaFork g q s
  | .pdaCommit g q => Sys2Proof.Machine.execPdaCommit g q s
  | .pdaRoll g q => Sys2Proof.Machine.execPdaRoll g q s
  | .pdaSave g q => Sys2Proof.Machine.execPdaSave g q s
  | .pdaLoad g q env => Sys2Proof.Machine.execPdaLoad g q env s
  | .cmdFence g q => Sys2Proof.Machine.execCmdFence g q s
  | .chainLink g q => Sys2Proof.Machine.execChainLink g q s
  | .sig g q => Sys2Proof.Machine.execSig g q s
  | .leaseGrant cl => Sys2Proof.Machine.execLeaseGrant cl s
  | .leaseTermEnd cl => Sys2Proof.Machine.execLeaseTermEnd cl s
  | .rideTokenTake cl => Sys2Proof.Machine.execRideTokenTake cl s
  | .rideTokenFree cl => Sys2Proof.Machine.execRideTokenFree cl s
  | .rideHoldLimit cl => Sys2Proof.Machine.execRideHoldLimit cl s
  | .handlerStart g => Sys2Proof.Machine.execHandlerStart g s
  | .emulationService g k => Sys2Proof.Machine.execEmulationService g k s
  | .doorbell => Sys2Proof.Machine.execDoorbell s
  | .schedulerRound refused => Sys2Proof.Machine.execSchedulerRound refused s
  | .nodeDispatch pool idx exit zeros => Sys2Proof.Machine.execNodeDispatch pool idx exit zeros s
  | .gangDispatch pool idx => Sys2Proof.Machine.execGangDispatch pool idx s
  | .sequencerSave g k => Sys2Proof.Machine.execSequencerSave g k s
  | .nodeSpill pool idx => Sys2Proof.Machine.execNodeSpill pool idx s
  | .preemptWithdraw pool idx => Sys2Proof.Machine.execPreemptWithdraw pool idx s
  | .nodeResume pool idx => Sys2Proof.Machine.execNodeResume pool idx s
  | .teardownForcedStop g k => Sys2Proof.Machine.execTeardownForcedStop g k s
  | .nodeRetire pool idx => Sys2Proof.Machine.execNodeRetire pool idx s
  | .checkpointIntervalEnd g => Sys2Proof.Machine.execCheckpointIntervalEnd g s
  | .flitReceive link flit => Sys2Proof.Machine.execFlitReceive link flit s
  | .flitReplay link again => Sys2Proof.Machine.execFlitReplay link again s
  | .linkDown link cause lost => Sys2Proof.Machine.execLinkDown link cause lost s
  | .linkTraining link peer plink ok inPod gained => Sys2Proof.Machine.execLinkTraining link peer plink ok inPod gained s
  | .linkAgreement id edges => Sys2Proof.Machine.execLinkAgreement id edges s
  | .remoteRequest src core seqNo r => Sys2Proof.Machine.execRemoteRequest src core seqNo r s
  | .singleBitCorrect u => Sys2Proof.Machine.execSingleBitCorrect u s
  | .scratchpadPoison g off => Sys2Proof.Machine.execScratchpadPoison g off s
  | .uncorrectableError u => Sys2Proof.Machine.execUncorrectableError u s
  | .residueMismatch u => Sys2Proof.Machine.execResidueMismatch u s
  | .scrub u found => Sys2Proof.Machine.execScrub u found s
  | .fatalError e => Sys2Proof.Machine.execFatalError e s
  | .watchdogExpiry => Sys2Proof.Machine.execWatchdogExpiry s
  | .hostRingDoorbell tail entries => Sys2Proof.Machine.execHostRingDoorbell tail entries s
  | .bar0RegisterWrite off v => Sys2Proof.Machine.execBar0RegisterWrite off v s
  | .asidNew => Sys2Proof.Machine.execAsidNew s
  | .asidFree => Sys2Proof.Machine.execAsidFree s
  | .load die base frame tables => Sys2Proof.Machine.execLoad die base frame tables s
  | .unmap => Sys2Proof.Machine.execUnmap s
  | .pool page => Sys2Proof.Machine.execPool page s
  | .teardown => Sys2Proof.Machine.execTeardown s
  | .limit budgets => Sys2Proof.Machine.execLimit budgets s
  | .reset => Sys2Proof.Machine.execReset s
  | .packageReset pkg => Sys2Proof.Machine.execPackageReset pkg s
  | .boot fail grants => Sys2Proof.Machine.execBoot fail grants s
  | .getVersion req => Sys2Proof.Machine.execGetVersion req s
  | .getCapabilities req => Sys2Proof.Machine.execGetCapabilities req s
  | .negotiateAlgorithms req => Sys2Proof.Machine.execNegotiateAlgorithms req s
  | .getDigests req => Sys2Proof.Machine.execGetDigests req s
  | .getCertificate req => Sys2Proof.Machine.execGetCertificate req s
  | .challenge req => Sys2Proof.Machine.execChallenge req s
  | .getMeasurements req => Sys2Proof.Machine.execGetMeasurements req s
  | .halt t => Sys2Proof.Machine.execHalt t s
  | .resume t => Sys2Proof.Machine.execResume t s
  | .read t w => Sys2Proof.Machine.execRead t w s
  | .write t w v tag => Sys2Proof.Machine.execWrite t w v tag s
  | .arm t slot bp => Sys2Proof.Machine.execArm t slot bp s
  | .stop t interval count => Sys2Proof.Machine.execStop t interval count s
  | .thermalThreshold budgets => Sys2Proof.Machine.execThermalThreshold budgets s
  | .islandGate n => Sys2Proof.Machine.execIslandGate n s
  | .islandPowerUp n => Sys2Proof.Machine.execIslandPowerUp n s
  | .bypass => Sys2Proof.Machine.execBypass s
  | .idcode => Sys2Proof.Machine.execIdcode s
  | .samplePreload pins => Sys2Proof.Machine.execSamplePreload pins s
  | .extest pins => Sys2Proof.Machine.execExtest pins s
  | .hostWindowAccess a => Sys2Proof.Machine.execHostWindowAccess a s
  | .pageMigration m => Sys2Proof.Machine.execPageMigration m s
  | .armRecording pool idx k => Sys2Proof.Machine.execArmRecording pool idx k s
  | .armProfiling pool idx n => Sys2Proof.Machine.execArmProfiling pool idx n s

end Sys2Proof.Machine
end

