-- ==== Sys2Proof/Machine/Issue.lean ====
section
/-! DEFINITION. What one step of the package does: the next request or event of the agenda, else the issue of an
instruction (R15, R17, R27, R28), else an event of the package's own or the end of the cycle. -/
namespace Sys2Proof.Machine

/-! ### Fetch (R27, R28, R253, R313) -/

/-- What a fetch comes to: a word, or a trap's cause. -/
inductive Fetch where
  | word (w : Nat)
  | trap (cause : Nat)
  deriving DecidableEq, Repr

/-- The 64 bytes of the line of an address as the core's instruction cache holds them. -/
def codeLine (s : State) (g asid : Nat) (pc : Word) : Option (List Byte) :=
  ((s.core g).icache.find? fun l => l.asid == asid && l.line == pc.toNat / 64).map (·.bytes)

/-- The word of a line at an address. -/
def wordOfLine (b : List Byte) (pc : Word) : Nat := leNat ((b.drop (pc.toNat % 64)).take 4)

/-- R27: a line enters the instruction cache of 1,024 lines, the oldest leaving (log entry 15). -/
def Core.fillCode (c : Core) (l : CodeLine) : Core :=
  { c with icache := (if c.icache.length < 1024 then c.icache else c.icache.tail) ++ [l] }

/-- A word of another package's code page: a free value of those its scanner lets stand there (R5, R339). -/
def remoteWord (s : State) (pc : Word) : Nat :=
  let w := (Config.remoteCode s.cycle pc).2.toNat
  match decode w with
  | .ok _ => w
  | .error _ => 0x13

/-- The 64 bytes of the line of another package's code page that holds an address. -/
def remoteLine (s : State) (pc : Word) : List Byte :=
  (List.range 16).flatMap fun i => leBytes 4 (remoteWord s (BitVec.ofNat 64 (pc.toNat / 64 * 64 + 4 * i)))

/-- What another package answers a fetch when it gives no word (log entry 43). -/
def remoteRefusal (s : State) (pc : Word) : Option Nat :=
  match (Config.remoteCode s.cycle pc).1 % 4 with
  | 0 => none
  | 1 => some causeXlat
  | 2 => some causeAccess
  | _ => some causeOwnerAbsent

/-- A line that has been fetched stands in the core's instruction cache, and gives the word at the address (R27). -/
def fetchedLine (s : State) (g asid : Nat) (pc : Word) (b : List Byte) : Fetch × State :=
  (.word (wordOfLine b pc), s.modCore g fun c => c.fillCode ⟨asid, pc.toNat / 64, b⟩)

/-- The fetch of sequencer k of core g at its pc, and what it leaves in the caches. -/
def fetch (s : State) (g k : Nat) : Fetch × State :=
  let q := s.seqAt g k
  match codeLine s g q.asid q.r.pc with
  | some b => (.word (wordOfLine b q.r.pc), s)
  | none =>
    match resolve s g q.asid .fetch q.r.pc 4 .accepted with
    | .ok (.dram d pa) =>
      let at_ := pa - pa % 64
      if poisoned s (.dram d at_) 64 then (.trap causeMemory, s)
      else fetchedLine (s.noteTranslation g q.asid .fetch q.r.pc) g q.asid q.r.pc (memBytes s.mem (dramKey d at_) 64)
    | .ok (.remote ..) =>
      match remoteRefusal s q.r.pc with
      | some cause => (.trap cause, s)
      | none => fetchedLine s g q.asid q.r.pc (remoteLine s q.r.pc)
    | .xlat => (.trap causeXlat, s)
    | .absent => (.trap causeOwnerAbsent, s)
    | _ => (.trap causeAccess, s)

/-! ### Issue (R15, R17) -/

/-- Whether a sequencer can issue now. -/
def issuable (s : State) (g k : Nat) : Bool :=
  let q := s.seqAt g k
  q.status == .ready && !q.stopped && !q.halted && q.pending.isNone && q.emul.isNone && !eventDue s g k &&
    !(s.group g).frozen

/-- R17: the ready sequencer of greatest age; among equals the first at or after the rotating pointer. -/
def pickSeq (s : State) (g : Nat) : Option Nat :=
  let ready := ((List.range 8).map fun i => (s.cycle + i) % 8).filter (issuable s g)
  let age := fun (k : Nat) => s.cycle - (s.seqAt g k).lastIssue
  ready.foldl (fun best k => match best with
    | some b => if age b < age k then some k else some b
    | none => some k) none

/-- The next core of this cycle that can issue, with its sequencer. -/
def nextIssue (s : State) : Option (Nat × Nat) :=
  if s.halted || s.held then none
  else
    (s.cores.filter fun c => decide (s.turn ≤ c.1)).findSome? fun c => (pickSeq s c.1).map fun k => (c.1, k)

/-- The decoded instruction runs for the current sequencer. A word that the scanner lets on no page stops the machine. -/
def runWord (w : Nat) (s : State) : Host.Outcome State Fault Refusal :=
  match decode w with
  | .ok i => exec i s
  | .error _ => .fault .undecodable

/-- A sequencer fetches and runs its instruction, or takes the fetch's trap. The word is kept: Derdengo serves it after a
FORMAT-EMULATE trap (R62). -/
def fetchRun (s : State) (g k : Nat) : Host.Outcome State Fault Refusal :=
  match fetch s g k with
  | (.word w, t) => runWord w (t.modSeqAt g k fun q => { q with word := w })
  | (.trap cause, t) => .next (t.takeTrap g k cause (t.seqAt g k).r.pc)

/-- The state in which sequencer k of core g is the one that issues. -/
def State.atIssue (s : State) (g k : Nat) : State := { s with turn := g + 1, cur := (g, k) }

/-- The state once no breakpoint stands in the way (R324): the sequencer issues in this cycle (R17). -/
def State.pastPoints (s : State) (g k : Nat) : State :=
  (s.atIssue g k).modSeqAt g k fun q => { q.passPoints (s.group g).interval with lastIssue := s.cycle }

/-- The core's issue of this cycle: a stop (R327) or a breakpoint (R324) comes before the instruction. -/
def issue (s : State) (g k : Nat) : Host.Outcome State Fault Refusal :=
  if targetReached (s.atIssue g k) g k then .next ((s.atIssue g k).reachTarget g k)
  else
    match breakpointHit (s.atIssue g k) g k with
    | some t => .next t
    | none => fetchRun (s.pastPoints g k) g k

/-! ### Events of the package's own -/

/-- What an event does: the meaning of an instruction, or the next recorded event of a re-executing core (R327). -/
abbrev Happening := State → Host.Outcome State Fault Refusal

/-- A verdict by its number (log entry 43). -/
def verdictOf (n : Nat) : RemoteVerdict :=
  match n % 4 with
  | 0 => .accepted
  | 1 => .xlat
  | 2 => .access
  | _ => .absent

/-- What other packages answer an access: a free value. -/
def remoteAnswerNow (s : State) : RemoteAnswer := ⟨(Config.remoteVerdicts s.free).map verdictOf, Config.remoteBytes s.free⟩

/-- What other packages return to an engine: a free value. -/
def remoteEnvNow (s : State) : RemoteEnv :=
  ⟨Config.remoteBytes s.free, (Config.remoteUnits s.free).map fun x => (x.1, verdictOf x.2)⟩

/-- The open choices of an access that performs: free values. -/
def performChoiceNow (s : State) : PerformChoice :=
  ⟨Config.cacheHit s.free, Config.remoteBytes s.free, Config.bankLosses s.free⟩

/-- The event by which an element of an entry performs. -/
def performEvent (s : State) (g k i j : Nat) (e : Entry) (x : Elem) : Happening :=
  match ownRow e x with
  | some .mbox => execMailboxWindowStore g k i
  | some .tok => execTokenWindowStore g k i
  | some .flag => execReadyFlagWrite g k i j
  | some .vreg => execVregWindowWrite g k i j
  | some _ => execAccumulateOnWrite g k i j
  | none => execAccessPerform g k i j (performChoiceNow s)

/-- Whether an entry's elements perform by themselves. -/
def Entry.performs (e : Entry) : Bool :=
  match e.op with
  | .binHdr .. | .mboxRecv .. | .publish .. | .marker .. => false
  | _ => true

/-- Events of an entry of a queue. -/
def entryEvents (s : State) (g k i : Nat) (e : Entry) : List Happening :=
  (if e.performs then (e.elems.zipIdx.filter fun x => !x.1.done).map fun x => performEvent s g k i x.2 e x.1 else []) ++
    [execLoadReturn g k i, execVectorDestFull g k i, execAcknowledgement g k i, execCommandPublish g k i]

/-- R97: an element of an open fibre or stream, which a free value picks, is read before its advance. It is read while the
sequencer has nothing outstanding, so that every store before the open has performed. -/
def readAhead (s : State) (g k : Nat) (fibre : Bool) (j : Fin 8) : State :=
  let q := s.seqAt g k
  let x := getStream q.r fibre j
  let p := x.pos + Config.streamAhead s.free % (x.count - x.pos)
  let a := x.addrOf p
  if !x.isOpen || x.count ≤ x.pos || tabHas x.ahead p || !q.drained || q.gone || q.halted || s.halted || s.replaying g then s
  else
    let place : Option Loc :=
      if x.va then
        match resolve s g q.asid .load a x.width .accepted with
        | .ok l => some l
        | _ => none
      else if a.toNat % x.width == 0 && decide (a.toNat + x.width ≤ 2 ^ 20) then some (.win g a.toNat) else none
    let waits := fun (l : Loc) => match l with
      | .win g' off => g' == g && (match unitsOf off x.width with
        | some u => commandsHold s g false u
        | none => false)
      | .remote .. => true
      | _ => false
    match place with
    | none => s
    | some l =>
      if waits l || poisoned s l x.width then s
      else
        ((if x.va then s.noteTranslation g q.asid .load a else s).modSeqAt g k fun q =>
          { q with r := q.r.setStream fibre j { x with ahead := tabPut x.ahead p (readLoc s l x.width) } }).noteSpill g

/-- The elements that may be read ahead. -/
def aheadEvents (g k : Nat) (q : Seq) : List Happening :=
  [true, false].flatMap fun f => (List.finRange 8).filterMap fun j =>
    if (getStream q.r f j).isOpen then some fun s => .next (readAhead s g k f j) else none

/-- Events of a sequencer. -/
def seqEvents (s : State) (g k : Nat) (q : Seq) : List Happening :=
  aheadEvents g k q ++ [execAccessAccept g k (remoteAnswerNow s), execEmulationService g k, execSequencerSave g k, execTeardownForcedStop g k] ++
    q.queue.zipIdx.flatMap fun e => entryEvents s g k e.2 e.1

/-- The event by which a command of an opcode fires (R46); two forms of one opcode tell themselves apart by the variant. -/
def fireEvents (s : State) (g q opcode : Nat) : List Happening :=
  let env := remoteEnvNow s
  match opcode with
  | 0x00 => [execMma g q]
  | 0x01 => [execMmaBs g q]
  | 0x02 => [execMmaSeg g q]
  | 0x03 => [execMmaGrp g q]
  | 0x04 => [execSmma g q env]
  | 0x08 => [execAccZero g q]
  | 0x09 => [execAccRd g q]
  | 0x0a => [execAccEpi g q]
  | 0x20 => [execCopy g q env]
  | 0x21 => [execGather g q env]
  | 0x22 => [execScatterBin g q env]
  | 0x23 => [execBinReplay g q env]
  | 0x24 => [execHalo g q env]
  | 0x25 => [execBcast g q env]
  | 0x40 => [execPatLoad g q (Config.watchRoom s.free) env]
  | 0x41 => [execPatDrop g q]
  | 0x60 => [execCollSetup g q]
  | 0x61 => [execCollLdred g q]
  | 0x62 => [execCollRs g q]
  | 0x63 => [execCollAg g q]
  | 0x64 => [execCollA2a g q]
  | 0x68 => [execTtabArm g q env]
  | 0x6f => [execCollEnd g q]
  | 0x80 => [execRselHistCoarse g q env, execRselHistFull g q env]
  | 0x81 => [execRselCut g q env]
  | 0x82 => [execSampDraw g q env, execSampDrawGum g q]
  | 0x83 => [execSpecAccept g q env]
  | 0xa0 => [execPdaStep g q env]
  | 0xa1 => [execPdaAdv g q env]
  | 0xa2 => [execPdaFork g q]
  | 0xa3 => [execPdaCommit g q]
  | 0xa4 => [execPdaRoll g q]
  | 0xa5 => [execPdaSave g q]
  | 0xa6 => [execPdaLoad g q env]
  | 0xc0 => [execCmdFence g q]
  | 0xc1 => [execChainLink g q]
  | 0xc2 => [execSig g q]
  | _ => []

/-- A happening changed before and after. -/
def Happening.within (h : Happening) (before after : State → State) : Happening := fun s =>
  match h (before s) with
  | .next t => .next (after t)
  | x => x

/-- R151: a command fires, reading its side records as they were at its publication or as they are now, line by line. -/
def sidedFire (c : Cmd) (h : Happening) : Happening :=
  h.within (fun s => { s with side := c.oldSides s }) fun s => { s with side := [] }

/-- R314: a command fires, and a soft error changes what it writes. -/
def softFire (h : Happening) : Happening := h.within (fun s => { s with upset := true }) fun s => { s with upset := false }

/-- R314: whether the data of an opcode passes an unchecked place: the array datapath, a staging buffer or the sampling unit. -/
def unchecked (op : Nat) : Bool :=
  [0x00, 0x01, 0x02, 0x03, 0x04, 0x09, 0x0a, 0x20, 0x24, 0x25, 0x80, 0x81, 0x82, 0x83].contains op

/-- Events by which the command at a queue's fetch point fires, or a waiting `smma` goes on. -/
def firings (s : State) (g q : Nat) (x : Queue) : List Happening :=
  let l := match waitingSmma x, headCmd x with
    | some _, _ => [execSmma g q (remoteEnvNow s)]
    | none, some c => match c.word with
      | some w => (fireEvents s g q (cwOpcode w.toNat)).map (sidedFire c)
      | none => []
    | none, none => []
  let op := ((waitingSmma x).orElse fun _ => headCmd x).bind fun c => c.word.map fun w => cwOpcode w.toNat
  l ++ if op.any unchecked then l.map softFire else []

/-- Events of a command queue. -/
def queueEvents (s : State) (g q : Nat) (x : Queue) : List Happening :=
  if x.cmds.isEmpty then [] else [execCommandFetch g q, execCommandCompletion g q, fun t => .next (landCopy g q t),
    fun t => .next (landChunk g q t)] ++ firings s g q x

/-- The next recorded event of core g's re-execution. -/
def feedCore (g : Nat) (s : State) : Host.Outcome State Fault Refusal := .next ((feedNext s g).getD s)

/-- Events of a core. -/
def coreEvents (s : State) (g : Nat) (c : Core) : List Happening :=
  c.seqs.flatMap (fun q => seqEvents s g q.1 q.2) ++ (List.range 16).flatMap (fun q => queueEvents s g q (c.queue q)) ++
    (List.range 8).map (execMboxClaimServed g) ++ c.flags.map (fun f => execReadyFlagRise g f.1 (remoteEnvNow s)) ++
    [execHandlerStart g, execCheckpointIntervalEnd g, feedCore g, fun t => .next (stopBlocked t g)]

/-- Events of a cluster. -/
def clusterEvents (cl : Nat) (c : Cluster) : List Happening :=
  [execLeaseGrant cl, execLeaseTermEnd cl, execRideTokenTake cl, execRideTokenFree cl, execRideHoldLimit cl] ++
    (List.range c.coppice.length).map fun i => execCompilationComplete cl i

/-- Events of a node. -/
def nodeEvents (n : Node) : List Happening :=
  [execGangDispatch n.pool n.idx, execNodeSpill n.pool n.idx, execPreemptWithdraw n.pool n.idx, execNodeResume n.pool n.idx,
    execNodeRetire n.pool n.idx]

/-- Events of a link, by its state (R273 to R277). -/
def linkEvents (s : State) (l : Nat) : List Happening :=
  match (s.link l).state with
  | 0 => if s.inPod then [fun t => .next (beginTraining l t)] else []
  | 2 => [fun t => .next (sendIdle l t), fun t => .next (wireFlit l t), fun t => .next (flitAcked l t)]
  | _ => []

/-- Events of the Weald (R273 to R277). -/
def wealdEvents (s : State) : List Happening :=
  [fun t => .next (sendAwaiting t), fun t => .next (packetize t), fun t => .next (sendFlit t)] ++
    s.unacked.flatMap (fun u => [fun t => .next (requestAcked u.n t), fun t => .next (resend u.n t)]) ++
      (List.range 32).flatMap (linkEvents s)

/-- Derdengo's choices of A, of W and of the dies' sampling, and its reading of the samples. -/
def derdengoEvents : List Happening :=
  [fun t => .next (setAging t), fun t => .next (setPatience t), fun t => .next (coolDown t), fun t => .next (setMaster t),
    fun t => .next (debugGoOn t)] ++
    (List.range 4).flatMap fun d => [fun t => .next (setSampling t d), fun t => .next (drainSamples t d)]

/-- Everything that may happen in the package without the host, Derdengo's choices, other members or damage. -/
def happenings (s : State) : List Happening :=
  s.cores.flatMap (fun c => coreEvents s c.1 c.2) ++
    s.clusters.flatMap (fun c => clusterEvents c.1 c.2) ++ (List.range s.remoteSignals.length).map (fun i => execRemoteSignal i) ++
      s.nodes.flatMap nodeEvents ++ [execDoorbell, execSchedulerRound (Config.spillRefused s.free)] ++ wealdEvents s ++ derdengoEvents

/-- What a happening leads to; none when its rule does not allow it now. -/
def happen (s : State) (h : Happening) : Option State :=
  match h s with
  | .next t => if t = s then none else some t
  | _ => none

/-! ### The end of a cycle (R15, R17) -/

/-- Whether the instruction a sequencer stands at can issue: it does not when its issue would only leave it blocked. -/
def canIssue (s : State) (g k : Nat) : Bool :=
  match fetch s g k with
  | (.word w, t) =>
    let t : State := { t with cur := (g, k) }
    match decode w with
    | .ok i =>
      match exec i t with
      | .next u => decide (u ≠ t.modSeqAt g k fun q => { q with status := .blocked })
      | _ => true
    | .error _ => true
  | _ => true

/-- R15: the state of a sequencer in the next cycle. -/
def nextStatus (s : State) (g k : Nat) (q : Seq) : Seq :=
  if q.gone then q
  else if q.pending.isSome || q.emul.isSome then { q with status := .blocked }
  else { q with status := if canIssue s g k then .ready else .blocked }

/-- The cycle ends, and with it what no cycle may put off (R217, R309). -/
def endCycle (s : State) : State :=
  let s := s.settleArrays.noteStops
  let s : State := { s with
    cycle := s.cycle + 1, turn := 0,
    cores := s.cores.map fun (c : Nat × Core) => (c.1, { c.2 with seqs := c.2.seqs.map fun q => (q.1, nextStatus s c.1 q.1 q.2) }) }
  (s.nodes.filter (·.teardown)).foldl State.stopTorn s

/-- R318: what still happens once a fatal error has halted the package: fired commands reach their boundary, where their engine stops. -/
def boundaryEvents (s : State) : List Happening :=
  s.cores.flatMap fun c => (List.range 16).flatMap fun q =>
    if (c.2.queue q).cmds.any fun x => x.fired then
      [execCommandCompletion c.1 q, fun t => .next (landCopy c.1 q t)] ++
        if (waitingSmma (c.2.queue q)).isSome then [execSmma c.1 q (remoteEnvNow s)] else []
    else []

/-- One of some events, as a free value decides; none when it decides so or none may happen. -/
def oneOf (s : State) (l : List Happening) : Option State :=
  let n := Config.nextEvent s.free % (l.length + 1)
  if n == l.length then none else (l.drop n ++ l.take n).findSome? (happen s)

/-- Once every core has issued: one of the events that may happen now, or the end of the cycle, as a free value decides. -/
def advance (s : State) : State :=
  let s := { s with free := s.free + 1 }
  if s.held then { s with cycle := s.cycle + 1, turn := 0 }
  else if s.halted then (oneOf s (boundaryEvents s)).getD { s with cycle := s.cycle + 1, turn := 0 }
  else (oneOf s (happenings s)).getD (endCycle s)

/-- A request or event of the agenda happens. Instruction words come from memory alone: one on the agenda is passed over. -/
def runAgenda (s : State) (i : Instr) (rest : List Instr) : Host.Outcome State Fault Refusal :=
  let s := { s with agenda := rest }
  if (encode i).isSome then .next s else exec i s

/-- One step. -/
def stepPackage (s : State) : Host.Outcome State Fault Refusal :=
  match s.agenda with
  | i :: rest => runAgenda s i rest
  | [] =>
    match nextIssue s with
    | some (g, k) => issue s g k
    | none => .next (advance s)

/-! ### The state in which a given instruction is the next one -/

/-- The virtual page at which it stands: in the package's first die. -/
def trialPc (s : State) : Word := BitVec.ofNat 64 (s.pkgid * 2 ^ 52 + 0x10000)

/-- The exit address (R22): no page is mapped there. -/
def trialExit (s : State) : Word := BitVec.ofNat 64 (s.pkgid * 2 ^ 52 + 0x40000000)

/-- Page tables that map that page, executable, to the frame 0x10000 (R251), and the word at its start. -/
def trialMem (m : Memory) (w : Nat) : Memory :=
  let m := memSet m (dramKey 0 0x4000) (leBytes 8 0x8001)
  let m := memSet m (dramKey 0 0x8000) (leBytes 8 0x9001)
  let m := memSet m (dramKey 0 0x9000) (leBytes 8 0xA001)
  let m := memSet m (dramKey 0 0xA008) (leBytes 8 0x400000B)
  memSet m (dramKey 0 0x10000) (leBytes 4 w)

/-- A running node that holds core 0 with one sequencer, a vector context and every tile and accumulator. -/
def trialNode (s : State) : Node :=
  { pool := 0, idx := 0, st := .running, preds := List.replicate 8 0xFFFF, entry := trialPc s, vctx := 1, scratch := 16384, tiles := 8,
    accs := 4, asid := 1, origin := some 0, placed := true, dispatched := true, exitAddr := trialExit s }

/-- Core 0 as that node holds it. -/
def trialCore (s : State) : Core :=
  let r : Regs := { pc := trialPc s, vctx := true, p := (Vector.replicate 16 0).set 0 (BitVec.allOnes 1024) }
  { seqs := [(0, { status := .ready, r := r, asid := 1, exitAddr := trialExit s, lastIssue := s.cycle })], node := some (0, 0),
    lastAsid := some 1, entry := trialPc s, asid := 1, seqCount := 1, scratch := 16384, tiles := 8, accs := 4, exitAddr := trialExit s }

/-- That instruction stored where the next step fetches it. -/
def placeWord (s : State) (w : Nat) : State :=
  { s with
    turn := 0, agenda := [], halted := false, held := false, mem := trialMem s.mem w,
    poison := s.poison.filter (fun l => decide (dramKey 0 0x20000 / 64 ≤ l)),
    cores := [(0, trialCore s)], nodes := [trialNode s],
    dies := tabPut s.dies 0 { s.die 0 with roots := tabPut (s.die 0).roots 1 0x4000, absent := false },
    regions := tabPut s.regions 0 [1], pools := s.pools.filter (fun p => p.2.asid != 1), groups := tabDel s.groups 0 }

end Sys2Proof.Machine
end

