-- ==== Sys2Proof/Safety.lean ====
section
/-! DEFINITION. What counts as a safe run, and the terms the statements are written in: the invariant of every step, what
an instruction that completes leaves, when its registers are ready, and which registers a word may write. -/
namespace Sys2Proof.Machine

/-! ### Runs -/

/-- The invariant: memory is in its one canonical form. -/
abbrev State.Inv (s : State) : Prop := s.mem.wf = true

/-- One step answers a next state. -/
def StepsTo (s t : State) : Prop := step s = .next t

/-- The states that a run from a state reaches. -/
inductive Reaches (s : State) : State → Prop where
  | start : Reaches s s
  | step (t u : State) (h : Reaches s t) (hu : StepsTo t u) : Reaches s u

/-- A run is safe when no state it reaches stops: every one has a next state. -/
def State.SafeRun (s : State) : Prop := ∀ t, Reaches s t → ∃ u, StepsTo t u

/-! ### Completion of an instruction of the current sequencer (R9, R17, R22) -/

/-- The instruction whose own effect leaves t has retired, and control falls through to the next word. -/
def retire (t s : State) : State := (t.countRetired s.cur.1 s.cur.2).goTo s.cur.1 s.cur.2 (t.me.r.pc + 4)

/-- The instruction has retired and control goes to an address. -/
def retireAt (t s : State) (pc : Word) : State := (t.countRetired s.cur.1 s.cur.2).goTo s.cur.1 s.cur.2 pc

/-- The same at an iteration boundary, where a requested stop takes hold (R72). -/
def retireEdge (t s : State) (pc : Word) : State := (retireAt t s pc).boundary s.cur.1 s.cur.2

/-- The current sequencer stays where it is, blocked. -/
def waiting (t s : State) : State := t.modSeqAt s.cur.1 s.cur.2 fun q => { q with status := .blocked }

/-- An element of an access as it is issued: its address, its bytes and its data. -/
def issued (a : Word) (n data : Nat) : Elem := { addr := a, n := n, data := data }

/-! ### Readiness of registers (R33, R34, R101) -/

/-- The x registers named are full. -/
abbrev XReady (s : State) (l : List XReg) : Prop := ∀ i ∈ l, s.me.r.xIsFull i = true

/-- No load of the f registers named is under way. -/
abbrev FReady (s : State) (l : List XReg) : Prop := ∀ i ∈ l, s.me.fbusy[i] = false

/-- The sequencer has a vector context, and the vector registers named are full and not being written. -/
abbrev VReady (s : State) (l : List XReg) : Prop := s.me.r.vctx = true ∧ ∀ j ∈ l, s.me.vReady (s.vphys j) = true

/-- R32: a destination that keeps bytes is untyped or of the result tag, or every element is active. -/
abbrev DestReady (s : State) (qp : PReg) (n result : Nat) (vd : XReg) : Prop :=
  s.vtagOf vd = 0 ∨ s.vtagOf vd = result ∨ ∀ i < n, s.active qp i = true

/-- The words of a VA or VU form with one source of a tag. -/
abbrev Ready1 (s : State) (o : VA) (t result : Nat) : Prop :=
  VReady s [o.vs1, o.vd] ∧ s.vtagOf o.vs1 = t ∧ DestReady s o.qp (elemsOf t) result o.vd

/-- The same with two sources of one tag. -/
abbrev Ready2 (s : State) (o : VA) (t : Nat) : Prop :=
  VReady s [o.vs1, o.vs2, o.vd] ∧ s.vtagOf o.vs1 = t ∧ s.vtagOf o.vs2 = t ∧ DestReady s o.qp (elemsOf t) t o.vd

/-- The same with the destination read as well. -/
abbrev Ready3 (s : State) (o : VA) (t : Nat) : Prop := Ready2 s o t ∧ s.vtagOf o.vd = t

/-- The words of VX form: xs1 full and vs2 of the tag. -/
abbrev ReadyX (s : State) (o : VA) (t : Nat) : Prop :=
  XReady s [o.vs1] ∧ VReady s [o.vs2, o.vd] ∧ s.vtagOf o.vs2 = t ∧ DestReady s o.qp (elemsOf t) t o.vd

/-- Room in the load queue and in the store queue (R18). -/
abbrev Room (s : State) (loads stores : Nat) : Prop := queueRoom s.me loads stores = true

/-! ### Accesses -/

/-- An element of an entry that stands alone in its queue, whose owner is present and whose bytes are whole. -/
abbrev AloneInDram (s : State) (g k : Nat) (e : Entry) (x : Elem) (d pa : Nat) : Prop :=
  (s.seqAt g k).queue = [e] ∧ e.elems = [x] ∧ x.done = false ∧ x.loc = .dram d pa ∧ s.replaying g = false ∧
    ownerAbsent s (ownerPkg x.addr) (ownerDie x.addr) = false ∧ poisoned s x.loc x.n = false

/-- Element 0 of entry idx may perform: its place is of this package's DRAM, its owner present and its bytes whole. -/
abbrev MayPerformInDram (s : State) (g k idx : Nat) (e : Entry) (x : Elem) (d pa : Nat) : Prop :=
  (s.seqAt g k).queue[idx]? = some e ∧ e.elems = [x] ∧ x.loc = .dram d pa ∧ canPerform s g k idx 0 = true ∧ s.replaying g = false ∧
    lostOwner s e x = false ∧ poisoned s x.loc x.n = false

/-- The elements of a mode 0 access: aligned, within the scratchpad and not damaged. -/
abbrev InScratchpad (s : State) (l : List Elem) : Prop :=
  ∀ x ∈ l, x.n ≠ 0 ∧ x.addr.toNat % x.n = 0 ∧ x.addr.toNat + x.n ≤ 2 ^ 20 ∧ poisoned s (.win s.cur.1 x.addr.toNat) x.n = false

/-- What an access of the elements l leaves: in mode 0 it is in its queue and the word retires; in mode 1 it waits for its owner; with no
active element the word retires at once. -/
def vectorAccess (s : State) (va : Bool) (op : EntryOp) (l : List Elem) : State :=
  if l = [] then retire s s
  else if va then waiting (s.await [] { op := op, va := true, elems := l } []) s
  else retire (s.enter [] { op := op, elems := l.map fun x => x.inSpad s.cur.1 } []) s

/-! ### Which registers a word may write -/

/-- The x register that an instruction word writes at its issue, if any. -/
def xDest (i : Instr) : Option XReg :=
  match i with
  | .standardInstruction (.lui rd _) | .standardInstruction (.auipc rd _) | .standardInstruction (.jal rd _)
  | .standardInstruction (.op _ rd _ _) | .standardInstruction (.op32 _ rd _ _)
  | .standardInstruction (.opImm _ rd _ _) | .standardInstruction (.opImm32 _ rd _ _)
  | .jalr rd _ _ | .csrAccess _ rd _ _ | .scalarFpOp (.cmp _ rd _ _) | .scalarFpOp (.fclass rd _)
  | .scalarFpOp (.mvXW rd _) | .scalarFpOp (.cvtToInt _ rd _ _) | .loopIdx rd _ | .ppop rd _ | .mboxPoll rd _
  | .spaBump rd _ | .spaRingGet rd _ _ | .spaMark rd | .shpRd rd _ | .lyRd rd _ _ | .tcfgRd rd _ | .fbAdv rd _
  | .fbEnd rd _ | .smAdv rd _ | .smEnd rd _ | .feChkX rd _ | .feChkV rd _ | .cmdPut rd _ _ | .seqRead rd _ => some rd
  | .vmvX o => some o.vd
  | _ => none

/-- The f register that an instruction word writes at its issue, if any. -/
def fDest (i : Instr) : Option XReg :=
  match i with
  | .scalarFpOp (.arith _ rd _ _ _) | .scalarFpOp (.sqrt rd _ _) | .scalarFpOp (.fused _ rd _ _ _ _)
  | .scalarFpOp (.sel _ rd _ _) | .scalarFpOp (.mvWX rd _) | .scalarFpOp (.cvtFromInt _ rd _ _) => some rd
  | _ => none

/-- The first vector register that an instruction word names as its destination, if any, and how many follow. -/
def vDests (i : Instr) (s : State) : List XReg :=
  match i with
  | .vadd o | .vsub o | .vmul o | .vmulh o | .vmac o | .vand o | .vor o | .vxor o | .vsll o | .vsr o | .vmin o | .vmax o
  | .vsadd o | .vssub o | .vaddX o | .vnot o | .vneg o | .vabs o | .vmov o | .vfadd o | .vfsub o | .vfmul o | .vfma o
  | .vfms o | .vfdiv o | .vfmin o | .vfmax o | .vfminnum o | .vfmaxnum o | .vfsgnj o | .vfsgnjn o | .vfsgnjx o
  | .vfmaX o | .vfmulX o | .vfsqrt o | .vfabs o | .vfneg o | .vfclass o | .vrnd o | .vfexp2 o | .vflog2 o | .vfrcp o
  | .vfrsqrt o | .vgetexp o | .vgetmant o | .vscale o | .vredsum o | .vredmax o | .vredmin o | .vredargmax o | .vscan o
  | .vperm o | .vsel o | .vcompress o | .vexpand o => [o.vd]
  | .vcvt o | .vcvtRz o | .vnarrow o | .vtag o => [o.vd]
  | .vwiden o => groupNames o.vd (tagBits o.tag.val / tagBits (s.vtagOf o.vs1))
  | .vldRow o | .vunpark o | .hprobe o | .vslideUp o | .vslideDown o | .vmvS o | .viota o | .vsegid o => [o.vd]
  | _ => []

/-- The predicate registers that an instruction word may write. -/
def pDests (i : Instr) : List PReg :=
  match i with
  | .pand pd _ _ | .por pd _ _ | .pnot pd _ | .pmov pd _ | .pfirst pd _ | .pwhile pd _ _ => [pd]
  | .vcmpEq o | .vcmpNe o | .vcmpLt o | .vcmpLe o | .vcmpUnord o | .xcmpEq o | .xcmpNe o | .xcmpLt o | .xcmpGe o
  | .xcmpLtu o | .xcmpGeu o | .xcmpTst o => [o.pa, pairName o.pa]
  | .loopSet .. => [8, 9, 10, 11, 12, 13, 14, 15]
  | .loopEnd .. => [8]
  | _ => []

/-- The instruction words that raise exception flags (R9, R120). -/
def raisesFlags (i : Instr) : Bool :=
  match i with
  | .scalarFpOp _ | .vfadd _ | .vfsub _ | .vfmul _ | .vfma _ | .vfms _ | .vfdiv _ | .vfmin _ | .vfmax _ | .vfminnum _
  | .vfmaxnum _ | .vfmaX _ | .vfmulX _ | .vfsqrt _ | .vrnd _ | .vfexp2 _ | .vflog2 _ | .vfrcp _ | .vfrsqrt _
  | .vgetexp _ | .vgetmant _ | .vscale _ | .vredsum _ | .vredmax _ | .vredmin _ | .vredargmax _ | .vscan _ | .vcvt _
  | .vcvtRz _ | .vwiden _ | .vnarrow _ | .vcmpEq _ | .vcmpNe _ | .vcmpLt _ | .vcmpLe _ | .vcmpUnord _ => true
  | _ => false

/-- An instruction word: what the encoder gives a word. -/
abbrev IsWordOf (i : Instr) : Prop := (encode i).isSome = true

/-- A word whose level exits write no profiling snapshot: any but `loop.end` and `loop.brk`, or profiling is not armed (R330). -/
def NoSnapshot (i : Instr) (s : State) : Prop :=
  match i with
  | .loopEnd _ | .loopBrk _ => s.myCore.prof = none
  | _ => True

/-- A CSR access. -/
def isCsr (i : Instr) : Bool :=
  match i with
  | .csrAccess .. => true
  | _ => false

/-- The words that change loop levels. -/
def isLoop (i : Instr) : Bool :=
  match i with
  | .loopSet .. | .loopEnd _ | .loopBrk _ => true
  | _ => false

/-- The words that change the allocator. -/
def isAlloc (i : Instr) : Bool :=
  match i with
  | .spaBump .. | .spaRingGet .. | .spaRingPut .. | .spaRel _ => true
  | _ => false

/-- The words that change fibres and streams. -/
def isStream (i : Instr) : Bool :=
  match i with
  | .fbOpen .. | .fbAdv .. | .fbClose _ | .smOpen .. | .smAdv .. | .smClose _ => true
  | _ => false

/-! ### Events -/

/-- A store of one element, free to perform from its queue, whose place is a window offset of core `t` and whose owner is there. -/
abbrev StoresToWindow (s : State) (g k idx : Nat) (e : Entry) (x : Elem) (t off : Nat) : Prop :=
  (s.seqAt g k).queue[idx]? = some e ∧ e.elems = [x] ∧ e.op = .store ∧ x.loc = .win t off ∧ x.data < 256 ^ x.n ∧
    canPerform s g k idx 0 = true ∧ placeReady s x = true ∧ s.replaying g = false ∧
    ownerAbsent s (ownerPkg x.addr) (ownerDie x.addr) = false ∧ poisoned s (.win t off) x.n = false

/-- An engine command: its queue, its opcode, its use of the array, its checks and effect, the state they start from (in which
the firing has noted the use of a sparse tile), whether anything besides its tokens, footprints and the array still holds it
back, and whether it has a remote destination. -/
structure CommandRow where
  g : Nat
  q : Nat
  op : Nat
  use : Cmd → Nat → ArrayUse
  run : Cmd → Nat → Plan
  base : State
  ready : Bool
  away : Cmd → Nat → Bool := fun _ _ => false

/-- A command that does not use the array. -/
abbrev offArray : Cmd → Nat → ArrayUse := fun _ _ => .neither

/-- A command without a remote destination of its own. -/
abbrev nowhere : Cmd → Nat → Bool := fun _ _ => false

/-- R159: whether the `smma` at the fetch point of a queue need not wait for a compilation. -/
def smmaReady (s : State) (g q : Nat) (env : RemoteEnv) : Bool :=
  match headCmd ((s.core g).queue q) with
  | none => false
  | some c => (smmaWaits s g env c (c.word.getD 0).toNat).isNone

/-- R258: the state after the firing of an `smma` has noted the use of its tile. -/
def smmaBase (s : State) (g q : Nat) (env : RemoteEnv) : State := useAtFiring s g q 0x04 (smmaUse s g q env) spLys

/-- The same for `pat.load`. -/
def patBase (s : State) (g q : Nat) : State := useAtFiring s g q 0x40 .neither (bitsOf · 195 192)

/-- R180: whether every earlier command of the collective that a `coll.end` names has completed. -/
def collEndReady (s : State) (g q : Nat) : Bool :=
  match headCmd ((s.core g).queue q) with
  | none => false
  | some c => !collPending s g c (clId (c.word.getD 0).toNat)

/-- The engine command that an event fires. -/
def commandRow (i : Instr) (s : State) : Option CommandRow :=
  match i with
  | .mma g q => some ⟨g, q, 0x00, useMNK, runMma s g, s, true, nowhere⟩
  | .mmaBs g q => some ⟨g, q, 0x01, useMNK, runMmaBs s g, s, true, nowhere⟩
  | .mmaSeg g q => some ⟨g, q, 0x02, useMNK, runMmaSeg s g, s, true, nowhere⟩
  | .mmaGrp g q => some ⟨g, q, 0x03, useGrp s g, runMmaGrp s g, s, true, nowhere⟩
  | .smma g q env => some ⟨g, q, 0x04, fun _ _ => smmaUse s g q env, runSmma (smmaBase s g q env) g env, smmaBase s g q env, smmaReady s g q env, nowhere⟩
  | .accZero g q => some ⟨g, q, 0x08, offArray, runAccZero s g, s, true, nowhere⟩
  | .accRd g q => some ⟨g, q, 0x09, fun _ _ => .edge, runAccRd s g, s, true, nowhere⟩
  | .accEpi g q => some ⟨g, q, 0x0a, fun _ _ => .edge, runAccEpi s g, s, true, nowhere⟩
  | .copy g q env => some ⟨g, q, 0x20, offArray, runCopy s g env, s, true, fun c w => (layOf c (mvTo w)).reachesOut s g⟩
  | .gather g q env => some ⟨g, q, 0x21, offArray, runGather s g env, s, true, fun c w => (layOf c (mvTo w)).reachesOut s g⟩
  | .scatterBin g q env => some ⟨g, q, 0x22, offArray, runScatterBin s g env, s, true, fun _ w => scatterAway s g w⟩
  | .binReplay g q env => some ⟨g, q, 0x23, offArray, runBinReplay s g env, s, true, nowhere⟩
  | .halo g q env => some ⟨g, q, 0x24, offArray, runHalo s g env, s, true, fun c w => !(haloSends s g c w).isEmpty⟩
  | .bcast g q env => some ⟨g, q, 0x25, offArray, runBcast s g env, s, true, fun c w => (bcastSends s g c w).any fun x => x.peer.core != g || x.dest.reachesOut s g⟩
  | .patLoad g q watchOk env => some ⟨g, q, 0x40, offArray, runPatLoad (patBase s g q) g watchOk env, patBase s g q, true, nowhere⟩
  | .patDrop g q => some ⟨g, q, 0x41, offArray, runPatDrop s g, s, true, nowhere⟩
  | .collEnd g q => some ⟨g, q, 0x6f, offArray, runCollEnd s, s, collEndReady s g q, nowhere⟩
  | .rselHistCoarse g q env => some ⟨g, q, 0x80, offArray, runCoarse s g env, s, uniformsReady s g q && headVariant s g q 0, nowhere⟩
  | .rselHistFull g q env => some ⟨g, q, 0x80, offArray, runFull s g env, s, uniformsReady s g q && headVariant s g q 1, nowhere⟩
  | .rselCut g q env => some ⟨g, q, 0x81, offArray, runCut s g env, s, uniformsReady s g q, nowhere⟩
  | .sampDraw g q env => some ⟨g, q, 0x82, offArray, runDraw s g env, s, uniformsReady s g q && headVariant s g q 0, nowhere⟩
  | .sampDrawGum g q => some ⟨g, q, 0x82, offArray, runGum s g, s, uniformsReady s g q && headVariant s g q 1, nowhere⟩
  | .specAccept g q env => some ⟨g, q, 0x83, offArray, runAccept s g env, s, uniformsReady s g q, nowhere⟩
  | .pdaStep g q env => some ⟨g, q, 0xa0, offArray, runStep s g env, s, true, nowhere⟩
  | .pdaAdv g q env => some ⟨g, q, 0xa1, offArray, runAdv s g env, s, true, nowhere⟩
  | .pdaFork g q => some ⟨g, q, 0xa2, offArray, runFork s g, s, true, nowhere⟩
  | .pdaCommit g q => some ⟨g, q, 0xa3, offArray, runCommit s g, s, true, nowhere⟩
  | .pdaRoll g q => some ⟨g, q, 0xa4, offArray, runRoll s g, s, true, nowhere⟩
  | .pdaSave g q => some ⟨g, q, 0xa5, offArray, runSave s g, s, true, nowhere⟩
  | .pdaLoad g q env => some ⟨g, q, 0xa6, offArray, runLoad s g env, s, true, nowhere⟩
  | .cmdFence g q => some ⟨g, q, 0xc0, offArray, runFence s, s, true, nowhere⟩
  | .chainLink g q => some ⟨g, q, 0xc1, offArray, runChain s, s, true, nowhere⟩
  | .sig g q => some ⟨g, q, 0xc2, offArray, runSig s, s, true, fun _ w => cwRsig w⟩
  | _ => none

/-- The command c with word w stands at the fetch point of its queue and may fire (R143, R145, R150, R224). -/
abbrev CommandRow.Fires (r : CommandRow) (s : State) (c : Cmd) (w : Nat) : Prop :=
  r.ready = true ∧ mayFire s r.g r.q [r.op] (r.use c w) = some (c, w)

/-- R146: the command is to propagate an error of a token it waits for. -/
def CommandRow.upstream (r : CommandRow) (s : State) (w : Nat) : Bool :=
  cwEprop w && tokensError (s.cluster (clusterOfCore r.g)) w

/-- What the firing of the command c with word w leaves, whose checks or effect came to f: its queue and lease know it (R143, R225), what
it has sent awaits its acknowledgement (R277), what it read outside the core is recorded (R326), and the commands that have not fired
meet its writes in their old or new contents (R151). -/
def CommandRow.result (r : CommandRow) (c : Cmd) (w : Nat) (f : Fired) : State :=
  let t := ((f.record r.g r.q c.num (r.use c w) (r.away c w)).track r.base.outbox.length r.g (some (r.q, c.num))).muted r.base r.g
  (if readsOutside c w then t.recordEngine r.base r.g r.q c f.st else t).sidesSince r.base (some (r.g, r.q))

/-- The command fires and every check of it passes. -/
abbrev CommandRow.Runs (r : CommandRow) (s : State) (c : Cmd) (w : Nat) : Prop :=
  r.Fires s c w ∧ r.upstream s w = false ∧ firstFail (r.run c w).checks = none

/-- Places of the scratchpad of whole bytes, none of them meeting another. -/
abbrev ApartInSpad (l : List Place) : Prop :=
  (∀ p ∈ l, p.nib = 0 ∧ 1 ≤ p.n ∧ 0 ≤ p.addr ∧ p.addr.toNat + p.n ≤ 2 ^ 20) ∧
  l.Pairwise fun p q => p.addr.toNat + p.n ≤ q.addr.toNat ∨ q.addr.toNat + q.n ≤ p.addr.toNat

/-- No grammar context spills in core g's scratchpad, nothing is damaged and no side record is met in its old contents. -/
abbrev PlainReads (s : State) (g : Nat) : Prop :=
  (s.cluster (clusterOfCore g)).grammars = [] ∧ s.poison = [] ∧ s.side = [] ∧ s.upset = false

/-! ### Requests -/

/-- The oldest entry of the host's ring is a sound request of a code that Derdengo serves now. -/
abbrev RequestAtHead (s : State) (code : Nat) (e : BitVec 512) : Prop :=
  s.host.entries.head? = some e ∧ serving s = true ∧ reqBad e.toNat = false ∧ reqCode e.toNat = code

/-- The request at the head has been answered with a status and results. -/
def Answered (s t : State) (e : BitVec 512) (status r0 r1 : Nat) : Prop :=
  ∃ l, t.host.served = s.host.served ++ served e status r0 r1 :: l

/-- A debug request names a core of this package. -/
abbrev TargetHere (s : State) (t : DebugTarget) : Prop := t.pkg = s.pkgid ∧ t.g < nCores

end Sys2Proof.Machine
end

