-- ==== Sys2Proof/Certificates/Slice0/Obligations.lean ====
section
/-! DEFINITION. The statements for the provers. A docstring names the rules that a statement formalises. -/
open Sys2Proof Sys2Proof.Machine

/-! ### Encoding -/

/-- R4 and the encoding tables of R29 to R42: words written out from the spec's encodings stand for these instructions. -/
def Obligations.WordsDecodeAsSpecified : Prop :=
  decodeTableWord 32 0x00071057 = some (.vld ⟨0, 7, 0, 1, false⟩) ∧
  decodeTableWord 32 0x301C1057 = some (.vst ⟨0, 28, 0, 1, false⟩) ∧
  decodeTableWord 32 0x318B255B = some (.vfma ⟨10, 11, 12, 2, false, false⟩) ∧
  decodeTableWord 32 0x04C5325B = some (.vfadd ⟨4, 5, 6, 3, true, false⟩) ∧
  decodeTableWord 32 0x0022900B = some (.loopSet 5 3) ∧
  decodeTableWord 32 0x0064240B = some (.pand 8 8 6) ∧
  decodeTableWord 32 0x000285EB = some (.cmdPut 11 0 5) ∧
  decodeTableWord 32 0x0405806B = some (.seqWait 0 11) ∧
  decodeTableWord 32 0x0830350B = some (.mboxRecv 10 3) ∧
  decodeTableWord 32 0xFE00700B = some .tret ∧
  decodeTableWord 32 0x02A95177 = some (.vcmpEq ⟨1, 10, 18, 10, 2⟩) ∧
  decodeTableWord 32 0xB02D0157 = some (.hprobe ⟨2, 13, 1, 0, false⟩) ∧
  decodeTableWord 32 0x2027027B = some (.vwiden ⟨4, 7, 1, false, 0, false⟩)

/-- Every encoded well-formed instruction decodes to itself. -/
def Obligations.DecodeOfEncode : Prop := ∀ (i : Instr) (w : Nat), i.wf = true → encode i = some w → decode w = .ok i

/-- Every 32-bit word that decodes is the encoding of the well-formed instruction it decodes to. -/
def Obligations.EncodeOfDecode : Prop :=
  ∀ (w : Nat) (i : Instr), w < 2 ^ 32 → decode w = .ok i → i.wf = true ∧ encode i = some w

/-! ### The step and the invariant -/

/-- R15, R17, R27: with nothing on the agenda, a core of this cycle with a ready sequencer, no stop and no breakpoint
in the way, and the word at its pc fetched, the step is `exec` of the decoded instruction in the state that the fetch
leaves, where the sequencer keeps the word (R62), and the sequencer has issued in this cycle. The order of cores within a cycle is the model's choice (log entry
3). -/
def Obligations.StepRunsDecodedInstruction : Prop :=
  ∀ (s t : State) (g k w : Nat) (i : Instr),
    s.agenda = [] → nextIssue s = some (g, k) → targetReached (s.atIssue g k) g k = false →
    breakpointHit (s.atIssue g k) g k = none → fetch (s.pastPoints g k) g k = (.word w, t) → decode w = .ok i →
    step s = exec i (t.modSeqAt g k fun q => { q with word := w }) ∧ t.cur = (g, k) ∧ ((s.pastPoints g k).seqAt g k).lastIssue = s.cycle

/-- R27, R28: a fetch from a page of this package's DRAM that is mapped executable, granted to the identifier and not
damaged gives the four bytes at the pc, and fills a line of the instruction cache; one that is not executable traps
ACCESS, and an unmapped one traps XLAT. When the instruction cache fills is the model's choice (log entry 15). -/
def Obligations.FetchReadsExecutablePages : Prop :=
  ∀ (s : State) (g k : Nat), codeLine s g (s.seqAt g k).asid (s.seqAt g k).r.pc = none →
    (∀ d pa, resolve s g (s.seqAt g k).asid .fetch (s.seqAt g k).r.pc 4 .accepted = .ok (.dram d pa) →
      poisoned s (.dram d (pa - pa % 64)) 64 = false → pa % 64 = (s.seqAt g k).r.pc.toNat % 64 → pa % 4 = 0 →
      (fetch s g k).1 = .word (memNat s.mem (dramKey d pa) 4) ∧
        codeLine (fetch s g k).2 g (s.seqAt g k).asid (s.seqAt g k).r.pc = some (memBytes s.mem (dramKey d (pa - pa % 64)) 64)) ∧
    (resolve s g (s.seqAt g k).asid .fetch (s.seqAt g k).r.pc 4 .accepted = .xlat → fetch s g k = (.trap causeXlat, s)) ∧
    (resolve s g (s.seqAt g k).asid .fetch (s.seqAt g k).r.pc 4 .accepted = .access → fetch s g k = (.trap causeAccess, s))

/-- The reset state meets the invariant; the package is held in reset and no core holds a node. What an unlisted byte
of memory reads as and that the package is held in reset until BOOT are the model's choices (log entries 1, 46 and
56). -/
def Obligations.ResetMeetsInvariant : Prop :=
  State.reset.Inv ∧ State.reset.held = true ∧ (∀ g, (State.reset.core g).node = none) ∧ State.reset.cycle = 0 ∧
    ∀ a, memGet State.reset.mem a = 0

/-- Every step keeps memory in its canonical form. -/
def Obligations.StepKeepsInvariant : Prop := ∀ s t : State, s.Inv → step s = .next t → t.Inv

/-! ### Retirement, traps and return -/

/-- R9, R22: an instruction that completes counts in `instret` and `rwcount`; control falls through to pc + 4, and a sequencer whose next pc is the exit address ends without a fetch. -/
def Obligations.RetirementCountsAndAdvances : Prop :=
  ∀ (s : State), (retire s s).me.r.pc = s.me.r.pc + 4 ∧ (retire s s).me.r.instret = s.me.r.instret + 1 ∧
    (retire s s).me.rwcount = s.me.rwcount + 1 ∧
    (s.me.r.pc + 4 ≠ s.me.exitAddr → (retire s s).me.status = .ready) ∧
    (s.me.r.pc + 4 = s.me.exitAddr → (retire s s).me.status = if s.me.handler then .dormant else .ended) ∧
    (∀ i, (retire s s).rx i = s.rx i) ∧ (retire s s).mem = s.mem

/-- R10, R23: `ecall` and `ebreak` take their traps with tval 0. With a handler in place tepc holds the instruction's pc, tcause the
cause, tval 0, act is set and control goes to ttvec; nothing else of the registers changes, and the trap is not counted as a
retirement. -/
def Obligations.CallsTakeTheirTraps : Prop :=
  ∀ (s : State), exec .ecall s = .next (s.takeTrap s.cur.1 s.cur.2 0x10 0) ∧ exec .ebreak s = .next (s.takeTrap s.cur.1 s.cur.2 0x0f 0) ∧
    (s.me.r.act = false → s.me.r.ttvec ≠ 0 → s.me.r.ttvec ≠ s.me.exitAddr →
      (∃ t, exec .ecall s = .next t ∧
        t.me.r = { s.me.r with pc := s.me.r.ttvec, tepc := s.me.r.pc, tcause := 0x10, tval := 0, act := true } ∧
        t.me.status = .ready ∧ t.mem = s.mem) ∧
      (∃ t, exec .ebreak s = .next t ∧
        t.me.r = { s.me.r with pc := s.me.r.ttvec, tepc := s.me.r.pc, tcause := 0x0f, tval := 0, act := true } ∧
        t.me.status = .ready ∧ t.mem = s.mem))

/-- R24, R205: a trap with act set, or with ttvec 0, ends the sequencer faulted, and the node's record keeps cause, pc and value,
once for a sequencer. -/
def Obligations.TrapWithoutHandlerEndsFaulted : Prop :=
  ∀ (s : State) (g k cause : Nat) (tval : Word) (n : Node), ((s.seqAt g k).r.act = true ∨ (s.seqAt g k).r.ttvec = 0) →
    s.nodeOf g = some n →
    ((s.takeTrap g k cause tval).seqAt g k).status = .ended ∧ ((s.takeTrap g k cause tval).seqAt g k).faulted = true ∧
      ((s.takeTrap g k cause tval).seqAt g k).r = (s.seqAt g k).r ∧
      ((s.takeTrap g k cause tval).nodeOf g).map (·.faults) =
        some (if (s.seqAt g k).faulted = true then n.faults else n.faults ++ [⟨s.cycle, g, k, cause, (s.seqAt g k).r.pc, tval⟩])

/-- R25: `tret` clears act and goes to tepc, inside a handler and outside; it retires, and changes no other register. Every other word of
its funct3 and funct7 is refused by the decoder. -/
def Obligations.TrapReturnRestores : Prop :=
  (∀ (s : State), ∃ t, exec .tret s = .next t ∧
      t.me.r = { s.me.r with pc := s.me.r.tepc, act := false, instret := s.me.r.instret + 1 } ∧
      (s.me.r.tepc ≠ s.me.exitAddr → t.me.status = .ready) ∧ t.me.rwcount = s.me.rwcount + 1 ∧ t.mem = s.mem) ∧
    (∀ w : BitVec 32, w.extractLsb' 0 7 = 0b0001011#7 → w.extractLsb' 12 3 = 0b111#3 → w.extractLsb' 25 7 = 0b1111111#7 →
      decodeTableWord 32 w.toNat = if w = 0xFE00700B#32 then some .tret else none)

/-! ### Standard scalar words -/

/-- R4: base arithmetic on full registers writes rd with the standard result and falls through; a write to x0 is discarded. -/
def Obligations.BaseArithmeticResults : Prop :=
  ∀ (s : State) (rd rs1 rs2 : XReg) (imm : Int) (u : Nat), XReady s [rd, rs1, rs2] →
    (∀ f, exec (.standardInstruction (.op f rd rs1 rs2)) s = .next (retire (s.wx rd (opFn f (s.rx rs1) (s.rx rs2))) s)) ∧
    (∀ f, exec (.standardInstruction (.op32 f rd rs1 rs2)) s = .next (retire (s.wx rd (op32Fn f (s.rx rs1) (s.rx rs2))) s)) ∧
    (∀ f, exec (.standardInstruction (.opImm f rd rs1 imm)) s = .next (retire (s.wx rd (opImmFn f (s.rx rs1) imm)) s)) ∧
    (∀ f, exec (.standardInstruction (.opImm32 f rd rs1 imm)) s = .next (retire (s.wx rd (opImm32Fn f (s.rx rs1) imm)) s)) ∧
    exec (.standardInstruction (.lui rd u)) s = .next (retire (s.wx rd (upperImm u)) s) ∧
    exec (.standardInstruction (.auipc rd u)) s = .next (retire (s.wx rd (s.pc + upperImm u)) s) ∧
    (s.wx rd (opFn .sub (s.rx rs1) (s.rx rs2))).rx rd = (if rd = 0 then 0 else s.rx rs1 - s.rx rs2) ∧
    (s.rx rs2 = 0 → opFn .div (s.rx rs1) (s.rx rs2) = BitVec.allOnes 64 ∧ opFn .rem (s.rx rs1) (s.rx rs2) = s.rx rs1) ∧
    (∀ v : Word, (s.wx rd v).rx rd = if rd = 0 then 0 else v) ∧ (u < 2 ^ 20 → (upperImm u).toInt = Int.bmod (u * 4096) (2 ^ 32)) ∧
    (∀ a b : Word,
      ((opFn .add a b).toNat = (a.toNat + b.toNat) % 2 ^ 64 ∧ (opFn .sll a b).toNat = a.toNat * 2 ^ (b.toNat % 64) % 2 ^ 64 ∧
        (opFn .srl a b).toNat = a.toNat / 2 ^ (b.toNat % 64) ∧ (opFn .sra a b).toInt = a.toInt / 2 ^ (b.toNat % 64) ∧
        opFn .slt a b = (if a.toInt < b.toInt then 1 else 0) ∧ opFn .sltu a b = (if a.toNat < b.toNat then 1 else 0) ∧
        (∀ n, (opFn .xor a b).getLsbD n = (a.getLsbD n ^^ b.getLsbD n) ∧ (opFn .or a b).getLsbD n = (a.getLsbD n || b.getLsbD n) ∧
          (opFn .and a b).getLsbD n = (a.getLsbD n && b.getLsbD n))) ∧
      ((opFn .mul a b).toNat = a.toNat * b.toNat % 2 ^ 64 ∧ (opFn .mulh a b).toInt = a.toInt * b.toInt / 2 ^ 64 ∧
        (opFn .mulhsu a b).toInt = a.toInt * b.toNat / 2 ^ 64 ∧ (opFn .mulhu a b).toNat = a.toNat * b.toNat / 2 ^ 64 ∧
        (b ≠ 0 → (opFn .div a b).toInt = Int.bmod (a.toInt.tdiv b.toInt) (2 ^ 64) ∧ (opFn .rem a b).toInt = a.toInt.tmod b.toInt) ∧
        (opFn .divu a b).toNat = (if b = 0 then 2 ^ 64 - 1 else a.toNat / b.toNat) ∧
        (opFn .remu a b).toNat = (if b = 0 then a.toNat else a.toNat % b.toNat)) ∧
      ((opFn .sh1add a b).toNat = (2 * a.toNat + b.toNat) % 2 ^ 64 ∧ (opFn .sh2add a b).toNat = (4 * a.toNat + b.toNat) % 2 ^ 64 ∧
        (opFn .sh3add a b).toNat = (8 * a.toNat + b.toNat) % 2 ^ 64 ∧
        (op32Fn .adduw a b).toNat = (a.toNat % 2 ^ 32 + b.toNat) % 2 ^ 64 ∧
        (op32Fn .sh1adduw a b).toNat = (2 * (a.toNat % 2 ^ 32) + b.toNat) % 2 ^ 64 ∧
        (op32Fn .sh2adduw a b).toNat = (4 * (a.toNat % 2 ^ 32) + b.toNat) % 2 ^ 64 ∧
        (op32Fn .sh3adduw a b).toNat = (8 * (a.toNat % 2 ^ 32) + b.toNat) % 2 ^ 64) ∧
      ((op32Fn .addw a b).toInt = Int.bmod (a.toInt + b.toInt) (2 ^ 32) ∧ (op32Fn .subw a b).toInt = Int.bmod (a.toInt - b.toInt) (2 ^ 32) ∧
        (op32Fn .mulw a b).toInt = Int.bmod (a.toInt * b.toInt) (2 ^ 32) ∧
        (op32Fn .sllw a b).toInt = Int.bmod (a.toNat * 2 ^ (b.toNat % 32)) (2 ^ 32) ∧
        (op32Fn .srlw a b).toInt = Int.bmod (a.toNat % 2 ^ 32 / 2 ^ (b.toNat % 32)) (2 ^ 32) ∧
        (op32Fn .sraw a b).toInt = Int.bmod a.toNat (2 ^ 32) / 2 ^ (b.toNat % 32)) ∧
      ((op32Fn .divw a b).toInt =
          (if b.toNat % 2 ^ 32 = 0 then -1 else Int.bmod (Int.tdiv (Int.bmod a.toNat (2 ^ 32)) (Int.bmod b.toNat (2 ^ 32))) (2 ^ 32)) ∧
        (op32Fn .remw a b).toInt =
          (if b.toNat % 2 ^ 32 = 0 then Int.bmod a.toNat (2 ^ 32) else Int.tmod (Int.bmod a.toNat (2 ^ 32)) (Int.bmod b.toNat (2 ^ 32))) ∧
        (op32Fn .divuw a b).toInt = (if b.toNat % 2 ^ 32 = 0 then -1 else Int.bmod (a.toNat % 2 ^ 32 / (b.toNat % 2 ^ 32)) (2 ^ 32)) ∧
        (op32Fn .remuw a b).toInt =
          Int.bmod (if b.toNat % 2 ^ 32 = 0 then a.toNat % 2 ^ 32 else a.toNat % 2 ^ 32 % (b.toNat % 2 ^ 32)) (2 ^ 32))) ∧
    (∀ a : Word,
      opImmFn .addi a imm = opFn .add a (BitVec.ofInt 64 imm) ∧ opImmFn .slti a imm = opFn .slt a (BitVec.ofInt 64 imm) ∧
      opImmFn .sltiu a imm = opFn .sltu a (BitVec.ofInt 64 imm) ∧ opImmFn .xori a imm = opFn .xor a (BitVec.ofInt 64 imm) ∧
      opImmFn .ori a imm = opFn .or a (BitVec.ofInt 64 imm) ∧ opImmFn .andi a imm = opFn .and a (BitVec.ofInt 64 imm) ∧
      opImm32Fn .addiw a imm = op32Fn .addw a (BitVec.ofInt 64 imm) ∧
      (0 ≤ imm → imm < 64 → opImmFn .slli a imm = opFn .sll a (BitVec.ofInt 64 imm) ∧ opImmFn .srli a imm = opFn .srl a (BitVec.ofInt 64 imm) ∧
        opImmFn .srai a imm = opFn .sra a (BitVec.ofInt 64 imm) ∧
        (opImm32Fn .slliuw a imm).toNat = a.toNat % 2 ^ 32 * 2 ^ imm.toNat % 2 ^ 64) ∧
      (0 ≤ imm → imm < 32 → opImm32Fn .slliw a imm = op32Fn .sllw a (BitVec.ofInt 64 imm) ∧
        opImm32Fn .srliw a imm = op32Fn .srlw a (BitVec.ofInt 64 imm) ∧ opImm32Fn .sraiw a imm = op32Fn .sraw a (BitVec.ofInt 64 imm)))

/-- R4, R6: jumps and branches. A `jalr` target has bit 0 cleared; with bit 1 set it traps MISALIGN with the target, writing nothing. -/
def Obligations.JumpsAndBranches : Prop :=
  ∀ (s : State) (rd rs1 rs2 : XReg) (off : Int), XReady s [rd, rs1, rs2] →
    exec (.standardInstruction (.jal rd off)) s = .next (retireAt (s.wx rd (s.pc + 4)) s (s.pc + ofSigned off)) ∧
    (∀ c, branchTaken c (s.rx rs1) (s.rx rs2) = true →
      exec (.standardInstruction (.branch c rs1 rs2 off)) s = .next (retireAt s s (s.pc + ofSigned off))) ∧
    (∀ c, branchTaken c (s.rx rs1) (s.rx rs2) = false →
      exec (.standardInstruction (.branch c rs1 rs2 off)) s = .next (retire s s)) ∧
    (((s.rx rs1 + ofSigned off) &&& ~~~1#64).getLsbD 1 = false →
      exec (.jalr rd rs1 off) s = .next (retireAt (s.wx rd (s.pc + 4)) s ((s.rx rs1 + ofSigned off) &&& ~~~1#64))) ∧
    (((s.rx rs1 + ofSigned off) &&& ~~~1#64).getLsbD 1 = true →
      exec (.jalr rd rs1 off) s = .next (s.takeTrap s.cur.1 s.cur.2 causeMisalign ((s.rx rs1 + ofSigned off) &&& ~~~1#64)))

/-- R9: a scalar F instruction whose registers are ready writes its result, and ORs its exceptions into fflags; it never traps on them. -/
def Obligations.ScalarFloatResults : Prop :=
  ∀ (s : State) (rd rs1 rs2 rs3 : XReg) (rm : Rm), FReady s [rd, rs1, rs2, rs3] →
    (∀ f, ∃ t, exec (.scalarFpOp (.arith f rd rs1 rs2 rm)) s = .next t ∧
      t.me.r.f[rd] = BitVec.ofNat 32 (fArith f (s.rmode rm) (s.rf rs1) (s.rf rs2)).bits ∧
      t.me.r.fflags = s.me.r.fflags ||| BitVec.ofNat 5 (fArith f (s.rmode rm) (s.rf rs1) (s.rf rs2)).flags ∧
      t.me.r.pc = s.me.r.pc + 4) ∧
    exec (.scalarFpOp (.sqrt rd rs1 rm)) s = .next (retire (s.putF rd (stdNan (fpSqrt 1 (s.rmode rm) (s.rf rs1)))) s) ∧
    (∀ f, exec (.scalarFpOp (.fused f rd rs1 rs2 rs3 rm)) s =
      .next (retire (s.putF rd (fFused f (s.rmode rm) (s.rf rs1) (s.rf rs2) (s.rf rs3))) s)) ∧
    (∀ f, exec (.scalarFpOp (.sel f rd rs1 rs2)) s = .next (retire (s.putF rd (fSel f (s.rf rs1) (s.rf rs2))) s)) ∧
    (XReady s [rd] → ∀ f, ∃ t, exec (.scalarFpOp (.cmp f rd rs1 rs2)) s = .next t ∧
      t.rx rd = (if rd = 0 then 0 else flagWord (fCmp f (s.rf rs1) (s.rf rs2)).1) ∧ t.me.r.f = s.me.r.f ∧
      t.me.r.fflags = s.me.r.fflags ||| BitVec.ofNat 5 (fCmp f (s.rf rs1) (s.rf rs2)).2) ∧
    (XReady s [rd] → ∃ t, exec (.scalarFpOp (.mvXW rd rs1)) s = .next t ∧
      t.rx rd = (if rd = 0 then 0 else (s.me.r.f[rs1]).signExtend 64) ∧ t.me.r.fflags = s.me.r.fflags) ∧
    (XReady s [rd] → exec (.scalarFpOp (.fclass rd rs1)) s =
      .next (retire (s.wx rd (BitVec.ofNat 64 (2 ^ classBit 1 (s.rf rs1)))) s)) ∧
    (XReady s [rs1] → exec (.scalarFpOp (.mvWX rd rs1)) s = .next (retire (s.wf rd ((s.rx rs1).setWidth 32)) s)) ∧
    (XReady s [rd] → ∀ c, exec (.scalarFpOp (.cvtToInt c rd rs1 rm)) s =
      .next (retire (s.putX rd (fToInt c (s.rmode rm) (s.rf rs1)).1 (fToInt c (s.rmode rm) (s.rf rs1)).2) s)) ∧
    (XReady s [rs1] → ∀ c, exec (.scalarFpOp (.cvtFromInt c rd rs1 rm)) s =
      .next (retire (s.putF rd (fFromInt c (s.rmode rm) (s.rx rs1))) s))

/-- R7, R79, R80: the fences and `qmark` place their marker and retire; `fence.i` and every form of `fence` place qmark.pod.full. `qwait`
retires once the accesses it names have performed, and blocks before. -/
def Obligations.OrderingWords : Prop :=
  ∀ (s : State) (rd rs1 : XReg) (fm pred succ : Fin 16) (imm : Nat) (sc : Scope) (k : MarkKind) (m : Fin 4),
    exec (.fence rd rs1 fm pred succ) s = exec (.qmark .pod .full) s ∧
    exec (.fenceTso rd rs1) s = exec (.qmark .pod .full) s ∧ exec (.fenceI rd rs1 imm) s = exec (.qmark .pod .full) s ∧
    (Room s 1 1 →
      (∃ t, exec (.qmark sc k) s = .next t ∧ t.me.r.pc = s.me.r.pc + 4 ∧ (∀ i, t.rx i = s.rx i) ∧
        t.me.queue = (settle false (s.me.queue ++ [{ op := .marker sc k }])).1 ∧ t.mem = s.mem) ∧
      (∃ t, exec (.fence rd rs1 fm pred succ) s = .next t ∧ t.me.r.pc = s.me.r.pc + 4 ∧ (∀ i, t.rx i = s.rx i) ∧
        t.me.queue = (settle false (s.me.queue ++ [{ op := .marker .pod .full }])).1 ∧ t.mem = s.mem) ∧
      (∃ t, exec (.fenceTso rd rs1) s = .next t ∧ t.me.r.pc = s.me.r.pc + 4 ∧ (∀ i, t.rx i = s.rx i) ∧
        t.me.queue = (settle false (s.me.queue ++ [{ op := .marker .pod .full }])).1 ∧ t.mem = s.mem) ∧
      (∃ t, exec (.fenceI rd rs1 imm) s = .next t ∧ t.me.r.pc = s.me.r.pc + 4 ∧ (∀ i, t.rx i = s.rx i) ∧
        t.me.queue = (settle false (s.me.queue ++ [{ op := .marker .pod .full }])).1 ∧ t.mem = s.mem)) ∧
    (queueRoom s.me 1 1 = false → exec (.qmark sc k) s = .next (waiting s s)) ∧
    ((∀ e ∈ s.me.queue, (m.val % 2 = 1 → e.isLoad = true → e.performed = true) ∧
        (m.val / 2 = 1 → e.isStore = true → e.performed = true ∧ e.acked = true)) →
      exec (.qwait m) s = .next (retire s s)) ∧
    ((∃ e ∈ s.me.queue, m.val % 2 = 1 ∧ e.isLoad = true ∧ e.performed = false) → exec (.qwait m) s = .next (waiting s s))

/-- R9, R19: a CSR form reads the old value into rd and writes the new one; `csrrs` and `csrrc` with a zero source field write nothing. A
value of frm from 5 up is stored as 0, and ttvec and tepc clear bits [1:0]. -/
def Obligations.CsrAccessReadsAndWrites : Prop :=
  ∀ (s : State) (op : CsrOp) (rd src : XReg) (csr : Nat) (w : Word), XReady s [rd, src] →
    exec (.csrAccess op rd csr src) s =
      .next (retire ((if csrWrites op src then csrWrite s csr (csrNew op (csrRead s csr) (csrOperand s op src)) else s).wx rd
        (csrRead s csr)) s) ∧
    csrRead (csrWrite s 0x002 w) 0x002 = (if w.toNat % 8 < 5 then BitVec.ofNat 64 (w.toNat % 8) else 0) ∧
    csrRead (csrWrite s 0x001 w) 0x001 = w &&& 0x1F ∧
    csrRead (csrWrite s 0x800 w) 0x800 = w &&& ~~~3#64 ∧ csrRead (csrWrite s 0x801 w) 0x801 = w &&& ~~~3#64 ∧
    csrRead (csrWrite s 0x802 w) 0x802 = w &&& 0xFF ∧ csrRead (csrWrite s 0x803 w) 0x803 = w ∧
    csrRead (csrWrite s 0x804 w) 0x804 = w ∧ csrRead (csrWrite s 0x805 w) 0x805 = w &&& 1 ∧
    csrRead (csrWrite s 0x806 w) 0x806 = w &&& 0xF ∧ csrRead (csrWrite s 0x807 w) 0x807 = w &&& 7 ∧
    csrRead (csrWrite s 0x808 w) 0x808 = w &&& 0xFC ∧
    csrRead (csrWrite s 0x003 w) 0x003 = (w &&& 0x1F) ||| (if w.toNat / 32 % 8 < 5 then w &&& 0xE0 else 0) ∧
    csrRead (csrWrite s 0x003 w) 0x001 = w &&& 0x1F ∧
    csrRead (csrWrite s 0x003 w) 0x002 = (if w.toNat / 32 % 8 < 5 then BitVec.ofNat 64 (w.toNat / 32 % 8) else 0)

/-! ### The life of a scalar access -/

/-- R6, R8, R18, R250: a scalar load, store, LR, SC or AMO at an address of its natural alignment, with room in the queues, waits for its
owner with the markers that aq and rl stand for; a misaligned one traps MISALIGN with the address and writes nothing. That a word with
both aq and rl stands between two full markers (`amoMarks`) is the model's choice (log entry 64). -/
def Obligations.ScalarAccessesWaitForTheirOwner : Prop :=
  ∀ (s : State) (rd rs1 rs2 : XReg) (imm : Int), XReady s [rd, rs1, rs2] → FReady s [rd, rs2] → Room s 3 3 → s.inRegion = false →
    (isAperture (effAddr s rs1 imm) = true → apertureForm (effAddr s rs1 imm) = true) →
    (isAperture (s.rx rs1) = true → apertureForm (s.rx rs1) = true) →
    (∀ k, (effAddr s rs1 imm).toNat % loadBytes k = 0 → exec (.scalarLoad k rd rs1 imm) s =
      .next (waiting (s.await [] { op := .load k rd, va := true, elems := [issued (effAddr s rs1 imm) (loadBytes k) 0] } []) s)) ∧
    (∀ k, (effAddr s rs1 imm).toNat % loadBytes k ≠ 0 →
      exec (.scalarLoad k rd rs1 imm) s = .next (s.takeTrap s.cur.1 s.cur.2 causeMisalign (effAddr s rs1 imm))) ∧
    (∀ k, (effAddr s rs1 imm).toNat % storeBytes k = 0 → exec (.scalarStore k rs2 rs1 imm) s =
      .next (waiting (s.await [] { op := .store, va := true, elems :=
        [issued (effAddr s rs1 imm) (storeBytes k) (storeData s k rs2 % 2 ^ (8 * storeBytes k))] } []) s)) ∧
    (∀ k, (effAddr s rs1 imm).toNat % storeBytes k ≠ 0 →
      exec (.scalarStore k rs2 rs1 imm) s = .next (s.takeTrap s.cur.1 s.cur.2 causeMisalign (effAddr s rs1 imm))) ∧
    (∀ w aq rl, (s.rx rs1).toNat % amoBytes w = 0 →
      exec (.lr w aq rl rd rs1) s = .next (waiting (s.await (amoMarks aq rl).1
        { op := .lr w rd, va := true, elems := [issued (s.rx rs1) (amoBytes w) 0] } (amoMarks aq rl).2) s) ∧
      exec (.sc w aq rl rd rs2 rs1) s = .next (waiting (s.await (amoMarks aq rl).1
        { op := .sc w rd, va := true, elems :=
          [issued (s.rx rs1) (amoBytes w) ((s.rx rs2).toNat % 2 ^ (8 * amoBytes w))] } (amoMarks aq rl).2) s) ∧
      (∀ op, exec (.amo op w aq rl rd rs2 rs1) s = .next (waiting (s.await (amoMarks aq rl).1
        { op := .amo (.int op w) rd, va := true, elems :=
          [issued (s.rx rs1) (amoBytes w) ((s.rx rs2).toNat % 2 ^ (8 * amoBytes w))] } (amoMarks aq rl).2) s)) ∧
      (∀ op, exec (.postedAmo op w aq rl rs2 rs1) s = .next (waiting (s.await (if rl then [{ op := .marker .pod .rel }] else [])
        { op := .amo (.int op w) 0, va := true, elems :=
          [issued (s.rx rs1) (amoBytes w) ((s.rx rs2).toNat % 2 ^ (8 * amoBytes w))] } []) s))) ∧
    (∀ w aq rl, (s.rx rs1).toNat % amoBytes w ≠ 0 →
      exec (.lr w aq rl rd rs1) s = .next (s.takeTrap s.cur.1 s.cur.2 causeMisalign (s.rx rs1)) ∧
      exec (.sc w aq rl rd rs2 rs1) s = .next (s.takeTrap s.cur.1 s.cur.2 causeMisalign (s.rx rs1)) ∧
      (∀ op, exec (.amo op w aq rl rd rs2 rs1) s = .next (s.takeTrap s.cur.1 s.cur.2 causeMisalign (s.rx rs1)))) ∧
    (∀ aq rl, rd ≠ 0 → (s.rx rs1).toNat % 4 = 0 →
      let e := fun (op : FAmoOp) => waiting (s.await (amoMarks aq rl).1
        { op := .amo (.fp op) rd, va := true, elems := [issued (s.rx rs1) 4 ((s.rx rs2).toNat % 2 ^ 32)] }
        (amoMarks aq rl).2) s
      exec (.amoaddS ⟨rd, rs2, rs1, aq, rl⟩) s = .next (e .add) ∧ exec (.amominS ⟨rd, rs2, rs1, aq, rl⟩) s = .next (e .min) ∧
      exec (.amomaxS ⟨rd, rs2, rs1, aq, rl⟩) s = .next (e .max) ∧ exec (.amominnumS ⟨rd, rs2, rs1, aq, rl⟩) s = .next (e .minnum) ∧
      exec (.amomaxnumS ⟨rd, rs2, rs1, aq, rl⟩) s = .next (e .maxnum))

/-- R15, R250 to R253: the owner accepts an access of one element whose address resolves to a place that is present and not
damaged: it takes its place in the queue and the instruction retires, falling through. One that does not translate
traps XLAT, one that a table or page refuses traps ACCESS, both at the instruction with the address; a store that
meets an absent owner is dropped and its instruction retires. The sequencer goes on in the next cycle (R15). What another package answers is a free value (log entry
43). -/
def Obligations.AcceptanceRetiresOrTraps : Prop :=
  ∀ (s : State) (g k : Nat) (r : RemoteAnswer) (pre post : List Entry) (e : Entry) (x : Elem),
    (s.seqAt g k).pending = some ⟨pre, e, post⟩ → e.elems = [x] → (∀ h l, e.op ≠ .binHdr h l) → e.op ≠ .mboxSend →
    x.n ≠ 0 → x.addr.toNat % x.n = 0 → (isAperture x.addr = true → apertureForm x.addr = true) →
    (∀ loc, resolve s g (s.seqAt g k).asid e.op.accKind x.addr x.n (verdictAt r 0) = .ok loc → loc ≠ .absent → poisoned s loc x.n = false →
      ∃ t, exec (.accessAccept g k r) s = .next t ∧ (t.seqAt g k).pending = none ∧ (t.seqAt g k).status ≠ .ready ∧
        (t.seqAt g k).r.pc = (s.seqAt g k).r.pc + 4 ∧ (t.seqAt g k).r.instret = (s.seqAt g k).r.instret + 1 ∧
        (t.seqAt g k).queue =
          (settle false ((s.seqAt g k).queue ++ (pre ++ [e.accept [{ x with loc := loc }]] ++ post))).1 ∧
        (t.seqAt g k).r.x = (s.seqAt g k).r.x) ∧
    (resolve s g (s.seqAt g k).asid e.op.accKind x.addr x.n (verdictAt r 0) = .xlat → exec (.accessAccept g k r) s =
      .next (((s.setSeqAt g k { s.seqAt g k with pending := none }).takeTrap g k causeXlat x.addr).awaitCycle g k)) ∧
    (resolve s g (s.seqAt g k).asid e.op.accKind x.addr x.n (verdictAt r 0) = .access → exec (.accessAccept g k r) s =
      .next (((s.setSeqAt g k { s.seqAt g k with pending := none }).takeTrap g k causeAccess x.addr).awaitCycle g k)) ∧
    (resolve s g (s.seqAt g k).asid e.op.accKind x.addr x.n (verdictAt r 0) = .absent → trapsOnAbsent e.op = true →
      exec (.accessAccept g k r) s =
        .next (((s.setSeqAt g k { s.seqAt g k with pending := none }).takeTrap g k causeOwnerAbsent x.addr).awaitCycle g k)) ∧
    (resolve s g (s.seqAt g k).asid e.op.accKind x.addr x.n (verdictAt r 0) = .absent → e.op = .store →
      ∃ t, exec (.accessAccept g k r) s = .next t ∧ (t.seqAt g k).r.pc = (s.seqAt g k).r.pc + 4 ∧
        (t.seqAt g k).queue = (settle false ((s.seqAt g k).queue ++ (pre ++ [{ e with elems := [], performed := true, acked := true, dropped := true }] ++ post))).1)

/-- R6, R8, R18, R234: a load performs with the bytes at its place, its sequencer's own queued stores seen, and leaves
memory as it was; its return writes the extended value into rd, which becomes full, and the entry leaves the queue. A load that the data
cache serves has the bytes of the line it holds. LR takes a reservation on its place.
Whether the data cache serves a load is a free value, and what the cache keeps is the model's choice (log entries 15
and 45). -/
def Obligations.LoadsReturnTheirBytes : Prop :=
  (∀ (s : State) (g k : Nat) (e : Entry) (x : Elem) (d pa : Nat) (c : PerformChoice) (rd : XReg), AloneInDram s g k e x d pa →
    (∀ kind b, kind ≠ .flw → rd ≠ 0 → e.op = .load kind rd → c.useCache = true → cacheable s g x = true →
      cachedLine (s.core g) (dramKey d pa / 64) = some b →
      ∃ t u, exec (.accessPerform g k 0 0 c) s = .next t ∧ t.mem = s.mem ∧ exec (.loadReturn g k 0) t = .next u ∧ u.mem = s.mem ∧
        (u.seqAt g k).r.rx rd = loadExtend kind (leNat ((b.drop (dramKey d pa % 64)).take x.n)) ∧
        (u.seqAt g k).r.xIsFull rd = true ∧ (u.seqAt g k).queue = []) ∧
    (c.useCache = false →
    (∀ kind, kind ≠ .flw → rd ≠ 0 → e.op = .load kind rd →
      ∃ t u, exec (.accessPerform g k 0 0 c) s = .next t ∧ t.mem = s.mem ∧ exec (.loadReturn g k 0) t = .next u ∧ u.mem = s.mem ∧
        (u.seqAt g k).r.rx rd = loadExtend kind (memNat s.mem (dramKey d pa) x.n) ∧ (u.seqAt g k).r.xIsFull rd = true ∧
        (u.seqAt g k).queue = [] ∧ (∀ j, j ≠ rd → (u.seqAt g k).r.rx j = (s.seqAt g k).r.rx j)) ∧
    (e.op = .load .flw rd →
      ∃ t u, exec (.accessPerform g k 0 0 c) s = .next t ∧ exec (.loadReturn g k 0) t = .next u ∧
        (u.seqAt g k).r.f[rd] = BitVec.ofNat 32 (memNat s.mem (dramKey d pa) x.n) ∧ (u.seqAt g k).fbusy[rd] = false ∧
        (u.seqAt g k).r.x = (s.seqAt g k).r.x ∧ u.mem = s.mem) ∧
    (∀ w, rd ≠ 0 → e.op = .lr w rd →
      ∃ t u, exec (.accessPerform g k 0 0 c) s = .next t ∧ (t.seqAt g k).resv = some x.loc ∧ t.mem = s.mem ∧
        exec (.loadReturn g k 0) t = .next u ∧ (u.seqAt g k).r.rx rd = amoExtend w (memNat s.mem (dramKey d pa) x.n)))) ∧
  (∀ (s : State) (g k idx : Nat) (e : Entry) (x : Elem) (d pa : Nat) (c : PerformChoice) (rd : XReg) (kind : LoadKind),
    MayPerformInDram s g k idx e x d pa → c.useCache = false → e.op = .load kind rd →
    ∃ t, exec (.accessPerform g k idx 0 c) s = .next t ∧ t.mem = s.mem ∧ (t.seqAt g k).r = (s.seqAt g k).r ∧
      (t.seqAt g k).queue = (settle false ((s.seqAt g k).queue.set idx
        (e.finishElem 0 (overlay (dramKey d pa) x.n (memNat s.mem (dramKey d pa) x.n) ((s.seqAt g k).queue.take idx))))).1) ∧
  (∀ (s : State) (g k idx : Nat) (e : Entry) (rd : XReg) (v : Word), (s.seqAt g k).queue[idx]? = some e → e.performed = true →
    (∀ x ∈ e.elems, lostOwner s e x = false) → e.returns = some (rd, v) →
    ∃ t, exec (.loadReturn g k idx) s = .next t ∧ (t.seqAt g k).r = ((s.seqAt g k).r.wx rd v).markX rd true ∧
      (t.seqAt g k).queue = (settle false ((s.seqAt g k).queue.eraseIdx idx)).1 ∧ t.mem = s.mem)

/-- R8, R81, R234: a store performs by writing its bytes at its place and nothing else of memory; an AMO also returns
the old value unless rd is x0; an SC writes only with a reservation on its line, returns 0 then and 1 otherwise, and always gives the
reservation up. An acknowledged store leaves the queue. That a holder's own store takes its reservation is the model's
reading (log entry 5). -/
def Obligations.StoresWriteTheirBytes : Prop :=
  (∀ (s : State) (g k : Nat) (e : Entry) (x : Elem) (d pa : Nat) (c : PerformChoice) (rd : XReg), AloneInDram s g k e x d pa →
    s.Inv →
    (∀ kind, e.op = .amo kind 0 → e.acked = false →
      ∃ t u, exec (.accessPerform g k 0 0 c) s = .next t ∧
        memBytes t.mem (dramKey d pa) x.n = leBytes x.n (amoNew kind (memNat s.mem (dramKey d pa) x.n) x.data) ∧
        (∀ a, (a < dramKey d pa ∨ dramKey d pa + x.n ≤ a) → memGet t.mem a = memGet s.mem a) ∧
        exec (.acknowledgement g k 0) t = .next u ∧ (u.seqAt g k).queue = [] ∧ u.mem = t.mem ∧ (u.seqAt g k).r = (s.seqAt g k).r) ∧
    (e.op = .store → e.acked = false →
      ∃ t u, exec (.accessPerform g k 0 0 c) s = .next t ∧ memBytes t.mem (dramKey d pa) x.n = leBytes x.n x.data ∧
        (∀ a, (a < dramKey d pa ∨ dramKey d pa + x.n ≤ a) → memGet t.mem a = memGet s.mem a) ∧
        exec (.acknowledgement g k 0) t = .next u ∧ (u.seqAt g k).queue = [] ∧ u.mem = t.mem ∧
        (u.seqAt g k).r = (s.seqAt g k).r) ∧
    (∀ kind, rd ≠ 0 → e.op = .amo kind rd →
      ∃ t u, exec (.accessPerform g k 0 0 c) s = .next t ∧
        memBytes t.mem (dramKey d pa) x.n = leBytes x.n (amoNew kind (memNat s.mem (dramKey d pa) x.n) x.data) ∧
        (∀ a, (a < dramKey d pa ∨ dramKey d pa + x.n ≤ a) → memGet t.mem a = memGet s.mem a) ∧
        exec (.loadReturn g k 0) t = .next u ∧ u.mem = t.mem ∧
        (u.seqAt g k).r.rx rd = amoReturn kind (memNat s.mem (dramKey d pa) x.n)) ∧
    (∀ w l a, rd ≠ 0 → e.op = .sc w rd → (s.seqAt g k).resv = some l → locationKey l = some a → a / 64 = dramKey d pa / 64 →
      ∃ t u, exec (.accessPerform g k 0 0 c) s = .next t ∧ memBytes t.mem (dramKey d pa) x.n = leBytes x.n x.data ∧
        (t.seqAt g k).resv = none ∧ exec (.loadReturn g k 0) t = .next u ∧ (u.seqAt g k).r.rx rd = 0) ∧
    (∀ w, rd ≠ 0 → e.op = .sc w rd →
      ((s.seqAt g k).resv = none ∨ ∃ l a, (s.seqAt g k).resv = some l ∧ locationKey l = some a ∧ a / 64 ≠ dramKey d pa / 64) →
      ∃ t u, exec (.accessPerform g k 0 0 c) s = .next t ∧ t.mem = s.mem ∧
        exec (.loadReturn g k 0) t = .next u ∧ (u.seqAt g k).r.rx rd = 1)) ∧
  (∀ (s : State) (g k idx : Nat) (e : Entry) (x : Elem) (d pa : Nat) (c : PerformChoice), MayPerformInDram s g k idx e x d pa → s.Inv →
    e.op = .store →
    ∃ t, exec (.accessPerform g k idx 0 c) s = .next t ∧ memBytes t.mem (dramKey d pa) x.n = leBytes x.n x.data ∧
      (∀ a, (a < dramKey d pa ∨ dramKey d pa + x.n ≤ a) → memGet t.mem a = memGet s.mem a) ∧ (t.seqAt g k).r = (s.seqAt g k).r) ∧
  (∀ (s : State) (g k idx : Nat) (e : Entry), (s.seqAt g k).queue[idx]? = some e → e.performed = true → e.acked = false →
    ∃ t, exec (.acknowledgement g k idx) s = .next t ∧ t.mem = s.mem ∧ (t.seqAt g k).r = (s.seqAt g k).r ∧
      (t.seqAt g k).queue = (settle false ((s.seqAt g k).queue.set idx { e with acked := true })).1)

/-! ### Loops and predicates -/

/-- R74 to R77, R99, R330: `loop.set` pushes a level and sets the stage predicates, `loop.end` advances it, rotates and branches or pops,
`loop.brk` pops it, `loop.idx` reads its iteration, and `yield` is an iteration boundary. With no level they trap LOOP
with the word, and so does a seventh level. -/
def Obligations.HardwareLoops : Prop :=
  ∀ (s : State) (xs1 rd : XReg) (n k : Nat) (off : Int), XReady s [xs1, rd] →
    (s.me.r.loops.length < 6 → (s.rx xs1).toNat < 2 ^ 32 →
      ∃ t, exec (.loopSet xs1 n) s = .next t ∧ t.me.r.loops = ⟨(s.rx xs1).toNat, n, 0⟩ :: s.me.r.loops ∧
        t.me.r.rp 8 = (if s.rx xs1 = 0 then 0 else BitVec.allOnes 1024) ∧
        (∀ j : PReg, 9 ≤ j.val → t.me.r.rp j = 0) ∧ (∀ j : PReg, j.val < 8 → t.me.r.rp j = s.me.r.rp j) ∧
        t.me.r.pc = s.me.r.pc + 4) ∧
    (6 ≤ s.me.r.loops.length →
      exec (.loopSet xs1 n) s = .next (s.takeTrap s.cur.1 s.cur.2 causeLoop (wordOf (.loopSet xs1 n)))) ∧
    (s.me.r.loops.length < 6 → 2 ^ 32 ≤ (s.rx xs1).toNat →
      exec (.loopSet xs1 n) s = .next (s.takeTrap s.cur.1 s.cur.2 causeLoop (s.rx xs1))) ∧
    (∀ l rest, s.me.r.loops = l :: rest →
      (l.t + 1 < (if l.n = 0 then 1 else l.n + l.s - 1) →
        ∃ t, exec (.loopEnd off) s = .next t ∧ t.me.r.loops = { l with t := l.t + 1 } :: rest ∧
          t.me.r.prb = s.me.r.prb + 1 ∧ t.me.r.vrb = s.me.r.vrb + 1 ∧
          t.me.r.rp 8 = (if l.t + 1 < l.n then BitVec.allOnes 1024 else 0) ∧
          (∀ j : PReg, 9 ≤ j.val → t.me.r.rp j = s.me.r.rp ⟨j.val - 1, by omega⟩) ∧
          t.me.r.pc = s.me.r.pc + ofSigned off) ∧
      (¬ l.t + 1 < (if l.n = 0 then 1 else l.n + l.s - 1) →
        ∃ t, exec (.loopEnd off) s = .next t ∧ t.me.r.loops = rest ∧ t.me.r.prb = s.me.r.prb + 1 ∧ t.me.r.vrb = s.me.r.vrb + 1 ∧
          t.me.r.rp 8 = (if l.t + 1 < l.n then BitVec.allOnes 1024 else 0) ∧
          (∀ j : PReg, 9 ≤ j.val → t.me.r.rp j = s.me.r.rp ⟨j.val - 1, by omega⟩) ∧
          t.me.r.pc = s.me.r.pc + 4 ∧ (s.myCore.prof = none → t.mem = s.mem)) ∧
      (∃ t, exec (.loopBrk off) s = .next t ∧ t.me.r.loops = rest ∧ t.me.r.prb = s.me.r.prb ∧ t.me.r.vrb = s.me.r.vrb ∧
          t.me.r.p = s.me.r.p ∧ t.me.r.pc = s.me.r.pc + ofSigned off ∧ (s.myCore.prof = none → t.mem = s.mem))) ∧
    (s.me.r.loops = [] →
      exec (.loopEnd off) s = .next (s.takeTrap s.cur.1 s.cur.2 causeLoop (wordOf (.loopEnd off))) ∧
      exec (.loopBrk off) s = .next (s.takeTrap s.cur.1 s.cur.2 causeLoop (wordOf (.loopBrk off)))) ∧
    (∀ l, s.me.r.loops[k]? = some l → exec (.loopIdx rd k) s = .next (retire (s.wx rd (BitVec.ofNat 64 l.t)) s)) ∧
    (s.me.r.loops[k]? = none →
      exec (.loopIdx rd k) s = .next (s.takeTrap s.cur.1 s.cur.2 causeLoop (wordOf (.loopIdx rd k)))) ∧
    (s.me.stopReq = false → exec .yield s = .next (retire s s)) ∧
    (s.me.stopReq = true → s.me.r.pc + 4 ≠ s.me.exitAddr → ∃ t, exec .yield s = .next t ∧ t.me.stopped = true) ∧
    encode (.loopSet 0 1) = some 0x0000100B ∧ encode (.loopIdx 0 0) = some 0x0200100B ∧ encode (.loopEnd (-16)) = some 0xFE00088B ∧
    encode (.loopBrk 12) = some 0x0010060B

/-- R35, R78: predicate logic acts on all 1,024 bits; a write to p0 is discarded. -/
def Obligations.PredicateLogic : Prop :=
  ∀ (s : State) (pd pa pb : PReg) (rd xs1 xs2 : XReg), XReady s [rd, xs1, xs2] →
    (∃ t, exec (.pand pd pa pb) s = .next t ∧ t.me.r.rp pd = (if pd = 0 then BitVec.allOnes 1024 else s.me.r.rp pa &&& s.me.r.rp pb)) ∧
    (∃ t, exec (.por pd pa pb) s = .next t ∧ t.me.r.rp pd = (if pd = 0 then BitVec.allOnes 1024 else s.me.r.rp pa ||| s.me.r.rp pb)) ∧
    (∃ t, exec (.pnot pd pa) s = .next t ∧ t.me.r.rp pd = (if pd = 0 then BitVec.allOnes 1024 else ~~~(s.me.r.rp pa))) ∧
    (∃ t, exec (.pmov pd pa) s = .next t ∧ t.me.r.rp pd = (if pd = 0 then BitVec.allOnes 1024 else s.me.r.rp pa)) ∧
    (∃ t, exec (.ppop rd pa) s = .next t ∧
      t.rx rd = (if rd = 0 then 0 else BitVec.ofNat 64 ((List.range 1024).filter (s.me.r.rp pa).getLsbD).length)) ∧
    (pd ≠ 0 → ∃ t, exec (.pfirst pd pa) s = .next t ∧ ∀ i < 1024, (t.me.r.rp pd).getLsbD i =
      ((s.me.r.rp pa).getLsbD i && (List.range i).all fun j => !(s.me.r.rp pa).getLsbD j)) ∧
    (pd ≠ 0 → ∃ t, exec (.pwhile pd xs1 xs2) s = .next t ∧ ∀ i < 1024,
      (t.me.r.rp pd).getLsbD i = decide ((s.rx xs1).toNat + i < (s.rx xs2).toNat)) ∧
    exec (.pand 0 pa pb) s = .next (retire s s) ∧ exec (.pfirst 0 pa) s = .next (retire s s) ∧
    exec (.pwhile 0 xs1 xs2) s = .next (retire s s) ∧
    encode (.pand 0 0 0) = some 0x0000200B ∧ encode (.por 0 0 0) = some 0x0200200B ∧ encode (.pnot 0 0) = some 0x0400200B ∧
    encode (.pmov 0 0) = some 0x0600200B ∧ encode (.ppop 0 0) = some 0x0800200B ∧ encode (.pfirst 0 0) = some 0x0A00200B ∧
    encode (.pwhile 0 0 0) = some 0x0C00200B

/-! ### Synchronisation and configuration words -/

/-- R85, R86: a barrier of the launch: `bar.init` sets the expected count while nothing has arrived, `bar.arrive` arms
and counts and at the expected count flips the phase, `bar.wait` blocks while the phase is the one at the arrival and
then disarms, behind an acquire marker. The wrong order traps SYNC with the barrier's number. An arrival whose release still
waits for an earlier access stands in the queue behind its release marker and stops no later instruction: that is the model's reading
(log entry 59). -/
def Obligations.BarrierWords : Prop :=
  ∀ (s : State) (n : Node) (k : Fin 16) (xs1 : XReg), s.nodeOf s.cur.1 = some n → XReady s [xs1] →
    (n.barriers[k].count = 0 → 1 ≤ (s.rx xs1).toNat → (s.rx xs1).toNat ≤ 8192 →
      ∃ t, exec (.barInit k xs1) s = .next t ∧ t.barrier k = { n.barriers[k] with expect := (s.rx xs1).toNat } ∧
        t.me.r.pc = s.me.r.pc + 4) ∧
    (n.barriers[k].count ≠ 0 ∨ s.rx xs1 = 0 ∨ 8192 < (s.rx xs1).toNat →
      exec (.barInit k xs1) s = .next (s.takeTrap s.cur.1 s.cur.2 causeSync (BitVec.ofNat 64 k.val))) ∧
    (s.me.r.armed[k] = false → releaseWaits s (barrierScope s.myCore) = false →
      ∃ t, exec (.barArrive k) s = .next t ∧ t.me.r.armed[k] = true ∧ t.me.r.aphase[k] = n.barriers[k].phase ∧
        t.barrier k = (if n.barriers[k].count + 1 = n.barriers[k].expect
          then { n.barriers[k] with count := 0, phase := !n.barriers[k].phase }
          else { n.barriers[k] with count := n.barriers[k].count + 1 }) ∧ t.me.r.pc = s.me.r.pc + 4) ∧
    (s.me.r.armed[k] = false → releaseWaits s (barrierScope s.myCore) = true → Room s 1 1 →
      ∃ t, exec (.barArrive k) s = .next t ∧ t.me.r.armed[k] = true ∧ t.barrier k = n.barriers[k] ∧ t.me.r.pc = s.me.r.pc + 4 ∧
        t.me.queue = (settle false (s.me.queue ++ [{ op := .marker (barrierScope s.myCore) .rel },
          { op := .arrive k, elems := [{ loc := .win s.cur.1 0 }] }])).1) ∧
    (s.me.r.armed[k] = true →
      exec (.barArrive k) s = .next (s.takeTrap s.cur.1 s.cur.2 causeSync (BitVec.ofNat 64 k.val))) ∧
    (s.me.r.armed[k] = true → n.barriers[k].phase ≠ s.me.r.aphase[k] → arrivalQueued s.me k = false → Room s 1 1 →
      ∃ t, exec (.barWait k) s = .next t ∧ t.me.r.armed[k] = false ∧ t.barrier k = n.barriers[k] ∧ t.me.r.pc = s.me.r.pc + 4 ∧
        t.me.queue = (settle false (s.me.queue ++ [{ op := .marker (barrierScope s.myCore) .acq }])).1) ∧
    (s.me.r.armed[k] = true → n.barriers[k].phase = s.me.r.aphase[k] → exec (.barWait k) s = .next (waiting s s)) ∧
    (s.me.r.armed[k] = false →
      exec (.barWait k) s = .next (s.takeTrap s.cur.1 s.cur.2 causeSync (BitVec.ofNat 64 k.val)))

/-- R87 to R89: `mbox.send` waits for its target behind a release marker, and retires when its target, of its own core or of a core
that a node of its address space holds, accepts it; inside a region it traps. `mbox.recv` joins the claims, marks rd empty and
falls through, unless its sequencer's own claim on that mailbox is unserved; `mbox.poll` counts the unclaimed messages; and the
token words enter the store queue, `tok.set` behind a release marker. -/
def Obligations.MailboxAndTokenWords : Prop :=
  (∀ (s : State) (rd : XReg) (mb : Fin 8), XReady s [rd] →
    exec (.mboxPoll rd mb) s = .next (retire (s.wx rd (BitVec.ofNat 64
      (s.myCore.mbox[mb].msgs.length - s.myCore.mbox[mb].claims.length))) s) ∧
    ((∀ e ∈ s.me.queue, ∀ r, e.op ≠ .mboxRecv r mb) →
      ∃ t, exec (.mboxRecv rd mb) s = .next t ∧ t.myCore.mbox[mb].claims = s.myCore.mbox[mb].claims ++ [s.cur.2] ∧
        t.myCore.mbox[mb].msgs = s.myCore.mbox[mb].msgs ∧ (rd ≠ 0 → t.me.r.xIsFull rd = false) ∧ t.me.r.pc = s.me.r.pc + 4 ∧
        t.me.queue = (settle false (s.me.queue ++
          [{ op := .mboxRecv rd mb, elems := [{ n := 8, loc := .win s.cur.1 (0x1D8000 + 8 * mb.val) }] }])).1) ∧
    ((∃ e ∈ s.me.queue, ∃ r, e.op = .mboxRecv r mb) → exec (.mboxRecv rd mb) s = .next (waiting s s))) ∧
  (∀ (s : State) (xs1 xs2 : XReg), XReady s [xs1, xs2] →
    (s.inRegion = false → bitsOf (s.rx xs1).toNat 63 28 = 0 → bitsOf (s.rx xs1).toNat 15 13 = 0 → Room s 1 2 →
      exec (.mboxSend xs1 xs2) s =
        .next (waiting (s.await [{ op := .marker .pod .rel }] { op := .mboxSend, va := true, elems :=
          [{ idx := (s.rx xs1).toNat, addr := mailAddr (bitsOf (s.rx xs1).toNat 27 16) (bitsOf (s.rx xs1).toNat 12 3)
              (bitsOf (s.rx xs1).toNat 2 0), n := 8, data := (s.rx xs2).toNat }] } []) s)) ∧
    (s.inRegion = false → bitsOf (s.rx xs1).toNat 63 28 ≠ 0 ∨ bitsOf (s.rx xs1).toNat 15 13 ≠ 0 →
      exec (.mboxSend xs1 xs2) s = .next (s.takeTrap s.cur.1 s.cur.2 causeAccess (s.rx xs1))) ∧
    (s.inRegion = true →
      exec (.mboxSend xs1 xs2) s = .next (s.takeTrap s.cur.1 s.cur.2 causeRegion (wordOf (.mboxSend xs1 xs2))))) ∧
  (∀ (s : State) (g k : Nat) (r : RemoteAnswer) (pre post : List Entry) (e : Entry) (x : Elem),
    (s.seqAt g k).pending = some ⟨pre, e, post⟩ → e.op = .mboxSend → e.elems = [x] → localCheck x.addr x.n = none →
    ownerPkg x.addr = s.pkgid → ownerAbsent s s.pkgid (ownerDie x.addr) = false →
    (apertureCore x.addr = g ∨
      ((s.core (apertureCore x.addr)).node.isSome = true ∧ (s.core (apertureCore x.addr)).asid = (s.seqAt g k).asid)) →
    ∃ t, exec (.accessAccept g k r) s = .next t ∧ (t.seqAt g k).pending = none ∧ (t.seqAt g k).r.pc = (s.seqAt g k).r.pc + 4 ∧
      (t.seqAt g k).r.instret = (s.seqAt g k).r.instret + 1 ∧
      (t.seqAt g k).queue = (settle false ((s.seqAt g k).queue ++
        (pre ++ [e.accept [{ x with loc := .win (apertureCore x.addr) (apertureOff x.addr) }]] ++ post))).1) ∧
  (∀ (s : State) (xs1 : XReg), XReady s [xs1] →
    ((s.rx xs1).toNat < 256 → Room s 1 2 →
      ∃ t, exec (.tokSet xs1) s = .next t ∧ t.me.r.pc = s.me.r.pc + 4 ∧ t.me.queue = (settle false (s.me.queue ++
        [{ op := .marker .clu .rel }, { op := .token true (s.rx xs1).toNat, elems :=
          [{ n := 1, loc := .win s.cur.1 (0x1D9000 + (s.rx xs1).toNat) }] }])).1) ∧
    ((s.rx xs1).toNat < 256 → Room s 0 1 →
      ∃ t, exec (.tokClr xs1) s = .next t ∧ t.me.r.pc = s.me.r.pc + 4 ∧ t.me.queue = (settle false (s.me.queue ++
        [{ op := .token false (s.rx xs1).toNat, elems := [{ n := 1, loc := .win s.cur.1 (0x1D9000 + (s.rx xs1).toNat) }] }])).1) ∧
    (256 ≤ (s.rx xs1).toNat → exec (.tokSet xs1) s = .next (s.takeTrap s.cur.1 s.cur.2 causeAccess (s.rx xs1)) ∧
      exec (.tokClr xs1) s = .next (s.takeTrap s.cur.1 s.cur.2 causeAccess (s.rx xs1))))

/-- R83, R84: the scratchpad allocator. A bump allocation is rounded up to 64 bytes and returns the old pointer, or traps ALLOC beyond the
limit; `spa.rel` accepts only a 64-byte aligned address from the base to the pointer; a ring gives the lowest fit,
skipping its tail end where needed, and frees in order. -/
def Obligations.AllocatorWords : Prop :=
  ∀ (s : State) (rd xs1 : XReg) (k : Fin 4), XReady s [rd, xs1] →
    (s.me.r.alloc.bp + roundUp (s.rx xs1).toNat 64 ≤ s.me.r.alloc.bl →
      exec (.spaBump rd xs1) s = .next (retire ((s.setAlloc { s.me.r.alloc with
        bp := s.me.r.alloc.bp + roundUp (s.rx xs1).toNat 64 }).wx rd (BitVec.ofNat 64 s.me.r.alloc.bp)) s)) ∧
    (s.me.r.alloc.bl < s.me.r.alloc.bp + roundUp (s.rx xs1).toNat 64 →
      exec (.spaBump rd xs1) s = .next (s.takeTrap s.cur.1 s.cur.2 causeAlloc (s.rx xs1))) ∧
    exec (.spaMark rd) s = .next (retire (s.wx rd (BitVec.ofNat 64 s.me.r.alloc.bp)) s) ∧
    (s.me.r.alloc.bb ≤ (s.rx xs1).toNat → (s.rx xs1).toNat ≤ s.me.r.alloc.bp → (s.rx xs1).toNat % 64 = 0 →
      exec (.spaRel xs1) s = .next (retire (s.setAlloc { s.me.r.alloc with bp := (s.rx xs1).toNat }) s)) ∧
    ((s.rx xs1).toNat < s.me.r.alloc.bb ∨ s.me.r.alloc.bp < (s.rx xs1).toNat ∨ (s.rx xs1).toNat % 64 ≠ 0 →
      exec (.spaRel xs1) s = .next (s.takeTrap s.cur.1 s.cur.2 causeAccess (s.rx xs1))) ∧
    (∀ r n, r = s.me.r.alloc.rings[k] → n = roundUp (s.rx xs1).toNat 64 → 0 < n → n ≤ r.rs → r.fifo.length < 16 →
      (r.h + n ≤ r.rs → r.u + n ≤ r.rs → ∃ t, exec (.spaRingGet rd xs1 k) s = .next t ∧
        t.me.r.alloc.rings[k] = { r with fifo := r.fifo ++ [(r.h, n)], u := r.u + n, h := (r.h + n) % r.rs } ∧
        (rd ≠ 0 → t.rx rd = BitVec.ofNat 64 (r.rb + r.h))) ∧
      (r.rs < r.h + n → r.u + (r.rs - r.h + n) ≤ r.rs → ∃ t, exec (.spaRingGet rd xs1 k) s = .next t ∧
        t.me.r.alloc.rings[k] = { r with fifo := r.fifo ++ [(0, r.rs - r.h + n)], u := r.u + (r.rs - r.h + n), h := n % r.rs } ∧
        (rd ≠ 0 → t.rx rd = BitVec.ofNat 64 r.rb))) ∧
    (∀ r n, r = s.me.r.alloc.rings[k] → n = roundUp (s.rx xs1).toNat 64 →
      (r.rs = 0 ∨ n = 0 ∨ r.rs < n ∨ 16 ≤ r.fifo.length ∨ (r.h + n ≤ r.rs ∧ r.rs < r.u + n) ∨
        (r.rs < r.h + n ∧ r.rs < r.u + (r.rs - r.h + n))) →
      exec (.spaRingGet rd xs1 k) s = .next (s.takeTrap s.cur.1 s.cur.2 causeAlloc (s.rx xs1))) ∧
    (∀ o c rest, s.me.r.alloc.rings[k].fifo = (o, c) :: rest → (s.rx xs1).toNat ≠ s.me.r.alloc.rings[k].rb + o →
      exec (.spaRingPut xs1 k) s = .next (s.takeTrap s.cur.1 s.cur.2 causeAccess (s.rx xs1))) ∧
    (∀ o c rest, s.me.r.alloc.rings[k].fifo = (o, c) :: rest → (s.rx xs1).toNat = s.me.r.alloc.rings[k].rb + o →
      ∃ t, exec (.spaRingPut xs1 k) s = .next t ∧
        t.me.r.alloc.rings[k] = { s.me.r.alloc.rings[k] with u := s.me.r.alloc.rings[k].u - c, fifo := rest }) ∧
    (s.me.r.alloc.rings[k].fifo = [] →
      exec (.spaRingPut xs1 k) s = .next (s.takeTrap s.cur.1 s.cur.2 causeAccess (s.rx xs1))) ∧
    encode (.spaBump 0 0) = some 0x1000300B ∧ encode (.spaMark 0) = some 0x1600300B ∧ encode (.spaRel 0) = some 0x1800300B ∧
    encode (.spaRingGet 0 0 0) = some 0x1200300B ∧ encode (.spaRingPut 0 0) = some 0x1400300B

/-- R94, R95, R101: shape registers, layout records and tile configurations read back what is written, and the full/empty checks tell the
bit; a tile outside the partition traps ACCESS with 64 + k, and columns beyond the register's elements trap ACCESS. -/
def Obligations.ConfigurationMoves : Prop :=
  ∀ (s : State) (rd xs1 xs2 : XReg) (sh k : Fin 32) (ly : Fin 16) (tl : Fin 8), XReady s [rd, xs1, xs2] →
    (∃ t, exec (.shpWr sh xs1) s = .next t ∧ t.me.r.sh[sh] = (s.rx xs1).setWidth 32 ∧ (∀ j : Fin 32, j ≠ sh → t.me.r.sh[j] = s.me.r.sh[j]) ∧
      t.me.r.pc = s.me.r.pc + 4) ∧
    exec (.shpRd rd sh) s = .next (retire (s.wx rd ((s.me.r.sh[sh]).setWidth 64)) s) ∧
    (∃ t, exec (.lyWr ly xs1 xs2) s = .next t ∧ t.me.r.ly[ly] = s.rx xs2 ++ s.rx xs1 ∧
      (∀ j : Fin 16, j ≠ ly → t.me.r.ly[j] = s.me.r.ly[j])) ∧
    (∀ hi, exec (.lyRd rd ly hi) s = .next (retire (s.wx rd (s.me.r.ly[ly].extractLsb' (if hi then 64 else 0) 64)) s)) ∧
    (tl.val < s.myCore.tiles → (bitsOf (s.rx xs1).toNat 3 0 ≠ 14 ∧ bitsOf (s.rx xs1).toNat 3 0 ≠ 15) →
      1 ≤ bitsOf (s.rx xs1).toNat 21 11 → bitsOf (s.rx xs1).toNat 21 11 ≤ elemsOf (bitsOf (s.rx xs1).toNat 3 0) →
      ∃ t, exec (.tcfgWr tl xs1) s = .next t ∧ t.myCore.tcfg[tl] =
        ⟨bitsOf (s.rx xs1).toNat 3 0, bitsOf (s.rx xs1).toNat 10 4 + 1, bitsOf (s.rx xs1).toNat 21 11⟩ ∧
      t.mem = s.mem ∧ t.me.r.pc = s.me.r.pc + 4) ∧
    (tl.val < s.myCore.tiles → exec (.tcfgRd rd tl) s = .next (retire (s.wx rd (BitVec.ofNat 64 (s.myCore.tcfg[tl].tag +
      (s.myCore.tcfg[tl].rows - 1) * 2 ^ 4 + s.myCore.tcfg[tl].cols * 2 ^ 11))) s)) ∧
    (tl.val < s.myCore.tiles → (bitsOf (s.rx xs1).toNat 3 0 = 14 ∨ bitsOf (s.rx xs1).toNat 3 0 = 15) →
      exec (.tcfgWr tl xs1) s = .next (s.takeTrap s.cur.1 s.cur.2 causeFormat
        (BitVec.ofNat 64 (bitsOf (s.rx xs1).toNat 3 0 * 2 ^ 8 + (64 + tl.val))))) ∧
    (tl.val < s.myCore.tiles → (bitsOf (s.rx xs1).toNat 3 0 ≠ 14 ∧ bitsOf (s.rx xs1).toNat 3 0 ≠ 15) →
      (bitsOf (s.rx xs1).toNat 21 11 = 0 ∨ elemsOf (bitsOf (s.rx xs1).toNat 3 0) < bitsOf (s.rx xs1).toNat 21 11) →
      exec (.tcfgWr tl xs1) s = .next (s.takeTrap s.cur.1 s.cur.2 causeAccess (s.rx xs1))) ∧
    (s.myCore.tiles ≤ tl.val → exec (.tcfgWr tl xs1) s = .next (s.takeTrap s.cur.1 s.cur.2 causeAccess (BitVec.ofNat 64 (64 + tl.val))) ∧
      exec (.tcfgRd rd tl) s = .next (s.takeTrap s.cur.1 s.cur.2 causeAccess (BitVec.ofNat 64 (64 + tl.val)))) ∧
    exec (.feChkX rd k) s = .next (retire (s.wx rd (if s.me.r.xIsFull k = true then 1 else 0)) s) ∧
    (s.me.r.vctx = true → exec (.feChkV rd k) s = .next (retire (s.wx rd (if s.me.r.vfull[s.vphys k] = true then 1 else 0)) s)) ∧
    (s.me.r.vctx = false → exec (.feChkV rd k) s = .next (s.takeTrap s.cur.1 s.cur.2 causeAccess (wordOf (.feChkV rd k)))) ∧
    encode (.feChkX 0 0) = some 0x0A00700B ∧ encode (.feChkV 0 0) = some 0x0C00700B

/-- R96, R97: an opened fibre or stream starts at position 0; an advance takes element p at base + p · stride and
counts, or gives all ones at the end; in mode 1 it waits for its owner as a load does; the end test and the close follow. The
words trap ACCESS on a register that is not open, and MISALIGN on a descriptor that is not aligned to 32. Where a descriptor or an
element outside the scratchpad traps is the model's reading (log entry 16). -/
def Obligations.FibreAndStreamWords : Prop :=
  (∀ (s : State) (xs1 : XReg) (k : Fin 8) (fibre : Bool), XReady s [xs1] →
    ((s.rx xs1).toNat % 32 = 0 → (s.rx xs1).toNat + 32 ≤ 2 ^ 20 → poisoned s (.win s.cur.1 (s.rx xs1).toNat) 32 = false →
      spadWaits s (s.rx xs1).toNat 32 = none → descriptorOk fibre (ownSpad s (s.rx xs1).toNat 32) = true →
      (streamOf fibre (ownSpad s (s.rx xs1).toNat 32)).base.toNat % (streamOf fibre (ownSpad s (s.rx xs1).toNat 32)).width = 0 →
      ∃ t, exec (if fibre then .fbOpen k xs1 else .smOpen k xs1) s = .next t ∧
        getStream t.me.r fibre k = streamOf fibre (ownSpad s (s.rx xs1).toNat 32) ∧ (getStream t.me.r fibre k).pos = 0 ∧
        t.me.r.pc = s.me.r.pc + 4) ∧
    ((s.rx xs1).toNat % 32 ≠ 0 →
      exec (if fibre then .fbOpen k xs1 else .smOpen k xs1) s = .next (s.takeTrap s.cur.1 s.cur.2 causeMisalign (s.rx xs1)))) ∧
  (∀ (s : State) (rd : XReg) (k : Fin 8) (fibre : Bool) (x : Stream), XReady s [rd] → getStream s.me.r fibre k = x →
    (x.isOpen = true →
      (x.pos = x.count →
        exec (if fibre then .fbAdv rd k else .smAdv rd k) s = .next (retire (s.wx rd (BitVec.allOnes 64)) s) ∧
        exec (if fibre then .fbEnd rd k else .smEnd rd k) s = .next (retire (s.wx rd 1) s)) ∧
      (x.pos ≠ x.count → exec (if fibre then .fbEnd rd k else .smEnd rd k) s = .next (retire (s.wx rd 0) s)) ∧
      (x.pos ≠ x.count → x.va = false → x.elemAddr.toNat % x.width = 0 → x.elemAddr.toNat + x.width ≤ 2 ^ 20 →
        poisoned s (.win s.cur.1 x.elemAddr.toNat) x.width = false → Room s 1 0 →
        ∃ t, exec (if fibre then .fbAdv rd k else .smAdv rd k) s = .next t ∧
          getStream t.me.r fibre k = { x with pos := x.pos + 1 } ∧ (rd ≠ 0 → t.me.r.xIsFull rd = false) ∧
          t.me.queue = (settle false (s.me.queue ++ [{ op := .stream rd fibre x.sext k x.pos, elems :=
            [{ addr := x.elemAddr, n := x.width, loc := .win s.cur.1 x.elemAddr.toNat,
               idx := if tabHas x.ahead x.pos then 1 else 0, data := tabGet 0 x.ahead x.pos }] }])).1 ∧
          t.me.r.pc = s.me.r.pc + 4) ∧
      (x.pos ≠ x.count → x.va = true → x.elemAddr.toNat % x.width = 0 →
        (isAperture x.elemAddr = true → apertureForm x.elemAddr = true) → Room s 1 0 →
        exec (if fibre then .fbAdv rd k else .smAdv rd k) s =
          .next (waiting (s.await [] { op := .stream rd fibre x.sext k x.pos, va := true, elems :=
            [{ addr := x.elemAddr, n := x.width, idx := if tabHas x.ahead x.pos then 1 else 0,
               data := tabGet 0 x.ahead x.pos }] } []) s)) ∧
      (∃ t, exec (if fibre then .fbClose k else .smClose k) s = .next t ∧ (getStream t.me.r fibre k).isOpen = false ∧
        t.me.r.pc = s.me.r.pc + 4)) ∧
    (x.isOpen = false →
      exec (if fibre then .fbAdv rd k else .smAdv rd k) s = .next (s.takeTrap s.cur.1 s.cur.2 causeAccess
        (wordOf (if fibre then .fbAdv rd k else .smAdv rd k))) ∧
      exec (if fibre then .fbEnd rd k else .smEnd rd k) s = .next (s.takeTrap s.cur.1 s.cur.2 causeAccess
        (wordOf (if fibre then .fbEnd rd k else .smEnd rd k))) ∧
      exec (if fibre then .fbClose k else .smClose k) s = .next (s.takeTrap s.cur.1 s.cur.2 causeAccess
        (wordOf (if fibre then .fbClose k else .smClose k)))))

/-- R90 to R93, R98, R100, R267: `cmd.put` assigns the next number and enters the store queue behind a release marker of the queue's
scope; `chain.tail` publishes a run of slots; `seq.wait` passes once the completion word has reached the number and traps SYNC on
one never assigned; `seq.read` reads the completion word; an unbound queue traps ACCESS with the word. Inside a region a word that
the region forbids is not published and traps REGION. Region words open and close a region; the lease words request, confirm, give
up and withdraw. That `lease.acq` by the sequencer that holds the lease makes it explicit and withdraws a release is the model's choice (log entry
67). -/
def Obligations.QueueRegionAndLeaseWords : Prop :=
  (∀ (s : State) (rd xs1 : XReg) (q : Fin 16) (b : Queue) (x : Nat), XReady s [rd, xs1] → b = s.myCore.queue q.val →
    x = (s.rx xs1).toNat →
    (b.kind ≠ 0 →
      (x % 32 = 0 → x + 32 ≤ 2 ^ 20 → poisoned s (.win s.cur.1 x) 32 = false → Room s 1 2 →
        (s.inRegion = true → spadWaits s x 32 = none ∧ regionForbids (ownSpad s x 32) = false ∧ headerOf (ownSpad s x 32) = none) →
        ∃ t, exec (.cmdPut rd q xs1) s = .next t ∧ (t.myCore.queue q.val).last = b.last + 1 ∧
          (rd ≠ 0 → t.rx rd = BitVec.ofNat 64 (b.last + 1)) ∧ t.me.r.pc = s.me.r.pc + 4 ∧
          t.me.queue = (settle false (s.me.queue ++ [{ op := .marker (queueScope b.kind) .rel },
            { op := .publish q (b.last + 1) 1 (some x) s.me.r.sh s.me.r.ly s.myCore.tcfg,
              elems := [{ loc := .win s.cur.1 b.base }] }])).1) ∧
      (x % 32 = 0 → x + 32 ≤ 2 ^ 20 → s.inRegion = true → spadWaits s x 32 = none → regionForbids (ownSpad s x 32) = true →
        exec (.cmdPut rd q xs1) s = .next (s.takeTrap s.cur.1 s.cur.2 causeRegion (BitVec.ofNat 64 x))) ∧
      (1 ≤ x → x < b.n → s.inRegion = false → Room s 1 2 →
        ∃ t, exec (.chainTail q xs1) s = .next t ∧ (t.myCore.queue q.val).last = b.last + x ∧ t.me.r.pc = s.me.r.pc + 4 ∧
          t.me.queue = (settle false (s.me.queue ++ [{ op := .marker (queueScope b.kind) .rel },
            { op := .publish q (b.last + 1) x none s.me.r.sh s.me.r.ly s.myCore.tcfg,
              elems := [{ loc := .win s.cur.1 b.base }] }])).1) ∧
      (x = 0 ∨ b.n ≤ x → exec (.chainTail q xs1) s = .next (s.takeTrap s.cur.1 s.cur.2 causeAccess (s.rx xs1))) ∧
      (x ≤ b.comp → b.comp ≤ b.last → Room s 1 1 →
        ∃ t, exec (.seqWait q xs1) s = .next t ∧ t.me.r.pc = s.me.r.pc + 4 ∧ (∀ i, t.rx i = s.rx i) ∧
          t.me.queue = (settle false (s.me.queue ++ [{ op := .marker (queueScope b.kind) .acq }])).1) ∧
      (b.comp < x → x ≤ b.last → exec (.seqWait q xs1) s = .next (waiting s s)) ∧
      (b.last < x → exec (.seqWait q xs1) s = .next (s.takeTrap s.cur.1 s.cur.2 causeSync (s.rx xs1))) ∧
      exec (.seqRead rd q) s = .next (retire (s.wx rd (BitVec.ofNat 64 b.comp)) s)) ∧
    (b.kind = 0 →
      exec (.cmdPut rd q xs1) s = .next (s.takeTrap s.cur.1 s.cur.2 causeAccess (wordOf (.cmdPut rd q xs1))) ∧
      exec (.chainTail q xs1) s = .next (s.takeTrap s.cur.1 s.cur.2 causeAccess (wordOf (.chainTail q xs1))) ∧
      exec (.seqWait q xs1) s = .next (s.takeTrap s.cur.1 s.cur.2 causeAccess (wordOf (.seqWait q xs1))) ∧
      exec (.seqRead rd q) s = .next (s.takeTrap s.cur.1 s.cur.2 causeAccess (wordOf (.seqRead rd q))))) ∧
  (∀ s : State,
    (commandsDone s = true → registersFull s.me = true → s.me.r.pc + 4 ≠ s.me.exitAddr → ∃ t, exec .regionMark s = .next t ∧
      t.me.region.map (·.image.pc) = some (s.me.r.pc + 4) ∧ t.me.region.map (·.image.x) = some s.me.r.x ∧
      t.me.region.map (·.lease) = some s.holdsLease ∧ t.me.r.pc = s.me.r.pc + 4) ∧
    (commandsDone s = false ∨ registersFull s.me = false → exec .regionMark s = .next (waiting s s)) ∧
    (∃ t, exec .regionEnd s = .next t ∧ t.me.region = none ∧ t.me.r.pc = s.me.r.pc + 4) ∧
    ((s.cluster (clusterOfCore s.cur.1)).holder = some s.cur → s.me.r.pc + 4 ≠ s.me.exitAddr →
      (∃ t, exec .leaseAcq s = .next t ∧ (t.cluster (clusterOfCore s.cur.1)).holder = some s.cur ∧
        (t.cluster (clusterOfCore s.cur.1)).implicitLease = false ∧ t.me.r.pc = s.me.r.pc + 4) ∧
      (∃ t, exec .leaseRel s = .next t ∧ (t.cluster (clusterOfCore s.cur.1)).giveUp = true ∧ t.me.r.pc = s.me.r.pc + 4)) ∧
    ((s.cluster (clusterOfCore s.cur.1)).holder ≠ some s.cur → s.cur ∉ (s.cluster (clusterOfCore s.cur.1)).waiters →
      ∃ t, exec .leaseAcq s = .next t ∧
        (t.cluster (clusterOfCore s.cur.1)).waiters = (s.cluster (clusterOfCore s.cur.1)).waiters ++ [s.cur] ∧
        t.me.r.pc = s.me.r.pc ∧ t.me.status = .blocked) ∧
    ((s.cluster (clusterOfCore s.cur.1)).holder ≠ some s.cur →
      ∃ t, exec .leaseRel s = .next t ∧ s.cur ∉ (t.cluster (clusterOfCore s.cur.1)).waiters ∧ t.me.r.pc = s.me.r.pc + 4))

/-! ### Vector words -/

/-- R32, R56: a vector result writes the active elements of the destination, each with its own bits, gives the register the result tag, and
leaves the other elements, the other registers and memory as they were. -/
def Obligations.VectorResultsWriteActiveElements : Prop :=
  ∀ (s : State) (o : VA) (t : Nat) (f : Nat → Nat), t ≤ 13 →
    (s.vwrite o t f).vtagOf o.vd = t ∧
    (∀ i < elemsOf t, (s.vwrite o t f).el t o.vd i =
      if s.active o.qp i = true then f i % 2 ^ tagBits t else s.el t o.vd i) ∧
    (∀ p : Fin 32, p ≠ s.vphys o.vd → (s.vwrite o t f).me.r.v[p] = s.me.r.v[p] ∧ (s.vwrite o t f).me.r.vtag[p] = s.me.r.vtag[p]) ∧
    (s.vwrite o t f).mem = s.mem ∧ (s.vwrite o t f).me.r.x = s.me.r.x

/-- R119, R121: integer words of major VA1 under the integer tags, wrapping or clamping to the element; `vadd.x` takes the low bits of xs1. -/
def Obligations.VectorIntegerResults : Prop :=
  ∀ (s : State) (o : VA) (t : Nat), 7 ≤ t → t ≤ 12 →
    let a := fun i => intValue t (s.el t o.vs1 i)
    let b := fun i => intValue t (s.el t o.vs2 i)
    (Ready2 s o t →
      exec (.vadd o) s = .next (retire (s.vwrite o t fun i => wrapInt t (a i + b i)) s) ∧
      exec (.vsub o) s = .next (retire (s.vwrite o t fun i => wrapInt t (a i - b i)) s) ∧
      exec (.vmul o) s = .next (retire (s.vwrite o t fun i => wrapInt t (a i * b i)) s) ∧
      exec (.vmulh o) s = .next (retire (s.vwrite o t fun i => wrapInt t (a i * b i / (2 ^ tagBits t : Nat))) s) ∧
      exec (.vmin o) s = .next (retire (s.vwrite o t fun i => wrapInt t (min (a i) (b i))) s) ∧
      exec (.vmax o) s = .next (retire (s.vwrite o t fun i => wrapInt t (max (a i) (b i))) s) ∧
      exec (.vsadd o) s = .next (retire (s.vwrite o t fun i => satInt t (a i + b i)) s) ∧
      exec (.vssub o) s = .next (retire (s.vwrite o t fun i => satInt t (a i - b i)) s) ∧
      exec (.vsll o) s = .next (retire (s.vwrite o t fun i => if tagBits t ≤ s.el t o.vs2 i then 0
        else s.el t o.vs1 i * 2 ^ s.el t o.vs2 i % 2 ^ tagBits t) s) ∧
      exec (.vsr o) s = .next (retire (s.vwrite o t fun i => wrapInt t (a i / (2 ^ min (s.el t o.vs2 i) (tagBits t) : Nat))) s)) ∧
    (Ready3 s o t → exec (.vmac o) s =
      .next (retire (s.vwrite o t fun i => wrapInt t (intValue t (s.el t o.vd i) + a i * b i)) s)) ∧
    (Ready1 s o t t →
      exec (.vneg o) s = .next (retire (s.vwrite o t fun i => wrapInt t (-(a i))) s) ∧
      exec (.vabs o) s = .next (retire (s.vwrite o t fun i => wrapInt t (a i).natAbs) s)) ∧
    (ReadyX s o t → exec (.vaddX o) s = .next (retire (s.vwrite o t fun i =>
      wrapInt t (b i + intValue t ((s.rx o.vs1).toNat % 2 ^ tagBits t))) s))

/-- R117, R121: logic, move and select words act on the bits of the elements under every tag from 0 to 13. -/
def Obligations.VectorLogicResults : Prop :=
  ∀ (s : State) (o : VA) (t : Nat), t ≤ 13 →
    (Ready2 s o t →
      exec (.vand o) s = .next (retire (s.vwrite o t fun i => s.el t o.vs1 i &&& s.el t o.vs2 i) s) ∧
      exec (.vor o) s = .next (retire (s.vwrite o t fun i => s.el t o.vs1 i ||| s.el t o.vs2 i) s) ∧
      exec (.vxor o) s = .next (retire (s.vwrite o t fun i => s.el t o.vs1 i ^^^ s.el t o.vs2 i) s) ∧
      exec (.vsel o) s = .next (retire (s.vwrite o t fun i => (s.el t o.vs1 i &&& s.el t o.vd i) |||
        (s.el t o.vs2 i &&& (2 ^ tagBits t - 1 - s.el t o.vd i))) s)) ∧
    (Ready1 s o t t →
      exec (.vnot o) s = .next (retire (s.vwrite o t fun i => 2 ^ tagBits t - 1 - s.el t o.vs1 i) s) ∧
      exec (.vmov o) s = .next (retire (s.vwrite o t fun i => s.el t o.vs1 i) s))

/-- R120, R122, R123, R131 to R137: floating-point words under tags 1 to 4 write each active element rounded once
under frm and raise the OR of the active elements' exceptions in fflags. That the integer precision of the special
functions never mistakes a rounding rests on log entry 17. -/
def Obligations.VectorFloatResults : Prop :=
  ∀ (s : State) (o : VA) (t : Nat), 1 ≤ t → t ≤ 4 →
    let a := fun i => s.el t o.vs1 i
    let b := fun i => s.el t o.vs2 i
    let c := fun i => s.el t o.vd i
    (Ready2 s o t →
      exec (.vfadd o) s = .next (retire (s.fpWrite o t fun i => fpAdd t s.vrm (a i) (b i)) s) ∧
      exec (.vfsub o) s = .next (retire (s.fpWrite o t fun i => fpSub t s.vrm (a i) (b i)) s) ∧
      exec (.vfmul o) s = .next (retire (s.fpWrite o t fun i => fpMul t s.vrm (a i) (b i)) s) ∧
      exec (.vfdiv o) s = .next (retire (s.fpWrite o t fun i => fpDiv t s.vrm (a i) (b i)) s) ∧
      exec (.vfmin o) s = .next (retire (s.fpWrite o t fun i => pickNan false t (a i) (b i)) s) ∧
      exec (.vfmax o) s = .next (retire (s.fpWrite o t fun i => pickNan true t (a i) (b i)) s) ∧
      exec (.vfminnum o) s = .next (retire (s.fpWrite o t fun i => pickNum false t (a i) (b i)) s) ∧
      exec (.vfmaxnum o) s = .next (retire (s.fpWrite o t fun i => pickNum true t (a i) (b i)) s) ∧
      exec (.vscale o) s = .next (retire (s.fpWrite o t fun i => fpScale t s.vrm (a i) (b i)) s)) ∧
    (Ready3 s o t →
      exec (.vfma o) s = .next (retire (s.fpWrite o t fun i => fpFma t s.vrm [a i, b i, c i] (a i) (b i) (c i)) s) ∧
      exec (.vfms o) s = .next (retire (s.fpWrite o t fun i => fpFma t s.vrm [a i, b i, c i] (a i) (b i) (fpNeg t (c i))) s)) ∧
    (Ready1 s o t t →
      exec (.vfsqrt o) s = .next (retire (s.fpWrite o t fun i => fpSqrt t s.vrm (a i)) s) ∧
      exec (.vrnd o) s = .next (retire (s.fpWrite o t fun i => fpRound t s.vrm (a i)) s) ∧
      exec (.vfexp2 o) s = .next (retire (s.fpWrite o t fun i => fpExp2 t (a i)) s) ∧
      exec (.vflog2 o) s = .next (retire (s.fpWrite o t fun i => fpLog2 t (a i)) s) ∧
      exec (.vfrcp o) s = .next (retire (s.fpWrite o t fun i => fpRcp t (a i)) s) ∧
      exec (.vfrsqrt o) s = .next (retire (s.fpWrite o t fun i => fpRsqrt t (a i)) s) ∧
      exec (.vgetexp o) s = .next (retire (s.fpWrite o t fun i => fpGetexp t (a i)) s) ∧
      exec (.vgetmant o) s = .next (retire (s.fpWrite o t fun i => fpGetmant t (a i)) s)) ∧
    (∀ f : Nat → FRes, (s.fpWrite o t f).me.r.fflags =
      (s.actives o.qp (elemsOf t)).foldl (fun (x : BitVec 5) i => x ||| BitVec.ofNat 5 (f i).flags) s.me.r.fflags)

/-- R120, R122, R124, R125: sign words act on the sign alone and raise nothing; `vfclass` gives the class bit under tag 7 or 8; the VX words
take the low bits of xs1 as their scalar. -/
def Obligations.VectorSignClassAndScalarForms : Prop :=
  ∀ (s : State) (o : VA) (t : Nat), 1 ≤ t → t ≤ 4 →
    let a := fun i => s.el t o.vs1 i
    let b := fun i => s.el t o.vs2 i
    let x := (s.rx o.vs1).toNat % 2 ^ tagBits t
    (Ready2 s o t →
      exec (.vfsgnj o) s = .next (retire (s.vwrite o t fun i => withSign t (fpSign t (b i)) (fpMag t (a i))) s) ∧
      exec (.vfsgnjn o) s = .next (retire (s.vwrite o t fun i => withSign t (!fpSign t (b i)) (fpMag t (a i))) s) ∧
      exec (.vfsgnjx o) s = .next (retire (s.vwrite o t fun i => withSign t (fpSign t (a i) != fpSign t (b i)) (fpMag t (a i))) s)) ∧
    (Ready1 s o t t →
      exec (.vfabs o) s = .next (retire (s.vwrite o t fun i => fpMag t (a i)) s) ∧
      exec (.vfneg o) s = .next (retire (s.vwrite o t fun i => fpNeg t (a i)) s)) ∧
    (t ≠ 4 → Ready1 s o t (if t = 1 then 7 else 8) →
      exec (.vfclass o) s = .next (retire (s.vwrite o (if t = 1 then 7 else 8) fun i => fpClass t (a i)) s)) ∧
    (ReadyX s o t →
      exec (.vfmulX o) s = .next (retire (s.fpWrite o t fun i => fpMul t s.vrm (b i) x) s) ∧
      (s.vtagOf o.vd = t → exec (.vfmaX o) s =
        .next (retire (s.fpWrite o t fun i => fpFma t s.vrm [b i, x, s.el t o.vd i] (b i) x (s.el t o.vd i)) s)))

/-- R62: a floating-point vector word on tag 5 or 6 is served by Derdengo: its issue leaves the sequencer waiting with
nothing written, and the service runs the same word with its effect, the operands widened to FP32 and the result
converted back. When Derdengo serves a word is a free choice of the step (log entry 44). -/
def Obligations.EmulatedWordsAreServed : Prop :=
  ∀ (s : State) (o : VA) (t : Nat), (t = 5 ∨ t = 6) → Ready2 s o t → s.me.emul = none →
    (∃ u, exec (.vfadd o) s = .next u ∧ u.me.emul = some (formatVal 1 t (s.vreg o.vs1)) ∧ u.me.status = .blocked ∧
      u.me.r = s.me.r ∧ u.mem = s.mem) ∧
    (∀ v, decode s.me.word = .ok (.vfadd o) →
      exec (.emulationService s.cur.1 s.cur.2) (s.setMe { s.me with emul := some v }) =
        .next (retire ((s.setMe { s.me with emul := none }).fpWrite o t fun i =>
          emuOp t s.vrm (fun t l => fpAdd t s.vrm (arg l 0) (arg l 1)) [s.el t o.vs1 i, s.el t o.vs2 i])
          (s.setMe { s.me with emul := none })))

/-- R33, R58, R119: what stops a vector word: a marked empty source traps EMPTY with its register, a source outside the accepted tags traps
FORMAT, no vector context traps ACCESS with the word, and a busy or empty destination blocks. That vs1 is named where both marked
sources are empty is the model's choice (log entry 71). -/
def Obligations.VectorWordsCheckTheirOperands : Prop :=
  ∀ (s : State) (o : VA),
    (s.me.r.vctx = false → exec (.vadd o) s = .next (s.takeTrap s.cur.1 s.cur.2 causeAccess (wordOf (.vadd o)))) ∧
    (s.me.r.vctx = true → o.b1 = true → s.me.r.vfull[s.vphys o.vs1] = false →
      exec (.vadd o) s = .next (s.takeTrap s.cur.1 s.cur.2 causeEmpty (BitVec.ofNat 64 (32 + (s.vphys o.vs1).val)))) ∧
    (VReady s [o.vs1, o.vs2] → s.me.vReady (s.vphys o.vd) = false → exec (.vadd o) s = .next (waiting s s)) ∧
    (VReady s [o.vs1, o.vs2, o.vd] → s.vtagOf o.vs1 ≤ 6 → exec (.vadd o) s =
      .next (s.takeTrap s.cur.1 s.cur.2 causeFormat (formatVal 7 (s.vtagOf o.vs1) (s.vreg o.vs1)))) ∧
    (∀ t, 7 ≤ t → t ≤ 12 → VReady s [o.vs1, o.vs2, o.vd] → s.vtagOf o.vs1 = t → s.vtagOf o.vs2 ≠ t →
      exec (.vadd o) s = .next (s.takeTrap s.cur.1 s.cur.2 causeFormat (formatVal t (s.vtagOf o.vs2) (s.vreg o.vs2))))

/-- R35, R36, R126: a compare writes the pair under the qualifier: where it is 1 pa gets the folded result and its partner the complement,
where it is 0 both stay, except that ctype 1 clears both; elements from n on stay. The fold is R36's table, written out here; of the
pair of p0 and p1 only p1 is written. Scalar compares give one result to all 1,024 elements. -/
def Obligations.CompareWordsWritePairs : Prop :=
  ∀ (s : State) (o : VP) (t : Nat),
    (∀ (r : Regs) (n : Nat) (c : PBits), o.pa.val / 2 ≠ 0 → n ≤ 1024 → ∀ i < n,
      ((r.rp o.qp).getLsbD i = true →
        ((r.writePair o n c).rp o.pa).getLsbD i = (foldBits o.ctype (r.rp o.pa) c).getLsbD i ∧
        ((r.writePair o n c).rp (pairName o.pa)).getLsbD i = !(foldBits o.ctype (r.rp o.pa) c).getLsbD i) ∧
      ((r.rp o.qp).getLsbD i = false →
        ((r.writePair o n c).rp o.pa).getLsbD i = (if o.ctype = 1 then false else (r.rp o.pa).getLsbD i) ∧
        ((r.writePair o n c).rp (pairName o.pa)).getLsbD i = (if o.ctype = 1 then false else (r.rp (pairName o.pa)).getLsbD i))) ∧
    (∀ (r : Regs) (n : Nat) (c : PBits) (i : Nat), o.ctype ≠ 7 → n ≤ 1024 → i < 1024 →
      let fold := fun (old c : Bool) =>
        if o.ctype.val ≤ 1 then c else if o.ctype = 2 then old && c else if o.ctype = 3 then old || c
        else if o.ctype = 4 then old && !c else if o.ctype = 5 then old || !c else old ^^ c
      let one := (r.rp o.qp).getLsbD i
      let new := fun (v : Bool) (old : Bool) => if i < n then (if one then v else if o.ctype = 1 then false else old) else old
      (2 ≤ o.pa.val →
        ((r.writePair o n c).rp o.pa).getLsbD i = new (fold ((r.rp o.pa).getLsbD i) (c.getLsbD i)) ((r.rp o.pa).getLsbD i) ∧
        ((r.writePair o n c).rp (pairName o.pa)).getLsbD i =
          new (!fold ((r.rp o.pa).getLsbD i) (c.getLsbD i)) ((r.rp (pairName o.pa)).getLsbD i)) ∧
      (o.pa = 0 → ((r.writePair o n c).rp 1).getLsbD i = new (!fold true (c.getLsbD i)) ((r.rp 1).getLsbD i)) ∧
      (o.pa = 1 → ((r.writePair o n c).rp 1).getLsbD i = new (fold ((r.rp 1).getLsbD i) (c.getLsbD i)) ((r.rp 1).getLsbD i)) ∧
      (r.writePair o n c).rp 0 = BitVec.allOnes 1024 ∧
      (∀ j : PReg, j ≠ o.pa → j ≠ pairName o.pa → (r.writePair o n c).rp j = r.rp j)) ∧
    (XReady s [o.s1, o.s2] →
      let put := fun (b : Bool) => retire (s.modRegs fun r => r.writePair o 1024 (if b then BitVec.allOnes 1024 else 0)) s
      exec (.xcmpEq o) s = .next (put (s.rx o.s1 == s.rx o.s2)) ∧ exec (.xcmpNe o) s = .next (put (s.rx o.s1 != s.rx o.s2)) ∧
      exec (.xcmpLt o) s = .next (put ((s.rx o.s1).slt (s.rx o.s2))) ∧ exec (.xcmpGe o) s = .next (put (!(s.rx o.s1).slt (s.rx o.s2))) ∧
      exec (.xcmpLtu o) s = .next (put ((s.rx o.s1).ult (s.rx o.s2))) ∧
      exec (.xcmpGeu o) s = .next (put (!(s.rx o.s1).ult (s.rx o.s2))) ∧
      exec (.xcmpTst o) s = .next (put (s.rx o.s1 &&& s.rx o.s2 != 0))) ∧
    (VReady s [o.s1, o.s2] → s.vtagOf o.s1 = t → s.vtagOf o.s2 = t → (1 ≤ t ∧ t ≤ 4 ∨ 7 ≤ t ∧ t ≤ 12) →
      let bit := fun (k : VCond) i => s.active o.qp i && (cmpElem k t (s.el t o.s1 i) (s.el t o.s2 i)).1
      let ok := fun (i : Instr) (k : VCond) => ∃ (u : State) (c : PBits), exec i s = .next u ∧ (∀ i < elemsOf t, c.getLsbD i = bit k i) ∧
        u.me.r.p = (s.me.r.writePair o (elemsOf t) c).p ∧ u.me.r.pc = s.me.r.pc + 4 ∧
        (∀ j, u.rx j = s.rx j) ∧ u.me.r.v = s.me.r.v
      ok (.vcmpEq o) .eq ∧ ok (.vcmpNe o) .ne ∧ ok (.vcmpLt o) .lt ∧ ok (.vcmpLe o) .le ∧ (t ≤ 4 → ok (.vcmpUnord o) .unord))

/-- R127 to R130: conversions between native tags: `vcvt` and `vcvt.rz` between tags of one width, `vwiden` into a group of registers,
`vnarrow` from one, and `vtag` that retags the bits. -/
def Obligations.ConversionResults : Prop :=
  ∀ (s : State) (o : VCv) (t : Nat), 1 ≤ o.tag.val → o.tag.val ≤ 12 → o.tag.val ≠ 5 → o.tag.val ≠ 6 →
    1 ≤ t → t ≤ 12 → t ≠ 5 → t ≠ 6 → s.vtagOf o.vs1 = t →
    (VReady s [o.vs1, o.vd] → tagBits t = tagBits o.tag.val → DestReady s o.qp (elemsOf o.tag.val) o.tag.val o.vd →
      exec (.vcvt o) s = .next (retire (s.fpWrite (convVA o) o.tag.val fun i => cvtElem t o.tag.val s.vrm o.sat (s.el t o.vs1 i)) s) ∧
      exec (.vcvtRz o) s = .next (retire (s.fpWrite (convVA o) o.tag.val fun i => cvtElem t o.tag.val .rtz o.sat (s.el t o.vs1 i)) s)) ∧
    (∀ f, (widenSources o.tag.val).contains t = true → f = tagBits o.tag.val / tagBits t → o.vd.val % f = 0 →
      VReady s (o.vs1 :: groupNames o.vd f) → (∀ j ∈ groupNames o.vd f, DestReady s o.qp (elemsOf t) o.tag.val j) →
      ∃ u, exec (.vwiden o) s = .next u ∧ u.me.r.pc = s.me.r.pc + 4 ∧
        (∀ m < f, u.vtagOf (groupName o.vd m) = o.tag.val) ∧
        ∀ i < elemsOf t, s.active o.qp i = true → u.groupElem o.vd f o.tag.val i =
          (cvtElem t o.tag.val .rne false (s.el t o.vs1 i)).bits % 2 ^ tagBits o.tag.val) ∧
    (∀ f, (f = 2 ∨ f = 4) → tagBits t = f * tagBits o.tag.val → o.vs1.val % f = 0 →
      VReady s (o.vd :: groupNames o.vs1 f) → (∀ j ∈ groupNames o.vs1 f, s.vtagOf j = t) →
      DestReady s o.qp (elemsOf o.tag.val) o.tag.val o.vd →
      exec (.vnarrow o) s = .next (retire (s.fpWrite (convVA o) o.tag.val fun i =>
        cvtElem t o.tag.val s.vrm o.sat (s.groupElem o.vs1 f t i)) s)) ∧
    (VReady s [o.vs1, o.vd] → DestReady s o.qp (elemsOf o.tag.val) o.tag.val o.vd →
      exec (.vtag o) s = .next (retire (s.vwrite (convVA o) o.tag.val fun i => s.el o.tag.val o.vs1 i) s))

/-- R138 to R142: a reduction writes its result to element 0 under the result tag, whatever the predicate; integer sums wrap to 32 bits and
integer maxima and minima are those of the active elements; floating-point sums add along R68's tree, a maximum or minimum is the lowest
NaN quieted or else the extreme element, and of equal greatest elements the lowest index wins; `vscan` writes the running sums. -/
def Obligations.ReductionResults : Prop :=
  (∀ (s : State) (o : VA) (t : Nat), 7 ≤ t → t ≤ 12 → VReady s [o.vs1, o.vd] → s.vtagOf o.vs1 = t →
    let l := (s.actives o.qp (elemsOf t)).map fun i => intValue t (s.el t o.vs1 i)
    ((s.vtagOf o.vd = 0 ∨ s.vtagOf o.vd = 7) →
      (∃ u, exec (.vredsum o) s = .next u ∧ u.vtagOf o.vd = 7 ∧ u.el 7 o.vd 0 = intBits 32 l.sum ∧
        (∀ i, 1 ≤ i → i < 128 → u.el 7 o.vd i = s.el 7 o.vd i)) ∧
      (∃ u, exec (.vredargmax o) s = .next u ∧ u.vtagOf o.vd = 7 ∧ (l = [] → u.el 7 o.vd 0 = 2 ^ 32 - 1) ∧
        (l ≠ [] → s.active o.qp (u.el 7 o.vd 0) = true ∧ (∀ x ∈ l, x ≤ intValue t (s.el t o.vs1 (u.el 7 o.vd 0))) ∧
          ∀ i < u.el 7 o.vd 0, s.active o.qp i = true → intValue t (s.el t o.vs1 i) < intValue t (s.el t o.vs1 (u.el 7 o.vd 0))))) ∧
    ((s.vtagOf o.vd = 0 ∨ s.vtagOf o.vd = t) →
      (∃ u, exec (.vredmax o) s = .next u ∧ u.vtagOf o.vd = t ∧
        (l ≠ [] → intValue t (u.el t o.vd 0) ∈ l ∧ ∀ x ∈ l, x ≤ intValue t (u.el t o.vd 0)) ∧
        (l = [] → intValue t (u.el t o.vd 0) = intMin t)) ∧
      (∃ u, exec (.vredmin o) s = .next u ∧ u.vtagOf o.vd = t ∧
        (l ≠ [] → intValue t (u.el t o.vd 0) ∈ l ∧ ∀ x ∈ l, intValue t (u.el t o.vd 0) ≤ x) ∧
        (l = [] → intValue t (u.el t o.vd 0) = intMax t))) ∧
    (DestReady s o.qp (elemsOf t) t o.vd →
      ∃ u, exec (.vscan o) s = .next u ∧ u.vtagOf o.vd = t ∧
        (∀ i < elemsOf t, s.active o.qp i = true → u.el t o.vd i = wrapInt t
          (((s.actives o.qp (i + 1)).map fun j => intValue t (s.el t o.vs1 j)).sum)) ∧
        (∀ i < elemsOf t, s.active o.qp i = false → u.el t o.vd i = s.el t o.vd i))) ∧
  (∀ (s : State) (o : VA) (t : Nat), 1 ≤ t → t ≤ 4 → VReady s [o.vs1, o.vd] → s.vtagOf o.vs1 = t →
    let a := fun i => s.el t o.vs1 i
    let on := fun i => i < elemsOf t ∧ s.active o.qp i = true
    ((s.vtagOf o.vd = 0 ∨ s.vtagOf o.vd = 1) →
      ∃ (u : State) (node : Nat → Nat → Option Nat), exec (.vredsum o) s = .next u ∧ u.vtagOf o.vd = 1 ∧
        (∀ i, (on i → node 0 i = some (if t = 1 then a i else (cvtElem t 1 .rne false (a i)).bits)) ∧ (¬on i → node 0 i = none)) ∧
        (∀ k i, node (k + 1) i = match node k (2 * i), node k (2 * i + 1) with
          | some x, some y => some (fpAdd 1 s.vrm x y).bits
          | some x, none => some x
          | none, y => y) ∧
        u.el 1 o.vd 0 = ((node 10 0).getD 0) % 2 ^ 32 ∧ ∀ i, 1 ≤ i → i < 128 → u.el 1 o.vd i = s.el 1 o.vd i) ∧
    ((s.vtagOf o.vd = 0 ∨ s.vtagOf o.vd = 7) →
      ∃ u, exec (.vredargmax o) s = .next u ∧ u.vtagOf o.vd = 7 ∧ ((∀ i, ¬on i) → u.el 7 o.vd 0 = 2 ^ 32 - 1) ∧
        ∀ j, on j →
          ((isNan t (a j) = true ∧ ∀ i < j, on i → isNan t (a i) = false) ∨
            ((∀ i, on i → isNan t (a i) = false ∧ pickKey t (a i) ≤ pickKey t (a j)) ∧
              ∀ i < j, on i → pickKey t (a i) < pickKey t (a j))) →
          u.el 7 o.vd 0 = j) ∧
    (∀ big : Bool, (s.vtagOf o.vd = 0 ∨ s.vtagOf o.vd = t) →
      ∃ u, exec (if big then .vredmax o else .vredmin o) s = .next u ∧ u.vtagOf o.vd = t ∧
        ((∀ i, ¬on i) → u.el t o.vd 0 = (if t = 1 then 0x7F800000 else if t = 2 then 0x7F80 else if t = 3 then 0x7C00 else 0x7E) +
          if big then 2 ^ (tagBits t - 1) else 0) ∧
        (∀ j, on j → isNan t (a j) = true → (∀ i < j, on i → isNan t (a i) = false) → u.el t o.vd 0 = quietNan t (a j)) ∧
        (∀ j, on j → (∀ i, on i → isNan t (a i) = false) →
          (∀ i, on i → if big then pickKey t (a i) ≤ pickKey t (a j) else pickKey t (a j) ≤ pickKey t (a i)) → u.el t o.vd 0 = a j)) ∧
    (DestReady s o.qp (elemsOf t) t o.vd →
      ∃ u, exec (.vscan o) s = .next u ∧ u.vtagOf o.vd = t ∧
        (∀ i, on i → (∀ j < i, ¬on j) → u.el t o.vd i = a i) ∧
        (∀ i j, on i → on j → j < i → (∀ m, j < m → m < i → ¬on m) → u.el t o.vd i = (fpAdd t s.vrm (u.el t o.vd j) (a i)).bits) ∧
        (∀ i < elemsOf t, s.active o.qp i = false → u.el t o.vd i = s.el t o.vd i)))

/-- R116, R118, R113, R115: permutes and slides move whole elements: `vperm` takes the element that its index in the group names, or 0, `vcompress` packs the
active elements, `vexpand` spreads them, slides shift by xs1, and `viota` and `vsegid` write identifiers. -/
def Obligations.PermuteSlideAndIdentifierWords : Prop :=
  ∀ (s : State) (o : VA) (m : VM) (t : Nat), t ≤ 13 →
    (Ready1 s o t t →
      (∃ u, exec (.vcompress o) s = .next u ∧ u.vtagOf o.vd = t ∧ ∀ j (h : j < (s.actives o.qp (elemsOf t)).length),
        u.el t o.vd j = s.el t o.vs1 ((s.actives o.qp (elemsOf t))[j])) ∧
      (∃ u, exec (.vexpand o) s = .next u ∧ u.vtagOf o.vd = t ∧ ∀ j (h : j < (s.actives o.qp (elemsOf t)).length),
        u.el t o.vd ((s.actives o.qp (elemsOf t))[j]) = s.el t o.vs1 j)) ∧
    (∀ f, f = elemsOf t / 128 → tagBits t ≠ 4 → o.vs2.val % f = 0 → VReady s (o.vs1 :: o.vd :: groupNames o.vs2 f) → s.vtagOf o.vs1 = t →
      (∀ j ∈ groupNames o.vs2 f, s.vtagOf j = 7) → DestReady s o.qp (elemsOf t) t o.vd →
      exec (.vperm o) s = .next (retire (s.vwrite o t fun i =>
        if s.groupElem o.vs2 f 7 i < elemsOf t then s.el t o.vs1 (s.groupElem o.vs2 f 7 i) else 0) s)) ∧
    (XReady s [m.xs1] → VReady s [m.s2, m.vd] → s.vtagOf m.s2 = t → DestReady s m.qp (elemsOf t) t m.vd →
      (∃ u, exec (.vslideUp m) s = .next u ∧ u.vtagOf m.vd = t ∧ ∀ i < elemsOf t, u.el t m.vd i =
        if s.active m.qp i = true ∧ (s.rx m.xs1).toNat ≤ i then s.el t m.s2 (i - (s.rx m.xs1).toNat) else s.el t m.vd i) ∧
      (∃ u, exec (.vslideDown m) s = .next u ∧ u.vtagOf m.vd = t ∧ ∀ i < elemsOf t, u.el t m.vd i =
        if s.active m.qp i = true then (if i + (s.rx m.xs1).toNat < elemsOf t then s.el t m.s2 (i + (s.rx m.xs1).toNat) else 0)
        else s.el t m.vd i)) ∧
    (VReady s [m.vd] → s.vtagOf m.vd = t → 7 ≤ t → t ≤ 12 →
      ∃ u, exec (.viota m) s = .next u ∧ u.vtagOf m.vd = t ∧ ∀ i < elemsOf t, u.el t m.vd i =
        if s.active m.qp i = true then i % 2 ^ tagBits t else s.el t m.vd i) ∧
    (XReady s [m.xs1] → VReady s [m.s2, m.vd] → s.vtagOf m.s2 = 7 → s.vtagOf m.vd = t → 7 ≤ t → t ≤ 12 → (s.rx m.xs1).toNat ≤ 127 →
      ∃ u, exec (.vsegid m) s = .next u ∧ u.vtagOf m.vd = t ∧ ∀ i < elemsOf t, s.active m.qp i = true → u.el t m.vd i =
        wrapInt t (segmentOf ((List.range ((s.rx m.xs1).toNat + 1)).map fun j => sextN 32 (s.el 7 m.s2 j)) i)) ∧
    (XReady s [m.xs1, m.vd] → VReady s [m.s2] → s.vtagOf m.s2 = t → (s.rx m.xs1).toNat < elemsOf t →
      exec (.vmvX m) s = .next (retire (s.wx m.vd (if isSignedTag t then ofSigned (sextN (tagBits t) (s.el t m.s2 (s.rx m.xs1).toNat))
        else BitVec.ofNat 64 (s.el t m.s2 (s.rx m.xs1).toNat))) s)) ∧
    (XReady s [m.xs1] → VReady s [m.vd] → s.vtagOf m.vd = t →
      ∃ u, exec (.vmvS m) s = .next u ∧ u.vtagOf m.vd = t ∧ ∀ i < elemsOf t, u.el t m.vd i = (s.rx m.xs1).toNat % 2 ^ tagBits t)

/-- R103 to R108: unit-stride, strided, indexed and broadcast loads and stores in both modes: each active element at its own address, under
the register's tag, enters the queue; a gather marks its destination empty. -/
def Obligations.VectorAccessesEnterTheirQueues : Prop :=
  ∀ (s : State) (o : VM) (t : Nat) (va : Bool), t ≤ 13 → Room s 1 1 → s.inRegion = false → VReady s [o.vd, o.s2] → s.vtagOf o.vd = t →
    XReady s [o.xs1, o.s2] →
    let unit := fun data => vmElems s o.qp t (fun i => s.rx o.xs1 + BitVec.ofNat 64 (tagBits t * i / 8)) data
    let strided := fun data => vmElems s o.qp t (fun i => s.rx o.xs1 + BitVec.ofNat 64 i * s.rx o.s2) data
    let indexed := fun data => vmElems s o.qp t (fun i => s.rx o.xs1 +
      ofSigned ((elemBytes t : Nat) * sextN 32 (s.groupElem o.s2 (elemsOf t / 128) 7 i))) data
    let group := o.s2.val % (elemsOf t / 128) = 0 ∧ VReady s (groupNames o.s2 (elemsOf t / 128)) ∧
      ∀ j ∈ groupNames o.s2 (elemsOf t / 128), s.vtagOf j = 7
    let old := fun i => s.el t o.vd i
    let op := fun (marks : Bool) (bcast : Bool) => EntryOp.vload (s.vphys o.vd) t marks bcast (s.me.r.rp o.qp)
    ((va = false → InScratchpad s (unit fun _ => 0)) →
      exec (if va then .vldVa o else .vld o) s = .next (vectorAccess s va (op false false) (unit fun _ => 0))) ∧
    ((va = false → InScratchpad s (unit old)) →
      exec (if va then .vstVa o else .vst o) s = .next (vectorAccess s va .vstore (unit old))) ∧
    (tagBits t ≠ 4 → (va = false → InScratchpad s (strided fun _ => 0)) →
      exec (if va then .vldsVa o else .vlds o) s = .next (vectorAccess s va (op false false) (strided fun _ => 0))) ∧
    (tagBits t ≠ 4 → (va = false → InScratchpad s (strided old)) →
      exec (if va then .vstsVa o else .vsts o) s = .next (vectorAccess s va .vstore (strided old))) ∧
    (tagBits t ≠ 4 → group → (va = false → InScratchpad s (indexed fun _ => 0)) →
      exec (if va then .vldxVa o else .vldx o) s = .next (vectorAccess s va (op true false) (indexed fun _ => 0))) ∧
    (tagBits t ≠ 4 → group → (va = false → InScratchpad s (indexed old)) →
      exec (if va then .vstxVa o else .vstx o) s = .next (vectorAccess s va .vstore (indexed old))) ∧
    (tagBits t ≠ 4 → (va = false → InScratchpad s ((vmElems s o.qp t (fun _ => s.rx o.xs1) fun _ => 0).take 1)) →
      exec (if va then .vldBVa o else .vldB o) s =
        .next (vectorAccess s va (op false true) ((vmElems s o.qp t (fun _ => s.rx o.xs1) fun _ => 0).take 1)))

/-- R109 to R112: row reads and writes, parking, probes and appends: each that passes its checks enters its queue and
the word retires, or, an append in mode 1, waits for its owner; with no active element it accesses nothing. A row outside
the partition traps ACCESS. The value of a row's memory error, the records an append checks and what `vpark` does with no
active element are the model's readings (log entries 25, 65, 67). -/
def Obligations.RowProbeAndAppendWords : Prop :=
  ∀ (s : State) (o : VM) (t : Nat), Room s 1 1 → s.inRegion = false → VReady s [o.vd, o.s2] → XReady s [o.xs1] →
    s.vtagOf o.vd = t → t ≤ 13 →
    let row := fun (op : EntryOp) (off data : Nat) => retire (s.enter [] (({ op := op, elems := [({ n := 512, addr := BitVec.ofNat 64 off, data := data, loc := .win s.cur.1 off } : Elem)] } : Entry)) []) s
    let trap := fun (v : Word) => Host.Outcome.next (s.takeTrap s.cur.1 s.cur.2 causeAccess v)
    (∀ k r, (s.rx o.xs1).toNat = 128 * k + r → r < 128 → k < 8 →
      let off := 0x100000 + 0x10000 * k + 512 * r
      let cfg := s.myCore.tcfg[k % 8]'(Nat.mod_lt _ (by decide))
      (k < s.myCore.tiles → r < cfg.rows → cfg.tag = t →
        (s.actives o.qp (elemsOf t) ≠ [] → poisoned s (.win s.cur.1 off) 512 = false →
          exec (.vldRow o) s = .next (row (.rowRead (s.vphys o.vd) false (s.me.r.rp o.qp)) off 0) ∧
          exec (.vstRow o) s = .next (row (.rowWrite none (activeBits s o.qp t)) off (s.vget o.vd).toNat)) ∧
        (s.actives o.qp (elemsOf t) = [] → exec (.vstRow o) s = .next (retire s s))) ∧
      (s.myCore.tiles ≤ k → exec (.vldRow o) s = trap (BitVec.ofNat 64 (64 + k)) ∧
        exec (.vstRow o) s = trap (BitVec.ofNat 64 (64 + k))) ∧
      (k < s.myCore.tiles → cfg.rows ≤ r → exec (.vldRow o) s = trap (s.rx o.xs1) ∧ exec (.vstRow o) s = trap (s.rx o.xs1))) ∧
    (∀ off, off = parkOff (s.rx o.xs1).toNat → parkCheck s (s.rx o.xs1) = none →
      (s.actives o.qp (elemsOf t) = [] → exec (.vpark o) s = .next (retire s s)) ∧
      (s.actives o.qp (elemsOf t) ≠ [] → poisoned s (.win s.cur.1 off) 512 = false →
        exec (.vpark o) s = .next (row (.rowWrite (some t) (activeBits s o.qp t)) off (s.vget o.vd).toNat) ∧
        (rowTagSeen s s.cur.1 off true s.me.queue = t →
          exec (.vunpark o) s = .next (row (.rowRead (s.vphys o.vd) true (s.me.r.rp o.qp)) off 0)))) ∧
    (∀ base lg, (s.rx o.xs1).toNat = base + lg * 2 ^ 20 → base % 64 = 0 → base + 8 * 2 ^ lg ≤ 2 ^ 20 → 1 ≤ lg → lg ≤ 16 →
      s.vtagOf o.s2 = 7 → (t = 0 ∨ t = 7) → s.actives o.qp 128 ≠ [] → s.poison = [] →
      exec (.hprobe o) s = .next (retire (s.enter [] {
        op := .hprobe (s.vphys o.vd) base lg,
        elems := (s.actives o.qp 128).map fun i =>
          { idx := i, addr := BitVec.ofNat 64 base, n := 8 * 2 ^ lg, data := s.el 7 o.s2 i, loc := .win s.cur.1 base } } []) s)) ∧
    (s.vtagOf o.s2 = 7 → (t = 0 ∨ t = 1 ∨ t = 7) →
      (s.actives o.qp 128 = [] → exec (.binAdd o) s = .next (retire s s) ∧ exec (.binAddVa o) s = .next (retire s s)) ∧
      (s.actives o.qp 128 ≠ [] → exec (.binAddVa o) s = .next (waiting (s.await []
        { op := .binHdr (s.rx o.xs1) (appendPairs s o), va := true, elems := [issued (s.rx o.xs1) 64 0] } []) s)) ∧
      (∀ e recs, s.actives o.qp 128 ≠ [] → (s.rx o.xs1).toNat % 64 = 0 → (s.rx o.xs1).toNat + 64 ≤ 2 ^ 20 →
        spadWaits s (s.rx o.xs1).toNat 64 = none → poisoned s (.win s.cur.1 (s.rx o.xs1).toNat) 64 = false →
        planAppend s s.cur.1 s.me.asid false false (s.rx o.xs1) (ownSpad s (s.rx o.xs1).toNat 64) (appendPairs s o)
          s.me.queue [] = .go e recs →
        InScratchpad s recs →
        exec (.binAdd o) s = .next (retire (s.enter [] e []) s)))

/-- R103, R106, R107: an element of a vector load that performs writes its own bits of the destination and nothing else of it; a gather's
destination becomes full once every element has arrived; a vector store's element writes its bytes alone. -/
def Obligations.VectorElementsPerform : Prop :=
  (∀ (s : State) (g k : Nat) (e : Entry) (x : Elem) (vd : Fin 32) (t off : Nat) (c : PerformChoice),
    (s.seqAt g k).queue = [e] → e.elems = [x] → x.done = false → x.loc = .win g off → winOf off = some .spad → e.va = false →
    x.nib = 0 → x.n = elemBytes t → tagBits t ≠ 4 → t ≤ 13 → off + x.n ≤ 0x100000 → s.replaying g = false → s.poison = [] →
    canPerform s g k 0 0 = true → spillAt s g off x.n = false → s.Inv →
    (∀ mask, e.op = .vload vd t true false mask → x.idx < elemsOf t →
      ∃ u w, exec (.accessPerform g k 0 0 c) s = .next u ∧ u.mem = s.mem ∧
        getElem t (u.seqAt g k).r.v[vd] x.idx = memNat s.mem (winKey g off) x.n ∧
        (∀ i < elemsOf t, i ≠ x.idx → getElem t (u.seqAt g k).r.v[vd] i = getElem t (s.seqAt g k).r.v[vd] i) ∧
        exec (.vectorDestFull g k 0) u = .next w ∧ (w.seqAt g k).r.vfull[vd] = true ∧ (w.seqAt g k).queue = []) ∧
    (e.op = .vstore →
      ∃ u, exec (.accessPerform g k 0 0 c) s = .next u ∧ memBytes u.mem (winKey g off) x.n = leBytes x.n x.data ∧
        ∀ a, (a < winKey g off ∨ winKey g off + x.n ≤ a) → memGet u.mem a = memGet s.mem a)) ∧
  (∀ (s : State) (g k idx : Nat) (e : Entry) (vd : Fin 32) (t : Nat) (b : Bool) (mask : PBits), (s.seqAt g k).queue[idx]? = some e →
    e.performed = true → e.op = .vload vd t true b mask →
    ∃ u, exec (.vectorDestFull g k idx) s = .next u ∧ (u.seqAt g k).r = { (s.seqAt g k).r with vfull := vput (s.seqAt g k).r.vfull vd true } ∧
      (u.seqAt g k).queue = (settle false ((s.seqAt g k).queue.eraseIdx idx)).1 ∧ u.mem = s.mem)

/-! ### Frames of the instruction words -/

/-- What an instruction word leaves of the x registers: only its destination changes, if it has one; and of the other sequencers:
everything. -/
def Obligations.WordsKeepOtherXRegisters : Prop :=
  ∀ (s t : State) (i : Instr), IsWordOf i → exec i s = .next t →
    t.cur = s.cur ∧ (∀ j, xDest i ≠ some j → t.rx j = s.rx j) ∧ t.rx 0 = 0 ∧
      (NoSnapshot i s → ∀ g k, (g, k) ≠ s.cur → t.seqAt g k = s.seqAt g k)

/-- What an instruction word leaves of the f registers, fflags and frm: only the destination of a scalar F word, exceptions only ORed in by
the words that raise them, and frm only by a CSR access (R9, R120). -/
def Obligations.WordsKeepOtherFloatState : Prop :=
  ∀ (s t : State) (i : Instr), IsWordOf i → exec i s = .next t →
    (∀ j : XReg, fDest i ≠ some j → t.me.r.f[j] = s.me.r.f[j]) ∧ (isCsr i = false → t.me.r.frm = s.me.r.frm) ∧
      (isCsr i = false → raisesFlags i = false → t.me.r.fflags = s.me.r.fflags) ∧
      (raisesFlags i = true → t.me.r.fflags ||| s.me.r.fflags = t.me.r.fflags)

/-- What an instruction word leaves of the vector and predicate registers: only those it names as destinations change, in bytes and tag. -/
def Obligations.WordsKeepOtherVectorState : Prop :=
  ∀ (s t : State) (i : Instr), IsWordOf i → NoSnapshot i s → exec i s = .next t →
    (∀ p : Fin 32, (∀ j ∈ vDests i s, s.vphys j ≠ p) → t.me.r.v[p] = s.me.r.v[p] ∧ t.me.r.vtag[p] = s.me.r.vtag[p]) ∧
      (∀ p : Fin 16, (∀ j ∈ pDests i, rotP t.me.r.prb j ≠ p) → t.me.r.p[p] = s.me.r.p[p]) ∧ t.me.r.vctx = s.me.r.vctx

/-- What an instruction word leaves of the special registers: ttvec and tscratch change by a CSR access alone; tepc, tcause and tval also by
taking a trap, which sets act; loop levels, rotations, shapes, layouts, the allocator, fibres and streams only by their own
words. -/
def Obligations.WordsKeepOtherSpecialRegisters : Prop :=
  ∀ (s t : State) (i : Instr), IsWordOf i → exec i s = .next t →
    (isCsr i = false → t.me.r.ttvec = s.me.r.ttvec ∧ t.me.r.tscratch = s.me.r.tscratch ∧
      ((t.me.r.tepc = s.me.r.tepc ∧ t.me.r.tcause = s.me.r.tcause ∧ t.me.r.tval = s.me.r.tval) ∨
        (s.me.r.act = false ∧ t.me.r.act = true ∧ t.me.r.tepc = s.me.r.pc))) ∧
    (isLoop i = false → t.me.r.loops = s.me.r.loops ∧ (isCsr i = false → t.me.r.vrb = s.me.r.vrb ∧ t.me.r.prb = s.me.r.prb)) ∧
    ((∀ k x, i ≠ .shpWr k x) → t.me.r.sh = s.me.r.sh) ∧ ((∀ k x y, i ≠ .lyWr k x y) → t.me.r.ly = s.me.r.ly) ∧
    (isAlloc i = false → t.me.r.alloc = s.me.r.alloc) ∧ (isStream i = false → t.me.r.fb = s.me.r.fb ∧ t.me.r.sm = s.me.r.sm)

/-- No instruction word stores at its issue: a store changes memory when it performs. Every byte of memory reads as before. -/
def Obligations.WordsLeaveMemoryAtIssue : Prop :=
  ∀ (s t : State) (i : Instr), IsWordOf i → NoSnapshot i s → exec i s = .next t → ∀ a, memGet t.mem a = memGet s.mem a

/-! ### Windows, mailboxes and flags -/

/-- R87, R88, R232, R233, R241 to R243: a store that performs into a core's window posts a message, sets or clears a
token slot, writes a flag's half-record, accumulates into a scratchpad word, or writes bytes of a vector register
whose tag and full bit stay; a flag rises; and the oldest claim on a mailbox takes its oldest message once nothing
earlier in its sequencer's queue holds it, and an acquire stands in its place. Elements of a queued store stand at places aligned to
their size (R6). That setting a slot clears its error bit is the model's reading of two rules (log entry 61). -/
def Obligations.WindowEventsTakeEffect : Prop :=
  (∀ (s : State) (g k idx : Nat) (e : Entry) (x : Elem) (t off : Nat), StoresToWindow s g k idx e x t off →
    (winOf off = some .mbox → x.n = 8 →
      ∃ u, exec (.mailboxWindowStore g k idx) s = .next u ∧
        ∀ j : Fin 8, (u.core t).mbox[j] =
          if j.val = mailSlot off then ⟨(s.core t).mbox[j].msgs ++ [BitVec.ofNat 64 x.data], (s.core t).mbox[j].claims, (s.core t).mbox[j].bad⟩
          else (s.core t).mbox[j]) ∧
    (winOf off = some .tok → 1 ≤ x.n → off ≠ 0x1D9000 →
      ∃ u, exec (.tokenWindowStore g k idx) s = .next u ∧
        tabGet {} (u.cluster (clusterOfCore t)).tokens (off - 0x1D9000) = ⟨decide (x.data % 2 = 1), false⟩) ∧
    (winOf off = some .flag → x.n = 8 →
      ∃ u, exec (.readyFlagWrite g k idx 0) s = .next u ∧
        ((off - 0x1DA000) % 16 = 8 →
          (tabGet {} (u.core t).flags ((off - 0x1DA000) / 16)).arrived = x.data % 2 ^ 32 ∧
          (tabGet {} (u.core t).flags ((off - 0x1DA000) / 16)).ready = bitOf x.data 32) ∧
        ((off - 0x1DA000) % 16 ≠ 8 →
          (tabGet {} (u.core t).flags ((off - 0x1DA000) / 16)).base = x.data % 2 ^ 14 ∧
          (tabGet {} (u.core t).flags ((off - 0x1DA000) / 16)).len = bitsOf x.data 27 14 ∧
          (tabGet {} (u.core t).flags ((off - 0x1DA000) / 16)).expected = bitsOf x.data 63 32)) ∧
    (∀ fp : Bool, winOf off = some (if fp then .facc else .iacc) → x.n = 4 → off % x.n = 0 → s.Inv →
      spillAt s t (off % 2 ^ 20) 4 = false →
      ∃ u, exec (.accumulateOnWrite g k idx 0) s = .next u ∧
        memNat u.mem (winKey t (off % 2 ^ 20)) 4 =
          (if fp then (fpAdd 1 .rne (memNat s.mem (winKey t (off % 2 ^ 20)) 4) x.data).bits
           else memNat s.mem (winKey t (off % 2 ^ 20)) 4 + x.data) % 2 ^ 32) ∧
    (winOf off = some .vreg →
      ∃ u, exec (.vregWindowWrite g k idx 0) s = .next u ∧
        ∀ j : Fin 32, (u.seqAt t ((off - 0x1D0000) / 0x4000)).r.v[j] =
            (if j.val = (off - 0x1D0000) % 0x4000 / 0x200 then
              setRegBytes (s.seqAt t ((off - 0x1D0000) / 0x4000)).r.v[j] ((off - 0x1D0000) % 0x200) (leBytes x.n x.data)
             else (s.seqAt t ((off - 0x1D0000) / 0x4000)).r.v[j]) ∧
          (u.seqAt t ((off - 0x1D0000) / 0x4000)).r.vtag[j] = (s.seqAt t ((off - 0x1D0000) / 0x4000)).r.vtag[j] ∧
          (u.seqAt t ((off - 0x1D0000) / 0x4000)).r.vfull[j] = (s.seqAt t ((off - 0x1D0000) / 0x4000)).r.vfull[j])) ∧
  (∀ (s : State) (g flag : Nat) (env : RemoteEnv), (tabGet {} (s.core g).flags flag).pending = true →
    (tabGet {} (s.core g).flags flag).crossed = true → (s.core g).arms = [] →
    ∃ u, exec (.readyFlagRise g flag env) s = .next u ∧ (tabGet {} (u.core g).flags flag).ready = true ∧
      (tabGet {} (u.core g).flags flag).pending = false ∧ u.mem = s.mem) ∧
  (∀ (s : State) (g k : Nat) (i : Fin 8) (v : Word) (msgs : List Word) (claims : List Nat) (bad : List Nat) (rd : XReg) (e : Entry),
    s.replaying g = false → (s.core g).mbox[i] = ⟨v :: msgs, k :: claims, bad⟩ → bad.contains 0 = false →
    claimReady s g k i = true → ((s.seqAt g k).queue.find? fun y => y.claims i) = some e → e.op = .mboxRecv rd i →
    ∃ u, exec (.mboxClaimServed g i.val) s = .next u ∧ (u.seqAt g k).r = ((s.seqAt g k).r.wx rd v).markX rd true ∧
      (u.core g).mbox[i].msgs = msgs ∧ (u.core g).mbox[i].claims = claims ∧
      (u.seqAt g k).queue =
        (settle false ((s.seqAt g k).queue.map fun y => if y.claims i = true then { op := .marker .pod .acq } else y)).1)

/-! ### The life of a command -/

/-- R47, R91, R92, R143 to R147, R287: a publication adds its commands in order, each with the configuration of its
sequencer at issue; the engine fetches the word at the fetch point, or finds it malformed; a command that has executed
and awaits no acknowledgement leaves its queue with its status record and completion word written and its token set; and a remote signal sets its
token. The kind of a collective's standing in its queue is the model's choice (log entry 8). -/
def Obligations.CommandsArePublishedFetchedAndCompleted : Prop :=
  (∀ (s : State) (g k idx : Nat) (e : Entry) (q : Fin 16) (first n : Nat) (src : Option Nat) (sh : Vector Word32 32)
      (ly : Vector (BitVec 128) 16) (tc : Vector TileCfg 8), (s.seqAt g k).queue[idx]? = some e →
    e.op = .publish q first n src sh ly tc →
    canPerform s g k idx 0 = true → (∀ off, src = some off → poisoned s (.win g off) 32 = false) → ((s.core g).queue q.val).cmds.length + n + 1 ≤ ((s.core g).queue q.val).n →
    first = ((s.core g).queue q.val).comp + ((s.core g).queue q.val).cmds.length + 1 →
    ∃ u l, exec (.commandPublish g k idx) s = .next u ∧ ((u.core g).queue q.val).cmds = ((s.core g).queue q.val).cmds ++ l ∧
      l.map (·.num) = List.range' first n ∧
      (∀ c ∈ l, c.by_ = k ∧ c.sh = sh ∧ c.ly = ly ∧ c.tcfg = tc ∧ c.word = none ∧ c.fired = false) ∧
      (∀ off, src = some off → spillAt s g off 32 = false → s.Inv →
        memBytes u.mem (winKey g (slotOffset ((s.core g).queue q.val) ((s.core g).queue q.val).tail)) 32 =
          memBytes s.mem (winKey g off) 32) ∧
      (src = none → u.mem = s.mem)) ∧
  (∀ (s : State) (g q : Nat) (c : Cmd), headCmd ((s.core g).queue q) = some c → c.word = none → s.halted = false →
    poisoned s (.win g c.slot) 32 = false →
    ∃ u, exec (.commandFetch g q) s = .next u ∧ u.mem = s.mem ∧
      ((u.core g).queue q).cmds = ((s.core g).queue q).cmds.map fun d =>
        if d.num = c.num then
          (if malformed ((s.core g).queue q).kind c.byTail (spadNat s g c.slot 32) then
            { d with word := some (BitVec.ofNat 256 (spadNat s g c.slot 32)), fired := true, st := some ⟨stMalformed, 0, 0⟩ }
           else { d with word := some (BitVec.ofNat 256 (spadNat s g c.slot 32)), fired := false, st := none })
        else d) ∧
  (∀ (s : State) (g q : Nat) (c : Cmd) (rest : List Cmd) (st : Status) (w : BitVec 256), ((s.core g).queue q).cmds = c :: rest →
    c.st = some st → c.word = some w → s.owes g (q, c.num) = false → s.Inv →
    ∃ u, exec (.commandCompletion g q) s = .next u ∧ ((u.core g).queue q).cmds = rest ∧ ((u.core g).queue q).comp = c.num ∧
      (bitOf (cwStatus w.toNat) 31 = true →
        memBytes u.mem (winKey g (16 * bitsOf (cwStatus w.toNat) 15 0)) 16 = statusRecord c.num st) ∧
      (bitOf (cwStatus w.toNat) 31 = false → u.mem = s.mem) ∧
      (cwSignal w.toNat ≠ 0 → cwRsig w.toNat = false →
        tabGet {} (u.cluster (clusterOfCore g)).tokens (cwSignal w.toNat) = ⟨true, st.isError⟩)) ∧
  (∀ (s : State) (i cl slot : Nat) (err : Bool), s.remoteSignals[i]? = some (cl, slot, err) → slot ≠ 0 →
    ∃ u, exec (.remoteSignal i) s = .next u ∧ tabGet {} (u.cluster cl).tokens slot = ⟨true, err⟩ ∧
      u.remoteSignals = s.remoteSignals.eraseIdx i ∧ u.mem = s.mem)

/-- R143, R145, R146, R149, R150: every engine command that may fire completes UPSTREAM where it is to propagate an
error, with the status of the first of its checks that fails and nothing written, and otherwise with its effect, which
the state and its status show. It names mma, mma.bs, mma.seg, mma.grp, smma, acc.zero, acc.rd, acc.epi, copy, gather,
scatter.bin, bin.replay, halo, bcast, pat.load, pat.drop, coll.end, the rsel, samp and spec commands, the pda
commands, fence, chain.link and sig; a command that reads outside a re-executing core takes its recorded status instead (R327). R159,
R261, R262: an `smma` whose checks pass while its tile compiles fires and waits, and when the compilation is complete it runs the
program it waited for: that it waits by the compilation's stamp and that its queue holds the program is the model's reading (log entry
20). R164, R165, R187, R188, R191: the bytes that `copy` and `gather` write between places of the scratchpad, `samp.draw.gum` into its
row records, `spec.accept` into its record, and `pda.step` as its mask. That a command reads and writes in the step in which it fires,
and details of aux that its checks report, are the model's readings (log entries 7 and 10). -/
def Obligations.CommandsRunTheirEffect : Prop :=
  (∀ (s : State) (i : Instr) (r : CommandRow) (c : Cmd) (w : Nat), commandRow i s = some r → r.Fires s c w →
    (readsOutside c w = true → s.replaying r.g = false) →
    (r.upstream s w = true → ∃ t, exec i s = .next t ∧ t.mem = s.mem ∧
      t = (⟨r.base, ⟨stUpstream, 0, 0⟩, [], none⟩ : Fired).record r.g r.q c.num (r.use c w) (r.away c w)) ∧
    (r.upstream s w = false → ∀ x, firstFail (r.run c w).checks = some x →
      ∃ t, exec i s = .next t ∧ t = r.result c w ⟨r.base, x, [], none⟩ ∧ t.mem = s.mem) ∧
    (r.upstream s w = false → firstFail (r.run c w).checks = none →
      ∃ t, exec i s = .next t ∧ t = r.result c w (r.run c w).effect ∧ t.mem = (r.run c w).effect.s.mem ∧
        ((t.core r.g).queue r.q).cmds = (((r.run c w).effect.s.core r.g).queue r.q).cmds.map fun d =>
          if d.num = c.num then
            { d with fired := true, read := !(r.run c w).effect.st.notRun,
                     st := if (r.run c w).effect.held.isSome then none else some (r.run c w).effect.st, held := (r.run c w).effect.held,
                     clusters := (r.run c w).effect.clusters, remote := r.away c w || !(r.run c w).effect.clusters.isEmpty,
                     use := r.use c w }
          else d)) ∧
  (∀ (s : State) (g q : Nat) (env : RemoteEnv) (c : Cmd) (w born : Nat), waitingSmma ((s.core g).queue q) = none →
    mayFire s g q [0x04] (smmaUse s g q env) = some (c, w) → smmaWaits s g env c w = some born →
    ∃ t, exec (.smma g q env) s = .next t ∧ t.mem = s.mem ∧
      ((t.core g).queue q).cmds = ((s.core g).queue q).cmds.map fun d =>
        if d.num = c.num then { d with fired := true, patWait := some born, use := smmaUse s g q env } else d) ∧
  (∀ (s : State) (g q : Nat) (env : RemoteEnv) (c : Cmd) (l : List (List Nat)), s.halted = false →
    waitingSmma ((s.core g).queue q) = some c → c.program = some l →
    productPoison s g (if nnz l = 0 then .neither else useMNK c (c.word.getD 0).toNat) (mxZc (c.word.getD 0).toNat)
      (mmaRanges c (c.word.getD 0).toNat) = none →
    ∃ t, exec (.smma g q env) s = .next t ∧ t.mem = (smmaProduct s g c (c.word.getD 0).toNat (some l)).mem ∧
      ((t.core g).queue q).cmds = ((s.core g).queue q).cmds.map fun d =>
        if d.num = c.num then { d with read := true, st := some stOk, patWait := none, program := none } else d) ∧
  (∀ (s : State) (g q : Nat) (env : RemoteEnv) (r : CommandRow) (c : Cmd) (w : Nat), s.Inv → PlainReads s g →
    commandRow (.copy g q env) s = some r → r.Runs s c w → bitsOf w 255 224 = 0 →
    (layOf c (bitsOf w 195 192)).win = 0 → (layOf c (bitsOf w 199 196)).win = 0 →
    let from_ := Lay.soundPlaces s g (layOf c (bitsOf w 195 192))
    let dest := Lay.soundPlaces s g (layOf c (bitsOf w 199 196))
    (∀ p ∈ from_, p.nib = 0) → ApartInSpad dest →
    from_.length = dest.length ∧ ∃ u, exec (.copy g q env) s = .next u ∧
      (∀ k (h : k < from_.length) (h' : k < dest.length),
        memBytes u.mem (winKey g dest[k].addr.toNat) dest[k].n = memBytes s.mem (winKey g from_[k].addr.toNat) dest[k].n) ∧
      ∀ a, (∀ p ∈ dest, a < winKey g p.addr.toNat ∨ winKey g p.addr.toNat + p.n ≤ a) → memGet u.mem a = memGet s.mem a) ∧
  (∀ (s : State) (g q : Nat) (env : RemoteEnv) (r : CommandRow) (c : Cmd) (w : Nat), s.Inv → PlainReads s g →
    commandRow (.gather g q env) s = some r → r.Runs s c w →
    (layOf c (bitsOf w 195 192)).win = 0 → (layOf c (bitsOf w 199 196)).win = 0 →
    let tab := layOf c (bitsOf w 195 192)
    let dest := Lay.soundPlaces s g (layOf c (bitsOf w 199 196))
    let idx := fun m => sextN 32 (memNat s.mem (winKey g (64 * bitsOf w 218 205 + 4 * m)) 4)
    (∀ i, ∀ p ∈ tab.rowPlaces i, p.nib = 0) → ApartInSpad dest →
    ∃ u, exec (.gather g q env) s = .next u ∧
      (∀ m e (h : m * tab.e 0 + e < dest.length), e < tab.e 0 →
        (∀ (i : Nat) (hi : e < (tab.rowPlaces i).length), idx m = i → i < tab.e 1 →
          memNat u.mem (winKey g dest[m * tab.e 0 + e].addr.toNat) dest[m * tab.e 0 + e].n =
            memNat s.mem (winKey g (tab.rowPlaces i)[e].addr.toNat) dest[m * tab.e 0 + e].n) ∧
        (idx m < 0 ∨ tab.e 1 ≤ idx m → memNat u.mem (winKey g dest[m * tab.e 0 + e].addr.toNat) dest[m * tab.e 0 + e].n = 0)) ∧
      ∀ a, (∀ p ∈ dest, a < winKey g p.addr.toNat ∨ winKey g p.addr.toNat + p.n ≤ a) → memGet u.mem a = memGet s.mem a) ∧
  (∀ (s : State) (g q : Nat) (r : CommandRow) (c : Cmd) (w : Nat), s.Inv → PlainReads s g →
    commandRow (.sampDrawGum g q) s = some r → r.Runs s c w →
    ∃ u, exec (.sampDrawGum g q) s = .next u ∧
      (∀ i < smM c w, memNat u.mem (winKey g (smSrec w + 64 * i + 60)) 4 = memNat s.mem (winKey g (smErow w + 32 * i + 28)) 4) ∧
      ∀ a, (∀ i < smM c w, a < winKey g (smSrec w + 64 * i + 41) ∨ winKey g (smSrec w + 64 * i + 64) ≤ a) →
        memGet u.mem a = memGet s.mem a) ∧
  (∀ (s : State) (g q : Nat) (env : RemoteEnv) (r : CommandRow) (c : Cmd) (w : Nat), s.Inv → PlainReads s g →
    commandRow (.specAccept g q env) s = some r → r.Runs s c w →
    (layOf c (bitsOf w 195 192)).win ≠ 3 → (layOf c (bitsOf w 199 196)).win ≠ 3 →
    ∃ u n t, exec (.specAccept g q env) s = .next u ∧ n ≤ smM c w ∧
      memNat u.mem (winKey g (smSrec w + 64)) 4 = n ∧ memNat u.mem (winKey g (smSrec w + 68 + 4 * n)) 4 = t % 2 ^ 32 ∧
      (∀ i < n, memNat u.mem (winKey g (smSrec w + 68 + 4 * i)) 4 = memNat s.mem (winKey g (smSrec w + 4 * i)) 4) ∧
      (∀ i, n < i → i ≤ 8 → memNat u.mem (winKey g (smSrec w + 68 + 4 * i)) 4 = 2 ^ 32 - 1) ∧
      ∀ a, (a < winKey g (smSrec w + 64) ∨ winKey g (smSrec w + 128) ≤ a) → memGet u.mem a = memGet s.mem a) ∧
  (∀ (s : State) (g q : Nat) (env rest : RemoteEnv) (r : CommandRow) (c : Cmd) (w : Nat) (x : Grammar) (t : Tables), s.Inv →
    s.upset = false → s.replaying g = false → commandRow (.pdaStep g q env) s = some r → r.Runs s c w → ctxOf s g w = some x →
    readHeader s g c.asid env x.tab = .ok (t, rest) →
    let s' := (s.noteUnits g c.asid 3 .engRead [tablePlace x.tab 64]).setCtx g (gmCtx w) (x.setBranch (gmBr w) ((x.branch (gmBr w)).judged t))
    (((x.branch (gmBr w)).judged t).status = 2 →
      ∃ u, exec (.pdaStep g q env) s = .next u ∧ memBytes u.mem (winKey g (gmOff w)) (maskBytes (shpVal c.sh (bitsOf w 223 219))) =
        List.replicate (maskBytes (shpVal c.sh (bitsOf w 223 219))) 0) ∧
    (∀ l, ((x.branch (gmBr w)).judged t).status ≠ 2 →
      maskLines s' g c.asid rest (t.msk + ((x.branch (gmBr w)).judged t).row t * maskBytes t.vt)
        ((shpVal c.sh (bitsOf w 223 219) + 511) / 512) = .ok l →
      ∃ u, exec (.pdaStep g q env) s = .next u ∧ memBytes u.mem (winKey g (gmOff w)) (maskBytes (shpVal c.sh (bitsOf w 223 219))) =
        cutMask (shpVal c.sh (bitsOf w 223 219)) l))

/-- R66, R67, R154, R156, R160, with the layout of R57: `mma` and `mma.bs` write the M × N elements of their accumulator, each the sum their
rule gives, and no other byte; `acc.zero` clears every element, sets the tag that its word names and clears the saturation
bit. R161, R163: `acc.rd` writes the converted elements of an accumulator into a tile or rows of the scratchpad, and `acc.epi` the row
records' sums and, where it is to, the scaled elements. That the bytes are written in the step in which the command fires is the model's
reading (log entry 7). -/
def Obligations.MatrixCommandsWriteTheirAccumulator : Prop :=
  (∀ (s : State) (g q : Nat) (c : Cmd) (w : Nat), s.Inv → s.upset = false → mxM c w ≤ 128 → mxN c w ≤ 128 →
    (mxK c w ≠ 0 ∨ mxZc w = true) →
    (∀ r, commandRow (.mma g q) s = some r → r.Fires s c w → r.upstream s w = false → firstFail (r.run c w).checks = none →
      ∃ u, exec (.mma g q) s = .next u ∧
        (∀ i < mxM c w, ∀ j < mxN c w, memBytes u.mem (winKey g (0x180000 + accOff (mxAcc w) i j)) 5 =
          leBytes 5 (mmaElement s g (mxTa w) (mxTb w) ((s.core g).tile (mxTa w)).tag i j (mxK c w) (mxMode w)
            (oldAcc s g (mxAcc w) i j (mxZc w))).bits) ∧
        (∀ a, (∀ i < mxM c w, a < winKey g (0x180000 + accOff (mxAcc w) i 0) ∨
          winKey g (0x180000 + accOff (mxAcc w) i 0) + 5 * mxN c w ≤ a) → memGet u.mem a = memGet s.mem a)) ∧
    (∀ r, commandRow (.mmaBs g q) s = some r → r.Fires s c w → r.upstream s w = false → firstFail (r.run c w).checks = none →
      ∃ u, exec (.mmaBs g q) s = .next u ∧
        (∀ i < mxM c w, ∀ j < mxN c w, memBytes u.mem (winKey g (0x180000 + accOff (mxAcc w) i j)) 5 =
          leBytes 5 (mmaBsElement s g (mxTa w) (mxTb w) (mxTs w) i j (mxK c w) (mxMode w)
            (oldAcc s g (mxAcc w) i j (mxZc w))).bits) ∧
        (∀ a, (∀ i < mxM c w, a < winKey g (0x180000 + accOff (mxAcc w) i 0) ∨
          winKey g (0x180000 + accOff (mxAcc w) i 0) + 5 * mxN c w ≤ a) → memGet u.mem a = memGet s.mem a)) ∧
    (∀ r, commandRow (.accZero g q) s = some r → r.Fires s c w → r.upstream s w = false → firstFail (r.run c w).checks = none →
      ∃ u, exec (.accZero g q) s = .next u ∧
        memBytes u.mem (winKey g (0x180000 + 0x14000 * mxAcc w)) 81920 = List.replicate 81920 0 ∧
        (∀ a, (a < winKey g (0x180000 + 0x14000 * mxAcc w) ∨ winKey g (0x180000 + 0x14000 * mxAcc w) + 81920 ≤ a) →
          memGet u.mem a = memGet s.mem a) ∧
        ((u.core g).accu (mxAcc w)).tag = (if bitOf w 58 then 7 else 14) ∧ ((u.core g).accu (mxAcc w)).sat = false)) ∧
  (∀ (s : State) (g q : Nat) (r : CommandRow) (c : Cmd) (w : Nat), s.Inv → PlainReads s g → mxM c w ≠ 0 → mxN c w ≠ 0 →
    commandRow (.accRd g q) s = some r → r.Runs s c w →
    let tag := bitsOf w 218 215
    let width := tagBits tag / 8
    let row := fun i => if bitOf w 59 then 64 * bitsOf w 232 219 + i * roundUp (mxN c w * width) 64 else 0x100000 + 0x10000 * mxTb w + 512 * i
    ∃ u, exec (.accRd g q) s = .next u ∧
      (∀ i < mxM c w, ∀ j < mxN c w, memBytes u.mem (winKey g (row i + j * width)) width =
        leBytes width (accConvert ((s.core g).accu (mxAcc w)).tag tag (bitOf w 58)
          (memNat s.mem (winKey g (0x180000 + accOff (mxAcc w) i j)) 5)).1) ∧
      ∀ a, (∀ i < mxM c w, a < winKey g (row i) ∨ winKey g (row i) + mxN c w * width ≤ a) → memGet u.mem a = memGet s.mem a) ∧
  (∀ (s : State) (g q : Nat) (r : CommandRow) (c : Cmd) (w : Nat) (b : EpiBlock), s.Inv → PlainReads s g →
    commandRow (.accEpi g q) s = some r → r.Runs s c w → b = epiBlock (memNat s.mem (winKey g (64 * bitsOf w 228 215)) 64) →
    let width := tagBits b.dtag / 8
    let pitch := roundUp (mxN c w * width) 64
    let y := fun i j => epiValue b (memNat s.mem (winKey g (0x180000 + accOff (mxAcc w) i j)) 5) (epiBias s g b j)
    (bitOf w 60 = true → b.rows + 32 * mxM c w ≤ b.dst ∨ b.dst + mxM c w * pitch ≤ b.rows) →
    ∃ u, exec (.accEpi g q) s = .next u ∧
      (∀ i < mxM c w, memBytes u.mem (winKey g (b.rows + 32 * i + 16)) 16 =
        (epiRow b (mxK c w) (bitOf w 58) (bitOf w 59) ((List.range (mxN c w)).map (y i)) (rowRec s g b.rows i)).bytes) ∧
      (bitOf w 60 = true → ∀ i < mxM c w, ∀ j < mxN c w, memBytes u.mem (winKey g (b.dst + i * pitch + j * width)) width =
        leBytes width (engCvt 1 b.dtag b.dsat (y i j))) ∧
      ∀ a, (∀ i < mxM c w, a < winKey g (b.rows + 32 * i + 16) ∨ winKey g (b.rows + 32 * i + 32) ≤ a) →
        (bitOf w 60 = true → ∀ i < mxM c w, a < winKey g (b.dst + i * pitch) ∨ winKey g (b.dst + i * pitch) + mxN c w * width ≤ a) →
        memGet u.mem a = memGet s.mem a)

/-! ### Collectives and tile tables -/

/-- R174 to R178, R278, R286: a set-up that fires is published at this member; the match of every member's set-up, an
agreed set of edges and room in the Clearing bring it to its completion; and the match of every member's operation
divides it into chunks over the trees. The form in which other members' parts arrive is the model's choice (log
entries 8 and 33). -/
def Obligations.CollectivesAreSetUpAndMatched : Prop :=
  (∀ (s : State) (g q : Nat) (c : Cmd) (w : Nat), mayFire s g q [0x60] .neither = some (c, w) →
    (cwEprop w && tokensError (s.cluster (clusterOfCore g)) w) = false → setupCheck s w = none →
    ∃ t, exec (.collSetup g q) s = .next t ∧ t.mem = s.mem ∧
      findColl t (clId w) = some { g := g, q := q, num := c.num, base := clBase w, lg := clLg w, tmax := clTmax w, cs := clCs w } ∧
      ((t.core g).queue q).cmds = ((s.core g).queue q).cmds.map fun d => if d.num = c.num then { d with fired := true } else d) ∧
  (∀ (s : State) (g q id : Nat) (c : Coll) (ps : List PeerCommand), collOpAt s g q = none →
    (s.colls.find? fun e => e.2.g == g && e.2.q == q && e.2.stage == .published) = some (id, c) → endedStatus c ps = none →
    coversGroup s c ps = true → ps.all (setupAgrees id c) = true →
    ∃ t, exec (.collectiveMatch g q ps) s = .next t ∧ findColl t id = some { c with stage := .matched } ∧ t.mem = s.mem) ∧
  (∀ (s : State) (id : Nat) (c : Coll) (es : EpochEdges), findColl s id = some c → edgesAgree s c es.links = true →
    (es.epoch < c.epoch → exec (.linkAgreement id es) s = .next s) ∧
    (c.epoch ≤ es.epoch → c.stage = .matched → deriveTrees c.members c.tmax es.links ≠ [] →
      ∃ t, exec (.linkAgreement id es) s = .next t ∧ t.mem = s.mem ∧
        findColl t id = some { c with stage := .agreed, fresh := true, epoch := es.epoch, edges := es.links,
                                      trees := deriveTrees c.members c.tmax es.links,
                                      most := (deriveTrees c.members c.tmax es.links).length }) ∧
    (c.epoch ≤ es.epoch → c.stage = .ready → (c.fresh = false ∨ c.epoch < es.epoch) →
      ∃ t, exec (.linkAgreement id es) s = .next t ∧ t.mem = s.mem ∧
        findColl t id = some { c with fresh := true, epoch := es.epoch, edges := es.links,
                                      trees := deriveTrees c.members c.most es.links, slots := [],
                                      op := c.op.map fun o =>
                                        o.restripe (deriveTrees c.members c.most es.links).length (reducedAtRoot s) })) ∧
  (∀ (s : State) (g q id : Nat) (c : Coll),
    (s.colls.find? fun e => e.2.g == g && e.2.q == q && e.2.stage == .agreed) = some (id, c) → c.fresh = true →
    (∀ m < c.members, reserveUnits c.trees c.cs m ≤ clearingUnits) →
    (s.colls.map fun e => e.2.reserved).sum / 64 + reserveUnits c.trees c.cs (Coll.me s c) ≤ clearingUnits →
    (s.colls.any fun e => e.1 < id && e.2.stage == .agreed) = false →
    ∃ t, exec (.clearingReservation g q true) s = .next t ∧
      findColl t id = some { c with stage := .ready, reserved := 64 * reserveUnits c.trees c.cs (Coll.me s c) } ∧
      ((t.core c.g).queue c.q).cmds = ((s.core c.g).queue c.q).cmds.map fun d => if d.num = c.num then { d with st := some stOk } else d) ∧
  (∀ (s : State) (g q id : Nat) (c : Coll) (o : CollOp) (cmd : Cmd) (ps : List PeerCommand), collOpAt s g q = some (id, c, o) →
    cmdAt s o.g o.q o.num = some cmd → o.matched = false → endedStatus c ps = none → coversGroup s c ps = true →
    (∀ p ∈ ps, 0x61 ≤ p.opcode ∧ p.opcode ≤ 0x64 ∧ opAgrees cmd (cmd.word.getD 0).toNat id p = true) →
    0 < chunkCount (cwOpcode (cmd.word.getD 0).toNat) (clN cmd (cmd.word.getD 0).toNat) c.members c.cs
      (layOf cmd (mvFrom (cmd.word.getD 0).toNat)) →
    ∃ t, exec (.collectiveMatch g q ps) s = .next t ∧ t.mem = s.mem ∧
      findColl t id = some { c with op := some { o with
        matched := true,
        chunks := (List.range (chunkCount (cwOpcode (cmd.word.getD 0).toNat) (clN cmd (cmd.word.getD 0).toNat) c.members c.cs
          (layOf cmd (mvFrom (cmd.word.getD 0).toNat)))).map fun (i : Nat) => ({ tree := i % max 1 c.trees.length } : Chunk) } })

/-- R173, R175, R177, R270, R272, R281, R282, R285: an operation that passes its checks is in flight on its
identifier; the values of a chunk's children take their slots, and once all are in they become this member's node value and, at the root,
its result; a chunk's result is written to its places of the destination, at once or element by element, as a free value has it; and
the last chunk gives the command its status. The form in which other members' parts arrive is the model's choice (log entries 8 and
33), and so is the number of elements written at one time (log entry 7). -/
def Obligations.CollectiveOperationsMoveChunks : Prop :=
  (∀ (s : State) (g q op : Nat) (c : Cmd) (w : Nat) (x : Coll) (i : Instr),
    (op = 0x61 ∧ i = .collLdred g q ∨ op = 0x62 ∧ i = .collRs g q ∨ op = 0x63 ∧ i = .collAg g q ∨ op = 0x64 ∧ i = .collA2a g q) →
    mayFire s g q [op] .neither = some (c, w) → (cwEprop w && tokensError (s.cluster (clusterOfCore g)) w) = false →
    findColl s (clId w) = some x → x.op = none → Coll.absent s x = none → collCheck s g c w = none →
    ∃ t, exec i s = .next t ∧ t.mem = s.mem ∧
      findColl t (clId w) = some { x with op := some {
        g := g, q := q, num := c.num,
        chunks := newChunks x (chunkCount op (clN c w) x.members x.cs (layOf c (mvFrom w))) } } ∧
      ((t.core g).queue q).cmds = ((s.core g).queue q).cmds.map fun d =>
        if d.num = c.num then { d with fired := true, side := heldSides s g c w } else d) ∧
  (∀ (s u : State) (g q id i w n : Nat) (x : Coll) (o : CollOp) (cmd : Cmd) (k k1 : Chunk) (kids slots : List (List (BitVec 32)))
      (env : RemoteEnv) (red two : Bool) (nodes : List (BitVec 32 × Bool)) (val : List (BitVec 32)),
    collOpAt s g q = some (id, x, o) → cmdAt s g q o.num = some cmd → w = (cmd.word.getD 0).toNat → o.matched = true →
    x.fresh = true → x.trees ≠ [] → o.chunks[i]? = some k → k.st = 0 →
    x.inTurn o i k.tree (if Coll.me s x = 0 then 3 else 1) = true →
    red = decide (cwOpcode w = 0x61 ∨ cwOpcode w = 0x62) → two = x.twoSlots (Coll.me s x) k.tree →
    n = (chunkIdx (cwOpcode w) (clN cmd w) x.members x.cs (layOf cmd (mvFrom w)) i).length →
    kidsFit (x.tree k.tree) x.members (Coll.me s x) n k.got red kids = true →
    k.arriveAll two red (clOp w) (if k.got = 0 then [] else tabGet [] x.slots (x.treeOf k.tree)) kids = (k1, slots) →
    (k1.got < (childrenOf (x.tree k.tree) (Coll.me s x)).length →
      exec (.chunkSweep g q i kids env) s = .next (s.setColl id (x.arrived o i k.tree k1 slots))) ∧
    ((childrenOf (x.tree k.tree) (Coll.me s x)).length ≤ k1.got → (ownChunk s o.g cmd w x env i).stop = none →
      u = s.noteUnits o.g cmd.asid (layOf cmd (mvFrom w)).win .engRead (ownPlacesOf s o.g cmd w x i) →
      nodes = sweptValue two red (Coll.me s x == 0) (clOp w) slots (ownChunk s o.g cmd w x env i).data →
      val = (if red = false ∧ Coll.me s x = 0 then memberOrder (x.tree k.tree) x.members n (nodes.map (·.1)) else nodes.map (·.1)) →
      (two = false → k.got = 0 → red = true → nodes =
        (nodeValue (clOp w) (Coll.me s x == 0) kids (ownChunk s o.g cmd w x env i).data).map fun v => (BitVec.ofNat 32 v.1, v.2)) ∧
      ∃ t, exec (.chunkSweep g q i kids env) s = .next t ∧ t.mem = u.mem ∧
        findColl t id = some (x.arrived o i k.tree
          { k1 with st := if Coll.me s x = 0 then 2 else 1, ovf := k1.ovf || nodes.any (·.2), val := val }
          (sweptSlots two slots ((ownChunk s o.g cmd w x env i).data.map (BitVec.ofNat 32 ·)) val)) ∧
        (∀ p, parentOf (x.tree k.tree) (Coll.me s x) = some p → t.outbox = u.outbox ++
          [⟨x.base + p, 0, BitVec.ofNat 64 (id * 2 ^ 32 + i), .coll, wireBytes (wireBits cmd w) val⟩]))) ∧
  (∀ (s : State) (g q id i w : Nat) (x : Coll) (o o' : CollOp) (cmd : Cmd) (k : Chunk) (result res : List (BitVec 32))
      (ovf : Bool) (env : RemoteEnv) (r : WriteResult) (idx : List Nat) (x' : Coll) (l : List (Place × Nat)) (m : Nat) (parts : Bool),
    collOpAt s g q = some (id, x, o) → cmdAt s g q o.num = some cmd → w = (cmd.word.getD 0).toNat → o.matched = true →
    x.fresh = true → o.chunks[i]? = some k → k.st ≠ 3 → k.st ≠ 0 → k.held = [] → (Coll.me s x = 0 → k.st = 2) →
    res = (if Coll.me s x = 0 then k.val else result) →
    x.inTurn o i k.tree 3 = true → idx = chunkIdx (cwOpcode w) (clN cmd w) x.members x.cs (layOf cmd (mvFrom w)) i →
    res.length = (if cwOpcode w = 0x61 ∨ cwOpcode w = 0x62 then idx.length else x.members * idx.length) →
    l = chunkWrites s o.g cmd w (destIdx (cwOpcode w) (clN cmd w) x.members (Coll.me s x) idx)
      (resultElems (cwOpcode w) (clN cmd w) x.members (Coll.me s x) idx (res.map (·.toNat))) →
    r = writePlaces s o.g cmd.by_ cmd.asid (layOf cmd (mvTo w)).win env l → r.stop = none →
    m = cutRuns (layOf cmd (mvTo w)).tag (Config.chunkPart s.free + 1) r.locs →
    parts = (r.piecewise (l.map (·.1)) && decide (m < r.locs.length)) →
    o' = { o.setChunk i { st := 3, tree := k.tree, ovf := k.ovf || ovf } with missed := o.missed + r.missed } →
    x' = { x with op := some o', slots := if Coll.me s x = 0 then tabDel x.slots (x.treeOf k.tree) else x.slots } →
    ∃ t, exec (.chunkDistribute g q i result ovf k.tree env) s = .next t ∧
      (parts = true → t.mem = ((writeRuns { s with free := s.free + 1 } o.g cmd.by_ (r.locs.take m)).noteUnits
        o.g cmd.asid (layOf cmd (mvTo w)).win .engWrite (l.map (·.1))).mem ∧
        findColl t id = some { x with op := some (o.setChunk i
          { k with st := 2, ovf := k.ovf || ovf, val := res, held := r.locs.drop m }) }) ∧
      (parts = false → (o'.chunks.all fun y => y.st == 3) = false → t.mem = r.s.mem ∧ findColl t id = some x') ∧
      (parts = false → (o'.chunks.all fun y => y.st == 3) = true → cmdAt r.s o.g o.q o.num = some cmd →
        findColl t id = some { x with op := none, slots := [] } ∧
        ∃ d, cmdAt t o.g o.q o.num = some d ∧ d.st = some (collStatus o'))) ∧
  (∀ (s u : State) (g q id i m : Nat) (x x' : Coll) (o o' : CollOp) (cmd : Cmd) (k : Chunk),
    collOpAt s g q = some (id, x, o) → cmdAt s g q o.num = some cmd → x.fresh = true →
    (o.chunks.findIdx? fun y => !y.held.isEmpty) = some i → o.chunks[i]? = some k →
    m = cutRuns (layOf cmd (mvTo (cmd.word.getD 0).toNat)).tag (Config.chunkPart s.free + 1) k.held →
    u = writeRuns { s with free := s.free + 1 } g cmd.by_ (k.held.take m) →
    o' = o.setChunk i { st := 3, tree := k.tree, ovf := k.ovf } →
    x' = { x with op := some o', slots := if Coll.me s x = 0 then tabDel x.slots (x.treeOf k.tree) else x.slots } →
    (m < k.held.length → (landChunk g q s).mem = u.mem ∧
      findColl (landChunk g q s) id = some { x with op := some (o.setChunk i { k with held := k.held.drop m }) }) ∧
    (k.held.length ≤ m → (o'.chunks.all fun y => y.st == 3) = false →
      (landChunk g q s).mem = u.mem ∧ findColl (landChunk g q s) id = some x') ∧
    (k.held.length ≤ m → (o'.chunks.all fun y => y.st == 3) = true → cmdAt u o.g o.q o.num = some cmd →
      findColl (landChunk g q s) id = some { x with op := none, slots := [] } ∧
      ∃ d, cmdAt (landChunk g q s) o.g o.q o.num = some d ∧ d.st = some (collStatus o')))

/-- R181, R241 to R243, R258: `ttab.arm` leaves the entries armed whose flags are not ready; when a flag rises its
entries fire, each with its write and its token; and a tile's compilation ends. Where a token of an entry goes is the
model's reading (log entry 34). -/
def Obligations.TileTablesArmAndFire : Prop :=
  (∀ (s : State) (g q : Nat) (c : Cmd) (w : Nat) (env : RemoteEnv), mayFire s g q [0x68] .neither = some (c, w) →
    (cwEprop w && tokensError (s.cluster (clusterOfCore g)) w) = false → ttabCheck s g w = none →
    (∀ i < bitsOf w 205 192, (tabGet {} (s.core g).flags (ttabOf (ttabBits s g (64 * bitsOf w 219 206) i)).flag).ready = false) →
    ∃ t, exec (.ttabArm g q env) s = .next t ∧ t.mem = s.mem ∧
      (t.core g).arms = (s.core g).arms ++
        [⟨q, c.num, c.by_, c.asid, (List.range (bitsOf w 205 192)).map fun i => ttabOf (ttabBits s g (64 * bitsOf w 219 206) i), 0, 0, 0⟩]) ∧
  (∀ (s : State) (g flag : Nat) (env : RemoteEnv) (a : TtabArm) (x : TtabEntry),
    (tabGet {} (s.core g).flags flag).pending = true → (s.core g).arms = [a] → a.left = [x] → x.flag = flag →
    ∃ t, exec (.readyFlagRise g flag env) s = .next t ∧ (t.core g).arms = [] ∧
      t.mem = (fireEntry g env
        (s.modCore g fun c =>
          { c with flags := tabPut c.flags flag (tabGet {} (s.core g).flags flag).risen },
         { a with left := [] }) x).1.mem) ∧
  (∀ (s : State) (cl i : Nat) (t : CopTile), (s.cluster cl).coppice[i]? = some t →
    ∃ u, exec (.compilationComplete cl i) s = .next u ∧ (u.cluster cl).coppice[i]? = some { t with compiling := false } ∧
      u.mem = s.mem)

/-! ### The array's lease, the Ride and arrival handlers -/

/-- R21, R225 to R227, R244: a lease goes to the next waiting sequencer, and ends when it is given up or when its term
is over while others wait; a Ride token that stands at a cluster's stop is taken when an array command waits for it,
and is freed at the end of the work or of its hold; and the oldest arrival starts its handler in a dormant sequencer.
A holder that a pre-emption has stopped gives it up. How a term's cycles are counted, when a stopped holder's work is done, and how a free
token moves are the model's readings (log entries 30, 31 and 75). -/
def Obligations.LeaseRideAndHandlersRun : Prop :=
  (∀ (s : State) (cl : Nat) (w : Nat × Nat), (s.cluster cl).holder = none →
    (∀ v ∈ (s.cluster cl).waiters, s.replaying v.1 = false) → nextHolder cl (s.cluster cl) = some w →
    ∃ u : State, exec (.leaseGrant cl) s = .next u ∧ (u.cluster cl).holder = some w ∧ (u.cluster cl).termCmds = 0 ∧
      (u.cluster cl).termCycles = 0 ∧ w ∉ (u.cluster cl).waiters ∧ u.mem = s.mem) ∧
  (∀ (s : State) (cl : Nat) (w : Nat × Nat), (s.cluster cl).holder = some w → stoppedHolder s w = true →
    ∃ u : State, exec (.leaseTermEnd cl) s = .next u ∧ (u.cluster cl).holder = none ∧ (u.cluster cl).waiters = (s.cluster cl).waiters ∧
      u.mem = s.mem) ∧
  (∀ (s : State) (cl : Nat) (w : Nat × Nat), (s.cluster cl).holder = some w → stoppedHolder s w = false → leaseRunning s w = false →
    ((s.cluster cl).giveUp = true →
      ∃ u : State, exec (.leaseTermEnd cl) s = .next u ∧ (u.cluster cl).holder = none ∧ u.mem = s.mem) ∧
    ((s.cluster cl).giveUp = false → ((s.cluster cl).implicitLease && !leaseWaiting s w) = false →
      (16 ≤ (s.cluster cl).termCmds ∨ 4096 ≤ (s.cluster cl).termCycles) →
      ((s.cluster cl).waiters ≠ [] →
        ∃ u : State, exec (.leaseTermEnd cl) s = .next u ∧ (u.cluster cl).holder = none ∧
          (u.cluster cl).waiters = (s.cluster cl).waiters ++ [w]) ∧
      ((s.cluster cl).waiters = [] →
        ∃ u : State, exec (.leaseTermEnd cl) s = .next u ∧ (u.cluster cl).holder = some w ∧ (u.cluster cl).termCmds = 0 ∧
          (u.cluster cl).termCycles = 0))) ∧
  (∀ (s : State) (cl : Nat),
    ((s.cluster cl).ride = false → rideWanted s cl = true →
      ((s.die (cl / 64)).ride.any fun t =>
        t.at_ s.cycle == cl % 64 && !(t.freedBy == some (cl % 64) && s.cycle - t.since < 64)) = true →
      ∃ u : State, exec (.rideTokenTake cl) s = .next u ∧ (u.cluster cl).ride = true ∧ (u.cluster cl).rideCycles = 0 ∧
        (u.die (cl / 64)).ride.length + 1 = (s.die (cl / 64)).ride.length) ∧
    ((s.cluster cl).ride = true → rideRunning s cl = false → rideWanted s cl = false →
      ∃ u : State, exec (.rideTokenFree cl) s = .next u ∧ (u.cluster cl).ride = false ∧ u.mem = s.mem) ∧
    ((s.cluster cl).ride = true →
      ((s.cluster cl).rideDone = true ∨ 4096 ≤ (s.cluster cl).rideCycles ∧
        ((List.range 64).any fun i => 64 * (cl / 64) + i != cl && rideWanted s (64 * (cl / 64) + i)) = true) →
      ∃ u : State, exec (.rideHoldLimit cl) s = .next u ∧ u.mem = s.mem ∧
        (rideRunning s cl = false → (u.cluster cl).ride = false) ∧
        (rideRunning s cl = true → (u.cluster cl).ride = true ∧ (u.cluster cl).rideDone = true))) ∧
  (∀ (s : State) (g k : Nat) (a : Arrival) (rest : List Arrival) (n : Node), s.replaying g = false →
    (s.core g).handlers = a :: rest → handlerSeq (s.core g) = some k → s.nodeOf g = some n → n.st = .running →
    n.preemptAt = none → n.teardown = false → s.halted = false →
    ∃ u : State, exec (.handlerStart g) s = .next u ∧ (u.core g).handlers = rest ∧ (u.seqAt g k).status = .ready ∧
      (u.seqAt g k).handler = true ∧ (u.seqAt g k).r.pc = n.entry + BitVec.ofNat 64 (4 * a.h) ∧
      (u.seqAt g k).r.rx 1 = (s.core g).exitAddr ∧ (u.seqAt g k).r.rx 10 = BitVec.ofNat 64 a.off ∧
      (u.seqAt g k).r.rx 11 = BitVec.ofNat 64 a.len ∧ (u.core g).dcache = [] ∧ u.mem = s.mem)

/-! ### Launch -/

/-- R21, R198, R204, R208 to R211, R218, R332: a doorbell makes the scheduler scan the records that it names, and one
that its rule does not allow is dropped; a round places the node that fits; dispatch gives every core of the rectangle
the node's plane and zeroes what another identifier left; a gang starts its sequencers together at the entry with x1,
a0 and a1; a node whose work is done retires with its status; and a teardown stops a sequencer that is blocked. The
exit address and the zeroed ranges are operands that the dispatch checks (log entry 29), and an anchored node's
origins, what a core holds at dispatch, and that a blocked sequencer which a teardown stops loses the access that no owner has accepted, are
the model's readings (log entries 38, 39 and 48). -/
def Obligations.NodesAreLaunchedAndRetire : Prop :=
  (∀ (s : State) (from_ asid p : Nat) (v : Word) (rest : List (Nat × Nat × Word)), s.doorbells = (from_, asid, v) :: rest →
    p = bitsOf v.toNat 37 32 →
    ((bitsOf v.toNat 63 38 ≠ 0 ∨ tabHas s.pools p = false ∨ (s.pool p).closing = true ∨ (s.pool p).asid ≠ asid) →
      exec .doorbell s = .next { s with doorbells := rest }) ∧
    (bitsOf v.toNat 63 38 = 0 → tabHas s.pools p = true → (s.pool p).closing = false → (s.pool p).asid = asid →
      ∃ u : State, u = scanRecords p (min (bitsOf v.toNat 31 16) (s.pool p).cap) (bitsOf v.toNat 15 0) { s with doorbells := rest } ∧
        exec .doorbell s = .next (settleWaiting (2 * u.nodes.length) u))) ∧
  (∀ (s : State) (refused : List (Nat × Nat)) (n : Node) (o : Nat), roundDue s = true → s.halted = false → s.held = false →
    (s.nodes.filter fun m => m.pooled) = [n] → s.findNode n.id = some n →
    (candidates n).find? (fits { s with sched := { s.sched with due := false, last := s.cycle } } n) = some o →
    ∃ (u : State) (m : Node), exec (.schedulerRound refused) s = .next u ∧ u.findNode n.id = some m ∧ m.placed = true ∧ m.origin = some o ∧
      (∀ g ∈ rectAt n.lw n.lh o, (u.core g).reservedFor = some n.id) ∧ u.sched.due = false ∧ u.mem = s.mem) ∧
  (∀ (s : State) (pool idx : Nat) (exit : Word) (zeros : List (Nat × Nat)) (n : Node) (b : List Byte),
    s.findNode (pool, idx) = some n → n.placed = true → n.dispatched = false → n.st = .ready → exitOk s n exit = true →
    zerosOk n zeros = true → s.halted = false → readPlane s n = some b → planeFault b n = none →
    ∃ (u : State) (m : Node), exec (.nodeDispatch pool idx exit zeros) s = .next u ∧ u.findNode (pool, idx) = some m ∧ m.dispatched = true ∧
      m.exitAddr = exit ∧
      (∀ g ∈ n.cores, (u.core g).node = some n.id ∧ (u.core g).asid = n.asid ∧ (u.core g).plane = b ∧
        (u.core g).seqCount = n.seq ∧ (u.core g).tiles = n.tiles ∧ (u.core g).accs = n.accs ∧
        (u.core g).scratch = n.scratch ∧ (u.core g).exitAddr = exit ∧
        ((s.core g).lastAsid ≠ some n.asid → ∀ a < 64 * n.scratch, memGet u.mem (winKey g a) = 0))) ∧
  (∀ (s : State) (pool idx : Nat) (n : Node), s.findNode (pool, idx) = some n → n.dispatched = true → n.st = .ready →
    s.halted = false →
    ∃ (u : State) (m : Node), exec (.gangDispatch pool idx) s = .next (u.setRecState n.pool n.idx 4) ∧ u.findNode (pool, idx) = some m ∧
      m.st = .running ∧ m.tstart = s.time ∧
      ∀ g ∈ n.cores, ∀ k < n.seq, (u.seqAt g k).status = .ready ∧ (u.seqAt g k).r.pc = n.entry ∧
        (u.seqAt g k).r.rx 1 = (s.core g).exitAddr ∧ (u.seqAt g k).r.rx 10 = n.arg ∧
        (u.seqAt g k).r.rx 11 = BitVec.ofNat 64 k) ∧
  (∀ (s : State) (pool idx : Nat) (n : Node), s.findNode (pool, idx) = some n → n.st = .running →
    (n.live.all fun g => allSeqs s g Seq.drained && coreCommandsDone s g && (s.core g).handlers.isEmpty) = true → sentDone s n.live = true →
    (n.teardown = false → (n.live.all fun g => allSeqs s g Seq.gone) = true →
      exec (.nodeRetire pool idx) s = .next (match n.faults with
        | [] => s.retireNode n 0 0 0
        | _ :: l => s.retireNode n nsFault 0 l.length)) ∧
    (n.teardown = true → (n.live.all fun g => allSeqs s g Seq.still) = true → n.live.any (hasUnfired s) = false →
      exec (.nodeRetire pool idx) s = .next (s.retireNode n nsCancelled 1 0))) ∧
  (∀ (s : State) (g k : Nat) (n : Node), s.nodeOf g = some n → n.teardown = true → (s.seqAt g k).still = false →
    (s.seqAt g k).status = .blocked →
    ∃ u : State, exec (.teardownForcedStop g k) s = .next u ∧ (u.seqAt g k).stopped = true ∧ (u.seqAt g k).pending = none ∧
      (u.seqAt g k).r = (s.seqAt g k).r ∧ u.mem = s.mem)

/-- R216, R226, R305, R309 to R311, R325, R326, R330: once a node has stopped entirely its sequencers are saved and give their lease up;
the node's cores are then spilled and it becomes PREEMPTED; a stop that does not come is withdrawn; a resumed node
runs on from its saves; an interval ends once every member has stopped; and recording and profiling are armed. When a
save may begin is the model's reading (log entry 47). -/
def Obligations.NodesArePreemptedResumedAndRecorded : Prop :=
  (∀ (s : State) (g k : Nat) (n : Node), s.nodeOf g = some n → n.preemptAt.isSome = true → n.teardown = false →
    stoppedInTime s n = true → stoppedEntirely s n = true → (s.seqAt g k).gone = false → n.saved g k = false →
    n.live.any (intervalOver s) = false →
    (mustThrowBack s g k = true → exec (.sequencerSave g k) s =
      .next ((s.throwBack g k).saveSeq n (saveOf (s.throwBack g k) g k ((s.seqAt g k).region.any fun r => r.lease) false))) ∧
    (mustThrowBack s g k = false → ∀ save : Save,
      save = saveOf s g k (keepsLease s g k || (s.seqAt g k).leased.isSome)
        ((keepsLease s g k && (s.cluster (clusterOfCore g)).implicitLease) || (s.seqAt g k).leased == some true) →
      ∃ (u : State) (m : Node), exec (.sequencerSave g k) s = .next u ∧ u.findNode n.id = some m ∧ m.saves = n.saves ++ [save] ∧
        tabGet [] u.areas (areaKey g k) = saveBytes s save (s.core g) ∧
        (u.cluster (clusterOfCore g)).holder ≠ some (g, k) ∧ u.mem = s.mem)) ∧
  (∀ (s : State) (pool idx : Nat) (n : Node), s.findNode (pool, idx) = some n → n.st = .running → n.preemptAt.isSome = true →
    n.teardown = false → allStill s n = true → n.live.all (canSpill s n) = true →
    ∃ (u : State) (m : Node), exec (.nodeSpill pool idx) s = .next (u.setRecState n.pool n.idx 5) ∧ u.findNode (pool, idx) = some m ∧
      m.st = .preempted ∧ m.npre = n.npre + 1 ∧ m.placed = false ∧ m.spill = n.live.map (spillOf s) ∧
      ∀ g ∈ n.cores, (u.core g).node ≠ some n.id) ∧
  (∀ (s : State) (pool idx t : Nat) (n : Node), s.findNode (pool, idx) = some n → n.preemptAt = some t → n.teardown = false →
    t + s.sched.w ≤ s.cycle → n.inTime = false →
    ∃ (u : State) (m : Node), exec (.preemptWithdraw pool idx) s = .next u ∧ u.findNode (pool, idx) = some m ∧ m.preemptAt = none ∧
      m.preemptFor = none ∧ (∀ g ∈ n.live, ∀ k, (u.seqAt g k).stopReq = false ∧ (u.seqAt g k).stopped = false) ∧ u.mem = s.mem) ∧
  (∀ (s : State) (pool idx : Nat) (n : Node), s.findNode (pool, idx) = some n → n.st = .preempted → n.placed = true →
    contextsFree s n = true → s.halted = false →
    ∃ (u : State) (m : Node), exec (.nodeResume pool idx) s = .next (u.setRecState n.pool n.idx 4) ∧ u.findNode (pool, idx) = some m ∧
      m.st = .running ∧ m.dispatched = true ∧ m.saves = [] ∧ m.spill = [] ∧
      ∀ x v, n.spill = [x] → n.saves = [v] → v.g = x.g → v.seq.gone = false →
        (u.seqAt v.g v.k).r = v.seq.r ∧ (u.seqAt v.g v.k).status = .ready ∧ (u.seqAt v.g v.k).stopped = false) ∧
  (∀ (s : State) (g l t : Nat), intervalLength s g = some l → ((s.core g).seqs.any fun q => decide (l ≤ q.2.rwcount)) = true →
    ((s.nodeOf g).any fun n => n.preemptAt.isSome || n.teardown) = false →
    ((s.group g).ending = none →
      ∃ u : State, exec (.checkpointIntervalEnd g) s = .next u ∧ (u.group g).ending = some s.cycle ∧ u.mem = s.mem) ∧
    ((s.group g).ending = some t → allStopped s g = true →
      ∃ u : State, exec (.checkpointIntervalEnd g) s = .next u ∧ (u.group g).interval = (s.group g).interval + 1 ∧
        (∀ k, (u.seqAt g k).rwcount = 0 ∧ (u.seqAt g k).stopped = false) ∧ u.mem = s.mem)) ∧
  (∀ (s : State) (pool idx k : Nat), (s.findNode (pool, idx)).isSome = true → 16 ≤ k → k ≤ 26 →
    ∃ (u : State) (m : Node), exec (.armRecording pool idx k) s = .next u ∧ u.findNode (pool, idx) = some m ∧ m.recording = true ∧ m.ivl = some k ∧
      u.debugOut = s.debugOut ++ [.ok]) ∧
  (∀ (s : State) (pool idx i : Nat) (n : Node), s.findNode (pool, idx) = some n → 1 ≤ i → i ≤ 64 →
    64 * n.scratch + 1856 * i ≤ 2 ^ 20 →
    ∃ u : State, exec (.armProfiling pool idx i) s = .next u ∧ (∀ g ∈ n.live, (u.core g).prof = some { n := i, base := 64 * n.scratch }) ∧
      u.debugOut = s.debugOut ++ [.values [64 * n.scratch]] ∧ u.mem = s.mem)

/-! ### Links, errors and power -/

/-- R247, R274 to R277, R312 to R315, R318, R319, R343, R344: a good flit in order is acknowledged and taken or passed
on, a bad one is negatively acknowledged and dropped; links go down and come up; a request is performed once and
answered; corrected and uncorrectable errors are counted and take their effect; a fatal error halts the package and
leaves its dump in the reserved region; and budgets and islands follow their events. That the packages to which a link's loss leaves no
path, and those which it makes reachable, come as operands, the form of requests and replies, what a damaged line does to a write, and
where the dump region lies are the model's choices (log entries 33, 35, 52 and 74). -/
def Obligations.LinksErrorsAndPowerEventsTakeEffect : Prop :=
  (∀ (s : State) (l : Nat) (flit : BitVec 1024), (s.link l).state = 2 → l < 32 →
    let ack := fun (b : Byte) => (⟨(s.link l).peer, 0, BitVec.ofNat 64 (l * 4096 + (s.link l).expect), .link, [b]⟩ : Sent)
    ((flitGood flit.toNat = false ∨ flitSeq flit.toNat ≠ (s.link l).expect) →
      ∃ u : State, exec (.flitReceive l flit) s = .next u ∧ u.inbox = s.inbox ∧ u.links = s.links ∧ u.outbox = s.outbox ++ [ack 0]) ∧
    (flitGood flit.toNat = true → flitSeq flit.toNat = (s.link l).expect →
      ∃ u : State, exec (.flitReceive l flit) s = .next u ∧ (u.link l).expect = ((s.link l).expect + 1) % 4096 ∧
        u.outbox = s.outbox ++ [ack 1] ∧
        u.inbox = (if flitKind flit.toNat = 4 ∨ flitKind flit.toNat ≠ 0 ∧ flitDst flit.toNat = s.pkgid then s.inbox ++ [flit] else s.inbox) ∧
        u.backlog = (if flitKind flit.toNat ≠ 0 ∧ flitKind flit.toNat ≠ 4 ∧ flitDst flit.toNat ≠ s.pkgid then s.backlog ++ [(none, flit)]
          else s.backlog))) ∧
  (∀ (s : State) (l peer plink : Nat) (again : Bool) (cause : LinkDownCause) (lost gained : List Nat), l < 32 →
    ((s.link l).state = 2 → ∀ n, n = (if again then (s.link l).replays + 1 else 0) →
      ∃ u : State, exec (.flitReplay l again) s = .next u ∧
        (n < 8 → u.link l = { s.link l with replays := n, wired := 0 } ∧ u.mem = s.mem) ∧
        (8 ≤ n → (u.link l).state = 0 ∧ (u.link l).buffer = [] ∧ u.backlog = (s.link l).buffer ++ s.backlog)) ∧
    (downAllowed (s.link l) cause = true →
      ∃ u : State, exec (.linkDown l cause lost) s = .next u ∧ (u.link l).state = 0 ∧ (u.link l).buffer = [] ∧
        u.backlog = (s.link l).buffer ++ s.backlog ∧ ((s.link l).state = 2 → ∀ p ∈ lost, p ∉ u.peers)) ∧
    (s.inPod = true → (s.link l).state = 1 → peer < 4096 → peer ≠ s.pkgid →
      (∃ u : State, exec (.linkTraining l peer plink true true gained) s = .next u ∧
        u.link l = { state := 2, peer := peer, plink := plink % 32 } ∧ peer ∈ u.peers ∧ u.mem = s.mem) ∧
      (∃ u : State, exec (.linkTraining l peer plink true false gained) s = .next u ∧
        u.link l = { state := 3, peer := peer, plink := plink % 32 } ∧ u.peers = s.peers) ∧
      (∃ u : State, exec (.linkTraining l peer plink false true gained) s = .next u ∧ (u.link l).state = 0 ∧ u.peers = s.peers))) ∧
  (∀ (s : State) (src core seqNo : Nat) (r : RemoteReq), src ≠ s.pkgid → s.inPod = true →
    (s.remoteDone.contains (src, seqNo) = true → exec (.remoteRequest src core seqNo r) s = .next s) ∧
    (s.remoteDone.contains (src, seqNo) = false → requestFits s r = true →
      ∃ u : State, exec (.remoteRequest src core seqNo r) s = .next u ∧ u.mem = (serveRequest s src core r).1.mem ∧
        (src, seqNo) ∈ u.remoteDone ∧ u.outbox = (serveRequest s src core r).1.outbox ++
          [⟨src, 0, BitVec.ofNat 64 seqNo, .reply, BitVec.ofNat 8 (serveRequest s src core r).2.1 :: (serveRequest s src core r).2.2⟩])) ∧
  (∀ (s : State) (x : ErrorSite),
    (∃ u : State, exec (.singleBitCorrect x) s = .next u ∧ u.mem = s.mem ∧
      tabGet 0 u.corrected (arrayOf x) = tabGet 0 s.corrected (arrayOf x) + 1) ∧
    (∃ u : State, exec (.uncorrectableError x) s = .next u ∧
      tabGet 0 u.uncorrected (arrayOf x) = tabGet 0 s.uncorrected (arrayOf x) + 1) ∧
    (scrubbed x = true → ∃ u : State, exec (.scrub x .corrected) s = .next u ∧ u.mem = s.mem ∧
      tabGet 0 u.corrected (arrayOf x) = tabGet 0 s.corrected (arrayOf x) + 1) ∧
    (scrubbed x = true → exec (.scrub x .uncorrectable) s = exec (.uncorrectableError x) s)) ∧
  (∀ (s : State) (g k r : Nat), (s.seqAt g k).gone = false →
    (∃ u : State, exec (.uncorrectableError (.vreg g k r)) s = .next u ∧ (u.seqAt g k).status = .ended ∧ u.mem = s.mem) ∧
    (∃ u : State, exec (.residueMismatch (.vreg g k r)) s = .next u ∧ (u.seqAt g k).status = .ended ∧ u.mem = s.mem)) ∧
  (∀ (s : State) (g off k : Nat), g < 1024 → off < 0x1D0000 → (s.core g).node.isSome = true → lineOwner s g off = some k →
    (s.seqAt g k).gone = false →
    ∃ u : State, exec (.scratchpadPoison g off) s = .next u ∧ winKey g off / 64 ∈ u.poison ∧ (u.seqAt g k).status = .ended ∧ u.mem = s.mem) ∧
  (∀ (s : State) (e : FatalReport), s.halted = false →
    (1 ≤ e.cls → e.cls ≤ 6 → e.die ≤ 4 →
      ∃ u : State, exec (.fatalError e) s = .next u ∧ u.halted = true ∧ u.host.fatal = true ∧ u.dump = dumpOf s e ∧
        (s.Inv → memBytes u.mem (dramKey (Config.dumpAt / 2 ^ 48 % 4) (Config.dumpAt % 2 ^ 48)) (dumpOf s e).length = dumpOf s e) ∧
        (∀ x ∈ u.links, x.2.state = 0)) ∧
    (∃ u : State, exec .watchdogExpiry s = .next u ∧ u.halted = true ∧ u.host.fatal = true)) ∧
  (∀ (s : State) (l : List Nat), l.length = 4 →
    ((List.range 4).all fun i => decide (1 ≤ l.getD i 0) && (decide (l.getD i 0 < (budgetsOf s).getD i 0) ||
      (l.getD i 0 == 1 && (budgetsOf s).getD i 0 == 1))) = true →
    ∃ u : State, exec (.thermalThreshold l) s = .next u ∧ budgetsOf u = l ∧ u.host.hot = true ∧ u.mem = s.mem) ∧
  (∀ (s : State) (i : Nat),
    (i < 64 → i ∉ s.gated → (∀ g < nCores, islandOf g = i → residentOf s g = none) →
      ∃ u : State, exec (.islandGate i) s = .next u ∧ i ∈ u.gated ∧ u.mem = s.mem) ∧
    (∃ u : State, exec (.islandPowerUp i) s = .next u ∧ i ∉ u.gated ∧ u.mem = s.mem))

/-! ### The host, the debug fabric and the test port -/

/-- R251, R331, R333, R335 to R341, R343, R345: the host's ring takes the entries that its doorbell gives and its
registers change while it is empty; each request that Derdengo serves has its effect and is answered with its status
and results; a reset or a boot leaves what its rule says; and the window and a page's migration read and write memory.
Derdengo's choices come as operands that each request checks (log entries 51 and 57). That a reset package is held until a boot event, and
what a reset or a boot leaves in registers, tiles and accumulators, are the model's choices (log entries 1, 2 and 56), and so is where the
dump region lies, which no grant may name (log entry 74). -/
def Obligations.HostRequestsAreServed : Prop :=
  (∀ (s : State) (tail : BitVec 64) (l : List (BitVec 512)), s.host.bfail = 0 → 1 ≤ s.host.rlog → s.host.rlog ≤ 12 →
    tail.toNat % 4096 < 2 ^ s.host.rlog →
    (tail.toNat % 4096 + 2 ^ s.host.rlog - s.host.rtail % 2 ^ s.host.rlog) % 2 ^ s.host.rlog = l.length → serving s = false →
    ∃ u : State, exec (.hostRingDoorbell tail l) s = .next u ∧ u.host.entries = s.host.entries ++ l ∧
      u.host.rtail = tail.toNat % 4096 ∧ u.mem = s.mem) ∧
  (∀ (s : State) (v : BitVec 64), s.host.bfail = 0 → s.host.rhead = s.host.rtail →
    (∃ u : State, exec (.bar0RegisterWrite 0x08 v) s = .next u ∧ u.host.rbase = v.toNat) ∧
    (∃ u : State, exec (.bar0RegisterWrite 0x10 v) s = .next u ∧ u.host.rlog = v.toNat % 4096)) ∧
  (∀ (s : State) (e : BitVec 512), RequestAtHead s 1 e → ∀ a, ((List.range 256).find? fun a => !s.host.asids.contains a) = some a →
    ∃ u : State, exec .asidNew s = .next u ∧ u.host.asids = s.host.asids ++ [a] ∧ Answered s u e rsOk a 0) ∧
  (∀ (s : State) (e : BitVec 512), RequestAtHead s 2 e → s.host.asids.contains (reqArg e.toNat 0) = true →
    (s.pools.any fun p => p.2.asid == reqArg e.toNat 0 && !poolIdle s p.1) = false →
    ∃ u : State, exec .asidFree s = .next u ∧ reqArg e.toNat 0 ∉ u.host.asids ∧ (∀ p ∈ u.pools, p.2.asid ≠ reqArg e.toNat 0) ∧
      Answered s u e rsOk 0 0) ∧
  (∀ (s : State) (e : BitVec 512) (die base frame tables entry : Nat) (b l : List Byte) (x : Image), RequestAtHead s 3 e →
    s.host.asids.contains (reqArg e.toNat 0) = true → hostBytes s (reqArg e.toNat 1) (reqArg e.toNat 2) = some b →
    planLoad b base = .go l x entry → placeOk s (reqArg e.toNat 0) die base frame tables x.span x.dstart = true →
    ∃ u : State, exec (.load die base frame tables) s = .next u ∧ Answered s u e rsOk (base + entry) base ∧
      u.mem = (mapImage s (reqArg e.toNat 0) die base frame tables x l).mem) ∧
  (∀ (s : State) (e : BitVec 512), RequestAtHead s 4 e → s.host.asids.contains (reqArg e.toNat 0) = true →
    ownerPkg (BitVec.ofNat 64 (reqArg e.toNat 1)) = s.pkgid → isAperture (BitVec.ofNat 64 (reqArg e.toNat 1)) = false →
    vaOffset (BitVec.ofNat 64 (reqArg e.toNat 1)) + reqArg e.toNat 2 ≤ 2 ^ 50 →
    ∃ u : State, exec .unmap s = .next u ∧ Answered s u e rsOk 0 0) ∧
  (∀ (s : State) (e : BitVec 512) (page : BitVec 64), RequestAtHead s 5 e → reqArg e.toNat 0 ≤ 63 →
    s.host.asids.contains (reqArg e.toNat 1) = true → reqArg e.toNat 2 % 64 = 0 → 1 ≤ reqArg e.toNat 3 →
    reqArg e.toNat 3 ≤ 65535 → tabHas s.pools (reqArg e.toNat 0) = false →
    pageFree s (reqArg e.toNat 1) (reqArg e.toNat 0) page = true →
    ∃ u : State, exec (.pool page) s = .next u ∧ Answered s u e rsOk page.toNat 0 ∧
      u.pool (reqArg e.toNat 0) =
        { base := BitVec.ofNat 64 (reqArg e.toNat 2), cap := reqArg e.toNat 3, asid := reqArg e.toNat 1, page := page }) ∧
  (∀ (s : State) (e : BitVec 512), RequestAtHead s 6 e → tabHas s.pools (reqArg e.toNat 0) = true →
    (s.host.teardown = none → ∃ u : State, exec .teardown s = .next u ∧ u.host.teardown.isSome = true) ∧
    (∀ n, s.host.teardown = some n → poolIdle s (reqArg e.toNat 0) = true →
      ∃ u : State, exec .teardown s = .next u ∧ (u.pool (reqArg e.toNat 0)).closing = false ∧ Answered s u e rsOk n 0)) ∧
  (∀ (s : State) (e : BitVec 512) (l : List Nat), RequestAtHead s 7 e → 500 ≤ reqArg e.toNat 0 → reqArg e.toNat 0 ≤ 3000 →
    budgetsOk s (reqArg e.toNat 0) l = true →
    ∃ u : State, exec (.limit l) s = .next u ∧ budgetsOf u = l ∧ u.host.limit = reqArg e.toNat 0 ∧
      Answered s u e rsOk (reqArg e.toNat 0) (leNat (l.map (BitVec.ofNat 8)))) ∧
  (∀ (s : State) (e : BitVec 512), RequestAtHead s 8 e →
    ∃ u : State, exec .reset s = .next u ∧ Answered s u e rsOk 0 0 ∧ u.mem = State.reset.mem ∧ u.cores = State.reset.cores ∧
      u.nodes = State.reset.nodes ∧ u.held = State.reset.held) ∧
  (∀ (s : State) (p : Nat),
    (∃ u : State, exec (.packageReset s.pkgid) s = .next u ∧ u.mem = State.reset.mem ∧ u.cores = State.reset.cores ∧
      u.nodes = State.reset.nodes ∧ u.held = State.reset.held ∧ u.pkgid = s.pkgid) ∧
    (p ≠ s.pkgid → ∃ u : State, exec (.packageReset p) s = .next u ∧ p ∉ u.peers)) ∧
  (∀ (s : State) (fail : Nat) (grants : List Nat), s.held = true →
    (1 ≤ fail → fail ≤ 3 → ∃ u : State, exec (.boot fail grants) s = .next u ∧ u.host.bfail = fail ∧ u.host.booted = s.host.booted ∧
      u.held = false) ∧
    (grants.length ≤ 64 → (∀ r ∈ grants, r < 2 ^ 20 ∧ r ≠ dumpRegion) →
      ∃ u : State, exec (.boot 0 grants) s = .next u ∧ u.host.booted = true ∧ u.host.attest = true ∧ u.host.grants = grants ∧
        u.held = false ∧ ∀ a, memGet u.mem a = 0)) ∧
  (∀ (s : State) (off n d pa : Nat) (b : Byte) (l : List Byte),
    (hostBytes s off n = some l → (∀ i < n, ∀ p, hostLoc s (off + i) = some p → poisoned s p 1 = false) →
      ∃ u : State, exec (.hostWindowAccess (.read off n)) s = .next u ∧ u.host.reads = s.host.reads ++ [some l] ∧ u.mem = s.mem) ∧
    (s.Inv → hostLoc s off = some (.dram d pa) →
      ∃ u : State, exec (.hostWindowAccess (.write off [b])) s = .next u ∧ memGet u.mem (dramKey d pa) = b ∧
        ∀ a, a ≠ dramKey d pa → memGet u.mem a = memGet s.mem a) ∧
    (hostLoc s off = none →
      ∃ u : State, exec (.hostWindowAccess (.write off [b])) s = .next u ∧ u.host.dropped = s.host.dropped + 1 ∧ u.mem = s.mem)) ∧
  (∀ (s : State) (off : Nat), ∃ u : State, exec (.hostWindowAccess (.bar0 off)) s = .next u ∧ u.mem = s.mem ∧
    u.host.reads = s.host.reads ++ [some (leBytes 8 (
      if off = 0 then s.host.bfail % 256 * 256 + s.host.fatal.toNat * 4 + s.host.attest.toNat * 2 + s.host.booted.toNat
      else if off = 8 then s.host.rbase else if off = 16 then s.host.rlog else if off = 24 then s.host.rtail
      else if off = 32 then s.host.rhead else 0))]) ∧
  (∀ (s : State) (m : PageChange) (a lvl : Nat), s.Inv → leafFor s m.die m.asid (vaOffset m.va) = some (a, lvl) →
    bitOf m.entry.toNat 0 = false →
    ∃ u : State, exec (.pageMigration m) s = .next u ∧ memBytes u.mem (dramKey m.die a) 8 = leBytes 8 m.entry.toNat)

/-- R320 to R324, R327, R328, R341, R342, R346: a debug request to a core of this package, once those before it are done with, halts,
resumes, reads or writes its named sequencers, arms a breakpoint or sets a stop, and is answered; the debug master forwards one to another
package, or answers it ABSENT when that cannot be reached; each SPDM request is answered with its response code once the package attests;
and each instruction of the test port selects its register, captures the pins and shifts. The response codes are those of DSP0274; the
form of a forwarded request, and the bodies, the identity and loose bytes, which are free values, are the model's choices (log entries 12,
40, 41 and 49). -/
def Obligations.DebugAttestationAndTestPort : Prop :=
  (∀ (s : State) (t : DebugTarget), TargetHere s t → s.host.bfail = 0 → s.debugIn = [] →
    (((namedSeqs t).all fun k => (s.seqAt t.g k).gone || (s.seqAt t.g k).drained) = true →
      ∃ u : State, exec (.halt t) s = .next u ∧ (∀ k ∈ namedSeqs t, (s.seqAt t.g k).gone = false → (u.seqAt t.g k).halted = true) ∧
        u.debugOut = s.debugOut ++ [.values ((namedSeqs t).flatMap fun k => [(s.seqAt t.g k).r.pc.toNat, (s.seqAt t.g k).rwcount])]) ∧
    (((namedSeqs t).all fun k => (s.seqAt t.g k).gone || (s.seqAt t.g k).drained) = false →
      ∃ u : State, exec (.halt t) s = .next u ∧ (∀ k ∈ namedSeqs t, (s.seqAt t.g k).gone = false → (u.seqAt t.g k).halted = true) ∧
        u.debugOut = s.debugOut ∧ u.debugIn = [.halt t]) ∧
    ((s.group t.g).target = none →
      ∃ u : State, exec (.resume t) s = .next u ∧ (∀ k ∈ namedSeqs t, (u.seqAt t.g k).halted = false) ∧ u.debugOut = s.debugOut ++ [.ok]) ∧
    (∀ r : XReg, ∃ u : State, exec (.read t (.xreg r)) s = .next u ∧
      u.debugOut = s.debugOut ++ [.values ((namedSeqs t).map fun k => ((s.seqAt t.g k).r.rx r).toNat)] ∧ u.cores = s.cores) ∧
    (∀ i : Fin 32, ∃ u : State, exec (.read t (.shape i)) s = .next u ∧
      u.debugOut = s.debugOut ++ [.values ((namedSeqs t).map fun k => (s.seqAt t.g k).r.sh[i].toNat)] ∧ u.cores = s.cores) ∧
    (∀ i : Fin 16, ∃ u : State, exec (.read t (.layout i)) s = .next u ∧
      u.debugOut = s.debugOut ++ [.values ((namedSeqs t).map fun k => (s.seqAt t.g k).r.ly[i].toNat)] ∧ u.cores = s.cores) ∧
    (∀ (r : XReg) (v : Nat), r ≠ 0 → (∀ k ∈ namedSeqs t, (s.seqAt t.g k).halted = true ∧ fillsX (s.seqAt t.g k) r = false) →
      ∃ u : State, exec (.write t (.xreg r) v none) s = .next u ∧ u.debugOut = s.debugOut ++ [.ok] ∧
        ∀ k ∈ namedSeqs t, (u.seqAt t.g k).r.rx r = BitVec.ofNat 64 v ∧ (u.seqAt t.g k).r.xIsFull r = true ∧
          (u.seqAt t.g k).r.pc = (s.seqAt t.g k).r.pc) ∧
    (∀ (r : Fin 32) (v : Nat) (tag : Option Nat), (∀ x, tag = some x → x ≠ 14) →
      (∀ k ∈ namedSeqs t, (s.seqAt t.g k).halted = true ∧ (s.seqAt t.g k).r.vctx = true ∧ fillsV (s.seqAt t.g k) r = false) →
      ∃ u : State, exec (.write t (.vreg r) v tag) s = .next u ∧ u.debugOut = s.debugOut ++ [.ok] ∧
        ∀ k ∈ namedSeqs t, (u.seqAt t.g k).r.v[r] = BitVec.ofNat 4096 v ∧ (u.seqAt t.g k).r.vfull[r] = true ∧
          (u.seqAt t.g k).r.vtag[r] = (tag.filter (· < 14)).getD (s.seqAt t.g k).r.vtag[r]) ∧
    (∀ (w : DebugPlace) (v : Nat), (∃ k ∈ namedSeqs t, (s.seqAt t.g k).halted = false) → (∀ off n, w ≠ .window off n) →
      exec (.write t w v none) s = .next (s.answer .refused)) ∧
    (∀ (i : Fin 4) (bp : Breakpoint), ∃ u : State, exec (.arm t i.val bp) s = .next u ∧ u.debugOut = s.debugOut ++ [.ok] ∧
      ∀ k ∈ namedSeqs t, (u.seqAt t.g k).breakpoints[i] = { bp with passed := false }) ∧
    (∀ (k interval count : Nat) (l : List Nat), namedSeqs t = k :: l → (s.group t.g).whole interval = none →
      (s.group t.g).interval ≤ interval →
      ∃ u : State, exec (.stop t interval count) s = .next u ∧ (u.group t.g).target = some (interval, k, count) ∧ u.mem = s.mem)) ∧
  (∀ (s : State) (t : DebugTarget), t.pkg ≠ s.pkgid → s.host.master = s.pkgid → s.host.bfail = 0 →
    (s.peers.contains t.pkg = false →
      exec (.halt t) s = .next (s.answer .absent) ∧ exec (.resume t) s = .next (s.answer .absent)) ∧
    (s.peers.contains t.pkg = true → ∀ w : DebugPlace, ∃ (u : State) (l : List Byte), exec (.read t w) s = .next u ∧
      u.outbox = s.outbox ++ [⟨t.pkg, 0, BitVec.ofNat 64 t.g, .debug, l⟩] ∧ u.debugOut = s.debugOut ∧ u.cores = s.cores)) ∧
  (∀ (s : State) (r : SpdmRequest), s.host.attest = true →
    (∃ (u : State) (b : SpdmResponse), exec (.getVersion r) s = .next u ∧ u.spdm = s.spdm ++ [b] ∧ b.code = 0x04 ∧ u.mem = s.mem) ∧
    (∃ (u : State) (b : SpdmResponse), exec (.getCapabilities r) s = .next u ∧ u.spdm = s.spdm ++ [b] ∧ b.code = 0x61 ∧ u.mem = s.mem) ∧
    (∃ (u : State) (b : SpdmResponse), exec (.negotiateAlgorithms r) s = .next u ∧ u.spdm = s.spdm ++ [b] ∧ b.code = 0x63 ∧
      b.algorithms = [.rsassa4096, .sha512] ∧ u.mem = s.mem) ∧
    (∃ (u : State) (b : SpdmResponse), exec (.getDigests r) s = .next u ∧ u.spdm = s.spdm ++ [b] ∧ b.code = 0x01 ∧ u.mem = s.mem) ∧
    (∃ (u : State) (b : SpdmResponse), exec (.getCertificate r) s = .next u ∧ u.spdm = s.spdm ++ [b] ∧
      b.code = (if r.param < 8 then 0x02 else 0x7F) ∧ u.mem = s.mem) ∧
    (∃ (u : State) (b : SpdmResponse), exec (.challenge r) s = .next u ∧ u.spdm = s.spdm ++ [b] ∧
      b.code = (if r.param < 8 then 0x03 else 0x7F) ∧ u.mem = s.mem) ∧
    (∃ (u : State) (b : SpdmResponse), exec (.getMeasurements r) s = .next u ∧ u.spdm = s.spdm ++ [b] ∧
      b.code = (if r.param ≤ 4 ∨ r.param = 0xFF then 0x60 else 0x7F) ∧ (r.param = 0 → b.count = some 4) ∧
      b.measurements.map (·.1) =
        (if r.param = 0xFF then [1, 2, 3, 4] else if 1 ≤ r.param ∧ r.param ≤ 4 then [r.param] else []) ∧ u.mem = s.mem)) ∧
  (∀ (s : State) (pins : BoundaryScan), pins.tdi.length = pins.found.length →
    (∃ u : State, exec .bypass s = .next u ∧ u.jtag.ir = .bypass ∧ u.jtag.dr = [false] ∧ u.jtag.driven = []) ∧
    (∃ u : State, exec .idcode s = .next u ∧ u.jtag.ir = .idcode ∧ u.jtag.dr.length = 32) ∧
    (∃ u : State, exec (.samplePreload pins) s = .next u ∧ u.jtag.ir = .sample ∧ u.jtag.tdo = pins.found.map (·.2) ∧
      u.jtag.dr = pins.tdi ∧ u.jtag.cells = (pins.found.map (·.1)).zip pins.tdi ∧ u.jtag.driven = []) ∧
    (∃ u : State, exec (.samplePreload { pins with tdi := [] }) s = .next u ∧ u.jtag.cells = pins.found ∧
      u.jtag.dr = pins.found.map (·.2)) ∧
    (s.held = true →
      (∃ u : State, exec (.extest pins) s = .next u ∧ u.jtag.ir = .extest ∧ u.jtag.tdo = pins.found.map (·.2) ∧
        (pins.tdi ≠ [] → u.jtag.driven = (pins.found.map (·.1)).zip pins.tdi ∧ u.jtag.cells = u.jtag.driven)) ∧
      (∃ u : State, exec (.extest { pins with tdi := [] }) s = .next u ∧ u.jtag.driven = s.jtag.cells ∧ u.jtag.cells = s.jtag.cells ∧
        u.jtag.dr = pins.found.map (·.2))) ∧
    (s.held = false → ∃ u : State, exec (.extest pins) s = .next u ∧ u.jtag.ir = .bypass ∧ u.jtag.dr = [false] ∧ u.jtag.driven = []))
end

