-- ==== Sys2Proof/Laws/Memory.lean ====
section
/-! SUPPORT. Memory and tables: read after write, the canonical form and what keeps it. -/
namespace Sys2Proof.Machine

/-! ### Tables -/

@[simp] theorem tabGet_nil {α : Type} (d : α) (n : Nat) : tabGet d [] n = d := rfl

@[simp] theorem tabGet_tabPut_same {α : Type} (d : α) (t : Tab α) (n : Nat) (x : α) : tabGet d (tabPut t n x) n = x := by
  induction t with
  | nil => simp [tabPut, tabGet]
  | cons e t ih =>
    obtain ⟨k, v⟩ := e
    unfold tabPut
    split
    · simp [tabGet]
    · split
      · simp [tabGet]
      · rename_i h1 h2
        simp only [tabGet]
        rw [if_neg (fun h => h2 h.symm)]
        exact ih

theorem tabGet_tabPut_other {α : Type} (d : α) (t : Tab α) (n m : Nat) (x : α) (h : m ≠ n) :
    tabGet d (tabPut t n x) m = tabGet d t m := by
  induction t with
  | nil => simp [tabPut, tabGet, Ne.symm h]
  | cons e t ih =>
    obtain ⟨k, v⟩ := e
    unfold tabPut
    split
    · simp [tabGet, Ne.symm h]
    · split
      · rename_i h2
        simp [tabGet, ← h2, Ne.symm h]
      · simp only [tabGet, ih]

theorem tabGet_tabPut {α : Type} (d : α) (t : Tab α) (n m : Nat) (x : α) :
    tabGet d (tabPut t n x) m = if m = n then x else tabGet d t m := by
  split
  · rename_i h; rw [h, tabGet_tabPut_same]
  · rename_i h; exact tabGet_tabPut_other d t n m x h

/-! ### Bytes -/

/-- From a lower bound on, the form still holds with a smaller bound. -/
theorem Memory.wfFrom_mono {lo lo' : Nat} {m : Memory} (hl : lo' ≤ lo) (h : Memory.wfFrom lo m = true) :
    Memory.wfFrom lo' m = true := by
  cases m with
  | nil => rfl
  | cons e t =>
    obtain ⟨k, v⟩ := e
    simp only [Memory.wfFrom, Bool.and_eq_true, decide_eq_true_eq] at h ⊢
    exact ⟨⟨Nat.le_trans hl h.1.1, h.1.2⟩, h.2⟩

/-- Addresses below the bound read as unlisted. -/
theorem memGet_below {lo a : Nat} {m : Memory} (h : Memory.wfFrom lo m = true) (ha : a < lo) : memGet m a = 0 := by
  cases m with
  | nil => rfl
  | cons e t =>
    obtain ⟨k, v⟩ := e
    simp only [Memory.wfFrom, Bool.and_eq_true, decide_eq_true_eq] at h
    unfold memGet
    rw [if_neg (by omega), if_pos (by omega)]

/-- A write keeps the form. -/
theorem Memory.wfFrom_put {lo : Nat} {m : Memory} (a : Nat) (b : Byte) (h : Memory.wfFrom lo m = true) (hl : lo ≤ a) :
    Memory.wfFrom lo (memPut m a b) = true := by
  induction m generalizing lo with
  | nil =>
    unfold memPut
    split
    · rfl
    · rename_i hb
      simp only [Memory.wfFrom, Bool.and_eq_true, decide_eq_true_eq]
      exact ⟨⟨hl, hb⟩, trivial⟩
  | cons e t ih =>
    obtain ⟨k, v⟩ := e
    simp only [Memory.wfFrom, Bool.and_eq_true, decide_eq_true_eq] at h
    unfold memPut
    split
    · rename_i hk
      split
      · simp only [Memory.wfFrom, Bool.and_eq_true, decide_eq_true_eq]
        exact ⟨⟨by omega, h.1.2⟩, h.2⟩
      · rename_i hb
        simp only [Memory.wfFrom, Bool.and_eq_true, decide_eq_true_eq]
        exact ⟨⟨hl, hb⟩, ⟨by omega, h.1.2⟩, h.2⟩
    · split
      · rename_i hk ha
        split
        · exact Memory.wfFrom_mono (by omega) h.2
        · rename_i hb
          simp only [Memory.wfFrom, Bool.and_eq_true, decide_eq_true_eq]
          exact ⟨⟨hl, hb⟩, ha ▸ h.2⟩
      · rename_i h1 h2
        simp only [Memory.wfFrom, Bool.and_eq_true, decide_eq_true_eq]
        exact ⟨h.1, ih h.2 (by omega)⟩

theorem Memory.wf_put {m : Memory} (a : Nat) (b : Byte) (h : m.wf = true) : Memory.wf (memPut m a b) = true :=
  Memory.wfFrom_put a b h (Nat.zero_le a)

theorem Memory.wf_set {m : Memory} (a : Nat) (l : List Byte) (h : m.wf = true) : Memory.wf (memSet m a l) = true := by
  induction l generalizing m a with
  | nil => exact h
  | cons b t ih => exact ih (a + 1) (Memory.wf_put a b h)

theorem Memory.wfFrom_filter {lo : Nat} {m : Memory} (p : Host.Cell → Bool) (h : Memory.wfFrom lo m = true) :
    Memory.wfFrom lo (m.filter p) = true := by
  induction m generalizing lo with
  | nil => rfl
  | cons e t ih =>
    obtain ⟨k, v⟩ := e
    simp only [Memory.wfFrom, Bool.and_eq_true, decide_eq_true_eq] at h
    rw [List.filter_cons]
    split
    · simp only [Memory.wfFrom, Bool.and_eq_true, decide_eq_true_eq]
      exact ⟨h.1, ih h.2⟩
    · exact Memory.wfFrom_mono (by omega) (ih h.2)

theorem Memory.wf_filter {m : Memory} (p : Host.Cell → Bool) (h : m.wf = true) : Memory.wf (m.filter p) = true :=
  Memory.wfFrom_filter p h

theorem Memory.wf_putCells {m : Memory} (l : List Host.Cell) (h : m.wf = true) :
    Memory.wf (l.foldl (fun m x => memPut m x.1 x.2) m) = true := by
  induction l generalizing m with
  | nil => exact h
  | cons e t ih => exact ih (Memory.wf_put e.1 e.2 h)

/-- A byte just written reads as written. -/
theorem memGet_put_same {lo : Nat} {m : Memory} (a : Nat) (b : Byte) (h : Memory.wfFrom lo m = true) :
    memGet (memPut m a b) a = b := by
  induction m generalizing lo with
  | nil =>
    unfold memPut
    split
    · rename_i hb; simp [memGet, hb]
    · simp [memGet]
  | cons e t ih =>
    obtain ⟨k, v⟩ := e
    have ht := h
    simp only [Memory.wfFrom, Bool.and_eq_true, decide_eq_true_eq] at ht
    unfold memPut
    split
    · rename_i hk
      split
      · rename_i hb
        unfold memGet
        rw [if_neg (by omega), if_pos hk, hb]
      · simp [memGet]
    · split
      · rename_i hk ha
        split
        · rename_i hb
          rw [memGet_below (lo := k + 1) ht.2 (by omega), hb]
        · simp [memGet]
      · rename_i h1 h2
        unfold memGet
        rw [if_neg (fun h => h2 h.symm), if_neg h1]
        exact ih ht.2

/-- Every other byte reads as before. -/
theorem memGet_put_other {lo : Nat} {m : Memory} (a c : Nat) (b : Byte) (h : Memory.wfFrom lo m = true) (hc : c ≠ a) :
    memGet (memPut m a b) c = memGet m c := by
  induction m generalizing lo with
  | nil =>
    unfold memPut
    split
    · rfl
    · simp only [memGet, if_neg (Ne.symm hc)]
      split <;> rfl
  | cons e t ih =>
    obtain ⟨k, v⟩ := e
    have ht := h
    simp only [Memory.wfFrom, Bool.and_eq_true, decide_eq_true_eq] at ht
    unfold memPut
    split
    · rename_i hk
      split
      · rfl
      · rw [show memGet ((a, b) :: (k, v) :: t) c = if a = c then b else if c < a then 0 else memGet ((k, v) :: t) c from rfl,
          if_neg (Ne.symm hc)]
        split
        · rename_i hl
          unfold memGet
          rw [if_neg (by omega), if_pos (by omega)]
        · rfl
    · split
      · rename_i hk ha
        subst ha
        split
        · rw [show memGet ((a, v) :: t) c = if a = c then v else if c < a then 0 else memGet t c from rfl, if_neg (Ne.symm hc)]
          split
          · rename_i hl
            exact memGet_below ht.2 (by omega)
          · rfl
        · simp [memGet, Ne.symm hc]
      · simp only [memGet]
        rw [ih ht.2]

/-- A byte outside a written range reads as before. -/
theorem memGet_set_other {m : Memory} (a c : Nat) (l : List Byte) (h : m.wf = true) (hc : c < a ∨ a + l.length ≤ c) :
    memGet (memSet m a l) c = memGet m c := by
  induction l generalizing m a with
  | nil => rfl
  | cons b t ih =>
    simp only [List.length_cons] at hc
    unfold memSet
    rw [ih (a + 1) (Memory.wf_put a b h) (by omega), memGet_put_other a c b h (by omega)]

/-- A written range reads back. -/
theorem memBytes_set {m : Memory} (a : Nat) (l : List Byte) (h : m.wf = true) : memBytes (memSet m a l) a l.length = l := by
  induction l generalizing m a with
  | nil => rfl
  | cons b t ih =>
    simp only [List.length_cons, memBytes, memSet]
    have hp := Memory.wf_put a b h
    rw [memGet_set_other (a + 1) a t hp (by omega), memGet_put_same a b h, ih (a + 1) hp]

/-- The n low bytes of a value read back as that value. -/
theorem leNat_leBytes (n v : Nat) : leNat (leBytes n v) = v % 256 ^ n := by
  induction n generalizing v with
  | zero => simp [leBytes, leNat, Nat.mod_one]
  | succ n ih =>
    rw [leBytes, leNat, ih, BitVec.toNat_ofNat, show (256 : Nat) ^ (n + 1) = 256 * 256 ^ n by omega, Nat.mod_mul]

@[simp] theorem leBytes_length (n v : Nat) : (leBytes n v).length = n := by
  induction n generalizing v with
  | zero => rfl
  | succ n ih => simp [leBytes, ih]

/-- A value just stored reads back. -/
theorem memNat_set {m : Memory} (a n v : Nat) (h : m.wf = true) (hv : v < 256 ^ n) : memNat (memSet m a (leBytes n v)) a n = v := by
  have := memBytes_set a (leBytes n v) h
  rw [leBytes_length] at this
  rw [memNat, this, leNat_leBytes, Nat.mod_eq_of_lt hv]

end Sys2Proof.Machine
end

