-- ==== Sys2Proof/Laws/State.lean ====
section
/-! SUPPORT. What each update of a record leaves of every other field: one lemma per update and field. -/
namespace Sys2Proof.Machine


/-! ### State -/

@[simp] theorem State.setCore_cycle (s : State) (g : Nat) (c : Core) : (s.setCore g c).cycle = s.cycle := rfl
@[simp] theorem State.setCore_turn (s : State) (g : Nat) (c : Core) : (s.setCore g c).turn = s.turn := rfl
@[simp] theorem State.setCore_cur (s : State) (g : Nat) (c : Core) : (s.setCore g c).cur = s.cur := rfl
@[simp] theorem State.setCore_agenda (s : State) (g : Nat) (c : Core) : (s.setCore g c).agenda = s.agenda := rfl
@[simp] theorem State.setCore_free (s : State) (g : Nat) (c : Core) : (s.setCore g c).free = s.free := rfl
@[simp] theorem State.setCore_pkgid (s : State) (g : Nat) (c : Core) : (s.setCore g c).pkgid = s.pkgid := rfl
@[simp] theorem State.setCore_mem (s : State) (g : Nat) (c : Core) : (s.setCore g c).mem = s.mem := rfl
@[simp] theorem State.setCore_poison (s : State) (g : Nat) (c : Core) : (s.setCore g c).poison = s.poison := rfl
@[simp] theorem State.setCore_owners (s : State) (g : Nat) (c : Core) : (s.setCore g c).owners = s.owners := rfl
@[simp] theorem State.setCore_clusters (s : State) (g : Nat) (c : Core) : (s.setCore g c).clusters = s.clusters := rfl
@[simp] theorem State.setCore_dies (s : State) (g : Nat) (c : Core) : (s.setCore g c).dies = s.dies := rfl
@[simp] theorem State.setCore_nodes (s : State) (g : Nat) (c : Core) : (s.setCore g c).nodes = s.nodes := rfl
@[simp] theorem State.setCore_regions (s : State) (g : Nat) (c : Core) : (s.setCore g c).regions = s.regions := rfl
@[simp] theorem State.setCore_pools (s : State) (g : Nat) (c : Core) : (s.setCore g c).pools = s.pools := rfl
@[simp] theorem State.setCore_doorbells (s : State) (g : Nat) (c : Core) : (s.setCore g c).doorbells = s.doorbells := rfl
@[simp] theorem State.setCore_peers (s : State) (g : Nat) (c : Core) : (s.setCore g c).peers = s.peers := rfl
@[simp] theorem State.setCore_outbox (s : State) (g : Nat) (c : Core) : (s.setCore g c).outbox = s.outbox := rfl
@[simp] theorem State.setCore_unacked (s : State) (g : Nat) (c : Core) : (s.setCore g c).unacked = s.unacked := rfl
@[simp] theorem State.setCore_awaiting (s : State) (g : Nat) (c : Core) : (s.setCore g c).awaiting = s.awaiting := rfl
@[simp] theorem State.setCore_txNext (s : State) (g : Nat) (c : Core) : (s.setCore g c).txNext = s.txNext := rfl
@[simp] theorem State.setCore_backlog (s : State) (g : Nat) (c : Core) : (s.setCore g c).backlog = s.backlog := rfl
@[simp] theorem State.setCore_remoteSignals (s : State) (g : Nat) (c : Core) : (s.setCore g c).remoteSignals = s.remoteSignals := rfl
@[simp] theorem State.setCore_links (s : State) (g : Nat) (c : Core) : (s.setCore g c).links = s.links := rfl
@[simp] theorem State.setCore_inbox (s : State) (g : Nat) (c : Core) : (s.setCore g c).inbox = s.inbox := rfl
@[simp] theorem State.setCore_colls (s : State) (g : Nat) (c : Core) : (s.setCore g c).colls = s.colls := rfl
@[simp] theorem State.setCore_remoteDone (s : State) (g : Nat) (c : Core) : (s.setCore g c).remoteDone = s.remoteDone := rfl
@[simp] theorem State.setCore_remoteResv (s : State) (g : Nat) (c : Core) : (s.setCore g c).remoteResv = s.remoteResv := rfl
@[simp] theorem State.setCore_sched (s : State) (g : Nat) (c : Core) : (s.setCore g c).sched = s.sched := rfl
@[simp] theorem State.setCore_host (s : State) (g : Nat) (c : Core) : (s.setCore g c).host = s.host := rfl
@[simp] theorem State.setCore_halted (s : State) (g : Nat) (c : Core) : (s.setCore g c).halted = s.halted := rfl
@[simp] theorem State.setCore_dump (s : State) (g : Nat) (c : Core) : (s.setCore g c).dump = s.dump := rfl
@[simp] theorem State.setCore_corrected (s : State) (g : Nat) (c : Core) : (s.setCore g c).corrected = s.corrected := rfl
@[simp] theorem State.setCore_uncorrected (s : State) (g : Nat) (c : Core) : (s.setCore g c).uncorrected = s.uncorrected := rfl
@[simp] theorem State.setCore_gated (s : State) (g : Nat) (c : Core) : (s.setCore g c).gated = s.gated := rfl
@[simp] theorem State.setCore_groups (s : State) (g : Nat) (c : Core) : (s.setCore g c).groups = s.groups := rfl
@[simp] theorem State.setCore_debugOut (s : State) (g : Nat) (c : Core) : (s.setCore g c).debugOut = s.debugOut := rfl
@[simp] theorem State.setCore_debugIn (s : State) (g : Nat) (c : Core) : (s.setCore g c).debugIn = s.debugIn := rfl
@[simp] theorem State.setCore_jtag (s : State) (g : Nat) (c : Core) : (s.setCore g c).jtag = s.jtag := rfl
@[simp] theorem State.setCore_held (s : State) (g : Nat) (c : Core) : (s.setCore g c).held = s.held := rfl
@[simp] theorem State.setCore_spdm (s : State) (g : Nat) (c : Core) : (s.setCore g c).spdm = s.spdm := rfl
@[simp] theorem State.setCore_areas (s : State) (g : Nat) (c : Core) : (s.setCore g c).areas = s.areas := rfl
@[simp] theorem State.setCore_side (s : State) (g : Nat) (c : Core) : (s.setCore g c).side = s.side := rfl
@[simp] theorem State.setCore_upset (s : State) (g : Nat) (c : Core) : (s.setCore g c).upset = s.upset := rfl
@[simp] theorem State.modCore_cycle (s : State) (g : Nat) (f : Core → Core) : (s.modCore g f).cycle = s.cycle := rfl
@[simp] theorem State.modCore_turn (s : State) (g : Nat) (f : Core → Core) : (s.modCore g f).turn = s.turn := rfl
@[simp] theorem State.modCore_cur (s : State) (g : Nat) (f : Core → Core) : (s.modCore g f).cur = s.cur := rfl
@[simp] theorem State.modCore_agenda (s : State) (g : Nat) (f : Core → Core) : (s.modCore g f).agenda = s.agenda := rfl
@[simp] theorem State.modCore_free (s : State) (g : Nat) (f : Core → Core) : (s.modCore g f).free = s.free := rfl
@[simp] theorem State.modCore_pkgid (s : State) (g : Nat) (f : Core → Core) : (s.modCore g f).pkgid = s.pkgid := rfl
@[simp] theorem State.modCore_mem (s : State) (g : Nat) (f : Core → Core) : (s.modCore g f).mem = s.mem := rfl
@[simp] theorem State.modCore_poison (s : State) (g : Nat) (f : Core → Core) : (s.modCore g f).poison = s.poison := rfl
@[simp] theorem State.modCore_owners (s : State) (g : Nat) (f : Core → Core) : (s.modCore g f).owners = s.owners := rfl
@[simp] theorem State.modCore_clusters (s : State) (g : Nat) (f : Core → Core) : (s.modCore g f).clusters = s.clusters := rfl
@[simp] theorem State.modCore_dies (s : State) (g : Nat) (f : Core → Core) : (s.modCore g f).dies = s.dies := rfl
@[simp] theorem State.modCore_nodes (s : State) (g : Nat) (f : Core → Core) : (s.modCore g f).nodes = s.nodes := rfl
@[simp] theorem State.modCore_regions (s : State) (g : Nat) (f : Core → Core) : (s.modCore g f).regions = s.regions := rfl
@[simp] theorem State.modCore_pools (s : State) (g : Nat) (f : Core → Core) : (s.modCore g f).pools = s.pools := rfl
@[simp] theorem State.modCore_doorbells (s : State) (g : Nat) (f : Core → Core) : (s.modCore g f).doorbells = s.doorbells := rfl
@[simp] theorem State.modCore_peers (s : State) (g : Nat) (f : Core → Core) : (s.modCore g f).peers = s.peers := rfl
@[simp] theorem State.modCore_outbox (s : State) (g : Nat) (f : Core → Core) : (s.modCore g f).outbox = s.outbox := rfl
@[simp] theorem State.modCore_unacked (s : State) (g : Nat) (f : Core → Core) : (s.modCore g f).unacked = s.unacked := rfl
@[simp] theorem State.modCore_awaiting (s : State) (g : Nat) (f : Core → Core) : (s.modCore g f).awaiting = s.awaiting := rfl
@[simp] theorem State.modCore_txNext (s : State) (g : Nat) (f : Core → Core) : (s.modCore g f).txNext = s.txNext := rfl
@[simp] theorem State.modCore_backlog (s : State) (g : Nat) (f : Core → Core) : (s.modCore g f).backlog = s.backlog := rfl
@[simp] theorem State.modCore_remoteSignals (s : State) (g : Nat) (f : Core → Core) : (s.modCore g f).remoteSignals = s.remoteSignals := rfl
@[simp] theorem State.modCore_links (s : State) (g : Nat) (f : Core → Core) : (s.modCore g f).links = s.links := rfl
@[simp] theorem State.modCore_inbox (s : State) (g : Nat) (f : Core → Core) : (s.modCore g f).inbox = s.inbox := rfl
@[simp] theorem State.modCore_colls (s : State) (g : Nat) (f : Core → Core) : (s.modCore g f).colls = s.colls := rfl
@[simp] theorem State.modCore_remoteDone (s : State) (g : Nat) (f : Core → Core) : (s.modCore g f).remoteDone = s.remoteDone := rfl
@[simp] theorem State.modCore_remoteResv (s : State) (g : Nat) (f : Core → Core) : (s.modCore g f).remoteResv = s.remoteResv := rfl
@[simp] theorem State.modCore_sched (s : State) (g : Nat) (f : Core → Core) : (s.modCore g f).sched = s.sched := rfl
@[simp] theorem State.modCore_host (s : State) (g : Nat) (f : Core → Core) : (s.modCore g f).host = s.host := rfl
@[simp] theorem State.modCore_halted (s : State) (g : Nat) (f : Core → Core) : (s.modCore g f).halted = s.halted := rfl
@[simp] theorem State.modCore_dump (s : State) (g : Nat) (f : Core → Core) : (s.modCore g f).dump = s.dump := rfl
@[simp] theorem State.modCore_corrected (s : State) (g : Nat) (f : Core → Core) : (s.modCore g f).corrected = s.corrected := rfl
@[simp] theorem State.modCore_uncorrected (s : State) (g : Nat) (f : Core → Core) : (s.modCore g f).uncorrected = s.uncorrected := rfl
@[simp] theorem State.modCore_gated (s : State) (g : Nat) (f : Core → Core) : (s.modCore g f).gated = s.gated := rfl
@[simp] theorem State.modCore_groups (s : State) (g : Nat) (f : Core → Core) : (s.modCore g f).groups = s.groups := rfl
@[simp] theorem State.modCore_debugOut (s : State) (g : Nat) (f : Core → Core) : (s.modCore g f).debugOut = s.debugOut := rfl
@[simp] theorem State.modCore_debugIn (s : State) (g : Nat) (f : Core → Core) : (s.modCore g f).debugIn = s.debugIn := rfl
@[simp] theorem State.modCore_jtag (s : State) (g : Nat) (f : Core → Core) : (s.modCore g f).jtag = s.jtag := rfl
@[simp] theorem State.modCore_held (s : State) (g : Nat) (f : Core → Core) : (s.modCore g f).held = s.held := rfl
@[simp] theorem State.modCore_spdm (s : State) (g : Nat) (f : Core → Core) : (s.modCore g f).spdm = s.spdm := rfl
@[simp] theorem State.modCore_areas (s : State) (g : Nat) (f : Core → Core) : (s.modCore g f).areas = s.areas := rfl
@[simp] theorem State.modCore_side (s : State) (g : Nat) (f : Core → Core) : (s.modCore g f).side = s.side := rfl
@[simp] theorem State.modCore_upset (s : State) (g : Nat) (f : Core → Core) : (s.modCore g f).upset = s.upset := rfl
@[simp] theorem State.setSeqAt_cycle (s : State) (g k : Nat) (q : Seq) : (s.setSeqAt g k q).cycle = s.cycle := rfl
@[simp] theorem State.setSeqAt_turn (s : State) (g k : Nat) (q : Seq) : (s.setSeqAt g k q).turn = s.turn := rfl
@[simp] theorem State.setSeqAt_cur (s : State) (g k : Nat) (q : Seq) : (s.setSeqAt g k q).cur = s.cur := rfl
@[simp] theorem State.setSeqAt_agenda (s : State) (g k : Nat) (q : Seq) : (s.setSeqAt g k q).agenda = s.agenda := rfl
@[simp] theorem State.setSeqAt_free (s : State) (g k : Nat) (q : Seq) : (s.setSeqAt g k q).free = s.free := rfl
@[simp] theorem State.setSeqAt_pkgid (s : State) (g k : Nat) (q : Seq) : (s.setSeqAt g k q).pkgid = s.pkgid := rfl
@[simp] theorem State.setSeqAt_mem (s : State) (g k : Nat) (q : Seq) : (s.setSeqAt g k q).mem = s.mem := rfl
@[simp] theorem State.setSeqAt_poison (s : State) (g k : Nat) (q : Seq) : (s.setSeqAt g k q).poison = s.poison := rfl
@[simp] theorem State.setSeqAt_owners (s : State) (g k : Nat) (q : Seq) : (s.setSeqAt g k q).owners = s.owners := rfl
@[simp] theorem State.setSeqAt_clusters (s : State) (g k : Nat) (q : Seq) : (s.setSeqAt g k q).clusters = s.clusters := rfl
@[simp] theorem State.setSeqAt_dies (s : State) (g k : Nat) (q : Seq) : (s.setSeqAt g k q).dies = s.dies := rfl
@[simp] theorem State.setSeqAt_nodes (s : State) (g k : Nat) (q : Seq) : (s.setSeqAt g k q).nodes = s.nodes := rfl
@[simp] theorem State.setSeqAt_regions (s : State) (g k : Nat) (q : Seq) : (s.setSeqAt g k q).regions = s.regions := rfl
@[simp] theorem State.setSeqAt_pools (s : State) (g k : Nat) (q : Seq) : (s.setSeqAt g k q).pools = s.pools := rfl
@[simp] theorem State.setSeqAt_doorbells (s : State) (g k : Nat) (q : Seq) : (s.setSeqAt g k q).doorbells = s.doorbells := rfl
@[simp] theorem State.setSeqAt_peers (s : State) (g k : Nat) (q : Seq) : (s.setSeqAt g k q).peers = s.peers := rfl
@[simp] theorem State.setSeqAt_outbox (s : State) (g k : Nat) (q : Seq) : (s.setSeqAt g k q).outbox = s.outbox := rfl
@[simp] theorem State.setSeqAt_unacked (s : State) (g k : Nat) (q : Seq) : (s.setSeqAt g k q).unacked = s.unacked := rfl
@[simp] theorem State.setSeqAt_awaiting (s : State) (g k : Nat) (q : Seq) : (s.setSeqAt g k q).awaiting = s.awaiting := rfl
@[simp] theorem State.setSeqAt_txNext (s : State) (g k : Nat) (q : Seq) : (s.setSeqAt g k q).txNext = s.txNext := rfl
@[simp] theorem State.setSeqAt_backlog (s : State) (g k : Nat) (q : Seq) : (s.setSeqAt g k q).backlog = s.backlog := rfl
@[simp] theorem State.setSeqAt_remoteSignals (s : State) (g k : Nat) (q : Seq) : (s.setSeqAt g k q).remoteSignals = s.remoteSignals := rfl
@[simp] theorem State.setSeqAt_links (s : State) (g k : Nat) (q : Seq) : (s.setSeqAt g k q).links = s.links := rfl
@[simp] theorem State.setSeqAt_inbox (s : State) (g k : Nat) (q : Seq) : (s.setSeqAt g k q).inbox = s.inbox := rfl
@[simp] theorem State.setSeqAt_colls (s : State) (g k : Nat) (q : Seq) : (s.setSeqAt g k q).colls = s.colls := rfl
@[simp] theorem State.setSeqAt_remoteDone (s : State) (g k : Nat) (q : Seq) : (s.setSeqAt g k q).remoteDone = s.remoteDone := rfl
@[simp] theorem State.setSeqAt_remoteResv (s : State) (g k : Nat) (q : Seq) : (s.setSeqAt g k q).remoteResv = s.remoteResv := rfl
@[simp] theorem State.setSeqAt_sched (s : State) (g k : Nat) (q : Seq) : (s.setSeqAt g k q).sched = s.sched := rfl
@[simp] theorem State.setSeqAt_host (s : State) (g k : Nat) (q : Seq) : (s.setSeqAt g k q).host = s.host := rfl
@[simp] theorem State.setSeqAt_halted (s : State) (g k : Nat) (q : Seq) : (s.setSeqAt g k q).halted = s.halted := rfl
@[simp] theorem State.setSeqAt_dump (s : State) (g k : Nat) (q : Seq) : (s.setSeqAt g k q).dump = s.dump := rfl
@[simp] theorem State.setSeqAt_corrected (s : State) (g k : Nat) (q : Seq) : (s.setSeqAt g k q).corrected = s.corrected := rfl
@[simp] theorem State.setSeqAt_uncorrected (s : State) (g k : Nat) (q : Seq) : (s.setSeqAt g k q).uncorrected = s.uncorrected := rfl
@[simp] theorem State.setSeqAt_gated (s : State) (g k : Nat) (q : Seq) : (s.setSeqAt g k q).gated = s.gated := rfl
@[simp] theorem State.setSeqAt_groups (s : State) (g k : Nat) (q : Seq) : (s.setSeqAt g k q).groups = s.groups := rfl
@[simp] theorem State.setSeqAt_debugOut (s : State) (g k : Nat) (q : Seq) : (s.setSeqAt g k q).debugOut = s.debugOut := rfl
@[simp] theorem State.setSeqAt_debugIn (s : State) (g k : Nat) (q : Seq) : (s.setSeqAt g k q).debugIn = s.debugIn := rfl
@[simp] theorem State.setSeqAt_jtag (s : State) (g k : Nat) (q : Seq) : (s.setSeqAt g k q).jtag = s.jtag := rfl
@[simp] theorem State.setSeqAt_held (s : State) (g k : Nat) (q : Seq) : (s.setSeqAt g k q).held = s.held := rfl
@[simp] theorem State.setSeqAt_spdm (s : State) (g k : Nat) (q : Seq) : (s.setSeqAt g k q).spdm = s.spdm := rfl
@[simp] theorem State.setSeqAt_areas (s : State) (g k : Nat) (q : Seq) : (s.setSeqAt g k q).areas = s.areas := rfl
@[simp] theorem State.setSeqAt_side (s : State) (g k : Nat) (q : Seq) : (s.setSeqAt g k q).side = s.side := rfl
@[simp] theorem State.setSeqAt_upset (s : State) (g k : Nat) (q : Seq) : (s.setSeqAt g k q).upset = s.upset := rfl
@[simp] theorem State.modSeqAt_cycle (s : State) (g k : Nat) (f : Seq → Seq) : (s.modSeqAt g k f).cycle = s.cycle := rfl
@[simp] theorem State.modSeqAt_turn (s : State) (g k : Nat) (f : Seq → Seq) : (s.modSeqAt g k f).turn = s.turn := rfl
@[simp] theorem State.modSeqAt_cur (s : State) (g k : Nat) (f : Seq → Seq) : (s.modSeqAt g k f).cur = s.cur := rfl
@[simp] theorem State.modSeqAt_agenda (s : State) (g k : Nat) (f : Seq → Seq) : (s.modSeqAt g k f).agenda = s.agenda := rfl
@[simp] theorem State.modSeqAt_free (s : State) (g k : Nat) (f : Seq → Seq) : (s.modSeqAt g k f).free = s.free := rfl
@[simp] theorem State.modSeqAt_pkgid (s : State) (g k : Nat) (f : Seq → Seq) : (s.modSeqAt g k f).pkgid = s.pkgid := rfl
@[simp] theorem State.modSeqAt_mem (s : State) (g k : Nat) (f : Seq → Seq) : (s.modSeqAt g k f).mem = s.mem := rfl
@[simp] theorem State.modSeqAt_poison (s : State) (g k : Nat) (f : Seq → Seq) : (s.modSeqAt g k f).poison = s.poison := rfl
@[simp] theorem State.modSeqAt_owners (s : State) (g k : Nat) (f : Seq → Seq) : (s.modSeqAt g k f).owners = s.owners := rfl
@[simp] theorem State.modSeqAt_clusters (s : State) (g k : Nat) (f : Seq → Seq) : (s.modSeqAt g k f).clusters = s.clusters := rfl
@[simp] theorem State.modSeqAt_dies (s : State) (g k : Nat) (f : Seq → Seq) : (s.modSeqAt g k f).dies = s.dies := rfl
@[simp] theorem State.modSeqAt_nodes (s : State) (g k : Nat) (f : Seq → Seq) : (s.modSeqAt g k f).nodes = s.nodes := rfl
@[simp] theorem State.modSeqAt_regions (s : State) (g k : Nat) (f : Seq → Seq) : (s.modSeqAt g k f).regions = s.regions := rfl
@[simp] theorem State.modSeqAt_pools (s : State) (g k : Nat) (f : Seq → Seq) : (s.modSeqAt g k f).pools = s.pools := rfl
@[simp] theorem State.modSeqAt_doorbells (s : State) (g k : Nat) (f : Seq → Seq) : (s.modSeqAt g k f).doorbells = s.doorbells := rfl
@[simp] theorem State.modSeqAt_peers (s : State) (g k : Nat) (f : Seq → Seq) : (s.modSeqAt g k f).peers = s.peers := rfl
@[simp] theorem State.modSeqAt_outbox (s : State) (g k : Nat) (f : Seq → Seq) : (s.modSeqAt g k f).outbox = s.outbox := rfl
@[simp] theorem State.modSeqAt_unacked (s : State) (g k : Nat) (f : Seq → Seq) : (s.modSeqAt g k f).unacked = s.unacked := rfl
@[simp] theorem State.modSeqAt_awaiting (s : State) (g k : Nat) (f : Seq → Seq) : (s.modSeqAt g k f).awaiting = s.awaiting := rfl
@[simp] theorem State.modSeqAt_txNext (s : State) (g k : Nat) (f : Seq → Seq) : (s.modSeqAt g k f).txNext = s.txNext := rfl
@[simp] theorem State.modSeqAt_backlog (s : State) (g k : Nat) (f : Seq → Seq) : (s.modSeqAt g k f).backlog = s.backlog := rfl
@[simp] theorem State.modSeqAt_remoteSignals (s : State) (g k : Nat) (f : Seq → Seq) : (s.modSeqAt g k f).remoteSignals = s.remoteSignals := rfl
@[simp] theorem State.modSeqAt_links (s : State) (g k : Nat) (f : Seq → Seq) : (s.modSeqAt g k f).links = s.links := rfl
@[simp] theorem State.modSeqAt_inbox (s : State) (g k : Nat) (f : Seq → Seq) : (s.modSeqAt g k f).inbox = s.inbox := rfl
@[simp] theorem State.modSeqAt_colls (s : State) (g k : Nat) (f : Seq → Seq) : (s.modSeqAt g k f).colls = s.colls := rfl
@[simp] theorem State.modSeqAt_remoteDone (s : State) (g k : Nat) (f : Seq → Seq) : (s.modSeqAt g k f).remoteDone = s.remoteDone := rfl
@[simp] theorem State.modSeqAt_remoteResv (s : State) (g k : Nat) (f : Seq → Seq) : (s.modSeqAt g k f).remoteResv = s.remoteResv := rfl
@[simp] theorem State.modSeqAt_sched (s : State) (g k : Nat) (f : Seq → Seq) : (s.modSeqAt g k f).sched = s.sched := rfl
@[simp] theorem State.modSeqAt_host (s : State) (g k : Nat) (f : Seq → Seq) : (s.modSeqAt g k f).host = s.host := rfl
@[simp] theorem State.modSeqAt_halted (s : State) (g k : Nat) (f : Seq → Seq) : (s.modSeqAt g k f).halted = s.halted := rfl
@[simp] theorem State.modSeqAt_dump (s : State) (g k : Nat) (f : Seq → Seq) : (s.modSeqAt g k f).dump = s.dump := rfl
@[simp] theorem State.modSeqAt_corrected (s : State) (g k : Nat) (f : Seq → Seq) : (s.modSeqAt g k f).corrected = s.corrected := rfl
@[simp] theorem State.modSeqAt_uncorrected (s : State) (g k : Nat) (f : Seq → Seq) : (s.modSeqAt g k f).uncorrected = s.uncorrected := rfl
@[simp] theorem State.modSeqAt_gated (s : State) (g k : Nat) (f : Seq → Seq) : (s.modSeqAt g k f).gated = s.gated := rfl
@[simp] theorem State.modSeqAt_groups (s : State) (g k : Nat) (f : Seq → Seq) : (s.modSeqAt g k f).groups = s.groups := rfl
@[simp] theorem State.modSeqAt_debugOut (s : State) (g k : Nat) (f : Seq → Seq) : (s.modSeqAt g k f).debugOut = s.debugOut := rfl
@[simp] theorem State.modSeqAt_debugIn (s : State) (g k : Nat) (f : Seq → Seq) : (s.modSeqAt g k f).debugIn = s.debugIn := rfl
@[simp] theorem State.modSeqAt_jtag (s : State) (g k : Nat) (f : Seq → Seq) : (s.modSeqAt g k f).jtag = s.jtag := rfl
@[simp] theorem State.modSeqAt_held (s : State) (g k : Nat) (f : Seq → Seq) : (s.modSeqAt g k f).held = s.held := rfl
@[simp] theorem State.modSeqAt_spdm (s : State) (g k : Nat) (f : Seq → Seq) : (s.modSeqAt g k f).spdm = s.spdm := rfl
@[simp] theorem State.modSeqAt_areas (s : State) (g k : Nat) (f : Seq → Seq) : (s.modSeqAt g k f).areas = s.areas := rfl
@[simp] theorem State.modSeqAt_side (s : State) (g k : Nat) (f : Seq → Seq) : (s.modSeqAt g k f).side = s.side := rfl
@[simp] theorem State.modSeqAt_upset (s : State) (g k : Nat) (f : Seq → Seq) : (s.modSeqAt g k f).upset = s.upset := rfl
@[simp] theorem State.setMe_cycle (s : State) (q : Seq) : (s.setMe q).cycle = s.cycle := rfl
@[simp] theorem State.setMe_turn (s : State) (q : Seq) : (s.setMe q).turn = s.turn := rfl
@[simp] theorem State.setMe_cur (s : State) (q : Seq) : (s.setMe q).cur = s.cur := rfl
@[simp] theorem State.setMe_agenda (s : State) (q : Seq) : (s.setMe q).agenda = s.agenda := rfl
@[simp] theorem State.setMe_free (s : State) (q : Seq) : (s.setMe q).free = s.free := rfl
@[simp] theorem State.setMe_pkgid (s : State) (q : Seq) : (s.setMe q).pkgid = s.pkgid := rfl
@[simp] theorem State.setMe_mem (s : State) (q : Seq) : (s.setMe q).mem = s.mem := rfl
@[simp] theorem State.setMe_poison (s : State) (q : Seq) : (s.setMe q).poison = s.poison := rfl
@[simp] theorem State.setMe_owners (s : State) (q : Seq) : (s.setMe q).owners = s.owners := rfl
@[simp] theorem State.setMe_clusters (s : State) (q : Seq) : (s.setMe q).clusters = s.clusters := rfl
@[simp] theorem State.setMe_dies (s : State) (q : Seq) : (s.setMe q).dies = s.dies := rfl
@[simp] theorem State.setMe_nodes (s : State) (q : Seq) : (s.setMe q).nodes = s.nodes := rfl
@[simp] theorem State.setMe_regions (s : State) (q : Seq) : (s.setMe q).regions = s.regions := rfl
@[simp] theorem State.setMe_pools (s : State) (q : Seq) : (s.setMe q).pools = s.pools := rfl
@[simp] theorem State.setMe_doorbells (s : State) (q : Seq) : (s.setMe q).doorbells = s.doorbells := rfl
@[simp] theorem State.setMe_peers (s : State) (q : Seq) : (s.setMe q).peers = s.peers := rfl
@[simp] theorem State.setMe_outbox (s : State) (q : Seq) : (s.setMe q).outbox = s.outbox := rfl
@[simp] theorem State.setMe_unacked (s : State) (q : Seq) : (s.setMe q).unacked = s.unacked := rfl
@[simp] theorem State.setMe_awaiting (s : State) (q : Seq) : (s.setMe q).awaiting = s.awaiting := rfl
@[simp] theorem State.setMe_txNext (s : State) (q : Seq) : (s.setMe q).txNext = s.txNext := rfl
@[simp] theorem State.setMe_backlog (s : State) (q : Seq) : (s.setMe q).backlog = s.backlog := rfl
@[simp] theorem State.setMe_remoteSignals (s : State) (q : Seq) : (s.setMe q).remoteSignals = s.remoteSignals := rfl
@[simp] theorem State.setMe_links (s : State) (q : Seq) : (s.setMe q).links = s.links := rfl
@[simp] theorem State.setMe_inbox (s : State) (q : Seq) : (s.setMe q).inbox = s.inbox := rfl
@[simp] theorem State.setMe_colls (s : State) (q : Seq) : (s.setMe q).colls = s.colls := rfl
@[simp] theorem State.setMe_remoteDone (s : State) (q : Seq) : (s.setMe q).remoteDone = s.remoteDone := rfl
@[simp] theorem State.setMe_remoteResv (s : State) (q : Seq) : (s.setMe q).remoteResv = s.remoteResv := rfl
@[simp] theorem State.setMe_sched (s : State) (q : Seq) : (s.setMe q).sched = s.sched := rfl
@[simp] theorem State.setMe_host (s : State) (q : Seq) : (s.setMe q).host = s.host := rfl
@[simp] theorem State.setMe_halted (s : State) (q : Seq) : (s.setMe q).halted = s.halted := rfl
@[simp] theorem State.setMe_dump (s : State) (q : Seq) : (s.setMe q).dump = s.dump := rfl
@[simp] theorem State.setMe_corrected (s : State) (q : Seq) : (s.setMe q).corrected = s.corrected := rfl
@[simp] theorem State.setMe_uncorrected (s : State) (q : Seq) : (s.setMe q).uncorrected = s.uncorrected := rfl
@[simp] theorem State.setMe_gated (s : State) (q : Seq) : (s.setMe q).gated = s.gated := rfl
@[simp] theorem State.setMe_groups (s : State) (q : Seq) : (s.setMe q).groups = s.groups := rfl
@[simp] theorem State.setMe_debugOut (s : State) (q : Seq) : (s.setMe q).debugOut = s.debugOut := rfl
@[simp] theorem State.setMe_debugIn (s : State) (q : Seq) : (s.setMe q).debugIn = s.debugIn := rfl
@[simp] theorem State.setMe_jtag (s : State) (q : Seq) : (s.setMe q).jtag = s.jtag := rfl
@[simp] theorem State.setMe_held (s : State) (q : Seq) : (s.setMe q).held = s.held := rfl
@[simp] theorem State.setMe_spdm (s : State) (q : Seq) : (s.setMe q).spdm = s.spdm := rfl
@[simp] theorem State.setMe_areas (s : State) (q : Seq) : (s.setMe q).areas = s.areas := rfl
@[simp] theorem State.setMe_side (s : State) (q : Seq) : (s.setMe q).side = s.side := rfl
@[simp] theorem State.setMe_upset (s : State) (q : Seq) : (s.setMe q).upset = s.upset := rfl
@[simp] theorem State.modRegs_cycle (s : State) (f : Regs → Regs) : (s.modRegs f).cycle = s.cycle := rfl
@[simp] theorem State.modRegs_turn (s : State) (f : Regs → Regs) : (s.modRegs f).turn = s.turn := rfl
@[simp] theorem State.modRegs_cur (s : State) (f : Regs → Regs) : (s.modRegs f).cur = s.cur := rfl
@[simp] theorem State.modRegs_agenda (s : State) (f : Regs → Regs) : (s.modRegs f).agenda = s.agenda := rfl
@[simp] theorem State.modRegs_free (s : State) (f : Regs → Regs) : (s.modRegs f).free = s.free := rfl
@[simp] theorem State.modRegs_pkgid (s : State) (f : Regs → Regs) : (s.modRegs f).pkgid = s.pkgid := rfl
@[simp] theorem State.modRegs_mem (s : State) (f : Regs → Regs) : (s.modRegs f).mem = s.mem := rfl
@[simp] theorem State.modRegs_poison (s : State) (f : Regs → Regs) : (s.modRegs f).poison = s.poison := rfl
@[simp] theorem State.modRegs_owners (s : State) (f : Regs → Regs) : (s.modRegs f).owners = s.owners := rfl
@[simp] theorem State.modRegs_clusters (s : State) (f : Regs → Regs) : (s.modRegs f).clusters = s.clusters := rfl
@[simp] theorem State.modRegs_dies (s : State) (f : Regs → Regs) : (s.modRegs f).dies = s.dies := rfl
@[simp] theorem State.modRegs_nodes (s : State) (f : Regs → Regs) : (s.modRegs f).nodes = s.nodes := rfl
@[simp] theorem State.modRegs_regions (s : State) (f : Regs → Regs) : (s.modRegs f).regions = s.regions := rfl
@[simp] theorem State.modRegs_pools (s : State) (f : Regs → Regs) : (s.modRegs f).pools = s.pools := rfl
@[simp] theorem State.modRegs_doorbells (s : State) (f : Regs → Regs) : (s.modRegs f).doorbells = s.doorbells := rfl
@[simp] theorem State.modRegs_peers (s : State) (f : Regs → Regs) : (s.modRegs f).peers = s.peers := rfl
@[simp] theorem State.modRegs_outbox (s : State) (f : Regs → Regs) : (s.modRegs f).outbox = s.outbox := rfl
@[simp] theorem State.modRegs_unacked (s : State) (f : Regs → Regs) : (s.modRegs f).unacked = s.unacked := rfl
@[simp] theorem State.modRegs_awaiting (s : State) (f : Regs → Regs) : (s.modRegs f).awaiting = s.awaiting := rfl
@[simp] theorem State.modRegs_txNext (s : State) (f : Regs → Regs) : (s.modRegs f).txNext = s.txNext := rfl
@[simp] theorem State.modRegs_backlog (s : State) (f : Regs → Regs) : (s.modRegs f).backlog = s.backlog := rfl
@[simp] theorem State.modRegs_remoteSignals (s : State) (f : Regs → Regs) : (s.modRegs f).remoteSignals = s.remoteSignals := rfl
@[simp] theorem State.modRegs_links (s : State) (f : Regs → Regs) : (s.modRegs f).links = s.links := rfl
@[simp] theorem State.modRegs_inbox (s : State) (f : Regs → Regs) : (s.modRegs f).inbox = s.inbox := rfl
@[simp] theorem State.modRegs_colls (s : State) (f : Regs → Regs) : (s.modRegs f).colls = s.colls := rfl
@[simp] theorem State.modRegs_remoteDone (s : State) (f : Regs → Regs) : (s.modRegs f).remoteDone = s.remoteDone := rfl
@[simp] theorem State.modRegs_remoteResv (s : State) (f : Regs → Regs) : (s.modRegs f).remoteResv = s.remoteResv := rfl
@[simp] theorem State.modRegs_sched (s : State) (f : Regs → Regs) : (s.modRegs f).sched = s.sched := rfl
@[simp] theorem State.modRegs_host (s : State) (f : Regs → Regs) : (s.modRegs f).host = s.host := rfl
@[simp] theorem State.modRegs_halted (s : State) (f : Regs → Regs) : (s.modRegs f).halted = s.halted := rfl
@[simp] theorem State.modRegs_dump (s : State) (f : Regs → Regs) : (s.modRegs f).dump = s.dump := rfl
@[simp] theorem State.modRegs_corrected (s : State) (f : Regs → Regs) : (s.modRegs f).corrected = s.corrected := rfl
@[simp] theorem State.modRegs_uncorrected (s : State) (f : Regs → Regs) : (s.modRegs f).uncorrected = s.uncorrected := rfl
@[simp] theorem State.modRegs_gated (s : State) (f : Regs → Regs) : (s.modRegs f).gated = s.gated := rfl
@[simp] theorem State.modRegs_groups (s : State) (f : Regs → Regs) : (s.modRegs f).groups = s.groups := rfl
@[simp] theorem State.modRegs_debugOut (s : State) (f : Regs → Regs) : (s.modRegs f).debugOut = s.debugOut := rfl
@[simp] theorem State.modRegs_debugIn (s : State) (f : Regs → Regs) : (s.modRegs f).debugIn = s.debugIn := rfl
@[simp] theorem State.modRegs_jtag (s : State) (f : Regs → Regs) : (s.modRegs f).jtag = s.jtag := rfl
@[simp] theorem State.modRegs_held (s : State) (f : Regs → Regs) : (s.modRegs f).held = s.held := rfl
@[simp] theorem State.modRegs_spdm (s : State) (f : Regs → Regs) : (s.modRegs f).spdm = s.spdm := rfl
@[simp] theorem State.modRegs_areas (s : State) (f : Regs → Regs) : (s.modRegs f).areas = s.areas := rfl
@[simp] theorem State.modRegs_side (s : State) (f : Regs → Regs) : (s.modRegs f).side = s.side := rfl
@[simp] theorem State.modRegs_upset (s : State) (f : Regs → Regs) : (s.modRegs f).upset = s.upset := rfl
@[simp] theorem State.wx_cycle (s : State) (i : XReg) (w : Word) : (s.wx i w).cycle = s.cycle := rfl
@[simp] theorem State.wx_turn (s : State) (i : XReg) (w : Word) : (s.wx i w).turn = s.turn := rfl
@[simp] theorem State.wx_cur (s : State) (i : XReg) (w : Word) : (s.wx i w).cur = s.cur := rfl
@[simp] theorem State.wx_agenda (s : State) (i : XReg) (w : Word) : (s.wx i w).agenda = s.agenda := rfl
@[simp] theorem State.wx_free (s : State) (i : XReg) (w : Word) : (s.wx i w).free = s.free := rfl
@[simp] theorem State.wx_pkgid (s : State) (i : XReg) (w : Word) : (s.wx i w).pkgid = s.pkgid := rfl
@[simp] theorem State.wx_mem (s : State) (i : XReg) (w : Word) : (s.wx i w).mem = s.mem := rfl
@[simp] theorem State.wx_poison (s : State) (i : XReg) (w : Word) : (s.wx i w).poison = s.poison := rfl
@[simp] theorem State.wx_owners (s : State) (i : XReg) (w : Word) : (s.wx i w).owners = s.owners := rfl
@[simp] theorem State.wx_clusters (s : State) (i : XReg) (w : Word) : (s.wx i w).clusters = s.clusters := rfl
@[simp] theorem State.wx_dies (s : State) (i : XReg) (w : Word) : (s.wx i w).dies = s.dies := rfl
@[simp] theorem State.wx_nodes (s : State) (i : XReg) (w : Word) : (s.wx i w).nodes = s.nodes := rfl
@[simp] theorem State.wx_regions (s : State) (i : XReg) (w : Word) : (s.wx i w).regions = s.regions := rfl
@[simp] theorem State.wx_pools (s : State) (i : XReg) (w : Word) : (s.wx i w).pools = s.pools := rfl
@[simp] theorem State.wx_doorbells (s : State) (i : XReg) (w : Word) : (s.wx i w).doorbells = s.doorbells := rfl
@[simp] theorem State.wx_peers (s : State) (i : XReg) (w : Word) : (s.wx i w).peers = s.peers := rfl
@[simp] theorem State.wx_outbox (s : State) (i : XReg) (w : Word) : (s.wx i w).outbox = s.outbox := rfl
@[simp] theorem State.wx_unacked (s : State) (i : XReg) (w : Word) : (s.wx i w).unacked = s.unacked := rfl
@[simp] theorem State.wx_awaiting (s : State) (i : XReg) (w : Word) : (s.wx i w).awaiting = s.awaiting := rfl
@[simp] theorem State.wx_txNext (s : State) (i : XReg) (w : Word) : (s.wx i w).txNext = s.txNext := rfl
@[simp] theorem State.wx_backlog (s : State) (i : XReg) (w : Word) : (s.wx i w).backlog = s.backlog := rfl
@[simp] theorem State.wx_remoteSignals (s : State) (i : XReg) (w : Word) : (s.wx i w).remoteSignals = s.remoteSignals := rfl
@[simp] theorem State.wx_links (s : State) (i : XReg) (w : Word) : (s.wx i w).links = s.links := rfl
@[simp] theorem State.wx_inbox (s : State) (i : XReg) (w : Word) : (s.wx i w).inbox = s.inbox := rfl
@[simp] theorem State.wx_colls (s : State) (i : XReg) (w : Word) : (s.wx i w).colls = s.colls := rfl
@[simp] theorem State.wx_remoteDone (s : State) (i : XReg) (w : Word) : (s.wx i w).remoteDone = s.remoteDone := rfl
@[simp] theorem State.wx_remoteResv (s : State) (i : XReg) (w : Word) : (s.wx i w).remoteResv = s.remoteResv := rfl
@[simp] theorem State.wx_sched (s : State) (i : XReg) (w : Word) : (s.wx i w).sched = s.sched := rfl
@[simp] theorem State.wx_host (s : State) (i : XReg) (w : Word) : (s.wx i w).host = s.host := rfl
@[simp] theorem State.wx_halted (s : State) (i : XReg) (w : Word) : (s.wx i w).halted = s.halted := rfl
@[simp] theorem State.wx_dump (s : State) (i : XReg) (w : Word) : (s.wx i w).dump = s.dump := rfl
@[simp] theorem State.wx_corrected (s : State) (i : XReg) (w : Word) : (s.wx i w).corrected = s.corrected := rfl
@[simp] theorem State.wx_uncorrected (s : State) (i : XReg) (w : Word) : (s.wx i w).uncorrected = s.uncorrected := rfl
@[simp] theorem State.wx_gated (s : State) (i : XReg) (w : Word) : (s.wx i w).gated = s.gated := rfl
@[simp] theorem State.wx_groups (s : State) (i : XReg) (w : Word) : (s.wx i w).groups = s.groups := rfl
@[simp] theorem State.wx_debugOut (s : State) (i : XReg) (w : Word) : (s.wx i w).debugOut = s.debugOut := rfl
@[simp] theorem State.wx_debugIn (s : State) (i : XReg) (w : Word) : (s.wx i w).debugIn = s.debugIn := rfl
@[simp] theorem State.wx_jtag (s : State) (i : XReg) (w : Word) : (s.wx i w).jtag = s.jtag := rfl
@[simp] theorem State.wx_held (s : State) (i : XReg) (w : Word) : (s.wx i w).held = s.held := rfl
@[simp] theorem State.wx_spdm (s : State) (i : XReg) (w : Word) : (s.wx i w).spdm = s.spdm := rfl
@[simp] theorem State.wx_areas (s : State) (i : XReg) (w : Word) : (s.wx i w).areas = s.areas := rfl
@[simp] theorem State.wx_side (s : State) (i : XReg) (w : Word) : (s.wx i w).side = s.side := rfl
@[simp] theorem State.wx_upset (s : State) (i : XReg) (w : Word) : (s.wx i w).upset = s.upset := rfl
@[simp] theorem State.wf_cycle (s : State) (i : XReg) (w : Word32) : (s.wf i w).cycle = s.cycle := rfl
@[simp] theorem State.wf_turn (s : State) (i : XReg) (w : Word32) : (s.wf i w).turn = s.turn := rfl
@[simp] theorem State.wf_cur (s : State) (i : XReg) (w : Word32) : (s.wf i w).cur = s.cur := rfl
@[simp] theorem State.wf_agenda (s : State) (i : XReg) (w : Word32) : (s.wf i w).agenda = s.agenda := rfl
@[simp] theorem State.wf_free (s : State) (i : XReg) (w : Word32) : (s.wf i w).free = s.free := rfl
@[simp] theorem State.wf_pkgid (s : State) (i : XReg) (w : Word32) : (s.wf i w).pkgid = s.pkgid := rfl
@[simp] theorem State.wf_mem (s : State) (i : XReg) (w : Word32) : (s.wf i w).mem = s.mem := rfl
@[simp] theorem State.wf_poison (s : State) (i : XReg) (w : Word32) : (s.wf i w).poison = s.poison := rfl
@[simp] theorem State.wf_owners (s : State) (i : XReg) (w : Word32) : (s.wf i w).owners = s.owners := rfl
@[simp] theorem State.wf_clusters (s : State) (i : XReg) (w : Word32) : (s.wf i w).clusters = s.clusters := rfl
@[simp] theorem State.wf_dies (s : State) (i : XReg) (w : Word32) : (s.wf i w).dies = s.dies := rfl
@[simp] theorem State.wf_nodes (s : State) (i : XReg) (w : Word32) : (s.wf i w).nodes = s.nodes := rfl
@[simp] theorem State.wf_regions (s : State) (i : XReg) (w : Word32) : (s.wf i w).regions = s.regions := rfl
@[simp] theorem State.wf_pools (s : State) (i : XReg) (w : Word32) : (s.wf i w).pools = s.pools := rfl
@[simp] theorem State.wf_doorbells (s : State) (i : XReg) (w : Word32) : (s.wf i w).doorbells = s.doorbells := rfl
@[simp] theorem State.wf_peers (s : State) (i : XReg) (w : Word32) : (s.wf i w).peers = s.peers := rfl
@[simp] theorem State.wf_outbox (s : State) (i : XReg) (w : Word32) : (s.wf i w).outbox = s.outbox := rfl
@[simp] theorem State.wf_unacked (s : State) (i : XReg) (w : Word32) : (s.wf i w).unacked = s.unacked := rfl
@[simp] theorem State.wf_awaiting (s : State) (i : XReg) (w : Word32) : (s.wf i w).awaiting = s.awaiting := rfl
@[simp] theorem State.wf_txNext (s : State) (i : XReg) (w : Word32) : (s.wf i w).txNext = s.txNext := rfl
@[simp] theorem State.wf_backlog (s : State) (i : XReg) (w : Word32) : (s.wf i w).backlog = s.backlog := rfl
@[simp] theorem State.wf_remoteSignals (s : State) (i : XReg) (w : Word32) : (s.wf i w).remoteSignals = s.remoteSignals := rfl
@[simp] theorem State.wf_links (s : State) (i : XReg) (w : Word32) : (s.wf i w).links = s.links := rfl
@[simp] theorem State.wf_inbox (s : State) (i : XReg) (w : Word32) : (s.wf i w).inbox = s.inbox := rfl
@[simp] theorem State.wf_colls (s : State) (i : XReg) (w : Word32) : (s.wf i w).colls = s.colls := rfl
@[simp] theorem State.wf_remoteDone (s : State) (i : XReg) (w : Word32) : (s.wf i w).remoteDone = s.remoteDone := rfl
@[simp] theorem State.wf_remoteResv (s : State) (i : XReg) (w : Word32) : (s.wf i w).remoteResv = s.remoteResv := rfl
@[simp] theorem State.wf_sched (s : State) (i : XReg) (w : Word32) : (s.wf i w).sched = s.sched := rfl
@[simp] theorem State.wf_host (s : State) (i : XReg) (w : Word32) : (s.wf i w).host = s.host := rfl
@[simp] theorem State.wf_halted (s : State) (i : XReg) (w : Word32) : (s.wf i w).halted = s.halted := rfl
@[simp] theorem State.wf_dump (s : State) (i : XReg) (w : Word32) : (s.wf i w).dump = s.dump := rfl
@[simp] theorem State.wf_corrected (s : State) (i : XReg) (w : Word32) : (s.wf i w).corrected = s.corrected := rfl
@[simp] theorem State.wf_uncorrected (s : State) (i : XReg) (w : Word32) : (s.wf i w).uncorrected = s.uncorrected := rfl
@[simp] theorem State.wf_gated (s : State) (i : XReg) (w : Word32) : (s.wf i w).gated = s.gated := rfl
@[simp] theorem State.wf_groups (s : State) (i : XReg) (w : Word32) : (s.wf i w).groups = s.groups := rfl
@[simp] theorem State.wf_debugOut (s : State) (i : XReg) (w : Word32) : (s.wf i w).debugOut = s.debugOut := rfl
@[simp] theorem State.wf_debugIn (s : State) (i : XReg) (w : Word32) : (s.wf i w).debugIn = s.debugIn := rfl
@[simp] theorem State.wf_jtag (s : State) (i : XReg) (w : Word32) : (s.wf i w).jtag = s.jtag := rfl
@[simp] theorem State.wf_held (s : State) (i : XReg) (w : Word32) : (s.wf i w).held = s.held := rfl
@[simp] theorem State.wf_spdm (s : State) (i : XReg) (w : Word32) : (s.wf i w).spdm = s.spdm := rfl
@[simp] theorem State.wf_areas (s : State) (i : XReg) (w : Word32) : (s.wf i w).areas = s.areas := rfl
@[simp] theorem State.wf_side (s : State) (i : XReg) (w : Word32) : (s.wf i w).side = s.side := rfl
@[simp] theorem State.wf_upset (s : State) (i : XReg) (w : Word32) : (s.wf i w).upset = s.upset := rfl
@[simp] theorem State.raise_cycle (s : State) (fl : Nat) : (s.raise fl).cycle = s.cycle := rfl
@[simp] theorem State.raise_turn (s : State) (fl : Nat) : (s.raise fl).turn = s.turn := rfl
@[simp] theorem State.raise_cur (s : State) (fl : Nat) : (s.raise fl).cur = s.cur := rfl
@[simp] theorem State.raise_agenda (s : State) (fl : Nat) : (s.raise fl).agenda = s.agenda := rfl
@[simp] theorem State.raise_free (s : State) (fl : Nat) : (s.raise fl).free = s.free := rfl
@[simp] theorem State.raise_pkgid (s : State) (fl : Nat) : (s.raise fl).pkgid = s.pkgid := rfl
@[simp] theorem State.raise_mem (s : State) (fl : Nat) : (s.raise fl).mem = s.mem := rfl
@[simp] theorem State.raise_poison (s : State) (fl : Nat) : (s.raise fl).poison = s.poison := rfl
@[simp] theorem State.raise_owners (s : State) (fl : Nat) : (s.raise fl).owners = s.owners := rfl
@[simp] theorem State.raise_clusters (s : State) (fl : Nat) : (s.raise fl).clusters = s.clusters := rfl
@[simp] theorem State.raise_dies (s : State) (fl : Nat) : (s.raise fl).dies = s.dies := rfl
@[simp] theorem State.raise_nodes (s : State) (fl : Nat) : (s.raise fl).nodes = s.nodes := rfl
@[simp] theorem State.raise_regions (s : State) (fl : Nat) : (s.raise fl).regions = s.regions := rfl
@[simp] theorem State.raise_pools (s : State) (fl : Nat) : (s.raise fl).pools = s.pools := rfl
@[simp] theorem State.raise_doorbells (s : State) (fl : Nat) : (s.raise fl).doorbells = s.doorbells := rfl
@[simp] theorem State.raise_peers (s : State) (fl : Nat) : (s.raise fl).peers = s.peers := rfl
@[simp] theorem State.raise_outbox (s : State) (fl : Nat) : (s.raise fl).outbox = s.outbox := rfl
@[simp] theorem State.raise_unacked (s : State) (fl : Nat) : (s.raise fl).unacked = s.unacked := rfl
@[simp] theorem State.raise_awaiting (s : State) (fl : Nat) : (s.raise fl).awaiting = s.awaiting := rfl
@[simp] theorem State.raise_txNext (s : State) (fl : Nat) : (s.raise fl).txNext = s.txNext := rfl
@[simp] theorem State.raise_backlog (s : State) (fl : Nat) : (s.raise fl).backlog = s.backlog := rfl
@[simp] theorem State.raise_remoteSignals (s : State) (fl : Nat) : (s.raise fl).remoteSignals = s.remoteSignals := rfl
@[simp] theorem State.raise_links (s : State) (fl : Nat) : (s.raise fl).links = s.links := rfl
@[simp] theorem State.raise_inbox (s : State) (fl : Nat) : (s.raise fl).inbox = s.inbox := rfl
@[simp] theorem State.raise_colls (s : State) (fl : Nat) : (s.raise fl).colls = s.colls := rfl
@[simp] theorem State.raise_remoteDone (s : State) (fl : Nat) : (s.raise fl).remoteDone = s.remoteDone := rfl
@[simp] theorem State.raise_remoteResv (s : State) (fl : Nat) : (s.raise fl).remoteResv = s.remoteResv := rfl
@[simp] theorem State.raise_sched (s : State) (fl : Nat) : (s.raise fl).sched = s.sched := rfl
@[simp] theorem State.raise_host (s : State) (fl : Nat) : (s.raise fl).host = s.host := rfl
@[simp] theorem State.raise_halted (s : State) (fl : Nat) : (s.raise fl).halted = s.halted := rfl
@[simp] theorem State.raise_dump (s : State) (fl : Nat) : (s.raise fl).dump = s.dump := rfl
@[simp] theorem State.raise_corrected (s : State) (fl : Nat) : (s.raise fl).corrected = s.corrected := rfl
@[simp] theorem State.raise_uncorrected (s : State) (fl : Nat) : (s.raise fl).uncorrected = s.uncorrected := rfl
@[simp] theorem State.raise_gated (s : State) (fl : Nat) : (s.raise fl).gated = s.gated := rfl
@[simp] theorem State.raise_groups (s : State) (fl : Nat) : (s.raise fl).groups = s.groups := rfl
@[simp] theorem State.raise_debugOut (s : State) (fl : Nat) : (s.raise fl).debugOut = s.debugOut := rfl
@[simp] theorem State.raise_debugIn (s : State) (fl : Nat) : (s.raise fl).debugIn = s.debugIn := rfl
@[simp] theorem State.raise_jtag (s : State) (fl : Nat) : (s.raise fl).jtag = s.jtag := rfl
@[simp] theorem State.raise_held (s : State) (fl : Nat) : (s.raise fl).held = s.held := rfl
@[simp] theorem State.raise_spdm (s : State) (fl : Nat) : (s.raise fl).spdm = s.spdm := rfl
@[simp] theorem State.raise_areas (s : State) (fl : Nat) : (s.raise fl).areas = s.areas := rfl
@[simp] theorem State.raise_side (s : State) (fl : Nat) : (s.raise fl).side = s.side := rfl
@[simp] theorem State.raise_upset (s : State) (fl : Nat) : (s.raise fl).upset = s.upset := rfl
@[simp] theorem State.countRetired_cycle (s : State) (g k : Nat) : (s.countRetired g k).cycle = s.cycle := rfl
@[simp] theorem State.countRetired_turn (s : State) (g k : Nat) : (s.countRetired g k).turn = s.turn := rfl
@[simp] theorem State.countRetired_cur (s : State) (g k : Nat) : (s.countRetired g k).cur = s.cur := rfl
@[simp] theorem State.countRetired_agenda (s : State) (g k : Nat) : (s.countRetired g k).agenda = s.agenda := rfl
@[simp] theorem State.countRetired_free (s : State) (g k : Nat) : (s.countRetired g k).free = s.free := rfl
@[simp] theorem State.countRetired_pkgid (s : State) (g k : Nat) : (s.countRetired g k).pkgid = s.pkgid := rfl
@[simp] theorem State.countRetired_mem (s : State) (g k : Nat) : (s.countRetired g k).mem = s.mem := rfl
@[simp] theorem State.countRetired_poison (s : State) (g k : Nat) : (s.countRetired g k).poison = s.poison := rfl
@[simp] theorem State.countRetired_owners (s : State) (g k : Nat) : (s.countRetired g k).owners = s.owners := rfl
@[simp] theorem State.countRetired_clusters (s : State) (g k : Nat) : (s.countRetired g k).clusters = s.clusters := rfl
@[simp] theorem State.countRetired_dies (s : State) (g k : Nat) : (s.countRetired g k).dies = s.dies := rfl
@[simp] theorem State.countRetired_nodes (s : State) (g k : Nat) : (s.countRetired g k).nodes = s.nodes := rfl
@[simp] theorem State.countRetired_regions (s : State) (g k : Nat) : (s.countRetired g k).regions = s.regions := rfl
@[simp] theorem State.countRetired_pools (s : State) (g k : Nat) : (s.countRetired g k).pools = s.pools := rfl
@[simp] theorem State.countRetired_doorbells (s : State) (g k : Nat) : (s.countRetired g k).doorbells = s.doorbells := rfl
@[simp] theorem State.countRetired_peers (s : State) (g k : Nat) : (s.countRetired g k).peers = s.peers := rfl
@[simp] theorem State.countRetired_outbox (s : State) (g k : Nat) : (s.countRetired g k).outbox = s.outbox := rfl
@[simp] theorem State.countRetired_unacked (s : State) (g k : Nat) : (s.countRetired g k).unacked = s.unacked := rfl
@[simp] theorem State.countRetired_awaiting (s : State) (g k : Nat) : (s.countRetired g k).awaiting = s.awaiting := rfl
@[simp] theorem State.countRetired_txNext (s : State) (g k : Nat) : (s.countRetired g k).txNext = s.txNext := rfl
@[simp] theorem State.countRetired_backlog (s : State) (g k : Nat) : (s.countRetired g k).backlog = s.backlog := rfl
@[simp] theorem State.countRetired_remoteSignals (s : State) (g k : Nat) : (s.countRetired g k).remoteSignals = s.remoteSignals := rfl
@[simp] theorem State.countRetired_links (s : State) (g k : Nat) : (s.countRetired g k).links = s.links := rfl
@[simp] theorem State.countRetired_inbox (s : State) (g k : Nat) : (s.countRetired g k).inbox = s.inbox := rfl
@[simp] theorem State.countRetired_colls (s : State) (g k : Nat) : (s.countRetired g k).colls = s.colls := rfl
@[simp] theorem State.countRetired_remoteDone (s : State) (g k : Nat) : (s.countRetired g k).remoteDone = s.remoteDone := rfl
@[simp] theorem State.countRetired_remoteResv (s : State) (g k : Nat) : (s.countRetired g k).remoteResv = s.remoteResv := rfl
@[simp] theorem State.countRetired_sched (s : State) (g k : Nat) : (s.countRetired g k).sched = s.sched := rfl
@[simp] theorem State.countRetired_host (s : State) (g k : Nat) : (s.countRetired g k).host = s.host := rfl
@[simp] theorem State.countRetired_halted (s : State) (g k : Nat) : (s.countRetired g k).halted = s.halted := rfl
@[simp] theorem State.countRetired_dump (s : State) (g k : Nat) : (s.countRetired g k).dump = s.dump := rfl
@[simp] theorem State.countRetired_corrected (s : State) (g k : Nat) : (s.countRetired g k).corrected = s.corrected := rfl
@[simp] theorem State.countRetired_uncorrected (s : State) (g k : Nat) : (s.countRetired g k).uncorrected = s.uncorrected := rfl
@[simp] theorem State.countRetired_gated (s : State) (g k : Nat) : (s.countRetired g k).gated = s.gated := rfl
@[simp] theorem State.countRetired_groups (s : State) (g k : Nat) : (s.countRetired g k).groups = s.groups := rfl
@[simp] theorem State.countRetired_debugOut (s : State) (g k : Nat) : (s.countRetired g k).debugOut = s.debugOut := rfl
@[simp] theorem State.countRetired_debugIn (s : State) (g k : Nat) : (s.countRetired g k).debugIn = s.debugIn := rfl
@[simp] theorem State.countRetired_jtag (s : State) (g k : Nat) : (s.countRetired g k).jtag = s.jtag := rfl
@[simp] theorem State.countRetired_held (s : State) (g k : Nat) : (s.countRetired g k).held = s.held := rfl
@[simp] theorem State.countRetired_spdm (s : State) (g k : Nat) : (s.countRetired g k).spdm = s.spdm := rfl
@[simp] theorem State.countRetired_areas (s : State) (g k : Nat) : (s.countRetired g k).areas = s.areas := rfl
@[simp] theorem State.countRetired_side (s : State) (g k : Nat) : (s.countRetired g k).side = s.side := rfl
@[simp] theorem State.countRetired_upset (s : State) (g k : Nat) : (s.countRetired g k).upset = s.upset := rfl
@[simp] theorem State.boundary_cycle (s : State) (g k : Nat) : (s.boundary g k).cycle = s.cycle := rfl
@[simp] theorem State.boundary_turn (s : State) (g k : Nat) : (s.boundary g k).turn = s.turn := rfl
@[simp] theorem State.boundary_cur (s : State) (g k : Nat) : (s.boundary g k).cur = s.cur := rfl
@[simp] theorem State.boundary_agenda (s : State) (g k : Nat) : (s.boundary g k).agenda = s.agenda := rfl
@[simp] theorem State.boundary_free (s : State) (g k : Nat) : (s.boundary g k).free = s.free := rfl
@[simp] theorem State.boundary_pkgid (s : State) (g k : Nat) : (s.boundary g k).pkgid = s.pkgid := rfl
@[simp] theorem State.boundary_mem (s : State) (g k : Nat) : (s.boundary g k).mem = s.mem := rfl
@[simp] theorem State.boundary_poison (s : State) (g k : Nat) : (s.boundary g k).poison = s.poison := rfl
@[simp] theorem State.boundary_owners (s : State) (g k : Nat) : (s.boundary g k).owners = s.owners := rfl
@[simp] theorem State.boundary_clusters (s : State) (g k : Nat) : (s.boundary g k).clusters = s.clusters := rfl
@[simp] theorem State.boundary_dies (s : State) (g k : Nat) : (s.boundary g k).dies = s.dies := rfl
@[simp] theorem State.boundary_nodes (s : State) (g k : Nat) : (s.boundary g k).nodes = s.nodes := rfl
@[simp] theorem State.boundary_regions (s : State) (g k : Nat) : (s.boundary g k).regions = s.regions := rfl
@[simp] theorem State.boundary_pools (s : State) (g k : Nat) : (s.boundary g k).pools = s.pools := rfl
@[simp] theorem State.boundary_doorbells (s : State) (g k : Nat) : (s.boundary g k).doorbells = s.doorbells := rfl
@[simp] theorem State.boundary_peers (s : State) (g k : Nat) : (s.boundary g k).peers = s.peers := rfl
@[simp] theorem State.boundary_outbox (s : State) (g k : Nat) : (s.boundary g k).outbox = s.outbox := rfl
@[simp] theorem State.boundary_unacked (s : State) (g k : Nat) : (s.boundary g k).unacked = s.unacked := rfl
@[simp] theorem State.boundary_awaiting (s : State) (g k : Nat) : (s.boundary g k).awaiting = s.awaiting := rfl
@[simp] theorem State.boundary_txNext (s : State) (g k : Nat) : (s.boundary g k).txNext = s.txNext := rfl
@[simp] theorem State.boundary_backlog (s : State) (g k : Nat) : (s.boundary g k).backlog = s.backlog := rfl
@[simp] theorem State.boundary_remoteSignals (s : State) (g k : Nat) : (s.boundary g k).remoteSignals = s.remoteSignals := rfl
@[simp] theorem State.boundary_links (s : State) (g k : Nat) : (s.boundary g k).links = s.links := rfl
@[simp] theorem State.boundary_inbox (s : State) (g k : Nat) : (s.boundary g k).inbox = s.inbox := rfl
@[simp] theorem State.boundary_colls (s : State) (g k : Nat) : (s.boundary g k).colls = s.colls := rfl
@[simp] theorem State.boundary_remoteDone (s : State) (g k : Nat) : (s.boundary g k).remoteDone = s.remoteDone := rfl
@[simp] theorem State.boundary_remoteResv (s : State) (g k : Nat) : (s.boundary g k).remoteResv = s.remoteResv := rfl
@[simp] theorem State.boundary_sched (s : State) (g k : Nat) : (s.boundary g k).sched = s.sched := rfl
@[simp] theorem State.boundary_host (s : State) (g k : Nat) : (s.boundary g k).host = s.host := rfl
@[simp] theorem State.boundary_halted (s : State) (g k : Nat) : (s.boundary g k).halted = s.halted := rfl
@[simp] theorem State.boundary_dump (s : State) (g k : Nat) : (s.boundary g k).dump = s.dump := rfl
@[simp] theorem State.boundary_corrected (s : State) (g k : Nat) : (s.boundary g k).corrected = s.corrected := rfl
@[simp] theorem State.boundary_uncorrected (s : State) (g k : Nat) : (s.boundary g k).uncorrected = s.uncorrected := rfl
@[simp] theorem State.boundary_gated (s : State) (g k : Nat) : (s.boundary g k).gated = s.gated := rfl
@[simp] theorem State.boundary_groups (s : State) (g k : Nat) : (s.boundary g k).groups = s.groups := rfl
@[simp] theorem State.boundary_debugOut (s : State) (g k : Nat) : (s.boundary g k).debugOut = s.debugOut := rfl
@[simp] theorem State.boundary_debugIn (s : State) (g k : Nat) : (s.boundary g k).debugIn = s.debugIn := rfl
@[simp] theorem State.boundary_jtag (s : State) (g k : Nat) : (s.boundary g k).jtag = s.jtag := rfl
@[simp] theorem State.boundary_held (s : State) (g k : Nat) : (s.boundary g k).held = s.held := rfl
@[simp] theorem State.boundary_spdm (s : State) (g k : Nat) : (s.boundary g k).spdm = s.spdm := rfl
@[simp] theorem State.boundary_areas (s : State) (g k : Nat) : (s.boundary g k).areas = s.areas := rfl
@[simp] theorem State.boundary_side (s : State) (g k : Nat) : (s.boundary g k).side = s.side := rfl
@[simp] theorem State.boundary_upset (s : State) (g k : Nat) : (s.boundary g k).upset = s.upset := rfl
@[simp] theorem State.mapSeqs_cycle (s : State) (f : Seq → Seq) : (s.mapSeqs f).cycle = s.cycle := rfl
@[simp] theorem State.mapSeqs_turn (s : State) (f : Seq → Seq) : (s.mapSeqs f).turn = s.turn := rfl
@[simp] theorem State.mapSeqs_cur (s : State) (f : Seq → Seq) : (s.mapSeqs f).cur = s.cur := rfl
@[simp] theorem State.mapSeqs_agenda (s : State) (f : Seq → Seq) : (s.mapSeqs f).agenda = s.agenda := rfl
@[simp] theorem State.mapSeqs_free (s : State) (f : Seq → Seq) : (s.mapSeqs f).free = s.free := rfl
@[simp] theorem State.mapSeqs_pkgid (s : State) (f : Seq → Seq) : (s.mapSeqs f).pkgid = s.pkgid := rfl
@[simp] theorem State.mapSeqs_mem (s : State) (f : Seq → Seq) : (s.mapSeqs f).mem = s.mem := rfl
@[simp] theorem State.mapSeqs_poison (s : State) (f : Seq → Seq) : (s.mapSeqs f).poison = s.poison := rfl
@[simp] theorem State.mapSeqs_owners (s : State) (f : Seq → Seq) : (s.mapSeqs f).owners = s.owners := rfl
@[simp] theorem State.mapSeqs_clusters (s : State) (f : Seq → Seq) : (s.mapSeqs f).clusters = s.clusters := rfl
@[simp] theorem State.mapSeqs_dies (s : State) (f : Seq → Seq) : (s.mapSeqs f).dies = s.dies := rfl
@[simp] theorem State.mapSeqs_nodes (s : State) (f : Seq → Seq) : (s.mapSeqs f).nodes = s.nodes := rfl
@[simp] theorem State.mapSeqs_regions (s : State) (f : Seq → Seq) : (s.mapSeqs f).regions = s.regions := rfl
@[simp] theorem State.mapSeqs_pools (s : State) (f : Seq → Seq) : (s.mapSeqs f).pools = s.pools := rfl
@[simp] theorem State.mapSeqs_doorbells (s : State) (f : Seq → Seq) : (s.mapSeqs f).doorbells = s.doorbells := rfl
@[simp] theorem State.mapSeqs_peers (s : State) (f : Seq → Seq) : (s.mapSeqs f).peers = s.peers := rfl
@[simp] theorem State.mapSeqs_outbox (s : State) (f : Seq → Seq) : (s.mapSeqs f).outbox = s.outbox := rfl
@[simp] theorem State.mapSeqs_unacked (s : State) (f : Seq → Seq) : (s.mapSeqs f).unacked = s.unacked := rfl
@[simp] theorem State.mapSeqs_awaiting (s : State) (f : Seq → Seq) : (s.mapSeqs f).awaiting = s.awaiting := rfl
@[simp] theorem State.mapSeqs_txNext (s : State) (f : Seq → Seq) : (s.mapSeqs f).txNext = s.txNext := rfl
@[simp] theorem State.mapSeqs_backlog (s : State) (f : Seq → Seq) : (s.mapSeqs f).backlog = s.backlog := rfl
@[simp] theorem State.mapSeqs_remoteSignals (s : State) (f : Seq → Seq) : (s.mapSeqs f).remoteSignals = s.remoteSignals := rfl
@[simp] theorem State.mapSeqs_links (s : State) (f : Seq → Seq) : (s.mapSeqs f).links = s.links := rfl
@[simp] theorem State.mapSeqs_inbox (s : State) (f : Seq → Seq) : (s.mapSeqs f).inbox = s.inbox := rfl
@[simp] theorem State.mapSeqs_colls (s : State) (f : Seq → Seq) : (s.mapSeqs f).colls = s.colls := rfl
@[simp] theorem State.mapSeqs_remoteDone (s : State) (f : Seq → Seq) : (s.mapSeqs f).remoteDone = s.remoteDone := rfl
@[simp] theorem State.mapSeqs_remoteResv (s : State) (f : Seq → Seq) : (s.mapSeqs f).remoteResv = s.remoteResv := rfl
@[simp] theorem State.mapSeqs_sched (s : State) (f : Seq → Seq) : (s.mapSeqs f).sched = s.sched := rfl
@[simp] theorem State.mapSeqs_host (s : State) (f : Seq → Seq) : (s.mapSeqs f).host = s.host := rfl
@[simp] theorem State.mapSeqs_halted (s : State) (f : Seq → Seq) : (s.mapSeqs f).halted = s.halted := rfl
@[simp] theorem State.mapSeqs_dump (s : State) (f : Seq → Seq) : (s.mapSeqs f).dump = s.dump := rfl
@[simp] theorem State.mapSeqs_corrected (s : State) (f : Seq → Seq) : (s.mapSeqs f).corrected = s.corrected := rfl
@[simp] theorem State.mapSeqs_uncorrected (s : State) (f : Seq → Seq) : (s.mapSeqs f).uncorrected = s.uncorrected := rfl
@[simp] theorem State.mapSeqs_gated (s : State) (f : Seq → Seq) : (s.mapSeqs f).gated = s.gated := rfl
@[simp] theorem State.mapSeqs_groups (s : State) (f : Seq → Seq) : (s.mapSeqs f).groups = s.groups := rfl
@[simp] theorem State.mapSeqs_debugOut (s : State) (f : Seq → Seq) : (s.mapSeqs f).debugOut = s.debugOut := rfl
@[simp] theorem State.mapSeqs_debugIn (s : State) (f : Seq → Seq) : (s.mapSeqs f).debugIn = s.debugIn := rfl
@[simp] theorem State.mapSeqs_jtag (s : State) (f : Seq → Seq) : (s.mapSeqs f).jtag = s.jtag := rfl
@[simp] theorem State.mapSeqs_held (s : State) (f : Seq → Seq) : (s.mapSeqs f).held = s.held := rfl
@[simp] theorem State.mapSeqs_spdm (s : State) (f : Seq → Seq) : (s.mapSeqs f).spdm = s.spdm := rfl
@[simp] theorem State.mapSeqs_areas (s : State) (f : Seq → Seq) : (s.mapSeqs f).areas = s.areas := rfl
@[simp] theorem State.mapSeqs_side (s : State) (f : Seq → Seq) : (s.mapSeqs f).side = s.side := rfl
@[simp] theorem State.mapSeqs_upset (s : State) (f : Seq → Seq) : (s.mapSeqs f).upset = s.upset := rfl
@[simp] theorem State.setCluster_cycle (s : State) (cl : Nat) (c : Cluster) : (s.setCluster cl c).cycle = s.cycle := rfl
@[simp] theorem State.setCluster_turn (s : State) (cl : Nat) (c : Cluster) : (s.setCluster cl c).turn = s.turn := rfl
@[simp] theorem State.setCluster_cur (s : State) (cl : Nat) (c : Cluster) : (s.setCluster cl c).cur = s.cur := rfl
@[simp] theorem State.setCluster_agenda (s : State) (cl : Nat) (c : Cluster) : (s.setCluster cl c).agenda = s.agenda := rfl
@[simp] theorem State.setCluster_free (s : State) (cl : Nat) (c : Cluster) : (s.setCluster cl c).free = s.free := rfl
@[simp] theorem State.setCluster_pkgid (s : State) (cl : Nat) (c : Cluster) : (s.setCluster cl c).pkgid = s.pkgid := rfl
@[simp] theorem State.setCluster_mem (s : State) (cl : Nat) (c : Cluster) : (s.setCluster cl c).mem = s.mem := rfl
@[simp] theorem State.setCluster_poison (s : State) (cl : Nat) (c : Cluster) : (s.setCluster cl c).poison = s.poison := rfl
@[simp] theorem State.setCluster_owners (s : State) (cl : Nat) (c : Cluster) : (s.setCluster cl c).owners = s.owners := rfl
@[simp] theorem State.setCluster_cores (s : State) (cl : Nat) (c : Cluster) : (s.setCluster cl c).cores = s.cores := rfl
@[simp] theorem State.setCluster_dies (s : State) (cl : Nat) (c : Cluster) : (s.setCluster cl c).dies = s.dies := rfl
@[simp] theorem State.setCluster_nodes (s : State) (cl : Nat) (c : Cluster) : (s.setCluster cl c).nodes = s.nodes := rfl
@[simp] theorem State.setCluster_regions (s : State) (cl : Nat) (c : Cluster) : (s.setCluster cl c).regions = s.regions := rfl
@[simp] theorem State.setCluster_pools (s : State) (cl : Nat) (c : Cluster) : (s.setCluster cl c).pools = s.pools := rfl
@[simp] theorem State.setCluster_doorbells (s : State) (cl : Nat) (c : Cluster) : (s.setCluster cl c).doorbells = s.doorbells := rfl
@[simp] theorem State.setCluster_peers (s : State) (cl : Nat) (c : Cluster) : (s.setCluster cl c).peers = s.peers := rfl
@[simp] theorem State.setCluster_outbox (s : State) (cl : Nat) (c : Cluster) : (s.setCluster cl c).outbox = s.outbox := rfl
@[simp] theorem State.setCluster_unacked (s : State) (cl : Nat) (c : Cluster) : (s.setCluster cl c).unacked = s.unacked := rfl
@[simp] theorem State.setCluster_awaiting (s : State) (cl : Nat) (c : Cluster) : (s.setCluster cl c).awaiting = s.awaiting := rfl
@[simp] theorem State.setCluster_txNext (s : State) (cl : Nat) (c : Cluster) : (s.setCluster cl c).txNext = s.txNext := rfl
@[simp] theorem State.setCluster_backlog (s : State) (cl : Nat) (c : Cluster) : (s.setCluster cl c).backlog = s.backlog := rfl
@[simp] theorem State.setCluster_remoteSignals (s : State) (cl : Nat) (c : Cluster) : (s.setCluster cl c).remoteSignals = s.remoteSignals := rfl
@[simp] theorem State.setCluster_links (s : State) (cl : Nat) (c : Cluster) : (s.setCluster cl c).links = s.links := rfl
@[simp] theorem State.setCluster_inbox (s : State) (cl : Nat) (c : Cluster) : (s.setCluster cl c).inbox = s.inbox := rfl
@[simp] theorem State.setCluster_colls (s : State) (cl : Nat) (c : Cluster) : (s.setCluster cl c).colls = s.colls := rfl
@[simp] theorem State.setCluster_remoteDone (s : State) (cl : Nat) (c : Cluster) : (s.setCluster cl c).remoteDone = s.remoteDone := rfl
@[simp] theorem State.setCluster_remoteResv (s : State) (cl : Nat) (c : Cluster) : (s.setCluster cl c).remoteResv = s.remoteResv := rfl
@[simp] theorem State.setCluster_sched (s : State) (cl : Nat) (c : Cluster) : (s.setCluster cl c).sched = s.sched := rfl
@[simp] theorem State.setCluster_host (s : State) (cl : Nat) (c : Cluster) : (s.setCluster cl c).host = s.host := rfl
@[simp] theorem State.setCluster_halted (s : State) (cl : Nat) (c : Cluster) : (s.setCluster cl c).halted = s.halted := rfl
@[simp] theorem State.setCluster_dump (s : State) (cl : Nat) (c : Cluster) : (s.setCluster cl c).dump = s.dump := rfl
@[simp] theorem State.setCluster_corrected (s : State) (cl : Nat) (c : Cluster) : (s.setCluster cl c).corrected = s.corrected := rfl
@[simp] theorem State.setCluster_uncorrected (s : State) (cl : Nat) (c : Cluster) : (s.setCluster cl c).uncorrected = s.uncorrected := rfl
@[simp] theorem State.setCluster_gated (s : State) (cl : Nat) (c : Cluster) : (s.setCluster cl c).gated = s.gated := rfl
@[simp] theorem State.setCluster_groups (s : State) (cl : Nat) (c : Cluster) : (s.setCluster cl c).groups = s.groups := rfl
@[simp] theorem State.setCluster_debugOut (s : State) (cl : Nat) (c : Cluster) : (s.setCluster cl c).debugOut = s.debugOut := rfl
@[simp] theorem State.setCluster_debugIn (s : State) (cl : Nat) (c : Cluster) : (s.setCluster cl c).debugIn = s.debugIn := rfl
@[simp] theorem State.setCluster_jtag (s : State) (cl : Nat) (c : Cluster) : (s.setCluster cl c).jtag = s.jtag := rfl
@[simp] theorem State.setCluster_held (s : State) (cl : Nat) (c : Cluster) : (s.setCluster cl c).held = s.held := rfl
@[simp] theorem State.setCluster_spdm (s : State) (cl : Nat) (c : Cluster) : (s.setCluster cl c).spdm = s.spdm := rfl
@[simp] theorem State.setCluster_areas (s : State) (cl : Nat) (c : Cluster) : (s.setCluster cl c).areas = s.areas := rfl
@[simp] theorem State.setCluster_side (s : State) (cl : Nat) (c : Cluster) : (s.setCluster cl c).side = s.side := rfl
@[simp] theorem State.setCluster_upset (s : State) (cl : Nat) (c : Cluster) : (s.setCluster cl c).upset = s.upset := rfl
@[simp] theorem State.modCluster_cycle (s : State) (cl : Nat) (f : Cluster → Cluster) : (s.modCluster cl f).cycle = s.cycle := rfl
@[simp] theorem State.modCluster_turn (s : State) (cl : Nat) (f : Cluster → Cluster) : (s.modCluster cl f).turn = s.turn := rfl
@[simp] theorem State.modCluster_cur (s : State) (cl : Nat) (f : Cluster → Cluster) : (s.modCluster cl f).cur = s.cur := rfl
@[simp] theorem State.modCluster_agenda (s : State) (cl : Nat) (f : Cluster → Cluster) : (s.modCluster cl f).agenda = s.agenda := rfl
@[simp] theorem State.modCluster_free (s : State) (cl : Nat) (f : Cluster → Cluster) : (s.modCluster cl f).free = s.free := rfl
@[simp] theorem State.modCluster_pkgid (s : State) (cl : Nat) (f : Cluster → Cluster) : (s.modCluster cl f).pkgid = s.pkgid := rfl
@[simp] theorem State.modCluster_mem (s : State) (cl : Nat) (f : Cluster → Cluster) : (s.modCluster cl f).mem = s.mem := rfl
@[simp] theorem State.modCluster_poison (s : State) (cl : Nat) (f : Cluster → Cluster) : (s.modCluster cl f).poison = s.poison := rfl
@[simp] theorem State.modCluster_owners (s : State) (cl : Nat) (f : Cluster → Cluster) : (s.modCluster cl f).owners = s.owners := rfl
@[simp] theorem State.modCluster_cores (s : State) (cl : Nat) (f : Cluster → Cluster) : (s.modCluster cl f).cores = s.cores := rfl
@[simp] theorem State.modCluster_dies (s : State) (cl : Nat) (f : Cluster → Cluster) : (s.modCluster cl f).dies = s.dies := rfl
@[simp] theorem State.modCluster_nodes (s : State) (cl : Nat) (f : Cluster → Cluster) : (s.modCluster cl f).nodes = s.nodes := rfl
@[simp] theorem State.modCluster_regions (s : State) (cl : Nat) (f : Cluster → Cluster) : (s.modCluster cl f).regions = s.regions := rfl
@[simp] theorem State.modCluster_pools (s : State) (cl : Nat) (f : Cluster → Cluster) : (s.modCluster cl f).pools = s.pools := rfl
@[simp] theorem State.modCluster_doorbells (s : State) (cl : Nat) (f : Cluster → Cluster) : (s.modCluster cl f).doorbells = s.doorbells := rfl
@[simp] theorem State.modCluster_peers (s : State) (cl : Nat) (f : Cluster → Cluster) : (s.modCluster cl f).peers = s.peers := rfl
@[simp] theorem State.modCluster_outbox (s : State) (cl : Nat) (f : Cluster → Cluster) : (s.modCluster cl f).outbox = s.outbox := rfl
@[simp] theorem State.modCluster_unacked (s : State) (cl : Nat) (f : Cluster → Cluster) : (s.modCluster cl f).unacked = s.unacked := rfl
@[simp] theorem State.modCluster_awaiting (s : State) (cl : Nat) (f : Cluster → Cluster) : (s.modCluster cl f).awaiting = s.awaiting := rfl
@[simp] theorem State.modCluster_txNext (s : State) (cl : Nat) (f : Cluster → Cluster) : (s.modCluster cl f).txNext = s.txNext := rfl
@[simp] theorem State.modCluster_backlog (s : State) (cl : Nat) (f : Cluster → Cluster) : (s.modCluster cl f).backlog = s.backlog := rfl
@[simp] theorem State.modCluster_remoteSignals (s : State) (cl : Nat) (f : Cluster → Cluster) : (s.modCluster cl f).remoteSignals = s.remoteSignals := rfl
@[simp] theorem State.modCluster_links (s : State) (cl : Nat) (f : Cluster → Cluster) : (s.modCluster cl f).links = s.links := rfl
@[simp] theorem State.modCluster_inbox (s : State) (cl : Nat) (f : Cluster → Cluster) : (s.modCluster cl f).inbox = s.inbox := rfl
@[simp] theorem State.modCluster_colls (s : State) (cl : Nat) (f : Cluster → Cluster) : (s.modCluster cl f).colls = s.colls := rfl
@[simp] theorem State.modCluster_remoteDone (s : State) (cl : Nat) (f : Cluster → Cluster) : (s.modCluster cl f).remoteDone = s.remoteDone := rfl
@[simp] theorem State.modCluster_remoteResv (s : State) (cl : Nat) (f : Cluster → Cluster) : (s.modCluster cl f).remoteResv = s.remoteResv := rfl
@[simp] theorem State.modCluster_sched (s : State) (cl : Nat) (f : Cluster → Cluster) : (s.modCluster cl f).sched = s.sched := rfl
@[simp] theorem State.modCluster_host (s : State) (cl : Nat) (f : Cluster → Cluster) : (s.modCluster cl f).host = s.host := rfl
@[simp] theorem State.modCluster_halted (s : State) (cl : Nat) (f : Cluster → Cluster) : (s.modCluster cl f).halted = s.halted := rfl
@[simp] theorem State.modCluster_dump (s : State) (cl : Nat) (f : Cluster → Cluster) : (s.modCluster cl f).dump = s.dump := rfl
@[simp] theorem State.modCluster_corrected (s : State) (cl : Nat) (f : Cluster → Cluster) : (s.modCluster cl f).corrected = s.corrected := rfl
@[simp] theorem State.modCluster_uncorrected (s : State) (cl : Nat) (f : Cluster → Cluster) : (s.modCluster cl f).uncorrected = s.uncorrected := rfl
@[simp] theorem State.modCluster_gated (s : State) (cl : Nat) (f : Cluster → Cluster) : (s.modCluster cl f).gated = s.gated := rfl
@[simp] theorem State.modCluster_groups (s : State) (cl : Nat) (f : Cluster → Cluster) : (s.modCluster cl f).groups = s.groups := rfl
@[simp] theorem State.modCluster_debugOut (s : State) (cl : Nat) (f : Cluster → Cluster) : (s.modCluster cl f).debugOut = s.debugOut := rfl
@[simp] theorem State.modCluster_debugIn (s : State) (cl : Nat) (f : Cluster → Cluster) : (s.modCluster cl f).debugIn = s.debugIn := rfl
@[simp] theorem State.modCluster_jtag (s : State) (cl : Nat) (f : Cluster → Cluster) : (s.modCluster cl f).jtag = s.jtag := rfl
@[simp] theorem State.modCluster_held (s : State) (cl : Nat) (f : Cluster → Cluster) : (s.modCluster cl f).held = s.held := rfl
@[simp] theorem State.modCluster_spdm (s : State) (cl : Nat) (f : Cluster → Cluster) : (s.modCluster cl f).spdm = s.spdm := rfl
@[simp] theorem State.modCluster_areas (s : State) (cl : Nat) (f : Cluster → Cluster) : (s.modCluster cl f).areas = s.areas := rfl
@[simp] theorem State.modCluster_side (s : State) (cl : Nat) (f : Cluster → Cluster) : (s.modCluster cl f).side = s.side := rfl
@[simp] theorem State.modCluster_upset (s : State) (cl : Nat) (f : Cluster → Cluster) : (s.modCluster cl f).upset = s.upset := rfl
@[simp] theorem State.leaseRelease_cycle (s : State) (g k : Nat) (e : Bool) : (s.leaseRelease g k e).cycle = s.cycle := rfl
@[simp] theorem State.leaseRelease_turn (s : State) (g k : Nat) (e : Bool) : (s.leaseRelease g k e).turn = s.turn := rfl
@[simp] theorem State.leaseRelease_cur (s : State) (g k : Nat) (e : Bool) : (s.leaseRelease g k e).cur = s.cur := rfl
@[simp] theorem State.leaseRelease_agenda (s : State) (g k : Nat) (e : Bool) : (s.leaseRelease g k e).agenda = s.agenda := rfl
@[simp] theorem State.leaseRelease_free (s : State) (g k : Nat) (e : Bool) : (s.leaseRelease g k e).free = s.free := rfl
@[simp] theorem State.leaseRelease_pkgid (s : State) (g k : Nat) (e : Bool) : (s.leaseRelease g k e).pkgid = s.pkgid := rfl
@[simp] theorem State.leaseRelease_mem (s : State) (g k : Nat) (e : Bool) : (s.leaseRelease g k e).mem = s.mem := rfl
@[simp] theorem State.leaseRelease_poison (s : State) (g k : Nat) (e : Bool) : (s.leaseRelease g k e).poison = s.poison := rfl
@[simp] theorem State.leaseRelease_owners (s : State) (g k : Nat) (e : Bool) : (s.leaseRelease g k e).owners = s.owners := rfl
@[simp] theorem State.leaseRelease_cores (s : State) (g k : Nat) (e : Bool) : (s.leaseRelease g k e).cores = s.cores := rfl
@[simp] theorem State.leaseRelease_dies (s : State) (g k : Nat) (e : Bool) : (s.leaseRelease g k e).dies = s.dies := rfl
@[simp] theorem State.leaseRelease_nodes (s : State) (g k : Nat) (e : Bool) : (s.leaseRelease g k e).nodes = s.nodes := rfl
@[simp] theorem State.leaseRelease_regions (s : State) (g k : Nat) (e : Bool) : (s.leaseRelease g k e).regions = s.regions := rfl
@[simp] theorem State.leaseRelease_pools (s : State) (g k : Nat) (e : Bool) : (s.leaseRelease g k e).pools = s.pools := rfl
@[simp] theorem State.leaseRelease_doorbells (s : State) (g k : Nat) (e : Bool) : (s.leaseRelease g k e).doorbells = s.doorbells := rfl
@[simp] theorem State.leaseRelease_peers (s : State) (g k : Nat) (e : Bool) : (s.leaseRelease g k e).peers = s.peers := rfl
@[simp] theorem State.leaseRelease_outbox (s : State) (g k : Nat) (e : Bool) : (s.leaseRelease g k e).outbox = s.outbox := rfl
@[simp] theorem State.leaseRelease_unacked (s : State) (g k : Nat) (e : Bool) : (s.leaseRelease g k e).unacked = s.unacked := rfl
@[simp] theorem State.leaseRelease_awaiting (s : State) (g k : Nat) (e : Bool) : (s.leaseRelease g k e).awaiting = s.awaiting := rfl
@[simp] theorem State.leaseRelease_txNext (s : State) (g k : Nat) (e : Bool) : (s.leaseRelease g k e).txNext = s.txNext := rfl
@[simp] theorem State.leaseRelease_backlog (s : State) (g k : Nat) (e : Bool) : (s.leaseRelease g k e).backlog = s.backlog := rfl
@[simp] theorem State.leaseRelease_remoteSignals (s : State) (g k : Nat) (e : Bool) : (s.leaseRelease g k e).remoteSignals = s.remoteSignals := rfl
@[simp] theorem State.leaseRelease_links (s : State) (g k : Nat) (e : Bool) : (s.leaseRelease g k e).links = s.links := rfl
@[simp] theorem State.leaseRelease_inbox (s : State) (g k : Nat) (e : Bool) : (s.leaseRelease g k e).inbox = s.inbox := rfl
@[simp] theorem State.leaseRelease_colls (s : State) (g k : Nat) (e : Bool) : (s.leaseRelease g k e).colls = s.colls := rfl
@[simp] theorem State.leaseRelease_remoteDone (s : State) (g k : Nat) (e : Bool) : (s.leaseRelease g k e).remoteDone = s.remoteDone := rfl
@[simp] theorem State.leaseRelease_remoteResv (s : State) (g k : Nat) (e : Bool) : (s.leaseRelease g k e).remoteResv = s.remoteResv := rfl
@[simp] theorem State.leaseRelease_sched (s : State) (g k : Nat) (e : Bool) : (s.leaseRelease g k e).sched = s.sched := rfl
@[simp] theorem State.leaseRelease_host (s : State) (g k : Nat) (e : Bool) : (s.leaseRelease g k e).host = s.host := rfl
@[simp] theorem State.leaseRelease_halted (s : State) (g k : Nat) (e : Bool) : (s.leaseRelease g k e).halted = s.halted := rfl
@[simp] theorem State.leaseRelease_dump (s : State) (g k : Nat) (e : Bool) : (s.leaseRelease g k e).dump = s.dump := rfl
@[simp] theorem State.leaseRelease_corrected (s : State) (g k : Nat) (e : Bool) : (s.leaseRelease g k e).corrected = s.corrected := rfl
@[simp] theorem State.leaseRelease_uncorrected (s : State) (g k : Nat) (e : Bool) : (s.leaseRelease g k e).uncorrected = s.uncorrected := rfl
@[simp] theorem State.leaseRelease_gated (s : State) (g k : Nat) (e : Bool) : (s.leaseRelease g k e).gated = s.gated := rfl
@[simp] theorem State.leaseRelease_groups (s : State) (g k : Nat) (e : Bool) : (s.leaseRelease g k e).groups = s.groups := rfl
@[simp] theorem State.leaseRelease_debugOut (s : State) (g k : Nat) (e : Bool) : (s.leaseRelease g k e).debugOut = s.debugOut := rfl
@[simp] theorem State.leaseRelease_debugIn (s : State) (g k : Nat) (e : Bool) : (s.leaseRelease g k e).debugIn = s.debugIn := rfl
@[simp] theorem State.leaseRelease_jtag (s : State) (g k : Nat) (e : Bool) : (s.leaseRelease g k e).jtag = s.jtag := rfl
@[simp] theorem State.leaseRelease_held (s : State) (g k : Nat) (e : Bool) : (s.leaseRelease g k e).held = s.held := rfl
@[simp] theorem State.leaseRelease_spdm (s : State) (g k : Nat) (e : Bool) : (s.leaseRelease g k e).spdm = s.spdm := rfl
@[simp] theorem State.leaseRelease_areas (s : State) (g k : Nat) (e : Bool) : (s.leaseRelease g k e).areas = s.areas := rfl
@[simp] theorem State.leaseRelease_side (s : State) (g k : Nat) (e : Bool) : (s.leaseRelease g k e).side = s.side := rfl
@[simp] theorem State.leaseRelease_upset (s : State) (g k : Nat) (e : Bool) : (s.leaseRelease g k e).upset = s.upset := rfl
@[simp] theorem State.endSeq_cycle (s : State) (g k : Nat) : (s.endSeq g k).cycle = s.cycle := rfl
@[simp] theorem State.endSeq_turn (s : State) (g k : Nat) : (s.endSeq g k).turn = s.turn := rfl
@[simp] theorem State.endSeq_cur (s : State) (g k : Nat) : (s.endSeq g k).cur = s.cur := rfl
@[simp] theorem State.endSeq_agenda (s : State) (g k : Nat) : (s.endSeq g k).agenda = s.agenda := rfl
@[simp] theorem State.endSeq_free (s : State) (g k : Nat) : (s.endSeq g k).free = s.free := rfl
@[simp] theorem State.endSeq_pkgid (s : State) (g k : Nat) : (s.endSeq g k).pkgid = s.pkgid := rfl
@[simp] theorem State.endSeq_mem (s : State) (g k : Nat) : (s.endSeq g k).mem = s.mem := rfl
@[simp] theorem State.endSeq_poison (s : State) (g k : Nat) : (s.endSeq g k).poison = s.poison := rfl
@[simp] theorem State.endSeq_owners (s : State) (g k : Nat) : (s.endSeq g k).owners = s.owners := rfl
@[simp] theorem State.endSeq_dies (s : State) (g k : Nat) : (s.endSeq g k).dies = s.dies := rfl
@[simp] theorem State.endSeq_nodes (s : State) (g k : Nat) : (s.endSeq g k).nodes = s.nodes := rfl
@[simp] theorem State.endSeq_regions (s : State) (g k : Nat) : (s.endSeq g k).regions = s.regions := rfl
@[simp] theorem State.endSeq_pools (s : State) (g k : Nat) : (s.endSeq g k).pools = s.pools := rfl
@[simp] theorem State.endSeq_doorbells (s : State) (g k : Nat) : (s.endSeq g k).doorbells = s.doorbells := rfl
@[simp] theorem State.endSeq_peers (s : State) (g k : Nat) : (s.endSeq g k).peers = s.peers := rfl
@[simp] theorem State.endSeq_outbox (s : State) (g k : Nat) : (s.endSeq g k).outbox = s.outbox := rfl
@[simp] theorem State.endSeq_unacked (s : State) (g k : Nat) : (s.endSeq g k).unacked = s.unacked := rfl
@[simp] theorem State.endSeq_awaiting (s : State) (g k : Nat) : (s.endSeq g k).awaiting = s.awaiting := rfl
@[simp] theorem State.endSeq_txNext (s : State) (g k : Nat) : (s.endSeq g k).txNext = s.txNext := rfl
@[simp] theorem State.endSeq_backlog (s : State) (g k : Nat) : (s.endSeq g k).backlog = s.backlog := rfl
@[simp] theorem State.endSeq_remoteSignals (s : State) (g k : Nat) : (s.endSeq g k).remoteSignals = s.remoteSignals := rfl
@[simp] theorem State.endSeq_links (s : State) (g k : Nat) : (s.endSeq g k).links = s.links := rfl
@[simp] theorem State.endSeq_inbox (s : State) (g k : Nat) : (s.endSeq g k).inbox = s.inbox := rfl
@[simp] theorem State.endSeq_colls (s : State) (g k : Nat) : (s.endSeq g k).colls = s.colls := rfl
@[simp] theorem State.endSeq_remoteDone (s : State) (g k : Nat) : (s.endSeq g k).remoteDone = s.remoteDone := rfl
@[simp] theorem State.endSeq_remoteResv (s : State) (g k : Nat) : (s.endSeq g k).remoteResv = s.remoteResv := rfl
@[simp] theorem State.endSeq_sched (s : State) (g k : Nat) : (s.endSeq g k).sched = s.sched := rfl
@[simp] theorem State.endSeq_host (s : State) (g k : Nat) : (s.endSeq g k).host = s.host := rfl
@[simp] theorem State.endSeq_halted (s : State) (g k : Nat) : (s.endSeq g k).halted = s.halted := rfl
@[simp] theorem State.endSeq_dump (s : State) (g k : Nat) : (s.endSeq g k).dump = s.dump := rfl
@[simp] theorem State.endSeq_corrected (s : State) (g k : Nat) : (s.endSeq g k).corrected = s.corrected := rfl
@[simp] theorem State.endSeq_uncorrected (s : State) (g k : Nat) : (s.endSeq g k).uncorrected = s.uncorrected := rfl
@[simp] theorem State.endSeq_gated (s : State) (g k : Nat) : (s.endSeq g k).gated = s.gated := rfl
@[simp] theorem State.endSeq_groups (s : State) (g k : Nat) : (s.endSeq g k).groups = s.groups := rfl
@[simp] theorem State.endSeq_debugOut (s : State) (g k : Nat) : (s.endSeq g k).debugOut = s.debugOut := rfl
@[simp] theorem State.endSeq_debugIn (s : State) (g k : Nat) : (s.endSeq g k).debugIn = s.debugIn := rfl
@[simp] theorem State.endSeq_jtag (s : State) (g k : Nat) : (s.endSeq g k).jtag = s.jtag := rfl
@[simp] theorem State.endSeq_held (s : State) (g k : Nat) : (s.endSeq g k).held = s.held := rfl
@[simp] theorem State.endSeq_spdm (s : State) (g k : Nat) : (s.endSeq g k).spdm = s.spdm := rfl
@[simp] theorem State.endSeq_areas (s : State) (g k : Nat) : (s.endSeq g k).areas = s.areas := rfl
@[simp] theorem State.endSeq_side (s : State) (g k : Nat) : (s.endSeq g k).side = s.side := rfl
@[simp] theorem State.endSeq_upset (s : State) (g k : Nat) : (s.endSeq g k).upset = s.upset := rfl
@[simp] theorem State.setDie_cycle (s : State) (d : Nat) (x : Die) : (s.setDie d x).cycle = s.cycle := rfl
@[simp] theorem State.setDie_turn (s : State) (d : Nat) (x : Die) : (s.setDie d x).turn = s.turn := rfl
@[simp] theorem State.setDie_cur (s : State) (d : Nat) (x : Die) : (s.setDie d x).cur = s.cur := rfl
@[simp] theorem State.setDie_agenda (s : State) (d : Nat) (x : Die) : (s.setDie d x).agenda = s.agenda := rfl
@[simp] theorem State.setDie_free (s : State) (d : Nat) (x : Die) : (s.setDie d x).free = s.free := rfl
@[simp] theorem State.setDie_pkgid (s : State) (d : Nat) (x : Die) : (s.setDie d x).pkgid = s.pkgid := rfl
@[simp] theorem State.setDie_mem (s : State) (d : Nat) (x : Die) : (s.setDie d x).mem = s.mem := rfl
@[simp] theorem State.setDie_poison (s : State) (d : Nat) (x : Die) : (s.setDie d x).poison = s.poison := rfl
@[simp] theorem State.setDie_owners (s : State) (d : Nat) (x : Die) : (s.setDie d x).owners = s.owners := rfl
@[simp] theorem State.setDie_cores (s : State) (d : Nat) (x : Die) : (s.setDie d x).cores = s.cores := rfl
@[simp] theorem State.setDie_clusters (s : State) (d : Nat) (x : Die) : (s.setDie d x).clusters = s.clusters := rfl
@[simp] theorem State.setDie_nodes (s : State) (d : Nat) (x : Die) : (s.setDie d x).nodes = s.nodes := rfl
@[simp] theorem State.setDie_regions (s : State) (d : Nat) (x : Die) : (s.setDie d x).regions = s.regions := rfl
@[simp] theorem State.setDie_pools (s : State) (d : Nat) (x : Die) : (s.setDie d x).pools = s.pools := rfl
@[simp] theorem State.setDie_doorbells (s : State) (d : Nat) (x : Die) : (s.setDie d x).doorbells = s.doorbells := rfl
@[simp] theorem State.setDie_peers (s : State) (d : Nat) (x : Die) : (s.setDie d x).peers = s.peers := rfl
@[simp] theorem State.setDie_outbox (s : State) (d : Nat) (x : Die) : (s.setDie d x).outbox = s.outbox := rfl
@[simp] theorem State.setDie_unacked (s : State) (d : Nat) (x : Die) : (s.setDie d x).unacked = s.unacked := rfl
@[simp] theorem State.setDie_awaiting (s : State) (d : Nat) (x : Die) : (s.setDie d x).awaiting = s.awaiting := rfl
@[simp] theorem State.setDie_txNext (s : State) (d : Nat) (x : Die) : (s.setDie d x).txNext = s.txNext := rfl
@[simp] theorem State.setDie_backlog (s : State) (d : Nat) (x : Die) : (s.setDie d x).backlog = s.backlog := rfl
@[simp] theorem State.setDie_remoteSignals (s : State) (d : Nat) (x : Die) : (s.setDie d x).remoteSignals = s.remoteSignals := rfl
@[simp] theorem State.setDie_links (s : State) (d : Nat) (x : Die) : (s.setDie d x).links = s.links := rfl
@[simp] theorem State.setDie_inbox (s : State) (d : Nat) (x : Die) : (s.setDie d x).inbox = s.inbox := rfl
@[simp] theorem State.setDie_colls (s : State) (d : Nat) (x : Die) : (s.setDie d x).colls = s.colls := rfl
@[simp] theorem State.setDie_remoteDone (s : State) (d : Nat) (x : Die) : (s.setDie d x).remoteDone = s.remoteDone := rfl
@[simp] theorem State.setDie_remoteResv (s : State) (d : Nat) (x : Die) : (s.setDie d x).remoteResv = s.remoteResv := rfl
@[simp] theorem State.setDie_sched (s : State) (d : Nat) (x : Die) : (s.setDie d x).sched = s.sched := rfl
@[simp] theorem State.setDie_host (s : State) (d : Nat) (x : Die) : (s.setDie d x).host = s.host := rfl
@[simp] theorem State.setDie_halted (s : State) (d : Nat) (x : Die) : (s.setDie d x).halted = s.halted := rfl
@[simp] theorem State.setDie_dump (s : State) (d : Nat) (x : Die) : (s.setDie d x).dump = s.dump := rfl
@[simp] theorem State.setDie_corrected (s : State) (d : Nat) (x : Die) : (s.setDie d x).corrected = s.corrected := rfl
@[simp] theorem State.setDie_uncorrected (s : State) (d : Nat) (x : Die) : (s.setDie d x).uncorrected = s.uncorrected := rfl
@[simp] theorem State.setDie_gated (s : State) (d : Nat) (x : Die) : (s.setDie d x).gated = s.gated := rfl
@[simp] theorem State.setDie_groups (s : State) (d : Nat) (x : Die) : (s.setDie d x).groups = s.groups := rfl
@[simp] theorem State.setDie_debugOut (s : State) (d : Nat) (x : Die) : (s.setDie d x).debugOut = s.debugOut := rfl
@[simp] theorem State.setDie_debugIn (s : State) (d : Nat) (x : Die) : (s.setDie d x).debugIn = s.debugIn := rfl
@[simp] theorem State.setDie_jtag (s : State) (d : Nat) (x : Die) : (s.setDie d x).jtag = s.jtag := rfl
@[simp] theorem State.setDie_held (s : State) (d : Nat) (x : Die) : (s.setDie d x).held = s.held := rfl
@[simp] theorem State.setDie_spdm (s : State) (d : Nat) (x : Die) : (s.setDie d x).spdm = s.spdm := rfl
@[simp] theorem State.setDie_areas (s : State) (d : Nat) (x : Die) : (s.setDie d x).areas = s.areas := rfl
@[simp] theorem State.setDie_side (s : State) (d : Nat) (x : Die) : (s.setDie d x).side = s.side := rfl
@[simp] theorem State.setDie_upset (s : State) (d : Nat) (x : Die) : (s.setDie d x).upset = s.upset := rfl
@[simp] theorem State.modNode_cycle (s : State) (id : Nat × Nat) (f : Node → Node) : (s.modNode id f).cycle = s.cycle := rfl
@[simp] theorem State.modNode_turn (s : State) (id : Nat × Nat) (f : Node → Node) : (s.modNode id f).turn = s.turn := rfl
@[simp] theorem State.modNode_cur (s : State) (id : Nat × Nat) (f : Node → Node) : (s.modNode id f).cur = s.cur := rfl
@[simp] theorem State.modNode_agenda (s : State) (id : Nat × Nat) (f : Node → Node) : (s.modNode id f).agenda = s.agenda := rfl
@[simp] theorem State.modNode_free (s : State) (id : Nat × Nat) (f : Node → Node) : (s.modNode id f).free = s.free := rfl
@[simp] theorem State.modNode_pkgid (s : State) (id : Nat × Nat) (f : Node → Node) : (s.modNode id f).pkgid = s.pkgid := rfl
@[simp] theorem State.modNode_mem (s : State) (id : Nat × Nat) (f : Node → Node) : (s.modNode id f).mem = s.mem := rfl
@[simp] theorem State.modNode_poison (s : State) (id : Nat × Nat) (f : Node → Node) : (s.modNode id f).poison = s.poison := rfl
@[simp] theorem State.modNode_owners (s : State) (id : Nat × Nat) (f : Node → Node) : (s.modNode id f).owners = s.owners := rfl
@[simp] theorem State.modNode_cores (s : State) (id : Nat × Nat) (f : Node → Node) : (s.modNode id f).cores = s.cores := rfl
@[simp] theorem State.modNode_clusters (s : State) (id : Nat × Nat) (f : Node → Node) : (s.modNode id f).clusters = s.clusters := rfl
@[simp] theorem State.modNode_dies (s : State) (id : Nat × Nat) (f : Node → Node) : (s.modNode id f).dies = s.dies := rfl
@[simp] theorem State.modNode_regions (s : State) (id : Nat × Nat) (f : Node → Node) : (s.modNode id f).regions = s.regions := rfl
@[simp] theorem State.modNode_pools (s : State) (id : Nat × Nat) (f : Node → Node) : (s.modNode id f).pools = s.pools := rfl
@[simp] theorem State.modNode_doorbells (s : State) (id : Nat × Nat) (f : Node → Node) : (s.modNode id f).doorbells = s.doorbells := rfl
@[simp] theorem State.modNode_peers (s : State) (id : Nat × Nat) (f : Node → Node) : (s.modNode id f).peers = s.peers := rfl
@[simp] theorem State.modNode_outbox (s : State) (id : Nat × Nat) (f : Node → Node) : (s.modNode id f).outbox = s.outbox := rfl
@[simp] theorem State.modNode_unacked (s : State) (id : Nat × Nat) (f : Node → Node) : (s.modNode id f).unacked = s.unacked := rfl
@[simp] theorem State.modNode_awaiting (s : State) (id : Nat × Nat) (f : Node → Node) : (s.modNode id f).awaiting = s.awaiting := rfl
@[simp] theorem State.modNode_txNext (s : State) (id : Nat × Nat) (f : Node → Node) : (s.modNode id f).txNext = s.txNext := rfl
@[simp] theorem State.modNode_backlog (s : State) (id : Nat × Nat) (f : Node → Node) : (s.modNode id f).backlog = s.backlog := rfl
@[simp] theorem State.modNode_remoteSignals (s : State) (id : Nat × Nat) (f : Node → Node) : (s.modNode id f).remoteSignals = s.remoteSignals := rfl
@[simp] theorem State.modNode_links (s : State) (id : Nat × Nat) (f : Node → Node) : (s.modNode id f).links = s.links := rfl
@[simp] theorem State.modNode_inbox (s : State) (id : Nat × Nat) (f : Node → Node) : (s.modNode id f).inbox = s.inbox := rfl
@[simp] theorem State.modNode_colls (s : State) (id : Nat × Nat) (f : Node → Node) : (s.modNode id f).colls = s.colls := rfl
@[simp] theorem State.modNode_remoteDone (s : State) (id : Nat × Nat) (f : Node → Node) : (s.modNode id f).remoteDone = s.remoteDone := rfl
@[simp] theorem State.modNode_remoteResv (s : State) (id : Nat × Nat) (f : Node → Node) : (s.modNode id f).remoteResv = s.remoteResv := rfl
@[simp] theorem State.modNode_sched (s : State) (id : Nat × Nat) (f : Node → Node) : (s.modNode id f).sched = s.sched := rfl
@[simp] theorem State.modNode_host (s : State) (id : Nat × Nat) (f : Node → Node) : (s.modNode id f).host = s.host := rfl
@[simp] theorem State.modNode_halted (s : State) (id : Nat × Nat) (f : Node → Node) : (s.modNode id f).halted = s.halted := rfl
@[simp] theorem State.modNode_dump (s : State) (id : Nat × Nat) (f : Node → Node) : (s.modNode id f).dump = s.dump := rfl
@[simp] theorem State.modNode_corrected (s : State) (id : Nat × Nat) (f : Node → Node) : (s.modNode id f).corrected = s.corrected := rfl
@[simp] theorem State.modNode_uncorrected (s : State) (id : Nat × Nat) (f : Node → Node) : (s.modNode id f).uncorrected = s.uncorrected := rfl
@[simp] theorem State.modNode_gated (s : State) (id : Nat × Nat) (f : Node → Node) : (s.modNode id f).gated = s.gated := rfl
@[simp] theorem State.modNode_groups (s : State) (id : Nat × Nat) (f : Node → Node) : (s.modNode id f).groups = s.groups := rfl
@[simp] theorem State.modNode_debugOut (s : State) (id : Nat × Nat) (f : Node → Node) : (s.modNode id f).debugOut = s.debugOut := rfl
@[simp] theorem State.modNode_debugIn (s : State) (id : Nat × Nat) (f : Node → Node) : (s.modNode id f).debugIn = s.debugIn := rfl
@[simp] theorem State.modNode_jtag (s : State) (id : Nat × Nat) (f : Node → Node) : (s.modNode id f).jtag = s.jtag := rfl
@[simp] theorem State.modNode_held (s : State) (id : Nat × Nat) (f : Node → Node) : (s.modNode id f).held = s.held := rfl
@[simp] theorem State.modNode_spdm (s : State) (id : Nat × Nat) (f : Node → Node) : (s.modNode id f).spdm = s.spdm := rfl
@[simp] theorem State.modNode_areas (s : State) (id : Nat × Nat) (f : Node → Node) : (s.modNode id f).areas = s.areas := rfl
@[simp] theorem State.modNode_side (s : State) (id : Nat × Nat) (f : Node → Node) : (s.modNode id f).side = s.side := rfl
@[simp] theorem State.modNode_upset (s : State) (id : Nat × Nat) (f : Node → Node) : (s.modNode id f).upset = s.upset := rfl
@[simp] theorem State.setGroup_cycle (s : State) (g : Nat) (r : RecGroup) : (s.setGroup g r).cycle = s.cycle := rfl
@[simp] theorem State.setGroup_turn (s : State) (g : Nat) (r : RecGroup) : (s.setGroup g r).turn = s.turn := rfl
@[simp] theorem State.setGroup_cur (s : State) (g : Nat) (r : RecGroup) : (s.setGroup g r).cur = s.cur := rfl
@[simp] theorem State.setGroup_agenda (s : State) (g : Nat) (r : RecGroup) : (s.setGroup g r).agenda = s.agenda := rfl
@[simp] theorem State.setGroup_free (s : State) (g : Nat) (r : RecGroup) : (s.setGroup g r).free = s.free := rfl
@[simp] theorem State.setGroup_pkgid (s : State) (g : Nat) (r : RecGroup) : (s.setGroup g r).pkgid = s.pkgid := rfl
@[simp] theorem State.setGroup_mem (s : State) (g : Nat) (r : RecGroup) : (s.setGroup g r).mem = s.mem := rfl
@[simp] theorem State.setGroup_poison (s : State) (g : Nat) (r : RecGroup) : (s.setGroup g r).poison = s.poison := rfl
@[simp] theorem State.setGroup_owners (s : State) (g : Nat) (r : RecGroup) : (s.setGroup g r).owners = s.owners := rfl
@[simp] theorem State.setGroup_cores (s : State) (g : Nat) (r : RecGroup) : (s.setGroup g r).cores = s.cores := rfl
@[simp] theorem State.setGroup_clusters (s : State) (g : Nat) (r : RecGroup) : (s.setGroup g r).clusters = s.clusters := rfl
@[simp] theorem State.setGroup_dies (s : State) (g : Nat) (r : RecGroup) : (s.setGroup g r).dies = s.dies := rfl
@[simp] theorem State.setGroup_nodes (s : State) (g : Nat) (r : RecGroup) : (s.setGroup g r).nodes = s.nodes := rfl
@[simp] theorem State.setGroup_regions (s : State) (g : Nat) (r : RecGroup) : (s.setGroup g r).regions = s.regions := rfl
@[simp] theorem State.setGroup_pools (s : State) (g : Nat) (r : RecGroup) : (s.setGroup g r).pools = s.pools := rfl
@[simp] theorem State.setGroup_doorbells (s : State) (g : Nat) (r : RecGroup) : (s.setGroup g r).doorbells = s.doorbells := rfl
@[simp] theorem State.setGroup_peers (s : State) (g : Nat) (r : RecGroup) : (s.setGroup g r).peers = s.peers := rfl
@[simp] theorem State.setGroup_outbox (s : State) (g : Nat) (r : RecGroup) : (s.setGroup g r).outbox = s.outbox := rfl
@[simp] theorem State.setGroup_unacked (s : State) (g : Nat) (r : RecGroup) : (s.setGroup g r).unacked = s.unacked := rfl
@[simp] theorem State.setGroup_awaiting (s : State) (g : Nat) (r : RecGroup) : (s.setGroup g r).awaiting = s.awaiting := rfl
@[simp] theorem State.setGroup_txNext (s : State) (g : Nat) (r : RecGroup) : (s.setGroup g r).txNext = s.txNext := rfl
@[simp] theorem State.setGroup_backlog (s : State) (g : Nat) (r : RecGroup) : (s.setGroup g r).backlog = s.backlog := rfl
@[simp] theorem State.setGroup_remoteSignals (s : State) (g : Nat) (r : RecGroup) : (s.setGroup g r).remoteSignals = s.remoteSignals := rfl
@[simp] theorem State.setGroup_links (s : State) (g : Nat) (r : RecGroup) : (s.setGroup g r).links = s.links := rfl
@[simp] theorem State.setGroup_inbox (s : State) (g : Nat) (r : RecGroup) : (s.setGroup g r).inbox = s.inbox := rfl
@[simp] theorem State.setGroup_colls (s : State) (g : Nat) (r : RecGroup) : (s.setGroup g r).colls = s.colls := rfl
@[simp] theorem State.setGroup_remoteDone (s : State) (g : Nat) (r : RecGroup) : (s.setGroup g r).remoteDone = s.remoteDone := rfl
@[simp] theorem State.setGroup_remoteResv (s : State) (g : Nat) (r : RecGroup) : (s.setGroup g r).remoteResv = s.remoteResv := rfl
@[simp] theorem State.setGroup_sched (s : State) (g : Nat) (r : RecGroup) : (s.setGroup g r).sched = s.sched := rfl
@[simp] theorem State.setGroup_host (s : State) (g : Nat) (r : RecGroup) : (s.setGroup g r).host = s.host := rfl
@[simp] theorem State.setGroup_halted (s : State) (g : Nat) (r : RecGroup) : (s.setGroup g r).halted = s.halted := rfl
@[simp] theorem State.setGroup_dump (s : State) (g : Nat) (r : RecGroup) : (s.setGroup g r).dump = s.dump := rfl
@[simp] theorem State.setGroup_corrected (s : State) (g : Nat) (r : RecGroup) : (s.setGroup g r).corrected = s.corrected := rfl
@[simp] theorem State.setGroup_uncorrected (s : State) (g : Nat) (r : RecGroup) : (s.setGroup g r).uncorrected = s.uncorrected := rfl
@[simp] theorem State.setGroup_gated (s : State) (g : Nat) (r : RecGroup) : (s.setGroup g r).gated = s.gated := rfl
@[simp] theorem State.setGroup_debugOut (s : State) (g : Nat) (r : RecGroup) : (s.setGroup g r).debugOut = s.debugOut := rfl
@[simp] theorem State.setGroup_debugIn (s : State) (g : Nat) (r : RecGroup) : (s.setGroup g r).debugIn = s.debugIn := rfl
@[simp] theorem State.setGroup_jtag (s : State) (g : Nat) (r : RecGroup) : (s.setGroup g r).jtag = s.jtag := rfl
@[simp] theorem State.setGroup_held (s : State) (g : Nat) (r : RecGroup) : (s.setGroup g r).held = s.held := rfl
@[simp] theorem State.setGroup_spdm (s : State) (g : Nat) (r : RecGroup) : (s.setGroup g r).spdm = s.spdm := rfl
@[simp] theorem State.setGroup_areas (s : State) (g : Nat) (r : RecGroup) : (s.setGroup g r).areas = s.areas := rfl
@[simp] theorem State.setGroup_side (s : State) (g : Nat) (r : RecGroup) : (s.setGroup g r).side = s.side := rfl
@[simp] theorem State.setGroup_upset (s : State) (g : Nat) (r : RecGroup) : (s.setGroup g r).upset = s.upset := rfl

/-! ### Core -/

@[simp] theorem Core.setSq_node (c : Core) (k : Nat) (q : Seq) : (c.setSq k q).node = c.node := rfl
@[simp] theorem Core.setSq_reservedFor (c : Core) (k : Nat) (q : Seq) : (c.setSq k q).reservedFor = c.reservedFor := rfl
@[simp] theorem Core.setSq_lastAsid (c : Core) (k : Nat) (q : Seq) : (c.setSq k q).lastAsid = c.lastAsid := rfl
@[simp] theorem Core.setSq_x0 (c : Core) (k : Nat) (q : Seq) : (c.setSq k q).x0 = c.x0 := rfl
@[simp] theorem Core.setSq_y0 (c : Core) (k : Nat) (q : Seq) : (c.setSq k q).y0 = c.y0 := rfl
@[simp] theorem Core.setSq_lw (c : Core) (k : Nat) (q : Seq) : (c.setSq k q).lw = c.lw := rfl
@[simp] theorem Core.setSq_lh (c : Core) (k : Nat) (q : Seq) : (c.setSq k q).lh = c.lh := rfl
@[simp] theorem Core.setSq_entry (c : Core) (k : Nat) (q : Seq) : (c.setSq k q).entry = c.entry := rfl
@[simp] theorem Core.setSq_launchid (c : Core) (k : Nat) (q : Seq) : (c.setSq k q).launchid = c.launchid := rfl
@[simp] theorem Core.setSq_asid (c : Core) (k : Nat) (q : Seq) : (c.setSq k q).asid = c.asid := rfl
@[simp] theorem Core.setSq_seqCount (c : Core) (k : Nat) (q : Seq) : (c.setSq k q).seqCount = c.seqCount := rfl
@[simp] theorem Core.setSq_scratch (c : Core) (k : Nat) (q : Seq) : (c.setSq k q).scratch = c.scratch := rfl
@[simp] theorem Core.setSq_tiles (c : Core) (k : Nat) (q : Seq) : (c.setSq k q).tiles = c.tiles := rfl
@[simp] theorem Core.setSq_accs (c : Core) (k : Nat) (q : Seq) : (c.setSq k q).accs = c.accs := rfl
@[simp] theorem Core.setSq_tcfg (c : Core) (k : Nat) (q : Seq) : (c.setSq k q).tcfg = c.tcfg := rfl
@[simp] theorem Core.setSq_acc (c : Core) (k : Nat) (q : Seq) : (c.setSq k q).acc = c.acc := rfl
@[simp] theorem Core.setSq_park (c : Core) (k : Nat) (q : Seq) : (c.setSq k q).park = c.park := rfl
@[simp] theorem Core.setSq_queues (c : Core) (k : Nat) (q : Seq) : (c.setSq k q).queues = c.queues := rfl
@[simp] theorem Core.setSq_published (c : Core) (k : Nat) (q : Seq) : (c.setSq k q).published = c.published := rfl
@[simp] theorem Core.setSq_mbox (c : Core) (k : Nat) (q : Seq) : (c.setSq k q).mbox = c.mbox := rfl
@[simp] theorem Core.setSq_flags (c : Core) (k : Nat) (q : Seq) : (c.setSq k q).flags = c.flags := rfl
@[simp] theorem Core.setSq_hen (c : Core) (k : Nat) (q : Seq) : (c.setSq k q).hen = c.hen := rfl
@[simp] theorem Core.setSq_handlers (c : Core) (k : Nat) (q : Seq) : (c.setSq k q).handlers = c.handlers := rfl
@[simp] theorem Core.setSq_plane (c : Core) (k : Nat) (q : Seq) : (c.setSq k q).plane = c.plane := rfl
@[simp] theorem Core.setSq_access (c : Core) (k : Nat) (q : Seq) : (c.setSq k q).access = c.access := rfl
@[simp] theorem Core.setSq_arms (c : Core) (k : Nat) (q : Seq) : (c.setSq k q).arms = c.arms := rfl
@[simp] theorem Core.setSq_dcache (c : Core) (k : Nat) (q : Seq) : (c.setSq k q).dcache = c.dcache := rfl
@[simp] theorem Core.setSq_icache (c : Core) (k : Nat) (q : Seq) : (c.setSq k q).icache = c.icache := rfl
@[simp] theorem Core.setSq_l1tlb (c : Core) (k : Nat) (q : Seq) : (c.setSq k q).l1tlb = c.l1tlb := rfl
@[simp] theorem Core.setSq_loss (c : Core) (k : Nat) (q : Seq) : (c.setSq k q).loss = c.loss := rfl
@[simp] theorem Core.setSq_prof (c : Core) (k : Nat) (q : Seq) : (c.setSq k q).prof = c.prof := rfl
@[simp] theorem Core.setSq_exitAddr (c : Core) (k : Nat) (q : Seq) : (c.setSq k q).exitAddr = c.exitAddr := rfl

/-! ### Regs -/

@[simp] theorem Regs.enterTrap_pc (r : Regs) (cause : Nat) (tval : Word) : (r.enterTrap cause tval).pc = r.pc := rfl
@[simp] theorem Regs.enterTrap_x (r : Regs) (cause : Nat) (tval : Word) : (r.enterTrap cause tval).x = r.x := rfl
@[simp] theorem Regs.enterTrap_f (r : Regs) (cause : Nat) (tval : Word) : (r.enterTrap cause tval).f = r.f := rfl
@[simp] theorem Regs.enterTrap_fflags (r : Regs) (cause : Nat) (tval : Word) : (r.enterTrap cause tval).fflags = r.fflags := rfl
@[simp] theorem Regs.enterTrap_frm (r : Regs) (cause : Nat) (tval : Word) : (r.enterTrap cause tval).frm = r.frm := rfl
@[simp] theorem Regs.enterTrap_ttvec (r : Regs) (cause : Nat) (tval : Word) : (r.enterTrap cause tval).ttvec = r.ttvec := rfl
@[simp] theorem Regs.enterTrap_tscratch (r : Regs) (cause : Nat) (tval : Word) : (r.enterTrap cause tval).tscratch = r.tscratch := rfl
@[simp] theorem Regs.enterTrap_vrb (r : Regs) (cause : Nat) (tval : Word) : (r.enterTrap cause tval).vrb = r.vrb := rfl
@[simp] theorem Regs.enterTrap_prb (r : Regs) (cause : Nat) (tval : Word) : (r.enterTrap cause tval).prb = r.prb := rfl
@[simp] theorem Regs.enterTrap_loops (r : Regs) (cause : Nat) (tval : Word) : (r.enterTrap cause tval).loops = r.loops := rfl
@[simp] theorem Regs.enterTrap_xfull (r : Regs) (cause : Nat) (tval : Word) : (r.enterTrap cause tval).xfull = r.xfull := rfl
@[simp] theorem Regs.enterTrap_vctx (r : Regs) (cause : Nat) (tval : Word) : (r.enterTrap cause tval).vctx = r.vctx := rfl
@[simp] theorem Regs.enterTrap_v (r : Regs) (cause : Nat) (tval : Word) : (r.enterTrap cause tval).v = r.v := rfl
@[simp] theorem Regs.enterTrap_vtag (r : Regs) (cause : Nat) (tval : Word) : (r.enterTrap cause tval).vtag = r.vtag := rfl
@[simp] theorem Regs.enterTrap_vfull (r : Regs) (cause : Nat) (tval : Word) : (r.enterTrap cause tval).vfull = r.vfull := rfl
@[simp] theorem Regs.enterTrap_p (r : Regs) (cause : Nat) (tval : Word) : (r.enterTrap cause tval).p = r.p := rfl
@[simp] theorem Regs.enterTrap_sh (r : Regs) (cause : Nat) (tval : Word) : (r.enterTrap cause tval).sh = r.sh := rfl
@[simp] theorem Regs.enterTrap_ly (r : Regs) (cause : Nat) (tval : Word) : (r.enterTrap cause tval).ly = r.ly := rfl
@[simp] theorem Regs.enterTrap_fb (r : Regs) (cause : Nat) (tval : Word) : (r.enterTrap cause tval).fb = r.fb := rfl
@[simp] theorem Regs.enterTrap_sm (r : Regs) (cause : Nat) (tval : Word) : (r.enterTrap cause tval).sm = r.sm := rfl
@[simp] theorem Regs.enterTrap_alloc (r : Regs) (cause : Nat) (tval : Word) : (r.enterTrap cause tval).alloc = r.alloc := rfl
@[simp] theorem Regs.enterTrap_armed (r : Regs) (cause : Nat) (tval : Word) : (r.enterTrap cause tval).armed = r.armed := rfl
@[simp] theorem Regs.enterTrap_aphase (r : Regs) (cause : Nat) (tval : Word) : (r.enterTrap cause tval).aphase = r.aphase := rfl
@[simp] theorem Regs.enterTrap_instret (r : Regs) (cause : Nat) (tval : Word) : (r.enterTrap cause tval).instret = r.instret := rfl
@[simp] theorem Regs.leaveTrap_pc (r : Regs) : (r.leaveTrap).pc = r.pc := rfl
@[simp] theorem Regs.leaveTrap_x (r : Regs) : (r.leaveTrap).x = r.x := rfl
@[simp] theorem Regs.leaveTrap_f (r : Regs) : (r.leaveTrap).f = r.f := rfl
@[simp] theorem Regs.leaveTrap_fflags (r : Regs) : (r.leaveTrap).fflags = r.fflags := rfl
@[simp] theorem Regs.leaveTrap_frm (r : Regs) : (r.leaveTrap).frm = r.frm := rfl
@[simp] theorem Regs.leaveTrap_ttvec (r : Regs) : (r.leaveTrap).ttvec = r.ttvec := rfl
@[simp] theorem Regs.leaveTrap_tepc (r : Regs) : (r.leaveTrap).tepc = r.tepc := rfl
@[simp] theorem Regs.leaveTrap_tcause (r : Regs) : (r.leaveTrap).tcause = r.tcause := rfl
@[simp] theorem Regs.leaveTrap_tval (r : Regs) : (r.leaveTrap).tval = r.tval := rfl
@[simp] theorem Regs.leaveTrap_tscratch (r : Regs) : (r.leaveTrap).tscratch = r.tscratch := rfl
@[simp] theorem Regs.leaveTrap_vrb (r : Regs) : (r.leaveTrap).vrb = r.vrb := rfl
@[simp] theorem Regs.leaveTrap_prb (r : Regs) : (r.leaveTrap).prb = r.prb := rfl
@[simp] theorem Regs.leaveTrap_loops (r : Regs) : (r.leaveTrap).loops = r.loops := rfl
@[simp] theorem Regs.leaveTrap_xfull (r : Regs) : (r.leaveTrap).xfull = r.xfull := rfl
@[simp] theorem Regs.leaveTrap_vctx (r : Regs) : (r.leaveTrap).vctx = r.vctx := rfl
@[simp] theorem Regs.leaveTrap_v (r : Regs) : (r.leaveTrap).v = r.v := rfl
@[simp] theorem Regs.leaveTrap_vtag (r : Regs) : (r.leaveTrap).vtag = r.vtag := rfl
@[simp] theorem Regs.leaveTrap_vfull (r : Regs) : (r.leaveTrap).vfull = r.vfull := rfl
@[simp] theorem Regs.leaveTrap_p (r : Regs) : (r.leaveTrap).p = r.p := rfl
@[simp] theorem Regs.leaveTrap_sh (r : Regs) : (r.leaveTrap).sh = r.sh := rfl
@[simp] theorem Regs.leaveTrap_ly (r : Regs) : (r.leaveTrap).ly = r.ly := rfl
@[simp] theorem Regs.leaveTrap_fb (r : Regs) : (r.leaveTrap).fb = r.fb := rfl
@[simp] theorem Regs.leaveTrap_sm (r : Regs) : (r.leaveTrap).sm = r.sm := rfl
@[simp] theorem Regs.leaveTrap_alloc (r : Regs) : (r.leaveTrap).alloc = r.alloc := rfl
@[simp] theorem Regs.leaveTrap_armed (r : Regs) : (r.leaveTrap).armed = r.armed := rfl
@[simp] theorem Regs.leaveTrap_aphase (r : Regs) : (r.leaveTrap).aphase = r.aphase := rfl
@[simp] theorem Regs.leaveTrap_instret (r : Regs) : (r.leaveTrap).instret = r.instret := rfl

/-! ### Writes of x and p registers: a write to x0 or p0 changes nothing at all -/

theorem Regs.wx_cases (r : Regs) (i : XReg) (w : Word) : r.wx i w = r ∨ r.wx i w = { r with x := vput r.x i w } := by
  unfold Regs.wx; split <;> simp

theorem Regs.wp_cases (r : Regs) (j : PReg) (b : PBits) :
    r.wp j b = r ∨ r.wp j b = { r with p := vput r.p (rotP r.prb j) b } := by
  unfold Regs.wp; split <;> simp

theorem Regs.markX_cases (r : Regs) (i : XReg) (b : Bool) :
    r.markX i b = r ∨ r.markX i b = { r with xfull := vput r.xfull i b } := by
  unfold Regs.markX; split <;> simp

@[simp] theorem Regs.wx_pc (r : Regs) (i : XReg) (w : Word) : (r.wx i w).pc = r.pc := by
  rcases r.wx_cases i w with h | h <;> rw [h]
@[simp] theorem Regs.wx_f (r : Regs) (i : XReg) (w : Word) : (r.wx i w).f = r.f := by
  rcases r.wx_cases i w with h | h <;> rw [h]
@[simp] theorem Regs.wx_fflags (r : Regs) (i : XReg) (w : Word) : (r.wx i w).fflags = r.fflags := by
  rcases r.wx_cases i w with h | h <;> rw [h]
@[simp] theorem Regs.wx_frm (r : Regs) (i : XReg) (w : Word) : (r.wx i w).frm = r.frm := by
  rcases r.wx_cases i w with h | h <;> rw [h]
@[simp] theorem Regs.wx_ttvec (r : Regs) (i : XReg) (w : Word) : (r.wx i w).ttvec = r.ttvec := by
  rcases r.wx_cases i w with h | h <;> rw [h]
@[simp] theorem Regs.wx_tepc (r : Regs) (i : XReg) (w : Word) : (r.wx i w).tepc = r.tepc := by
  rcases r.wx_cases i w with h | h <;> rw [h]
@[simp] theorem Regs.wx_tcause (r : Regs) (i : XReg) (w : Word) : (r.wx i w).tcause = r.tcause := by
  rcases r.wx_cases i w with h | h <;> rw [h]
@[simp] theorem Regs.wx_tval (r : Regs) (i : XReg) (w : Word) : (r.wx i w).tval = r.tval := by
  rcases r.wx_cases i w with h | h <;> rw [h]
@[simp] theorem Regs.wx_tscratch (r : Regs) (i : XReg) (w : Word) : (r.wx i w).tscratch = r.tscratch := by
  rcases r.wx_cases i w with h | h <;> rw [h]
@[simp] theorem Regs.wx_act (r : Regs) (i : XReg) (w : Word) : (r.wx i w).act = r.act := by
  rcases r.wx_cases i w with h | h <;> rw [h]
@[simp] theorem Regs.wx_vrb (r : Regs) (i : XReg) (w : Word) : (r.wx i w).vrb = r.vrb := by
  rcases r.wx_cases i w with h | h <;> rw [h]
@[simp] theorem Regs.wx_prb (r : Regs) (i : XReg) (w : Word) : (r.wx i w).prb = r.prb := by
  rcases r.wx_cases i w with h | h <;> rw [h]
@[simp] theorem Regs.wx_loops (r : Regs) (i : XReg) (w : Word) : (r.wx i w).loops = r.loops := by
  rcases r.wx_cases i w with h | h <;> rw [h]
@[simp] theorem Regs.wx_xfull (r : Regs) (i : XReg) (w : Word) : (r.wx i w).xfull = r.xfull := by
  rcases r.wx_cases i w with h | h <;> rw [h]
@[simp] theorem Regs.wx_vctx (r : Regs) (i : XReg) (w : Word) : (r.wx i w).vctx = r.vctx := by
  rcases r.wx_cases i w with h | h <;> rw [h]
@[simp] theorem Regs.wx_v (r : Regs) (i : XReg) (w : Word) : (r.wx i w).v = r.v := by
  rcases r.wx_cases i w with h | h <;> rw [h]
@[simp] theorem Regs.wx_vtag (r : Regs) (i : XReg) (w : Word) : (r.wx i w).vtag = r.vtag := by
  rcases r.wx_cases i w with h | h <;> rw [h]
@[simp] theorem Regs.wx_vfull (r : Regs) (i : XReg) (w : Word) : (r.wx i w).vfull = r.vfull := by
  rcases r.wx_cases i w with h | h <;> rw [h]
@[simp] theorem Regs.wx_p (r : Regs) (i : XReg) (w : Word) : (r.wx i w).p = r.p := by
  rcases r.wx_cases i w with h | h <;> rw [h]
@[simp] theorem Regs.wx_sh (r : Regs) (i : XReg) (w : Word) : (r.wx i w).sh = r.sh := by
  rcases r.wx_cases i w with h | h <;> rw [h]
@[simp] theorem Regs.wx_ly (r : Regs) (i : XReg) (w : Word) : (r.wx i w).ly = r.ly := by
  rcases r.wx_cases i w with h | h <;> rw [h]
@[simp] theorem Regs.wx_fb (r : Regs) (i : XReg) (w : Word) : (r.wx i w).fb = r.fb := by
  rcases r.wx_cases i w with h | h <;> rw [h]
@[simp] theorem Regs.wx_sm (r : Regs) (i : XReg) (w : Word) : (r.wx i w).sm = r.sm := by
  rcases r.wx_cases i w with h | h <;> rw [h]
@[simp] theorem Regs.wx_alloc (r : Regs) (i : XReg) (w : Word) : (r.wx i w).alloc = r.alloc := by
  rcases r.wx_cases i w with h | h <;> rw [h]
@[simp] theorem Regs.wx_armed (r : Regs) (i : XReg) (w : Word) : (r.wx i w).armed = r.armed := by
  rcases r.wx_cases i w with h | h <;> rw [h]
@[simp] theorem Regs.wx_aphase (r : Regs) (i : XReg) (w : Word) : (r.wx i w).aphase = r.aphase := by
  rcases r.wx_cases i w with h | h <;> rw [h]
@[simp] theorem Regs.wx_instret (r : Regs) (i : XReg) (w : Word) : (r.wx i w).instret = r.instret := by
  rcases r.wx_cases i w with h | h <;> rw [h]
@[simp] theorem Regs.wp_pc (r : Regs) (j : PReg) (b : PBits) : (r.wp j b).pc = r.pc := by
  rcases r.wp_cases j b with h | h <;> rw [h]
@[simp] theorem Regs.wp_x (r : Regs) (j : PReg) (b : PBits) : (r.wp j b).x = r.x := by
  rcases r.wp_cases j b with h | h <;> rw [h]
@[simp] theorem Regs.wp_f (r : Regs) (j : PReg) (b : PBits) : (r.wp j b).f = r.f := by
  rcases r.wp_cases j b with h | h <;> rw [h]
@[simp] theorem Regs.wp_fflags (r : Regs) (j : PReg) (b : PBits) : (r.wp j b).fflags = r.fflags := by
  rcases r.wp_cases j b with h | h <;> rw [h]
@[simp] theorem Regs.wp_frm (r : Regs) (j : PReg) (b : PBits) : (r.wp j b).frm = r.frm := by
  rcases r.wp_cases j b with h | h <;> rw [h]
@[simp] theorem Regs.wp_ttvec (r : Regs) (j : PReg) (b : PBits) : (r.wp j b).ttvec = r.ttvec := by
  rcases r.wp_cases j b with h | h <;> rw [h]
@[simp] theorem Regs.wp_tepc (r : Regs) (j : PReg) (b : PBits) : (r.wp j b).tepc = r.tepc := by
  rcases r.wp_cases j b with h | h <;> rw [h]
@[simp] theorem Regs.wp_tcause (r : Regs) (j : PReg) (b : PBits) : (r.wp j b).tcause = r.tcause := by
  rcases r.wp_cases j b with h | h <;> rw [h]
@[simp] theorem Regs.wp_tval (r : Regs) (j : PReg) (b : PBits) : (r.wp j b).tval = r.tval := by
  rcases r.wp_cases j b with h | h <;> rw [h]
@[simp] theorem Regs.wp_tscratch (r : Regs) (j : PReg) (b : PBits) : (r.wp j b).tscratch = r.tscratch := by
  rcases r.wp_cases j b with h | h <;> rw [h]
@[simp] theorem Regs.wp_act (r : Regs) (j : PReg) (b : PBits) : (r.wp j b).act = r.act := by
  rcases r.wp_cases j b with h | h <;> rw [h]
@[simp] theorem Regs.wp_vrb (r : Regs) (j : PReg) (b : PBits) : (r.wp j b).vrb = r.vrb := by
  rcases r.wp_cases j b with h | h <;> rw [h]
@[simp] theorem Regs.wp_prb (r : Regs) (j : PReg) (b : PBits) : (r.wp j b).prb = r.prb := by
  rcases r.wp_cases j b with h | h <;> rw [h]
@[simp] theorem Regs.wp_loops (r : Regs) (j : PReg) (b : PBits) : (r.wp j b).loops = r.loops := by
  rcases r.wp_cases j b with h | h <;> rw [h]
@[simp] theorem Regs.wp_xfull (r : Regs) (j : PReg) (b : PBits) : (r.wp j b).xfull = r.xfull := by
  rcases r.wp_cases j b with h | h <;> rw [h]
@[simp] theorem Regs.wp_vctx (r : Regs) (j : PReg) (b : PBits) : (r.wp j b).vctx = r.vctx := by
  rcases r.wp_cases j b with h | h <;> rw [h]
@[simp] theorem Regs.wp_v (r : Regs) (j : PReg) (b : PBits) : (r.wp j b).v = r.v := by
  rcases r.wp_cases j b with h | h <;> rw [h]
@[simp] theorem Regs.wp_vtag (r : Regs) (j : PReg) (b : PBits) : (r.wp j b).vtag = r.vtag := by
  rcases r.wp_cases j b with h | h <;> rw [h]
@[simp] theorem Regs.wp_vfull (r : Regs) (j : PReg) (b : PBits) : (r.wp j b).vfull = r.vfull := by
  rcases r.wp_cases j b with h | h <;> rw [h]
@[simp] theorem Regs.wp_sh (r : Regs) (j : PReg) (b : PBits) : (r.wp j b).sh = r.sh := by
  rcases r.wp_cases j b with h | h <;> rw [h]
@[simp] theorem Regs.wp_ly (r : Regs) (j : PReg) (b : PBits) : (r.wp j b).ly = r.ly := by
  rcases r.wp_cases j b with h | h <;> rw [h]
@[simp] theorem Regs.wp_fb (r : Regs) (j : PReg) (b : PBits) : (r.wp j b).fb = r.fb := by
  rcases r.wp_cases j b with h | h <;> rw [h]
@[simp] theorem Regs.wp_sm (r : Regs) (j : PReg) (b : PBits) : (r.wp j b).sm = r.sm := by
  rcases r.wp_cases j b with h | h <;> rw [h]
@[simp] theorem Regs.wp_alloc (r : Regs) (j : PReg) (b : PBits) : (r.wp j b).alloc = r.alloc := by
  rcases r.wp_cases j b with h | h <;> rw [h]
@[simp] theorem Regs.wp_armed (r : Regs) (j : PReg) (b : PBits) : (r.wp j b).armed = r.armed := by
  rcases r.wp_cases j b with h | h <;> rw [h]
@[simp] theorem Regs.wp_aphase (r : Regs) (j : PReg) (b : PBits) : (r.wp j b).aphase = r.aphase := by
  rcases r.wp_cases j b with h | h <;> rw [h]
@[simp] theorem Regs.wp_instret (r : Regs) (j : PReg) (b : PBits) : (r.wp j b).instret = r.instret := by
  rcases r.wp_cases j b with h | h <;> rw [h]
@[simp] theorem Regs.markX_pc (r : Regs) (i : XReg) (b : Bool) : (r.markX i b).pc = r.pc := by
  rcases r.markX_cases i b with h | h <;> rw [h]
@[simp] theorem Regs.markX_x (r : Regs) (i : XReg) (b : Bool) : (r.markX i b).x = r.x := by
  rcases r.markX_cases i b with h | h <;> rw [h]
@[simp] theorem Regs.markX_f (r : Regs) (i : XReg) (b : Bool) : (r.markX i b).f = r.f := by
  rcases r.markX_cases i b with h | h <;> rw [h]
@[simp] theorem Regs.markX_fflags (r : Regs) (i : XReg) (b : Bool) : (r.markX i b).fflags = r.fflags := by
  rcases r.markX_cases i b with h | h <;> rw [h]
@[simp] theorem Regs.markX_frm (r : Regs) (i : XReg) (b : Bool) : (r.markX i b).frm = r.frm := by
  rcases r.markX_cases i b with h | h <;> rw [h]
@[simp] theorem Regs.markX_ttvec (r : Regs) (i : XReg) (b : Bool) : (r.markX i b).ttvec = r.ttvec := by
  rcases r.markX_cases i b with h | h <;> rw [h]
@[simp] theorem Regs.markX_tepc (r : Regs) (i : XReg) (b : Bool) : (r.markX i b).tepc = r.tepc := by
  rcases r.markX_cases i b with h | h <;> rw [h]
@[simp] theorem Regs.markX_tcause (r : Regs) (i : XReg) (b : Bool) : (r.markX i b).tcause = r.tcause := by
  rcases r.markX_cases i b with h | h <;> rw [h]
@[simp] theorem Regs.markX_tval (r : Regs) (i : XReg) (b : Bool) : (r.markX i b).tval = r.tval := by
  rcases r.markX_cases i b with h | h <;> rw [h]
@[simp] theorem Regs.markX_tscratch (r : Regs) (i : XReg) (b : Bool) : (r.markX i b).tscratch = r.tscratch := by
  rcases r.markX_cases i b with h | h <;> rw [h]
@[simp] theorem Regs.markX_act (r : Regs) (i : XReg) (b : Bool) : (r.markX i b).act = r.act := by
  rcases r.markX_cases i b with h | h <;> rw [h]
@[simp] theorem Regs.markX_vrb (r : Regs) (i : XReg) (b : Bool) : (r.markX i b).vrb = r.vrb := by
  rcases r.markX_cases i b with h | h <;> rw [h]
@[simp] theorem Regs.markX_prb (r : Regs) (i : XReg) (b : Bool) : (r.markX i b).prb = r.prb := by
  rcases r.markX_cases i b with h | h <;> rw [h]
@[simp] theorem Regs.markX_loops (r : Regs) (i : XReg) (b : Bool) : (r.markX i b).loops = r.loops := by
  rcases r.markX_cases i b with h | h <;> rw [h]
@[simp] theorem Regs.markX_vctx (r : Regs) (i : XReg) (b : Bool) : (r.markX i b).vctx = r.vctx := by
  rcases r.markX_cases i b with h | h <;> rw [h]
@[simp] theorem Regs.markX_v (r : Regs) (i : XReg) (b : Bool) : (r.markX i b).v = r.v := by
  rcases r.markX_cases i b with h | h <;> rw [h]
@[simp] theorem Regs.markX_vtag (r : Regs) (i : XReg) (b : Bool) : (r.markX i b).vtag = r.vtag := by
  rcases r.markX_cases i b with h | h <;> rw [h]
@[simp] theorem Regs.markX_vfull (r : Regs) (i : XReg) (b : Bool) : (r.markX i b).vfull = r.vfull := by
  rcases r.markX_cases i b with h | h <;> rw [h]
@[simp] theorem Regs.markX_p (r : Regs) (i : XReg) (b : Bool) : (r.markX i b).p = r.p := by
  rcases r.markX_cases i b with h | h <;> rw [h]
@[simp] theorem Regs.markX_sh (r : Regs) (i : XReg) (b : Bool) : (r.markX i b).sh = r.sh := by
  rcases r.markX_cases i b with h | h <;> rw [h]
@[simp] theorem Regs.markX_ly (r : Regs) (i : XReg) (b : Bool) : (r.markX i b).ly = r.ly := by
  rcases r.markX_cases i b with h | h <;> rw [h]
@[simp] theorem Regs.markX_fb (r : Regs) (i : XReg) (b : Bool) : (r.markX i b).fb = r.fb := by
  rcases r.markX_cases i b with h | h <;> rw [h]
@[simp] theorem Regs.markX_sm (r : Regs) (i : XReg) (b : Bool) : (r.markX i b).sm = r.sm := by
  rcases r.markX_cases i b with h | h <;> rw [h]
@[simp] theorem Regs.markX_alloc (r : Regs) (i : XReg) (b : Bool) : (r.markX i b).alloc = r.alloc := by
  rcases r.markX_cases i b with h | h <;> rw [h]
@[simp] theorem Regs.markX_armed (r : Regs) (i : XReg) (b : Bool) : (r.markX i b).armed = r.armed := by
  rcases r.markX_cases i b with h | h <;> rw [h]
@[simp] theorem Regs.markX_aphase (r : Regs) (i : XReg) (b : Bool) : (r.markX i b).aphase = r.aphase := by
  rcases r.markX_cases i b with h | h <;> rw [h]
@[simp] theorem Regs.markX_instret (r : Regs) (i : XReg) (b : Bool) : (r.markX i b).instret = r.instret := by
  rcases r.markX_cases i b with h | h <;> rw [h]

end Sys2Proof.Machine
end

