-- ==== Sys2Proof/Laws/Ops.lean ====
section
/-! SUPPORT. The shared operations: reading a sequencer after a change, checks, traps (R23, R24), ends (R22) and the ways an
instruction finishes. -/
namespace Sys2Proof.Machine

/-! ### Cores and sequencers -/

@[simp] theorem State.core_setCore_same (s : State) (g : Nat) (c : Core) : (s.setCore g c).core g = c := by
  simp [State.core, State.setCore]

theorem State.core_setCore_other (s : State) (g g' : Nat) (c : Core) (h : g' ≠ g) : (s.setCore g c).core g' = s.core g' := by
  simp only [State.core, State.setCore]; exact tabGet_tabPut_other _ _ _ _ _ h

@[simp] theorem State.core_modCore_same (s : State) (g : Nat) (f : Core → Core) : (s.modCore g f).core g = f (s.core g) := by
  simp [State.modCore]

theorem State.core_modCore_other (s : State) (g g' : Nat) (f : Core → Core) (h : g' ≠ g) : (s.modCore g f).core g' = s.core g' :=
  State.core_setCore_other s g g' _ h

@[simp] theorem Core.sq_setSq_same (c : Core) (k : Nat) (q : Seq) : (c.setSq k q).sq k = q := by
  simp [Core.sq, Core.setSq]

theorem Core.sq_setSq_other (c : Core) (k k' : Nat) (q : Seq) (h : k' ≠ k) : (c.setSq k q).sq k' = c.sq k' := by
  simp only [Core.sq, Core.setSq]; exact tabGet_tabPut_other _ _ _ _ _ h

@[simp] theorem State.seqAt_setSeqAt_same (s : State) (g k : Nat) (q : Seq) : (s.setSeqAt g k q).seqAt g k = q := by
  simp [State.seqAt, State.setSeqAt]

theorem State.seqAt_setSeqAt_other (s : State) (g k g' k' : Nat) (q : Seq) (h : (g', k') ≠ (g, k)) :
    (s.setSeqAt g k q).seqAt g' k' = s.seqAt g' k' := by
  by_cases hg : g' = g
  · subst hg
    have hk : k' ≠ k := fun e => h (by rw [e])
    simp [State.seqAt, State.setSeqAt, Core.sq_setSq_other _ _ _ _ hk]
  · simp [State.seqAt, State.setSeqAt, State.core_setCore_other _ _ _ _ hg]

@[simp] theorem State.seqAt_modSeqAt_same (s : State) (g k : Nat) (f : Seq → Seq) :
    (s.modSeqAt g k f).seqAt g k = f (s.seqAt g k) := by simp [State.modSeqAt]

theorem State.seqAt_modSeqAt_other (s : State) (g k g' k' : Nat) (f : Seq → Seq) (h : (g', k') ≠ (g, k)) :
    (s.modSeqAt g k f).seqAt g' k' = s.seqAt g' k' := State.seqAt_setSeqAt_other s g k g' k' _ h

@[simp] theorem State.me_setMe (s : State) (q : Seq) : (s.setMe q).me = q := by
  exact State.seqAt_setSeqAt_same s s.cur.1 s.cur.2 q

@[simp] theorem State.me_modRegs (s : State) (f : Regs → Regs) : (s.modRegs f).me = { s.me with r := f s.me.r } := by
  simp [State.modRegs]

@[simp] theorem State.cluster_setCluster_same (s : State) (cl : Nat) (c : Cluster) : (s.setCluster cl c).cluster cl = c := by
  simp [State.cluster, State.setCluster]

theorem State.cluster_setCluster_other (s : State) (cl cl' : Nat) (c : Cluster) (h : cl' ≠ cl) :
    (s.setCluster cl c).cluster cl' = s.cluster cl' := by
  simp only [State.cluster, State.setCluster]; exact tabGet_tabPut_other _ _ _ _ _ h

@[simp] theorem State.cluster_modCluster_same (s : State) (cl : Nat) (f : Cluster → Cluster) :
    (s.modCluster cl f).cluster cl = f (s.cluster cl) := by simp [State.modCluster]

@[simp] theorem State.die_setDie_same (s : State) (d : Nat) (x : Die) : (s.setDie d x).die d = x := by
  simp [State.die, State.setDie]

/-! ### Register files -/

@[simp] theorem vput_same {α : Type} {n : Nat} (v : Vector α n) (i : Fin n) (a : α) : (vput v i a)[i] = a := by
  simp [vput]

theorem vput_other {α : Type} {n : Nat} (v : Vector α n) (i j : Fin n) (a : α) (h : j ≠ i) : (vput v i a)[j] = v[j] := by
  have : i.val ≠ j.val := fun e => h (Fin.ext e.symm)
  simp [vput, this]

@[simp] theorem Regs.rx_zero (r : Regs) : r.rx 0 = 0 := by simp [Regs.rx]

@[simp] theorem Regs.wx_zero (r : Regs) (w : Word) : r.wx 0 w = r := by simp [Regs.wx]

theorem Regs.rx_wx_same (r : Regs) (i : XReg) (w : Word) (h : i ≠ 0) : (r.wx i w).rx i = w := by
  unfold Regs.rx Regs.wx; rw [if_neg h, if_neg h]; exact vput_same _ _ _

theorem Regs.rx_wx_other (r : Regs) (i j : XReg) (w : Word) (h : j ≠ i) : (r.wx i w).rx j = r.rx j := by
  unfold Regs.wx
  split
  · rfl
  · simp only [Regs.rx]
    split
    · rfl
    · exact vput_other _ _ _ _ h

@[simp] theorem Regs.rp_zero (r : Regs) : r.rp 0 = BitVec.allOnes 1024 := by simp [Regs.rp]

@[simp] theorem Regs.wp_zero (r : Regs) (b : PBits) : r.wp 0 b = r := by simp [Regs.wp]

/-! ### Checks -/

@[simp] theorem Res.checked_nil (r : Res) : Res.checked [] r = r := rfl

@[simp] theorem Res.checked_none (l : List Check) (r : Res) : Res.checked (none :: l) r = Res.checked l r := rfl

@[simp] theorem Res.checked_some (e : Res) (l : List Check) (r : Res) : Res.checked (some e :: l) r = e := rfl

/-- When every check passes the effect remains. -/
theorem Res.checked_pass (l : List Check) (r : Res) (h : ∀ c ∈ l, c = none) : Res.checked l r = r := by
  induction l with
  | nil => rfl
  | cons c t ih =>
    rw [h c (by simp)]
    exact ih fun d hd => h d (by simp [hd])

/-- Checks come to the effect, or to one of themselves. -/
theorem Res.checked_cases (l : List Check) (r : Res) : Res.checked l r = r ∨ ∃ e, some e ∈ l ∧ Res.checked l r = e := by
  induction l with
  | nil => exact .inl rfl
  | cons c t ih =>
    cases c with
    | some e => exact .inr ⟨e, by simp, rfl⟩
    | none =>
      rcases ih with h | ⟨e, he, h⟩
      · exact .inl h
      · exact .inr ⟨e, by simp [he], h⟩

@[simp] theorem trapIf_false (c : Nat) (v : Word) : trapIf false c v = none := rfl
@[simp] theorem trapIf_true (c : Nat) (v : Word) : trapIf true c v = some (.trap c v) := rfl
@[simp] theorem blockIf_false : blockIf false = none := rfl
@[simp] theorem blockIf_true : blockIf true = some .block := rfl

/-- Full sources and destinations pass. -/
theorem needX_full (s : State) (l : List XReg) (h : ∀ i ∈ l, s.me.r.xIsFull i = true) : needX s l = none := by
  have : (l.any fun i => !s.me.r.xIsFull i) = false := by
    rw [List.any_eq_false]; intro i hi; simp [h i hi]
  simp [needX, this]

/-! ### How an instruction finishes -/

@[simp] theorem Res.finish_done (t s : State) :
    (Res.done t).finish s = .next ((t.countRetired s.cur.1 s.cur.2).goTo s.cur.1 s.cur.2 (t.me.r.pc + 4)) := rfl

@[simp] theorem Res.finish_jump (t s : State) (pc : Word) :
    (Res.jump t pc).finish s = .next ((t.countRetired s.cur.1 s.cur.2).goTo s.cur.1 s.cur.2 pc) := rfl

@[simp] theorem Res.finish_trap (s : State) (c : Nat) (v : Word) :
    (Res.trap c v).finish s = .next (s.takeTrap s.cur.1 s.cur.2 c v) := rfl

/-- Every instruction answers a next state. -/
theorem Res.finish_next (r : Res) (s : State) : ∃ t, r.finish s = .next t := by
  cases r <;> exact ⟨_, rfl⟩

/-- A sequencer goes to an address: it ends there, or stands there (R22). -/
theorem State.goTo_cases (s : State) (g k : Nat) (pc : Word) :
    s.goTo g k pc = (s.modSeqAt g k fun q => { q with r := { q.r with pc := pc } }).endSeq g k ∨
      s.goTo g k pc = s.modSeqAt g k fun q => { q with r := { q.r with pc := pc } } := by
  unfold State.goTo; split <;> simp

@[simp] theorem State.goTo_mem (s : State) (g k : Nat) (pc : Word) : (s.goTo g k pc).mem = s.mem := by
  rcases s.goTo_cases g k pc with h | h <;> rw [h] <;> rfl

@[simp] theorem State.recordFault_mem (s : State) (g k c : Nat) (a b : Word) : (s.recordFault g k c a b).mem = s.mem := by
  unfold State.recordFault; split <;> (try split) <;> rfl

@[simp] theorem State.endFaulted_mem (s : State) (g k c : Nat) (a b : Word) : (s.endFaulted g k c a b).mem = s.mem := by
  unfold State.endFaulted; simp

/-- R23, R24: a trap ends the sequencer faulted, or enters the handler. -/
theorem State.takeTrap_cases (s : State) (g k cause : Nat) (tval : Word) :
    (s.takeTrap g k cause tval = s.endFaulted g k cause (s.seqAt g k).r.pc tval) ∨
      (s.takeTrap g k cause tval =
        (s.setSeqAt g k { s.seqAt g k with status := .ready, r := (s.seqAt g k).r.enterTrap cause tval }).goTo g k
          (s.seqAt g k).r.ttvec) := by
  unfold State.takeTrap; dsimp only; split <;> simp

@[simp] theorem State.takeTrap_mem (s : State) (g k c : Nat) (v : Word) : (s.takeTrap g k c v).mem = s.mem := by
  rcases s.takeTrap_cases g k c v with h | h <;> rw [h] <;> simp

/-- What an instruction's end leaves of memory: what its effect left. -/
theorem Res.finish_mem (r : Res) (s t : State) (h : r.finish s = .next t)
    (hd : ∀ u, (r = .done u ∨ (∃ pc, r = .jump u pc) ∨ (∃ pc, r = .loopEdge u pc) ∨ r = .wait u) → u.mem = s.mem) :
    t.mem = s.mem := by
  cases r <;> simp only [Res.finish, Host.Outcome.next.injEq] at h <;> subst h <;> simp
  · exact hd _ (.inl rfl)
  · exact hd _ (.inr (.inl ⟨_, rfl⟩))
  · exact hd _ (.inr (.inr (.inl ⟨_, rfl⟩)))
  · exact hd _ (.inr (.inr (.inr rfl)))

end Sys2Proof.Machine
end

