-- ==== Sys2Proof/Laws/PerInstr.lean ====
section
/-! SUPPORT. Laws by instruction. Family Encoding: the word of an instruction that the scanner lets stand is a 32-bit word
whose two low bits are 11 (R5 item 1). -/
namespace Sys2Proof.Laws

/-! ### Sizes of the layouts -/

theorem bit_lt (b : Bool) : bit b < 2 := by cases b <;> decide

theorem twos_lt (n : Nat) (i : Int) : twos n i < 2 ^ n := by
  have h : (0 : Int) < ((2 ^ n : Nat) : Int) := by exact_mod_cast Nat.pow_pos (by decide)
  have h1 := Int.emod_lt_of_pos i h
  have h0 := Int.emod_nonneg i (Int.ne_of_gt h)
  unfold twos
  omega

/-- What the family says of a word. -/
def IsWord (w : Nat) : Prop := w < 2 ^ 32 ∧ w % 4 = 3

theorem encR_word {f7 rs2 rs1 f3 rd op : Nat} (h7 : f7 < 128) (h2 : rs2 < 32) (h1 : rs1 < 32) (h3 : f3 < 8) (hd : rd < 32)
    (ho : op < 128) (hl : op % 4 = 3) : IsWord (encR f7 rs2 rs1 f3 rd op) := by unfold IsWord encR; omega

theorem encI_word {imm : Int} {rs1 f3 rd op : Nat} (h1 : rs1 < 32) (h3 : f3 < 8) (hd : rd < 32) (ho : op < 128)
    (hl : op % 4 = 3) : IsWord (encI imm rs1 f3 rd op) := by have := twos_lt 12 imm; unfold IsWord encI; omega

theorem encS_word {imm : Int} {rs2 rs1 f3 op : Nat} (h2 : rs2 < 32) (h1 : rs1 < 32) (h3 : f3 < 8) (ho : op < 128)
    (hl : op % 4 = 3) : IsWord (encS imm rs2 rs1 f3 op) := by have := twos_lt 12 imm; unfold IsWord encS; omega

theorem encB_word {off : Int} {rs2 rs1 f3 op : Nat} (h2 : rs2 < 32) (h1 : rs1 < 32) (h3 : f3 < 8) (ho : op < 128)
    (hl : op % 4 = 3) : IsWord (encB off rs2 rs1 f3 op) := by have := twos_lt 13 off; simp only [IsWord, encB]; omega

theorem encJ_word {off : Int} {rd op : Nat} (hd : rd < 32) (ho : op < 128) (hl : op % 4 = 3) : IsWord (encJ off rd op) := by
  have := twos_lt 21 off; simp only [IsWord, encJ]; omega

theorem encVA_word {fn s2 op : Nat} (o : VA) (hf : fn < 16) (h2 : s2 < 32) (ho : op < 128) (hl : op % 4 = 3) :
    IsWord (encVA fn s2 op o) := by
  have := bit_lt o.b1; have := bit_lt o.b2; have := o.vs1.isLt; have := o.qp.isLt; have := o.vd.isLt
  unfold IsWord encVA; omega

theorem encVCv_word {fn : Nat} (o : VCv) (hf : fn < 16) : IsWord (encVCv fn o) := by
  have := bit_lt o.b1; have := bit_lt o.sat; have := o.tag.isLt; have := o.vs1.isLt; have := o.qp.isLt; have := o.vd.isLt
  unfold IsWord encVCv; omega

theorem encVP_word {cond : Nat} (o : VP) (hf : cond < 16) : IsWord (encVP cond o) := by
  have := o.ctype.isLt; have := o.s2.isLt; have := o.s1.isLt; have := o.qp.isLt; have := o.pa.isLt
  unfold IsWord encVP; omega

theorem encVM_word {fn mode : Nat} (o : VM) (hf : fn < 16) (hm : mode < 2) : IsWord (encVM fn mode o) := by
  have := bit_lt o.b; have := o.s2.isLt; have := o.xs1.isLt; have := o.qp.isLt; have := o.vd.isLt
  unfold IsWord encVM; omega

theorem encFAmo_word {f5 : Nat} (o : FAmo) (hf : f5 < 32) : IsWord (encFAmo f5 o) := by
  have := bit_lt o.aq; have := bit_lt o.rl
  exact encR_word (by omega) o.rs2.isLt o.rs1.isLt (by decide) o.rd.isLt (by decide) (by decide)

theorem rm_code_lt (r : Rm) : r.code < 8 := by cases r <;> decide
theorem opFn_code_lt (f : OpFn) : f.code.1 < 128 ∧ f.code.2 < 8 := by cases f <;> decide
theorem op32Fn_code_lt (f : Op32Fn) : f.code.1 < 128 ∧ f.code.2 < 8 := by cases f <;> decide
theorem brCond_code_lt (c : BrCond) : c.code < 8 := by cases c <;> decide
theorem amoOp_code_lt (o : AmoOp) : o.code < 32 := by cases o <;> decide
theorem amoWidth_code_lt (w : AmoWidth) : w.code < 8 := by cases w <;> decide
theorem csrOp_code_lt (o : CsrOp) : o.code < 8 := by cases o <;> decide
theorem cvtInt_code_lt (t : CvtInt) : t.code < 32 := by cases t <;> decide
theorem mark_code_lt (sc : Scope) (k : MarkKind) : k.code * 8 + sc.code < 32 := by cases sc <;> cases k <;> decide

theorem std_word (op : StdInstr) (h : op.wf = true) : IsWord op.encode := by
  cases op with
  | lui rd imm => simp only [StdInstr.wf, decide_eq_true_eq] at h; have := rd.isLt; exact ⟨show imm * 4096 + rd.val * 128 + 0x37 < _ by omega, show (imm * 4096 + rd.val * 128 + 0x37) % 4 = _ by omega⟩
  | auipc rd imm => simp only [StdInstr.wf, decide_eq_true_eq] at h; have := rd.isLt; exact ⟨show imm * 4096 + rd.val * 128 + 0x17 < _ by omega, show (imm * 4096 + rd.val * 128 + 0x17) % 4 = _ by omega⟩
  | jal rd off => exact encJ_word rd.isLt (by decide) (by decide)
  | branch c rs1 rs2 off => exact encB_word rs2.isLt rs1.isLt (brCond_code_lt c) (by decide) (by decide)
  | op f rd rs1 rs2 => exact encR_word (opFn_code_lt f).1 rs2.isLt rs1.isLt (opFn_code_lt f).2 rd.isLt (by decide) (by decide)
  | op32 f rd rs1 rs2 => exact encR_word (op32Fn_code_lt f).1 rs2.isLt rs1.isLt (op32Fn_code_lt f).2 rd.isLt (by decide) (by decide)
  | opImm f rd rs1 imm => cases f <;> exact encI_word rs1.isLt (by decide) rd.isLt (by decide) (by decide)
  | opImm32 f rd rs1 imm => cases f <;> exact encI_word rs1.isLt (by decide) rd.isLt (by decide) (by decide)

theorem fp_word (op : FpInstr) : IsWord op.encode := by
  cases op with
  | arith f rd rs1 rs2 rm => cases f <;> exact encR_word (by decide) rs2.isLt rs1.isLt (rm_code_lt rm) rd.isLt (by decide) (by decide)
  | sqrt rd rs1 rm => exact encR_word (by decide) (by decide) rs1.isLt (rm_code_lt rm) rd.isLt (by decide) (by decide)
  | fused f rd rs1 rs2 rs3 rm =>
    cases f <;> exact encR_word (by have := rs3.isLt; omega) rs2.isLt rs1.isLt (rm_code_lt rm) rd.isLt (by decide) (by decide)
  | sel f rd rs1 rs2 => cases f <;> exact encR_word (by decide) rs2.isLt rs1.isLt (by decide) rd.isLt (by decide) (by decide)
  | cmp f rd rs1 rs2 => cases f <;> exact encR_word (by decide) rs2.isLt rs1.isLt (by decide) rd.isLt (by decide) (by decide)
  | fclass rd rs1 => exact encR_word (by decide) (by decide) rs1.isLt (by decide) rd.isLt (by decide) (by decide)
  | mvXW rd rs1 => exact encR_word (by decide) (by decide) rs1.isLt (by decide) rd.isLt (by decide) (by decide)
  | mvWX rd rs1 => exact encR_word (by decide) (by decide) rs1.isLt (by decide) rd.isLt (by decide) (by decide)
  | cvtToInt t rd rs1 rm => exact encR_word (by decide) (cvtInt_code_lt t) rs1.isLt (rm_code_lt rm) rd.isLt (by decide) (by decide)
  | cvtFromInt t rd rs1 rm => exact encR_word (by decide) (cvtInt_code_lt t) rs1.isLt (rm_code_lt rm) rd.isLt (by decide) (by decide)

/-! ### The family -/

/-- The statement of family Encoding for one instruction. -/
def Encoding.Statement (i : Instr) : Prop := i.wf = true → ∀ w, encode i = some w → IsWord w

theorem statement_of {i : Instr} {w : Nat} (he : encode i = some w) (h : i.wf = true → IsWord w) : Encoding.Statement i :=
  fun hw v hv => by rw [he] at hv; cases hv; exact h hw

theorem statement_none {i : Instr} (he : encode i = none) : Encoding.Statement i :=
  fun _ v hv => by rw [he] at hv; cases hv

theorem Encoding.scalarLoad (k : LoadKind) (rd : XReg) (rs1 : XReg) (imm : Int) : Encoding.Statement (.scalarLoad k rd rs1 imm) := by cases k <;> exact statement_of rfl fun _ => encI_word rs1.isLt (by decide) rd.isLt (by decide) (by decide)
theorem Encoding.scalarStore (k : StoreKind) (rs2 : XReg) (rs1 : XReg) (imm : Int) : Encoding.Statement (.scalarStore k rs2 rs1 imm) := by cases k <;> exact statement_of rfl fun _ => encS_word rs2.isLt rs1.isLt (by decide) (by decide) (by decide)
theorem Encoding.lr (w : AmoWidth) (aq : Bool) (rl : Bool) (rd : XReg) (rs1 : XReg) : Encoding.Statement (.lr w aq rl rd rs1) := statement_of rfl fun _ => encR_word (by have := bit_lt aq; have := bit_lt rl; omega) (by decide) rs1.isLt (amoWidth_code_lt w) rd.isLt (by decide) (by decide)
theorem Encoding.sc (w : AmoWidth) (aq : Bool) (rl : Bool) (rd : XReg) (rs2 : XReg) (rs1 : XReg) : Encoding.Statement (.sc w aq rl rd rs2 rs1) := statement_of rfl fun _ => encR_word (by have := bit_lt aq; have := bit_lt rl; omega) rs2.isLt rs1.isLt (amoWidth_code_lt w) rd.isLt (by decide) (by decide)
theorem Encoding.amo (op : AmoOp) (w : AmoWidth) (aq : Bool) (rl : Bool) (rd : XReg) (rs2 : XReg) (rs1 : XReg) : Encoding.Statement (.amo op w aq rl rd rs2 rs1) := statement_of rfl fun _ => encR_word (by have := bit_lt aq; have := bit_lt rl; have := amoOp_code_lt op; omega) rs2.isLt rs1.isLt (amoWidth_code_lt w) rd.isLt (by decide) (by decide)
theorem Encoding.postedAmo (op : AmoOp) (w : AmoWidth) (aq : Bool) (rl : Bool) (rs2 : XReg) (rs1 : XReg) : Encoding.Statement (.postedAmo op w aq rl rs2 rs1) := statement_of rfl fun _ => encR_word (by have := bit_lt aq; have := bit_lt rl; have := amoOp_code_lt op; omega) rs2.isLt rs1.isLt (amoWidth_code_lt w) (by decide) (by decide) (by decide)
theorem Encoding.jalr (rd : XReg) (rs1 : XReg) (imm : Int) : Encoding.Statement (.jalr rd rs1 imm) := statement_of rfl fun _ => encI_word rs1.isLt (by decide) rd.isLt (by decide) (by decide)
theorem Encoding.fence (rd : XReg) (rs1 : XReg) (fm : Fin 16) (pred : Fin 16) (succ : Fin 16) : Encoding.Statement (.fence rd rs1 fm pred succ) := statement_of rfl fun _ => encR_word (by have := fm.isLt; have := pred.isLt; omega) (by have := pred.isLt; have := succ.isLt; omega) rs1.isLt (by decide) rd.isLt (by decide) (by decide)
theorem Encoding.fenceTso (rd : XReg) (rs1 : XReg) : Encoding.Statement (.fenceTso rd rs1) := statement_of rfl fun _ => encR_word (by decide) (by decide) rs1.isLt (by decide) rd.isLt (by decide) (by decide)
theorem Encoding.fenceI (rd : XReg) (rs1 : XReg) (imm : Nat) : Encoding.Statement (.fenceI rd rs1 imm) := statement_of rfl fun h => by simp only [Instr.wf, decide_eq_true_eq] at h; have := rd.isLt; have := rs1.isLt; unfold IsWord; omega
theorem Encoding.ecall : Encoding.Statement .ecall := statement_of rfl fun _ => ⟨by decide, by decide⟩
theorem Encoding.ebreak : Encoding.Statement .ebreak := statement_of rfl fun _ => ⟨by decide, by decide⟩
theorem Encoding.csrAccess (op : CsrOp) (rd : XReg) (csr : Nat) (src : XReg) : Encoding.Statement (.csrAccess op rd csr src) := statement_of rfl fun h => by
  have hc : csr < 4096 := by
    simp only [Instr.wf, Bool.and_eq_true, csrNumbers, List.contains_iff_mem] at h
    have := h.1
    simp only [List.mem_cons, List.not_mem_nil, or_false] at this
    omega
  have := rd.isLt; have := src.isLt; have := csrOp_code_lt op; unfold IsWord; omega
theorem Encoding.scalarFpOp (op : FpInstr) : Encoding.Statement (.scalarFpOp op) := statement_of rfl fun _ => fp_word op
theorem Encoding.standardInstruction (op : StdInstr) : Encoding.Statement (.standardInstruction op) := statement_of rfl fun h => std_word op h
theorem Encoding.loopEnd (off : Int) : Encoding.Statement (.loopEnd off) := statement_of rfl fun _ => encB_word (by decide) (by decide) (by decide) (by decide) (by decide)
theorem Encoding.loopBrk (off : Int) : Encoding.Statement (.loopBrk off) := statement_of rfl fun _ => encB_word (by decide) (by decide) (by decide) (by decide) (by decide)
theorem Encoding.loopSet (xs1 : XReg) (stages : Nat) : Encoding.Statement (.loopSet xs1 stages) := statement_of rfl fun h => by
  simp only [Instr.wf, Bool.and_eq_true, decide_eq_true_eq] at h
  exact encR_word (by decide) (by omega) xs1.isLt (by decide) (by decide) (by decide) (by decide)
theorem Encoding.loopIdx (rd : XReg) (k : Nat) : Encoding.Statement (.loopIdx rd k) := statement_of rfl fun h => by
  simp only [Instr.wf, decide_eq_true_eq] at h
  exact encR_word (by decide) (by omega) (by decide) (by decide) rd.isLt (by decide) (by decide)
theorem Encoding.pand (pd : PReg) (pa : PReg) (pb : PReg) : Encoding.Statement (.pand pd pa pb) := statement_of rfl fun _ => encR_word (by decide) (by have := pb.isLt; omega) (by have := pa.isLt; omega) (by decide) (by have := pd.isLt; omega) (by decide) (by decide)
theorem Encoding.por (pd : PReg) (pa : PReg) (pb : PReg) : Encoding.Statement (.por pd pa pb) := statement_of rfl fun _ => encR_word (by decide) (by have := pb.isLt; omega) (by have := pa.isLt; omega) (by decide) (by have := pd.isLt; omega) (by decide) (by decide)
theorem Encoding.pnot (pd : PReg) (pa : PReg) : Encoding.Statement (.pnot pd pa) := statement_of rfl fun _ => encR_word (by decide) (by decide) (by have := pa.isLt; omega) (by decide) (by have := pd.isLt; omega) (by decide) (by decide)
theorem Encoding.pmov (pd : PReg) (pa : PReg) : Encoding.Statement (.pmov pd pa) := statement_of rfl fun _ => encR_word (by decide) (by decide) (by have := pa.isLt; omega) (by decide) (by have := pd.isLt; omega) (by decide) (by decide)
theorem Encoding.ppop (rd : XReg) (pa : PReg) : Encoding.Statement (.ppop rd pa) := statement_of rfl fun _ => encR_word (by decide) (by decide) (by have := pa.isLt; omega) (by decide) rd.isLt (by decide) (by decide)
theorem Encoding.pfirst (pd : PReg) (pa : PReg) : Encoding.Statement (.pfirst pd pa) := statement_of rfl fun _ => encR_word (by decide) (by decide) (by have := pa.isLt; omega) (by decide) (by have := pd.isLt; omega) (by decide) (by decide)
theorem Encoding.pwhile (pd : PReg) (xs1 : XReg) (xs2 : XReg) : Encoding.Statement (.pwhile pd xs1 xs2) := statement_of rfl fun _ => encR_word (by decide) xs2.isLt xs1.isLt (by decide) (by have := pd.isLt; omega) (by decide) (by decide)
theorem Encoding.barInit (k : Fin 16) (xs1 : XReg) : Encoding.Statement (.barInit k xs1) := statement_of rfl fun _ => encR_word (by decide) (by have := k.isLt; omega) xs1.isLt (by decide) (by decide) (by decide) (by decide)
theorem Encoding.barArrive (k : Fin 16) : Encoding.Statement (.barArrive k) := statement_of rfl fun _ => encR_word (by decide) (by have := k.isLt; omega) (by decide) (by decide) (by decide) (by decide) (by decide)
theorem Encoding.barWait (k : Fin 16) : Encoding.Statement (.barWait k) := statement_of rfl fun _ => encR_word (by decide) (by have := k.isLt; omega) (by decide) (by decide) (by decide) (by decide) (by decide)
theorem Encoding.mboxSend (xs1 : XReg) (xs2 : XReg) : Encoding.Statement (.mboxSend xs1 xs2) := statement_of rfl fun _ => encR_word (by decide) xs2.isLt xs1.isLt (by decide) (by decide) (by decide) (by decide)
theorem Encoding.mboxRecv (rd : XReg) (mb : Fin 8) : Encoding.Statement (.mboxRecv rd mb) := statement_of rfl fun _ => encR_word (by decide) (by have := mb.isLt; omega) (by decide) (by decide) rd.isLt (by decide) (by decide)
theorem Encoding.mboxPoll (rd : XReg) (mb : Fin 8) : Encoding.Statement (.mboxPoll rd mb) := statement_of rfl fun _ => encR_word (by decide) (by have := mb.isLt; omega) (by decide) (by decide) rd.isLt (by decide) (by decide)
theorem Encoding.tokSet (xs1 : XReg) : Encoding.Statement (.tokSet xs1) := statement_of rfl fun _ => encR_word (by decide) (by decide) xs1.isLt (by decide) (by decide) (by decide) (by decide)
theorem Encoding.tokClr (xs1 : XReg) : Encoding.Statement (.tokClr xs1) := statement_of rfl fun _ => encR_word (by decide) (by decide) xs1.isLt (by decide) (by decide) (by decide) (by decide)
theorem Encoding.spaBump (rd : XReg) (xs1 : XReg) : Encoding.Statement (.spaBump rd xs1) := statement_of rfl fun _ => encR_word (by decide) (by decide) xs1.isLt (by decide) rd.isLt (by decide) (by decide)
theorem Encoding.spaRingGet (rd : XReg) (xs1 : XReg) (k : Fin 4) : Encoding.Statement (.spaRingGet rd xs1 k) := statement_of rfl fun _ => encR_word (by decide) (by have := k.isLt; omega) xs1.isLt (by decide) rd.isLt (by decide) (by decide)
theorem Encoding.spaRingPut (xs1 : XReg) (k : Fin 4) : Encoding.Statement (.spaRingPut xs1 k) := statement_of rfl fun _ => encR_word (by decide) (by have := k.isLt; omega) xs1.isLt (by decide) (by decide) (by decide) (by decide)
theorem Encoding.spaMark (rd : XReg) : Encoding.Statement (.spaMark rd) := statement_of rfl fun _ => encR_word (by decide) (by decide) (by decide) (by decide) rd.isLt (by decide) (by decide)
theorem Encoding.spaRel (xs1 : XReg) : Encoding.Statement (.spaRel xs1) := statement_of rfl fun _ => encR_word (by decide) (by decide) xs1.isLt (by decide) (by decide) (by decide) (by decide)
theorem Encoding.shpWr (sh : Fin 32) (xs1 : XReg) : Encoding.Statement (.shpWr sh xs1) := statement_of rfl fun _ => encR_word (by decide) sh.isLt xs1.isLt (by decide) (by decide) (by decide) (by decide)
theorem Encoding.shpRd (rd : XReg) (sh : Fin 32) : Encoding.Statement (.shpRd rd sh) := statement_of rfl fun _ => encR_word (by decide) sh.isLt (by decide) (by decide) rd.isLt (by decide) (by decide)
theorem Encoding.lyWr (ly : Fin 16) (xs1 : XReg) (xs2 : XReg) : Encoding.Statement (.lyWr ly xs1 xs2) := statement_of rfl fun _ => encR_word (by decide) xs2.isLt xs1.isLt (by decide) (by have := ly.isLt; omega) (by decide) (by decide)
theorem Encoding.lyRd (rd : XReg) (ly : Fin 16) (hi : Bool) : Encoding.Statement (.lyRd rd ly hi) := statement_of rfl fun _ => encR_word (by decide) (by have := bit_lt hi; have := ly.isLt; omega) (by decide) (by decide) rd.isLt (by decide) (by decide)
theorem Encoding.tcfgWr (tl : Fin 8) (xs1 : XReg) : Encoding.Statement (.tcfgWr tl xs1) := statement_of rfl fun _ => encR_word (by decide) (by have := tl.isLt; omega) xs1.isLt (by decide) (by decide) (by decide) (by decide)
theorem Encoding.tcfgRd (rd : XReg) (tl : Fin 8) : Encoding.Statement (.tcfgRd rd tl) := statement_of rfl fun _ => encR_word (by decide) (by have := tl.isLt; omega) (by decide) (by decide) rd.isLt (by decide) (by decide)
theorem Encoding.fbOpen (k : Fin 8) (xs1 : XReg) : Encoding.Statement (.fbOpen k xs1) := statement_of rfl fun _ => encR_word (by decide) (by have := k.isLt; omega) xs1.isLt (by decide) (by decide) (by decide) (by decide)
theorem Encoding.fbAdv (rd : XReg) (k : Fin 8) : Encoding.Statement (.fbAdv rd k) := statement_of rfl fun _ => encR_word (by decide) (by have := k.isLt; omega) (by decide) (by decide) rd.isLt (by decide) (by decide)
theorem Encoding.fbEnd (rd : XReg) (k : Fin 8) : Encoding.Statement (.fbEnd rd k) := statement_of rfl fun _ => encR_word (by decide) (by have := k.isLt; omega) (by decide) (by decide) rd.isLt (by decide) (by decide)
theorem Encoding.fbClose (k : Fin 8) : Encoding.Statement (.fbClose k) := statement_of rfl fun _ => encR_word (by decide) (by have := k.isLt; omega) (by decide) (by decide) (by decide) (by decide) (by decide)
theorem Encoding.smOpen (k : Fin 8) (xs1 : XReg) : Encoding.Statement (.smOpen k xs1) := statement_of rfl fun _ => encR_word (by decide) (by have := k.isLt; omega) xs1.isLt (by decide) (by decide) (by decide) (by decide)
theorem Encoding.smAdv (rd : XReg) (k : Fin 8) : Encoding.Statement (.smAdv rd k) := statement_of rfl fun _ => encR_word (by decide) (by have := k.isLt; omega) (by decide) (by decide) rd.isLt (by decide) (by decide)
theorem Encoding.smEnd (rd : XReg) (k : Fin 8) : Encoding.Statement (.smEnd rd k) := statement_of rfl fun _ => encR_word (by decide) (by have := k.isLt; omega) (by decide) (by decide) rd.isLt (by decide) (by decide)
theorem Encoding.smClose (k : Fin 8) : Encoding.Statement (.smClose k) := statement_of rfl fun _ => encR_word (by decide) (by have := k.isLt; omega) (by decide) (by decide) (by decide) (by decide) (by decide)
theorem Encoding.qmark (scope : Scope) (kind : MarkKind) : Encoding.Statement (.qmark scope kind) := statement_of rfl fun _ => encR_word (by decide) (mark_code_lt scope kind) (by decide) (by decide) (by decide) (by decide) (by decide)
theorem Encoding.qwait (m : Fin 4) : Encoding.Statement (.qwait m) := statement_of rfl fun _ => encR_word (by decide) (by have := m.isLt; omega) (by decide) (by decide) (by decide) (by decide) (by decide)
theorem Encoding.regionMark : Encoding.Statement .regionMark := statement_of rfl fun _ => encR_word (by decide) (by decide) (by decide) (by decide) (by decide) (by decide) (by decide)
theorem Encoding.regionEnd : Encoding.Statement .regionEnd := statement_of rfl fun _ => encR_word (by decide) (by decide) (by decide) (by decide) (by decide) (by decide) (by decide)
theorem Encoding.yield : Encoding.Statement .yield := statement_of rfl fun _ => encR_word (by decide) (by decide) (by decide) (by decide) (by decide) (by decide) (by decide)
theorem Encoding.feChkX (rd : XReg) (k : Fin 32) : Encoding.Statement (.feChkX rd k) := statement_of rfl fun _ => encR_word (by decide) k.isLt (by decide) (by decide) rd.isLt (by decide) (by decide)
theorem Encoding.feChkV (rd : XReg) (k : Fin 32) : Encoding.Statement (.feChkV rd k) := statement_of rfl fun _ => encR_word (by decide) k.isLt (by decide) (by decide) rd.isLt (by decide) (by decide)
theorem Encoding.tret : Encoding.Statement .tret := statement_of rfl fun _ => encR_word (by decide) (by decide) (by decide) (by decide) (by decide) (by decide) (by decide)
theorem Encoding.cmdPut (rd : XReg) (q : Fin 16) (xs1 : XReg) : Encoding.Statement (.cmdPut rd q xs1) := statement_of rfl fun _ => encR_word (by decide) (by have := q.isLt; omega) xs1.isLt (by decide) rd.isLt (by decide) (by decide)
theorem Encoding.chainTail (q : Fin 16) (xs1 : XReg) : Encoding.Statement (.chainTail q xs1) := statement_of rfl fun _ => encR_word (by decide) (by have := q.isLt; omega) xs1.isLt (by decide) (by decide) (by decide) (by decide)
theorem Encoding.seqWait (q : Fin 16) (xs1 : XReg) : Encoding.Statement (.seqWait q xs1) := statement_of rfl fun _ => encR_word (by decide) (by have := q.isLt; omega) xs1.isLt (by decide) (by decide) (by decide) (by decide)
theorem Encoding.seqRead (rd : XReg) (q : Fin 16) : Encoding.Statement (.seqRead rd q) := statement_of rfl fun _ => encR_word (by decide) (by have := q.isLt; omega) (by decide) (by decide) rd.isLt (by decide) (by decide)
theorem Encoding.leaseAcq : Encoding.Statement .leaseAcq := statement_of rfl fun _ => encR_word (by decide) (by decide) (by decide) (by decide) (by decide) (by decide) (by decide)
theorem Encoding.leaseRel : Encoding.Statement .leaseRel := statement_of rfl fun _ => encR_word (by decide) (by decide) (by decide) (by decide) (by decide) (by decide) (by decide)
theorem Encoding.amoaddS (o : FAmo) : Encoding.Statement (.amoaddS o) := statement_of rfl fun _ => encFAmo_word o (by decide)
theorem Encoding.amominS (o : FAmo) : Encoding.Statement (.amominS o) := statement_of rfl fun _ => encFAmo_word o (by decide)
theorem Encoding.amomaxS (o : FAmo) : Encoding.Statement (.amomaxS o) := statement_of rfl fun _ => encFAmo_word o (by decide)
theorem Encoding.amominnumS (o : FAmo) : Encoding.Statement (.amominnumS o) := statement_of rfl fun _ => encFAmo_word o (by decide)
theorem Encoding.amomaxnumS (o : FAmo) : Encoding.Statement (.amomaxnumS o) := statement_of rfl fun _ => encFAmo_word o (by decide)
theorem Encoding.vadd (o : VA) : Encoding.Statement (.vadd o) := statement_of rfl fun _ => encVA_word o (by decide) o.vs2.isLt (by decide) (by decide)
theorem Encoding.vsub (o : VA) : Encoding.Statement (.vsub o) := statement_of rfl fun _ => encVA_word o (by decide) o.vs2.isLt (by decide) (by decide)
theorem Encoding.vmul (o : VA) : Encoding.Statement (.vmul o) := statement_of rfl fun _ => encVA_word o (by decide) o.vs2.isLt (by decide) (by decide)
theorem Encoding.vmulh (o : VA) : Encoding.Statement (.vmulh o) := statement_of rfl fun _ => encVA_word o (by decide) o.vs2.isLt (by decide) (by decide)
theorem Encoding.vmac (o : VA) : Encoding.Statement (.vmac o) := statement_of rfl fun _ => encVA_word o (by decide) o.vs2.isLt (by decide) (by decide)
theorem Encoding.vand (o : VA) : Encoding.Statement (.vand o) := statement_of rfl fun _ => encVA_word o (by decide) o.vs2.isLt (by decide) (by decide)
theorem Encoding.vor (o : VA) : Encoding.Statement (.vor o) := statement_of rfl fun _ => encVA_word o (by decide) o.vs2.isLt (by decide) (by decide)
theorem Encoding.vxor (o : VA) : Encoding.Statement (.vxor o) := statement_of rfl fun _ => encVA_word o (by decide) o.vs2.isLt (by decide) (by decide)
theorem Encoding.vsll (o : VA) : Encoding.Statement (.vsll o) := statement_of rfl fun _ => encVA_word o (by decide) o.vs2.isLt (by decide) (by decide)
theorem Encoding.vsr (o : VA) : Encoding.Statement (.vsr o) := statement_of rfl fun _ => encVA_word o (by decide) o.vs2.isLt (by decide) (by decide)
theorem Encoding.vmin (o : VA) : Encoding.Statement (.vmin o) := statement_of rfl fun _ => encVA_word o (by decide) o.vs2.isLt (by decide) (by decide)
theorem Encoding.vmax (o : VA) : Encoding.Statement (.vmax o) := statement_of rfl fun _ => encVA_word o (by decide) o.vs2.isLt (by decide) (by decide)
theorem Encoding.vsadd (o : VA) : Encoding.Statement (.vsadd o) := statement_of rfl fun _ => encVA_word o (by decide) o.vs2.isLt (by decide) (by decide)
theorem Encoding.vssub (o : VA) : Encoding.Statement (.vssub o) := statement_of rfl fun _ => encVA_word o (by decide) o.vs2.isLt (by decide) (by decide)
theorem Encoding.vaddX (o : VA) : Encoding.Statement (.vaddX o) := statement_of rfl fun _ => encVA_word o (by decide) o.vs2.isLt (by decide) (by decide)
theorem Encoding.vnot (o : VA) : Encoding.Statement (.vnot o) := statement_of rfl fun _ => encVA_word o (by decide) (by decide) (by decide) (by decide)
theorem Encoding.vneg (o : VA) : Encoding.Statement (.vneg o) := statement_of rfl fun _ => encVA_word o (by decide) (by decide) (by decide) (by decide)
theorem Encoding.vabs (o : VA) : Encoding.Statement (.vabs o) := statement_of rfl fun _ => encVA_word o (by decide) (by decide) (by decide) (by decide)
theorem Encoding.vmov (o : VA) : Encoding.Statement (.vmov o) := statement_of rfl fun _ => encVA_word o (by decide) (by decide) (by decide) (by decide)
theorem Encoding.vfadd (o : VA) : Encoding.Statement (.vfadd o) := statement_of rfl fun _ => encVA_word o (by decide) o.vs2.isLt (by decide) (by decide)
theorem Encoding.vfsub (o : VA) : Encoding.Statement (.vfsub o) := statement_of rfl fun _ => encVA_word o (by decide) o.vs2.isLt (by decide) (by decide)
theorem Encoding.vfmul (o : VA) : Encoding.Statement (.vfmul o) := statement_of rfl fun _ => encVA_word o (by decide) o.vs2.isLt (by decide) (by decide)
theorem Encoding.vfma (o : VA) : Encoding.Statement (.vfma o) := statement_of rfl fun _ => encVA_word o (by decide) o.vs2.isLt (by decide) (by decide)
theorem Encoding.vfms (o : VA) : Encoding.Statement (.vfms o) := statement_of rfl fun _ => encVA_word o (by decide) o.vs2.isLt (by decide) (by decide)
theorem Encoding.vfdiv (o : VA) : Encoding.Statement (.vfdiv o) := statement_of rfl fun _ => encVA_word o (by decide) o.vs2.isLt (by decide) (by decide)
theorem Encoding.vfmin (o : VA) : Encoding.Statement (.vfmin o) := statement_of rfl fun _ => encVA_word o (by decide) o.vs2.isLt (by decide) (by decide)
theorem Encoding.vfmax (o : VA) : Encoding.Statement (.vfmax o) := statement_of rfl fun _ => encVA_word o (by decide) o.vs2.isLt (by decide) (by decide)
theorem Encoding.vfminnum (o : VA) : Encoding.Statement (.vfminnum o) := statement_of rfl fun _ => encVA_word o (by decide) o.vs2.isLt (by decide) (by decide)
theorem Encoding.vfmaxnum (o : VA) : Encoding.Statement (.vfmaxnum o) := statement_of rfl fun _ => encVA_word o (by decide) o.vs2.isLt (by decide) (by decide)
theorem Encoding.vfsgnj (o : VA) : Encoding.Statement (.vfsgnj o) := statement_of rfl fun _ => encVA_word o (by decide) o.vs2.isLt (by decide) (by decide)
theorem Encoding.vfsgnjn (o : VA) : Encoding.Statement (.vfsgnjn o) := statement_of rfl fun _ => encVA_word o (by decide) o.vs2.isLt (by decide) (by decide)
theorem Encoding.vfsgnjx (o : VA) : Encoding.Statement (.vfsgnjx o) := statement_of rfl fun _ => encVA_word o (by decide) o.vs2.isLt (by decide) (by decide)
theorem Encoding.vfmaX (o : VA) : Encoding.Statement (.vfmaX o) := statement_of rfl fun _ => encVA_word o (by decide) o.vs2.isLt (by decide) (by decide)
theorem Encoding.vfmulX (o : VA) : Encoding.Statement (.vfmulX o) := statement_of rfl fun _ => encVA_word o (by decide) o.vs2.isLt (by decide) (by decide)
theorem Encoding.vfsqrt (o : VA) : Encoding.Statement (.vfsqrt o) := statement_of rfl fun _ => encVA_word o (by decide) (by decide) (by decide) (by decide)
theorem Encoding.vfabs (o : VA) : Encoding.Statement (.vfabs o) := statement_of rfl fun _ => encVA_word o (by decide) (by decide) (by decide) (by decide)
theorem Encoding.vfneg (o : VA) : Encoding.Statement (.vfneg o) := statement_of rfl fun _ => encVA_word o (by decide) (by decide) (by decide) (by decide)
theorem Encoding.vfclass (o : VA) : Encoding.Statement (.vfclass o) := statement_of rfl fun _ => encVA_word o (by decide) (by decide) (by decide) (by decide)
theorem Encoding.vcmpEq (o : VP) : Encoding.Statement (.vcmpEq o) := statement_of rfl fun _ => encVP_word o (by decide)
theorem Encoding.vcmpNe (o : VP) : Encoding.Statement (.vcmpNe o) := statement_of rfl fun _ => encVP_word o (by decide)
theorem Encoding.vcmpLt (o : VP) : Encoding.Statement (.vcmpLt o) := statement_of rfl fun _ => encVP_word o (by decide)
theorem Encoding.vcmpLe (o : VP) : Encoding.Statement (.vcmpLe o) := statement_of rfl fun _ => encVP_word o (by decide)
theorem Encoding.vcmpUnord (o : VP) : Encoding.Statement (.vcmpUnord o) := statement_of rfl fun _ => encVP_word o (by decide)
theorem Encoding.xcmpEq (o : VP) : Encoding.Statement (.xcmpEq o) := statement_of rfl fun _ => encVP_word o (by decide)
theorem Encoding.xcmpNe (o : VP) : Encoding.Statement (.xcmpNe o) := statement_of rfl fun _ => encVP_word o (by decide)
theorem Encoding.xcmpLt (o : VP) : Encoding.Statement (.xcmpLt o) := statement_of rfl fun _ => encVP_word o (by decide)
theorem Encoding.xcmpGe (o : VP) : Encoding.Statement (.xcmpGe o) := statement_of rfl fun _ => encVP_word o (by decide)
theorem Encoding.xcmpLtu (o : VP) : Encoding.Statement (.xcmpLtu o) := statement_of rfl fun _ => encVP_word o (by decide)
theorem Encoding.xcmpGeu (o : VP) : Encoding.Statement (.xcmpGeu o) := statement_of rfl fun _ => encVP_word o (by decide)
theorem Encoding.xcmpTst (o : VP) : Encoding.Statement (.xcmpTst o) := statement_of rfl fun _ => encVP_word o (by decide)
theorem Encoding.vcvt (o : VCv) : Encoding.Statement (.vcvt o) := statement_of rfl fun _ => encVCv_word o (by decide)
theorem Encoding.vcvtRz (o : VCv) : Encoding.Statement (.vcvtRz o) := statement_of rfl fun _ => encVCv_word o (by decide)
theorem Encoding.vwiden (o : VCv) : Encoding.Statement (.vwiden o) := statement_of rfl fun _ => encVCv_word o (by decide)
theorem Encoding.vnarrow (o : VCv) : Encoding.Statement (.vnarrow o) := statement_of rfl fun _ => encVCv_word o (by decide)
theorem Encoding.vtag (o : VCv) : Encoding.Statement (.vtag o) := statement_of rfl fun _ => encVCv_word o (by decide)
theorem Encoding.vrnd (o : VA) : Encoding.Statement (.vrnd o) := statement_of rfl fun _ => encVA_word o (by decide) (by decide) (by decide) (by decide)
theorem Encoding.vfexp2 (o : VA) : Encoding.Statement (.vfexp2 o) := statement_of rfl fun _ => encVA_word o (by decide) (by decide) (by decide) (by decide)
theorem Encoding.vflog2 (o : VA) : Encoding.Statement (.vflog2 o) := statement_of rfl fun _ => encVA_word o (by decide) (by decide) (by decide) (by decide)
theorem Encoding.vfrcp (o : VA) : Encoding.Statement (.vfrcp o) := statement_of rfl fun _ => encVA_word o (by decide) (by decide) (by decide) (by decide)
theorem Encoding.vfrsqrt (o : VA) : Encoding.Statement (.vfrsqrt o) := statement_of rfl fun _ => encVA_word o (by decide) (by decide) (by decide) (by decide)
theorem Encoding.vgetexp (o : VA) : Encoding.Statement (.vgetexp o) := statement_of rfl fun _ => encVA_word o (by decide) (by decide) (by decide) (by decide)
theorem Encoding.vgetmant (o : VA) : Encoding.Statement (.vgetmant o) := statement_of rfl fun _ => encVA_word o (by decide) (by decide) (by decide) (by decide)
theorem Encoding.vscale (o : VA) : Encoding.Statement (.vscale o) := statement_of rfl fun _ => encVA_word o (by decide) o.vs2.isLt (by decide) (by decide)
theorem Encoding.vredsum (o : VA) : Encoding.Statement (.vredsum o) := statement_of rfl fun _ => encVA_word o (by decide) (by decide) (by decide) (by decide)
theorem Encoding.vredmax (o : VA) : Encoding.Statement (.vredmax o) := statement_of rfl fun _ => encVA_word o (by decide) (by decide) (by decide) (by decide)
theorem Encoding.vredmin (o : VA) : Encoding.Statement (.vredmin o) := statement_of rfl fun _ => encVA_word o (by decide) (by decide) (by decide) (by decide)
theorem Encoding.vredargmax (o : VA) : Encoding.Statement (.vredargmax o) := statement_of rfl fun _ => encVA_word o (by decide) (by decide) (by decide) (by decide)
theorem Encoding.vscan (o : VA) : Encoding.Statement (.vscan o) := statement_of rfl fun _ => encVA_word o (by decide) (by decide) (by decide) (by decide)
theorem Encoding.vperm (o : VA) : Encoding.Statement (.vperm o) := statement_of rfl fun _ => encVA_word o (by decide) o.vs2.isLt (by decide) (by decide)
theorem Encoding.vsel (o : VA) : Encoding.Statement (.vsel o) := statement_of rfl fun _ => encVA_word o (by decide) o.vs2.isLt (by decide) (by decide)
theorem Encoding.vcompress (o : VA) : Encoding.Statement (.vcompress o) := statement_of rfl fun _ => encVA_word o (by decide) (by decide) (by decide) (by decide)
theorem Encoding.vexpand (o : VA) : Encoding.Statement (.vexpand o) := statement_of rfl fun _ => encVA_word o (by decide) (by decide) (by decide) (by decide)
theorem Encoding.vld (o : VM) : Encoding.Statement (.vld o) := statement_of rfl fun _ => encVM_word o (by decide) (by decide)
theorem Encoding.vldVa (o : VM) : Encoding.Statement (.vldVa o) := statement_of rfl fun _ => encVM_word o (by decide) (by decide)
theorem Encoding.vlds (o : VM) : Encoding.Statement (.vlds o) := statement_of rfl fun _ => encVM_word o (by decide) (by decide)
theorem Encoding.vldsVa (o : VM) : Encoding.Statement (.vldsVa o) := statement_of rfl fun _ => encVM_word o (by decide) (by decide)
theorem Encoding.vldx (o : VM) : Encoding.Statement (.vldx o) := statement_of rfl fun _ => encVM_word o (by decide) (by decide)
theorem Encoding.vldxVa (o : VM) : Encoding.Statement (.vldxVa o) := statement_of rfl fun _ => encVM_word o (by decide) (by decide)
theorem Encoding.vst (o : VM) : Encoding.Statement (.vst o) := statement_of rfl fun _ => encVM_word o (by decide) (by decide)
theorem Encoding.vstVa (o : VM) : Encoding.Statement (.vstVa o) := statement_of rfl fun _ => encVM_word o (by decide) (by decide)
theorem Encoding.vsts (o : VM) : Encoding.Statement (.vsts o) := statement_of rfl fun _ => encVM_word o (by decide) (by decide)
theorem Encoding.vstsVa (o : VM) : Encoding.Statement (.vstsVa o) := statement_of rfl fun _ => encVM_word o (by decide) (by decide)
theorem Encoding.vstx (o : VM) : Encoding.Statement (.vstx o) := statement_of rfl fun _ => encVM_word o (by decide) (by decide)
theorem Encoding.vstxVa (o : VM) : Encoding.Statement (.vstxVa o) := statement_of rfl fun _ => encVM_word o (by decide) (by decide)
theorem Encoding.vldB (o : VM) : Encoding.Statement (.vldB o) := statement_of rfl fun _ => encVM_word o (by decide) (by decide)
theorem Encoding.vldBVa (o : VM) : Encoding.Statement (.vldBVa o) := statement_of rfl fun _ => encVM_word o (by decide) (by decide)
theorem Encoding.vldRow (o : VM) : Encoding.Statement (.vldRow o) := statement_of rfl fun _ => encVM_word o (by decide) (by decide)
theorem Encoding.vstRow (o : VM) : Encoding.Statement (.vstRow o) := statement_of rfl fun _ => encVM_word o (by decide) (by decide)
theorem Encoding.vpark (o : VM) : Encoding.Statement (.vpark o) := statement_of rfl fun _ => encVM_word o (by decide) (by decide)
theorem Encoding.vunpark (o : VM) : Encoding.Statement (.vunpark o) := statement_of rfl fun _ => encVM_word o (by decide) (by decide)
theorem Encoding.hprobe (o : VM) : Encoding.Statement (.hprobe o) := statement_of rfl fun _ => encVM_word o (by decide) (by decide)
theorem Encoding.binAdd (o : VM) : Encoding.Statement (.binAdd o) := statement_of rfl fun _ => encVM_word o (by decide) (by decide)
theorem Encoding.binAddVa (o : VM) : Encoding.Statement (.binAddVa o) := statement_of rfl fun _ => encVM_word o (by decide) (by decide)
theorem Encoding.vslideUp (o : VM) : Encoding.Statement (.vslideUp o) := statement_of rfl fun _ => encVM_word o (by decide) (by decide)
theorem Encoding.vslideDown (o : VM) : Encoding.Statement (.vslideDown o) := statement_of rfl fun _ => encVM_word o (by decide) (by decide)
theorem Encoding.vmvX (o : VM) : Encoding.Statement (.vmvX o) := statement_of rfl fun _ => encVM_word o (by decide) (by decide)
theorem Encoding.vmvS (o : VM) : Encoding.Statement (.vmvS o) := statement_of rfl fun _ => encVM_word o (by decide) (by decide)
theorem Encoding.viota (o : VM) : Encoding.Statement (.viota o) := statement_of rfl fun _ => encVM_word o (by decide) (by decide)
theorem Encoding.vsegid (o : VM) : Encoding.Statement (.vsegid o) := statement_of rfl fun _ => encVM_word o (by decide) (by decide)
theorem Encoding.accessAccept (g : Nat) (k : Nat) (r : RemoteAnswer) : Encoding.Statement (.accessAccept g k r) := statement_none rfl
theorem Encoding.accessPerform (g : Nat) (k : Nat) (idx : Nat) (el : Nat) (c : PerformChoice) : Encoding.Statement (.accessPerform g k idx el c) := statement_none rfl
theorem Encoding.loadReturn (g : Nat) (k : Nat) (idx : Nat) : Encoding.Statement (.loadReturn g k idx) := statement_none rfl
theorem Encoding.vectorDestFull (g : Nat) (k : Nat) (idx : Nat) : Encoding.Statement (.vectorDestFull g k idx) := statement_none rfl
theorem Encoding.acknowledgement (g : Nat) (k : Nat) (idx : Nat) : Encoding.Statement (.acknowledgement g k idx) := statement_none rfl
theorem Encoding.mboxClaimServed (g : Nat) (mb : Nat) : Encoding.Statement (.mboxClaimServed g mb) := statement_none rfl
theorem Encoding.mailboxWindowStore (g : Nat) (k : Nat) (idx : Nat) : Encoding.Statement (.mailboxWindowStore g k idx) := statement_none rfl
theorem Encoding.tokenWindowStore (g : Nat) (k : Nat) (idx : Nat) : Encoding.Statement (.tokenWindowStore g k idx) := statement_none rfl
theorem Encoding.readyFlagWrite (g : Nat) (k : Nat) (idx : Nat) (el : Nat) : Encoding.Statement (.readyFlagWrite g k idx el) := statement_none rfl
theorem Encoding.readyFlagRise (g : Nat) (flag : Nat) (env : RemoteEnv) : Encoding.Statement (.readyFlagRise g flag env) := statement_none rfl
theorem Encoding.accumulateOnWrite (g : Nat) (k : Nat) (idx : Nat) (el : Nat) : Encoding.Statement (.accumulateOnWrite g k idx el) := statement_none rfl
theorem Encoding.vregWindowWrite (g : Nat) (k : Nat) (idx : Nat) (el : Nat) : Encoding.Statement (.vregWindowWrite g k idx el) := statement_none rfl
theorem Encoding.commandPublish (g : Nat) (k : Nat) (idx : Nat) : Encoding.Statement (.commandPublish g k idx) := statement_none rfl
theorem Encoding.commandFetch (g : Nat) (q : Nat) : Encoding.Statement (.commandFetch g q) := statement_none rfl
theorem Encoding.commandCompletion (g : Nat) (q : Nat) : Encoding.Statement (.commandCompletion g q) := statement_none rfl
theorem Encoding.remoteSignal (n : Nat) : Encoding.Statement (.remoteSignal n) := statement_none rfl
theorem Encoding.mma (g : Nat) (q : Nat) : Encoding.Statement (.mma g q) := statement_none rfl
theorem Encoding.mmaBs (g : Nat) (q : Nat) : Encoding.Statement (.mmaBs g q) := statement_none rfl
theorem Encoding.mmaSeg (g : Nat) (q : Nat) : Encoding.Statement (.mmaSeg g q) := statement_none rfl
theorem Encoding.mmaGrp (g : Nat) (q : Nat) : Encoding.Statement (.mmaGrp g q) := statement_none rfl
theorem Encoding.smma (g : Nat) (q : Nat) (env : RemoteEnv) : Encoding.Statement (.smma g q env) := statement_none rfl
theorem Encoding.accZero (g : Nat) (q : Nat) : Encoding.Statement (.accZero g q) := statement_none rfl
theorem Encoding.accRd (g : Nat) (q : Nat) : Encoding.Statement (.accRd g q) := statement_none rfl
theorem Encoding.accEpi (g : Nat) (q : Nat) : Encoding.Statement (.accEpi g q) := statement_none rfl
theorem Encoding.copy (g : Nat) (q : Nat) (env : RemoteEnv) : Encoding.Statement (.copy g q env) := statement_none rfl
theorem Encoding.gather (g : Nat) (q : Nat) (env : RemoteEnv) : Encoding.Statement (.gather g q env) := statement_none rfl
theorem Encoding.scatterBin (g : Nat) (q : Nat) (env : RemoteEnv) : Encoding.Statement (.scatterBin g q env) := statement_none rfl
theorem Encoding.binReplay (g : Nat) (q : Nat) (env : RemoteEnv) : Encoding.Statement (.binReplay g q env) := statement_none rfl
theorem Encoding.halo (g : Nat) (q : Nat) (env : RemoteEnv) : Encoding.Statement (.halo g q env) := statement_none rfl
theorem Encoding.bcast (g : Nat) (q : Nat) (env : RemoteEnv) : Encoding.Statement (.bcast g q env) := statement_none rfl
theorem Encoding.patLoad (g : Nat) (q : Nat) (watchOk : Bool) (env : RemoteEnv) : Encoding.Statement (.patLoad g q watchOk env) := statement_none rfl
theorem Encoding.patDrop (g : Nat) (q : Nat) : Encoding.Statement (.patDrop g q) := statement_none rfl
theorem Encoding.compilationComplete (cl : Nat) (i : Nat) : Encoding.Statement (.compilationComplete cl i) := statement_none rfl
theorem Encoding.collSetup (g : Nat) (q : Nat) : Encoding.Statement (.collSetup g q) := statement_none rfl
theorem Encoding.collectiveMatch (g : Nat) (q : Nat) (peers : List PeerCommand) : Encoding.Statement (.collectiveMatch g q peers) := statement_none rfl
theorem Encoding.clearingReservation (g : Nat) (q : Nat) (fits : Bool) : Encoding.Statement (.clearingReservation g q fits) := statement_none rfl
theorem Encoding.collLdred (g : Nat) (q : Nat) : Encoding.Statement (.collLdred g q) := statement_none rfl
theorem Encoding.collRs (g : Nat) (q : Nat) : Encoding.Statement (.collRs g q) := statement_none rfl
theorem Encoding.collAg (g : Nat) (q : Nat) : Encoding.Statement (.collAg g q) := statement_none rfl
theorem Encoding.collA2a (g : Nat) (q : Nat) : Encoding.Statement (.collA2a g q) := statement_none rfl
theorem Encoding.collEnd (g : Nat) (q : Nat) : Encoding.Statement (.collEnd g q) := statement_none rfl
theorem Encoding.ttabArm (g : Nat) (q : Nat) (env : RemoteEnv) : Encoding.Statement (.ttabArm g q env) := statement_none rfl
theorem Encoding.chunkSweep (g : Nat) (q : Nat) (c : Nat) (kids : List (List (BitVec 32))) (env : RemoteEnv) : Encoding.Statement (.chunkSweep g q c kids env) := statement_none rfl
theorem Encoding.chunkDistribute (g : Nat) (q : Nat) (c : Nat) (result : List (BitVec 32)) (ovf : Bool) (tree : Nat) (env : RemoteEnv) : Encoding.Statement (.chunkDistribute g q c result ovf tree env) := statement_none rfl
theorem Encoding.rselHistCoarse (g : Nat) (q : Nat) (env : RemoteEnv) : Encoding.Statement (.rselHistCoarse g q env) := statement_none rfl
theorem Encoding.rselHistFull (g : Nat) (q : Nat) (env : RemoteEnv) : Encoding.Statement (.rselHistFull g q env) := statement_none rfl
theorem Encoding.rselCut (g : Nat) (q : Nat) (env : RemoteEnv) : Encoding.Statement (.rselCut g q env) := statement_none rfl
theorem Encoding.sampDraw (g : Nat) (q : Nat) (env : RemoteEnv) : Encoding.Statement (.sampDraw g q env) := statement_none rfl
theorem Encoding.sampDrawGum (g : Nat) (q : Nat) : Encoding.Statement (.sampDrawGum g q) := statement_none rfl
theorem Encoding.specAccept (g : Nat) (q : Nat) (env : RemoteEnv) : Encoding.Statement (.specAccept g q env) := statement_none rfl
theorem Encoding.pdaStep (g : Nat) (q : Nat) (env : RemoteEnv) : Encoding.Statement (.pdaStep g q env) := statement_none rfl
theorem Encoding.pdaAdv (g : Nat) (q : Nat) (env : RemoteEnv) : Encoding.Statement (.pdaAdv g q env) := statement_none rfl
theorem Encoding.pdaFork (g : Nat) (q : Nat) : Encoding.Statement (.pdaFork g q) := statement_none rfl
theorem Encoding.pdaCommit (g : Nat) (q : Nat) : Encoding.Statement (.pdaCommit g q) := statement_none rfl
theorem Encoding.pdaRoll (g : Nat) (q : Nat) : Encoding.Statement (.pdaRoll g q) := statement_none rfl
theorem Encoding.pdaSave (g : Nat) (q : Nat) : Encoding.Statement (.pdaSave g q) := statement_none rfl
theorem Encoding.pdaLoad (g : Nat) (q : Nat) (env : RemoteEnv) : Encoding.Statement (.pdaLoad g q env) := statement_none rfl
theorem Encoding.cmdFence (g : Nat) (q : Nat) : Encoding.Statement (.cmdFence g q) := statement_none rfl
theorem Encoding.chainLink (g : Nat) (q : Nat) : Encoding.Statement (.chainLink g q) := statement_none rfl
theorem Encoding.sig (g : Nat) (q : Nat) : Encoding.Statement (.sig g q) := statement_none rfl
theorem Encoding.leaseGrant (cl : Nat) : Encoding.Statement (.leaseGrant cl) := statement_none rfl
theorem Encoding.leaseTermEnd (cl : Nat) : Encoding.Statement (.leaseTermEnd cl) := statement_none rfl
theorem Encoding.rideTokenTake (cl : Nat) : Encoding.Statement (.rideTokenTake cl) := statement_none rfl
theorem Encoding.rideTokenFree (cl : Nat) : Encoding.Statement (.rideTokenFree cl) := statement_none rfl
theorem Encoding.rideHoldLimit (cl : Nat) : Encoding.Statement (.rideHoldLimit cl) := statement_none rfl
theorem Encoding.handlerStart (g : Nat) : Encoding.Statement (.handlerStart g) := statement_none rfl
theorem Encoding.emulationService (g : Nat) (k : Nat) : Encoding.Statement (.emulationService g k) := statement_none rfl
theorem Encoding.doorbell : Encoding.Statement .doorbell := statement_none rfl
theorem Encoding.schedulerRound (refused : List (Nat × Nat)) : Encoding.Statement (.schedulerRound refused) := statement_none rfl
theorem Encoding.nodeDispatch (pool : Nat) (idx : Nat) (exit : Word) (zeros : List (Nat × Nat)) : Encoding.Statement (.nodeDispatch pool idx exit zeros) := statement_none rfl
theorem Encoding.gangDispatch (pool : Nat) (idx : Nat) : Encoding.Statement (.gangDispatch pool idx) := statement_none rfl
theorem Encoding.sequencerSave (g : Nat) (k : Nat) : Encoding.Statement (.sequencerSave g k) := statement_none rfl
theorem Encoding.nodeSpill (pool : Nat) (idx : Nat) : Encoding.Statement (.nodeSpill pool idx) := statement_none rfl
theorem Encoding.preemptWithdraw (pool : Nat) (idx : Nat) : Encoding.Statement (.preemptWithdraw pool idx) := statement_none rfl
theorem Encoding.nodeResume (pool : Nat) (idx : Nat) : Encoding.Statement (.nodeResume pool idx) := statement_none rfl
theorem Encoding.teardownForcedStop (g : Nat) (k : Nat) : Encoding.Statement (.teardownForcedStop g k) := statement_none rfl
theorem Encoding.nodeRetire (pool : Nat) (idx : Nat) : Encoding.Statement (.nodeRetire pool idx) := statement_none rfl
theorem Encoding.checkpointIntervalEnd (g : Nat) : Encoding.Statement (.checkpointIntervalEnd g) := statement_none rfl
theorem Encoding.flitReceive (link : Nat) (flit : BitVec 1024) : Encoding.Statement (.flitReceive link flit) := statement_none rfl
theorem Encoding.flitReplay (link : Nat) (again : Bool) : Encoding.Statement (.flitReplay link again) := statement_none rfl
theorem Encoding.linkDown (link : Nat) (cause : LinkDownCause) (lost : List Nat) : Encoding.Statement (.linkDown link cause lost) := statement_none rfl
theorem Encoding.linkTraining (link : Nat) (peer : Nat) (plink : Nat) (ok : Bool) (inPod : Bool) (gained : List Nat) : Encoding.Statement (.linkTraining link peer plink ok inPod gained) := statement_none rfl
theorem Encoding.linkAgreement (id : Nat) (edges : EpochEdges) : Encoding.Statement (.linkAgreement id edges) := statement_none rfl
theorem Encoding.remoteRequest (src : Nat) (core : Nat) (seqNo : Nat) (r : RemoteReq) : Encoding.Statement (.remoteRequest src core seqNo r) := statement_none rfl
theorem Encoding.singleBitCorrect (u : ErrorSite) : Encoding.Statement (.singleBitCorrect u) := statement_none rfl
theorem Encoding.scratchpadPoison (g : Nat) (off : Nat) : Encoding.Statement (.scratchpadPoison g off) := statement_none rfl
theorem Encoding.uncorrectableError (u : ErrorSite) : Encoding.Statement (.uncorrectableError u) := statement_none rfl
theorem Encoding.residueMismatch (u : ErrorSite) : Encoding.Statement (.residueMismatch u) := statement_none rfl
theorem Encoding.scrub (u : ErrorSite) (found : ScrubFinding) : Encoding.Statement (.scrub u found) := statement_none rfl
theorem Encoding.fatalError (e : FatalReport) : Encoding.Statement (.fatalError e) := statement_none rfl
theorem Encoding.watchdogExpiry : Encoding.Statement .watchdogExpiry := statement_none rfl
theorem Encoding.hostRingDoorbell (tail : BitVec 64) (entries : List (BitVec 512)) : Encoding.Statement (.hostRingDoorbell tail entries) := statement_none rfl
theorem Encoding.bar0RegisterWrite (off : Nat) (v : BitVec 64) : Encoding.Statement (.bar0RegisterWrite off v) := statement_none rfl
theorem Encoding.asidNew : Encoding.Statement .asidNew := statement_none rfl
theorem Encoding.asidFree : Encoding.Statement .asidFree := statement_none rfl
theorem Encoding.load (die : Nat) (base : Nat) (frame : Nat) (tables : Nat) : Encoding.Statement (.load die base frame tables) := statement_none rfl
theorem Encoding.unmap : Encoding.Statement .unmap := statement_none rfl
theorem Encoding.pool (page : BitVec 64) : Encoding.Statement (.pool page) := statement_none rfl
theorem Encoding.teardown : Encoding.Statement .teardown := statement_none rfl
theorem Encoding.limit (budgets : List Nat) : Encoding.Statement (.limit budgets) := statement_none rfl
theorem Encoding.reset : Encoding.Statement .reset := statement_none rfl
theorem Encoding.packageReset (pkg : Nat) : Encoding.Statement (.packageReset pkg) := statement_none rfl
theorem Encoding.boot (fail : Nat) (grants : List Nat) : Encoding.Statement (.boot fail grants) := statement_none rfl
theorem Encoding.getVersion (req : SpdmRequest) : Encoding.Statement (.getVersion req) := statement_none rfl
theorem Encoding.getCapabilities (req : SpdmRequest) : Encoding.Statement (.getCapabilities req) := statement_none rfl
theorem Encoding.negotiateAlgorithms (req : SpdmRequest) : Encoding.Statement (.negotiateAlgorithms req) := statement_none rfl
theorem Encoding.getDigests (req : SpdmRequest) : Encoding.Statement (.getDigests req) := statement_none rfl
theorem Encoding.getCertificate (req : SpdmRequest) : Encoding.Statement (.getCertificate req) := statement_none rfl
theorem Encoding.challenge (req : SpdmRequest) : Encoding.Statement (.challenge req) := statement_none rfl
theorem Encoding.getMeasurements (req : SpdmRequest) : Encoding.Statement (.getMeasurements req) := statement_none rfl
theorem Encoding.halt (t : DebugTarget) : Encoding.Statement (.halt t) := statement_none rfl
theorem Encoding.resume (t : DebugTarget) : Encoding.Statement (.resume t) := statement_none rfl
theorem Encoding.read (t : DebugTarget) (w : DebugPlace) : Encoding.Statement (.read t w) := statement_none rfl
theorem Encoding.write (t : DebugTarget) (w : DebugPlace) (v : Nat) (tag : Option Nat) : Encoding.Statement (.write t w v tag) := statement_none rfl
theorem Encoding.arm (t : DebugTarget) (slot : Nat) (bp : Breakpoint) : Encoding.Statement (.arm t slot bp) := statement_none rfl
theorem Encoding.stop (t : DebugTarget) (interval : Nat) (count : Nat) : Encoding.Statement (.stop t interval count) := statement_none rfl
theorem Encoding.thermalThreshold (budgets : List Nat) : Encoding.Statement (.thermalThreshold budgets) := statement_none rfl
theorem Encoding.islandGate (i : Nat) : Encoding.Statement (.islandGate i) := statement_none rfl
theorem Encoding.islandPowerUp (i : Nat) : Encoding.Statement (.islandPowerUp i) := statement_none rfl
theorem Encoding.bypass : Encoding.Statement .bypass := statement_none rfl
theorem Encoding.idcode : Encoding.Statement .idcode := statement_none rfl
theorem Encoding.samplePreload (pins : BoundaryScan) : Encoding.Statement (.samplePreload pins) := statement_none rfl
theorem Encoding.extest (pins : BoundaryScan) : Encoding.Statement (.extest pins) := statement_none rfl
theorem Encoding.hostWindowAccess (a : HostAccess) : Encoding.Statement (.hostWindowAccess a) := statement_none rfl
theorem Encoding.pageMigration (m : PageChange) : Encoding.Statement (.pageMigration m) := statement_none rfl
theorem Encoding.armRecording (pool : Nat) (idx : Nat) (k : Nat) : Encoding.Statement (.armRecording pool idx k) := statement_none rfl
theorem Encoding.armProfiling (pool : Nat) (idx : Nat) (n : Nat) : Encoding.Statement (.armProfiling pool idx n) := statement_none rfl

end Sys2Proof.Laws
end

