-- ==== Sys2Proof/Laws/Retire.lean ====
section
/-! SUPPORT. What going to an address, retiring and trapping leave, said once: the sequencer's registers, the other
sequencers, the cores' records and everything outside the cores. -/
namespace Sys2Proof.Machine

/-! ### Registers of one sequencer, through the cores' records -/

/-- A change of a sequencer changes nothing else of its core. -/
theorem State.core_setSeqAt (s : State) (g k g' : Nat) (q : Seq) :
    (s.setSeqAt g k q).core g' = { s.core g' with seqs := ((s.setSeqAt g k q).core g').seqs } := by
  by_cases h : g' = g
  · subst h; simp [State.setSeqAt, Core.setSq]
  · simp [State.setSeqAt, State.core_setCore_other _ _ _ _ h]

/-- The same of a changed sequencer. -/
theorem State.core_modSeqAt (s : State) (g k g' : Nat) (f : Seq → Seq) :
    (s.modSeqAt g k f).core g' = { s.core g' with seqs := ((s.modSeqAt g k f).core g').seqs } :=
  State.core_setSeqAt s g k g' _

@[simp] theorem State.seqAt_modCluster (s : State) (cl g k : Nat) (f : Cluster → Cluster) :
    (s.modCluster cl f).seqAt g k = s.seqAt g k := rfl

@[simp] theorem State.core_modCluster (s : State) (cl g : Nat) (f : Cluster → Cluster) :
    (s.modCluster cl f).core g = s.core g := rfl

@[simp] theorem State.seqAt_leaseRelease (s : State) (g k g' k' : Nat) (e : Bool) :
    (s.leaseRelease g k e).seqAt g' k' = s.seqAt g' k' := rfl

@[simp] theorem State.core_leaseRelease (s : State) (g k g' : Nat) (e : Bool) : (s.leaseRelease g k e).core g' = s.core g' := rfl

@[simp] theorem State.cur_leaseRelease (s : State) (g k : Nat) (e : Bool) : (s.leaseRelease g k e).cur = s.cur := rfl

@[simp] theorem State.nodes_leaseRelease (s : State) (g k : Nat) (e : Bool) : (s.leaseRelease g k e).nodes = s.nodes := rfl

/-! ### Going to an address (R22) -/

/-- The sequencer stands at the address; whether it ends there decides its status. -/
theorem State.seqAt_goTo (s : State) (g k : Nat) (pc : Word) :
    (s.goTo g k pc).seqAt g k =
      if pc = (s.seqAt g k).exitAddr then
        { s.seqAt g k with
          r := { (s.seqAt g k).r with pc := pc }, region := none, stopReq := false,
          status := if (s.seqAt g k).handler = true then .dormant else .ended }
      else { s.seqAt g k with r := { (s.seqAt g k).r with pc := pc } } := by
  unfold State.goTo
  split <;> simp [State.endSeq]

theorem State.r_goTo (s : State) (g k : Nat) (pc : Word) :
    ((s.goTo g k pc).seqAt g k).r = { (s.seqAt g k).r with pc := pc } := by
  rw [State.seqAt_goTo]; split <;> rfl

/-- Every other sequencer is as before. -/
theorem State.seqAt_goTo_other (s : State) (g k g' k' : Nat) (pc : Word) (h : (g', k') ≠ (g, k)) :
    (s.goTo g k pc).seqAt g' k' = s.seqAt g' k' := by
  unfold State.goTo State.endSeq
  split <;> simp [State.seqAt_modSeqAt_other _ _ _ _ _ _ h]

/-- A core keeps everything but its sequencers. -/
theorem State.core_goTo (s : State) (g k g' : Nat) (pc : Word) :
    (s.goTo g k pc).core g' = { s.core g' with seqs := ((s.goTo g k pc).core g').seqs } := by
  unfold State.goTo State.endSeq
  split
  · rw [State.core_modSeqAt, State.core_leaseRelease, State.core_modSeqAt]
  · rw [State.core_modSeqAt]

@[simp] theorem State.cur_goTo (s : State) (g k : Nat) (pc : Word) : (s.goTo g k pc).cur = s.cur := by
  unfold State.goTo State.endSeq; split <;> rfl

@[simp] theorem State.nodes_goTo (s : State) (g k : Nat) (pc : Word) : (s.goTo g k pc).nodes = s.nodes := by
  unfold State.goTo State.endSeq; split <;> rfl

/-! ### Retiring (R9) -/

@[simp] theorem State.cur_countRetired (s : State) (g k : Nat) : (s.countRetired g k).cur = s.cur := rfl

@[simp] theorem State.nodes_countRetired (s : State) (g k : Nat) : (s.countRetired g k).nodes = s.nodes := rfl

theorem State.seqAt_countRetired (s : State) (g k : Nat) :
    (s.countRetired g k).seqAt g k =
      { s.seqAt g k with
        status := .ready, rwcount := (s.seqAt g k).rwcount + 1,
        breakpoints := (s.seqAt g k).breakpoints.map fun b => bpLeft b (s.seqAt g k).r.pc,
        r := { (s.seqAt g k).r with instret := (s.seqAt g k).r.instret + 1 } } := by
  simp [State.countRetired]

@[simp] theorem retireAt_cur (t s : State) (pc : Word) : (retireAt t s pc).cur = t.cur := by simp [retireAt]

@[simp] theorem retireAt_mem (t s : State) (pc : Word) : (retireAt t s pc).mem = t.mem := by simp [retireAt, State.countRetired]

@[simp] theorem retireAt_nodes (t s : State) (pc : Word) : (retireAt t s pc).nodes = t.nodes := by simp [retireAt]

/-- Registers after an instruction that retired at an address. -/
theorem retireAt_r (t s : State) (pc : Word) (h : t.cur = s.cur) :
    (retireAt t s pc).me.r = { t.me.r with pc := pc, instret := t.me.r.instret + 1 } := by
  unfold State.me
  rw [retireAt_cur, h, retireAt, State.r_goTo, State.seqAt_countRetired]

/-- The whole sequencer after an instruction that retired at an address other than the exit address. -/
theorem retireAt_me (t s : State) (pc : Word) (h : t.cur = s.cur) (hx : pc ≠ t.me.exitAddr) :
    (retireAt t s pc).me =
      { t.me with
        status := .ready, rwcount := t.me.rwcount + 1, breakpoints := t.me.breakpoints.map fun b => bpLeft b t.me.r.pc,
        r := { t.me.r with pc := pc, instret := t.me.r.instret + 1 } } := by
  unfold State.me at *
  rw [h] at hx
  rw [retireAt_cur, h, retireAt, State.seqAt_goTo, State.seqAt_countRetired, if_neg hx]

/-- What retiring keeps of the sequencer whether or not it ends. -/
theorem retireAt_keeps (t s : State) (pc : Word) (h : t.cur = s.cur) :
    (retireAt t s pc).me.queue = t.me.queue ∧ (retireAt t s pc).me.pending = t.me.pending ∧
      (retireAt t s pc).me.vbusy = t.me.vbusy ∧ (retireAt t s pc).me.fbusy = t.me.fbusy ∧
      (retireAt t s pc).me.resv = t.me.resv ∧ (retireAt t s pc).me.rwcount = t.me.rwcount + 1 := by
  unfold State.me
  rw [retireAt_cur, h, retireAt, State.seqAt_goTo, State.seqAt_countRetired]
  split <;> simp

theorem retireAt_other (t s : State) (pc : Word) (g k : Nat) (h : (g, k) ≠ s.cur) :
    (retireAt t s pc).seqAt g k = t.seqAt g k := by
  have h' : (g, k) ≠ (s.cur.1, s.cur.2) := h
  rw [retireAt, State.seqAt_goTo_other _ _ _ _ _ _ h', State.countRetired, State.seqAt_modSeqAt_other _ _ _ _ _ _ h']

/-- A core keeps everything but its sequencers. -/
theorem retireAt_core (t s : State) (pc : Word) (g : Nat) :
    (retireAt t s pc).core g = { t.core g with seqs := ((retireAt t s pc).core g).seqs } := by
  rw [retireAt, State.core_goTo, State.countRetired, State.core_modSeqAt]

theorem retire_eq (t s : State) : retire t s = retireAt t s (t.me.r.pc + 4) := rfl

@[simp] theorem retire_cur (t s : State) : (retire t s).cur = t.cur := retireAt_cur t s _

@[simp] theorem retire_mem (t s : State) : (retire t s).mem = t.mem := retireAt_mem t s _

@[simp] theorem retire_nodes (t s : State) : (retire t s).nodes = t.nodes := retireAt_nodes t s _

theorem retire_r (t s : State) (h : t.cur = s.cur) :
    (retire t s).me.r = { t.me.r with pc := t.me.r.pc + 4, instret := t.me.r.instret + 1 } := retireAt_r t s _ h

theorem retire_core (t s : State) (g : Nat) : (retire t s).core g = { t.core g with seqs := ((retire t s).core g).seqs } :=
  retireAt_core t s _ g

/-! ### The boundary (R72) -/

theorem State.seqAt_boundary (s : State) (g k : Nat) :
    (s.boundary g k).seqAt g k =
      if (s.seqAt g k).stopReq && (s.seqAt g k).status != .ended && (s.seqAt g k).status != .dormant then
        { s.seqAt g k with stopped := true } else s.seqAt g k := by
  unfold State.boundary; exact State.seqAt_modSeqAt_same ..

/-! ### Finishing, in the words of the statements -/

theorem Res.finish_done_retire (t s : State) : (Res.done t).finish s = .next (retire t s) := rfl

theorem Res.finish_jump_retire (t s : State) (pc : Word) : (Res.jump t pc).finish s = .next (retireAt t s pc) := rfl

theorem Res.finish_edge_retire (t s : State) (pc : Word) : (Res.loopEdge t pc).finish s = .next (retireEdge t s pc) := rfl

theorem Res.finish_wait_waiting (t s : State) : (Res.wait t).finish s = .next (waiting t s) := rfl

theorem Res.finish_block_waiting (s : State) : Res.block.finish s = .next (waiting s s) := rfl

/-- R23: a trap that is taken: the handler's registers. -/
theorem State.r_takeTrap (s : State) (g k cause : Nat) (tval : Word) (ha : (s.seqAt g k).r.act = false)
    (hv : (s.seqAt g k).r.ttvec ≠ 0) :
    ((s.takeTrap g k cause tval).seqAt g k).r =
      { (s.seqAt g k).r with
        pc := (s.seqAt g k).r.ttvec, tepc := (s.seqAt g k).r.pc, tcause := BitVec.ofNat 8 cause, tval := tval, act := true } := by
  have h : ((s.seqAt g k).r.act || (s.seqAt g k).r.ttvec == 0) = false := by
    rw [ha, Bool.false_or]; exact beq_eq_false_iff_ne.mpr hv
  simp only [State.takeTrap, h]
  rw [if_neg (by decide), State.r_goTo, State.seqAt_setSeqAt_same]
  rfl

end Sys2Proof.Machine
end

