-- ==== Sys2Proof/Tests/Slice0.lean ====
section
/-! SUPPORT. Tests: words written out from the spec's encodings, terms that `Instr.wf` refuses, results worked out in the
spec, and for every statement with hypotheses a state and operands that meet them. -/
namespace Sys2Proof.Tests
open Sys2Proof Sys2Proof.Machine
set_option Elab.async false

/-! ### Decoding: the words of the spec's worked examples (R38, R43, R53, R77, R84, R94, R105, R196) -/

theorem test_decode_vld : decodeTableWord 32 0x00071057 = some (.vld ⟨0, 7, 0, 1, false⟩) := by decide +kernel
theorem test_decode_vst : decodeTableWord 32 0x301C1057 = some (.vst ⟨0, 28, 0, 1, false⟩) := by decide +kernel
theorem test_decode_vst_predicated : decodeTableWord 32 0x301D30D7 = some (.vst ⟨1, 29, 0, 3, false⟩) := by decide +kernel
theorem test_decode_hprobe : decodeTableWord 32 0xB02D0157 = some (.hprobe ⟨2, 13, 1, 0, false⟩) := by decide +kernel
theorem test_decode_vmv_s : decodeTableWord 32 0xE80700D7 = some (.vmvS ⟨1, 7, 0, 0, false⟩) := by decide +kernel
theorem test_decode_vfma : decodeTableWord 32 0x318B255B = some (.vfma ⟨10, 11, 12, 2, false, false⟩) := by decide +kernel
theorem test_decode_vfadd_empty_check : decodeTableWord 32 0x04C5325B = some (.vfadd ⟨4, 5, 6, 3, true, false⟩) := by
  decide +kernel
theorem test_decode_vscale : decodeTableWord 32 0x62D9A4FB = some (.vscale ⟨9, 25, 22, 10, false, false⟩) := by
  decide +kernel
theorem test_decode_vwiden : decodeTableWord 32 0x2027027B = some (.vwiden ⟨4, 7, 1, false, 0, false⟩) := by decide +kernel
theorem test_decode_vnarrow : decodeTableWord 32 0x3044037B = some (.vnarrow ⟨6, 4, 2, false, 0, false⟩) := by decide +kernel
theorem test_decode_vtag : decodeTableWord 32 0x4020007B = some (.vtag ⟨0, 0, 1, false, 0, false⟩) := by decide +kernel
theorem test_decode_vcmp_eq : decodeTableWord 32 0x02A95177 = some (.vcmpEq ⟨1, 10, 18, 10, 2⟩) := by decide +kernel
theorem test_decode_vcmp_lt : decodeTableWord 32 0x22940B77 = some (.vcmpLt ⟨1, 9, 8, 1, 6⟩) := by decide +kernel
theorem test_decode_cmd_put : decodeTableWord 32 0x000285EB = some (.cmdPut 11 0 5) := by decide +kernel
theorem test_decode_seq_wait : decodeTableWord 32 0x0405806B = some (.seqWait 0 11) := by decide +kernel
theorem test_decode_loop_set : decodeTableWord 32 0x0022900B = some (.loopSet 5 3) := by decide +kernel
theorem test_decode_loop_end : decodeTableWord 32 0xFC00028B = some (.loopEnd (-60)) := by decide +kernel
theorem test_decode_loop_brk : decodeTableWord 32 0x0010060B = some (.loopBrk 12) := by decide +kernel
theorem test_decode_loop_idx : decodeTableWord 32 0x0200130B = some (.loopIdx 6 0) := by decide +kernel
theorem test_decode_pand : decodeTableWord 32 0x0064240B = some (.pand 8 8 6) := by decide +kernel
theorem test_decode_qmark_seq : decodeTableWord 32 0x0100700B = some (.qmark .seq .full) := by decide +kernel
theorem test_decode_qmark_pod : decodeTableWord 32 0x0150700B = some (.qmark .pod .full) := by decide +kernel
theorem test_decode_mbox_recv : decodeTableWord 32 0x0830350B = some (.mboxRecv 10 3) := by decide +kernel
theorem test_decode_mbox_send : decodeTableWord 32 0x0727B00B = some (.mboxSend 15 18) := by decide +kernel
theorem test_decode_tok_set : decodeTableWord 32 0x0C02B00B = some (.tokSet 5) := by decide +kernel
theorem test_decode_tret : decodeTableWord 32 0xFE00700B = some .tret := by decide +kernel
theorem test_decode_amomaxnum_s : decodeTableWord 32 0xE2B5206B = some (.amomaxnumS ⟨0, 11, 10, false, true⟩) := by
  decide +kernel

/-! ### Decoding: words written out field by field from the layouts of R4 and R31 -/

-- R4 (RISC-V): imm[11:0] rs1 funct3 rd opcode
theorem test_decode_ld : decodeTableWord 32 0b111111111000_01010_011_00101_0000011 = some (.scalarLoad .ld 5 10 (-8)) := by
  decide +kernel
theorem test_decode_sw : decodeTableWord 32 0b0000001_00101_01010_010_00100_0100011 = some (.scalarStore .sw 5 10 36) := by
  decide +kernel
theorem test_decode_sub : decodeTableWord 32 0b0100000_00111_00110_000_00101_0110011 =
    some (.standardInstruction (.op .sub 5 6 7)) := by decide +kernel
theorem test_decode_beq : decodeTableWord 32 0b1111111_00110_00101_000_11101_1100011 =
    some (.standardInstruction (.branch .beq 5 6 (-4))) := by decide +kernel
theorem test_decode_jalr : decodeTableWord 32 0b000000000100_00001_000_00000_1100111 = some (.jalr 0 1 4) := by decide +kernel
theorem test_decode_lr_d : decodeTableWord 32 0b00010_10_00000_01010_011_00101_0101111 = some (.lr .dword true false 5 10) := by
  decide +kernel
theorem test_decode_amoadd_posted : decodeTableWord 32 0b00000_01_00110_01010_010_00000_0101111 =
    some (.postedAmo .add .word false true 6 10) := by decide +kernel
theorem test_decode_csrrs : decodeTableWord 32 0b100000000001_00000_010_00101_1110011 = some (.csrAccess .rs 5 0x801 0) := by
  decide +kernel
theorem test_decode_fadd_s : decodeTableWord 32 0b0000000_00011_00010_000_00001_1010011 =
    some (.scalarFpOp (.arith .add 1 2 3 .rne)) := by decide +kernel
theorem test_decode_ecall : decodeTableWord 32 0b000000000000_00000_000_00000_1110011 = some .ecall := by decide +kernel
theorem test_decode_fence_tso : decodeTableWord 32 0b100000110011_00000_000_00000_0001111 = some (.fenceTso 0 0) := by
  decide +kernel

/-! ### Well-formedness: one ill-formed term for each check, and the well-formed term beside it -/

/-- A list of terms that are all refused. -/
def refused (l : List Instr) : Bool := l.all fun i => !i.wf

theorem test_wf_scalar_immediates : refused [.scalarLoad .ld 5 6 2048, .scalarStore .sw 5 6 (-2049), .jalr 1 5 2048,
    .standardInstruction (.opImm .addi 5 6 2048), .standardInstruction (.opImm32 .addiw 5 6 (-2049))] = true := by
  decide +kernel
theorem test_wf_upper_immediate : refused [.standardInstruction (.lui 5 1048576)] = true := by decide +kernel
theorem test_wf_shift_amounts : refused [.standardInstruction (.opImm .slli 5 6 64),
    .standardInstruction (.opImm32 .slliuw 5 6 64), .standardInstruction (.opImm32 .slliw 5 6 32)] = true := by decide +kernel
theorem test_wf_jump_offsets : refused [.standardInstruction (.jal 1 2), .standardInstruction (.jal 1 1048576),
    .standardInstruction (.branch .beq 5 6 2), .standardInstruction (.branch .beq 5 6 4096), .loopEnd 2, .loopBrk (-4100)] = true := by
  decide +kernel
theorem test_wf_amo_to_x0 : refused [.amo .add .word false false 0 5 6] = true := by decide +kernel
theorem test_wf_fence_operands : refused [.fence 0 0 8 3 3, .fenceI 0 0 4096] = true := by decide +kernel
theorem test_wf_csr_number : refused [.csrAccess .rs 5 0x004 0] = true := by decide +kernel
theorem test_wf_csr_read_only : refused [.csrAccess .rw 5 0xC00 6, .csrAccess .rs 5 0xCC3 6] = true := by decide +kernel
theorem test_wf_loop_fields : refused [.loopSet 5 0, .loopSet 5 9, .loopIdx 5 6] = true := by decide +kernel
theorem test_wf_qwait_mask : refused [.qwait 0] = true := by decide +kernel
theorem test_wf_unary_fields : refused [.vnot ⟨1, 2, 3, 0, false, false⟩, .vfsqrt ⟨1, 2, 0, 0, false, true⟩] = true := by
  decide +kernel
theorem test_wf_compare_type : refused [.vcmpEq ⟨7, 1, 2, 0, 2⟩, .xcmpLt ⟨7, 1, 2, 0, 2⟩] = true := by decide +kernel
theorem test_wf_conversion_tags : refused [.vcvt ⟨1, 2, 0, false, 0, false⟩, .vnarrow ⟨1, 2, 13, false, 0, false⟩,
    .vwiden ⟨2, 1, 1, true, 0, false⟩, .vwiden ⟨2, 1, 13, false, 0, false⟩, .vtag ⟨1, 2, 13, false, 0, false⟩,
    .vtag ⟨1, 2, 1, true, 0, false⟩] = true := by decide +kernel
theorem test_wf_memory_fields : refused [.vld ⟨1, 5, 2, 0, false⟩, .vldBVa ⟨1, 5, 0, 0, true⟩, .vlds ⟨1, 5, 6, 0, true⟩,
    .vstVa ⟨1, 5, 2, 0, false⟩, .vpark ⟨1, 5, 2, 0, true⟩] = true := by decide +kernel
theorem test_wf_move_fields : refused [.vmvX ⟨1, 5, 2, 1, false⟩, .vmvS ⟨1, 5, 0, 1, false⟩, .vmvS ⟨1, 5, 2, 0, false⟩,
    .viota ⟨1, 5, 0, 0, false⟩] = true := by decide +kernel
theorem test_wf_limits_admitted : ([.scalarLoad .ld 5 6 2047, .standardInstruction (.jal 1 (-1048576)), .loopEnd (-4096),
    .loopBrk 4092, .loopSet 5 8, .loopIdx 5 5, .qwait 3, .vcmpEq ⟨6, 1, 2, 0, 2⟩, .vtag ⟨1, 2, 0, false, 0, false⟩,
    .vtag ⟨1, 2, 12, false, 0, false⟩, .csrAccess .rs 5 0xCC9 0, .vst ⟨1, 5, 0, 0, true⟩] : List Instr).all Instr.wf = true := by
  decide +kernel
/-- The scanner's refusals reach the decoder (R5, R30, R42). -/
theorem test_decode_refuses : decodeTableWord 32 0xFE00F00B = none ∧ decodeTableWord 32 0x00000000 = none ∧
    decodeTableWord 32 0x0000100B = some (.loopSet 0 1) ∧ decodeTableWord 32 0xFFFFFFFF = none := by decide +kernel

/-! ### Small states -/

/-- The bytes of the word at the entry are an `addi`; the page at 0x10000 is mapped, writable and executable. -/
def trial : State := State.reset.withFetchWord 32 0x00500293

/-- The registers of a sequencer at the entry with a vector context, the named x registers set. -/
def regsOf (l : List (Nat × Word)) : Regs :=
  { pc := 0x10000, vctx := true, p := (Vector.replicate 16 0).set 0 (BitVec.allOnes 1024),
    x := Vector.ofFn fun (i : Fin 32) => tabGet 0 l i.val }

/-- The trial state with another sequencer in core 0 and, besides, another core. -/
def stateOf (q : Seq) (f : Core → Core) : State :=
  { trial with cores := [(0, f { trialCore State.reset with seqs := [(0, q)] })], cur := (0, 0) }

/-- A ready sequencer with these registers. -/
def seqOf (r : Regs) : Seq := { status := .ready, r := r, asid := 1, exitAddr := 0x40000000 }

/-- A state whose current sequencer has these x registers. -/
def stateX (l : List (Nat × Word)) : State := stateOf (seqOf (regsOf l)) id

/-- The next state, if there is one. -/
def nextOf (o : Host.Outcome State Fault Refusal) : Option State :=
  match o with
  | .next s => some s
  | _ => none

/-- Whether a word decodes to an instruction. -/
def decodesTo (w : Nat) (i : Instr) : Bool :=
  match decode w with
  | .ok j => j == i
  | .error _ => false

theorem decode_of_decodesTo (w : Nat) (i : Instr) (h : decodesTo w i = true) : decode w = .ok i := by
  unfold decodesTo at h
  split at h
  · next j hj => rw [hj, eq_of_beq h]
  · cases h

/-! ### Encoding, step and fetch -/

theorem witness_DecodeOfEncode : (Instr.loopSet 5 8).wf = true ∧ encode (.loopSet 5 8) = some 0x0072900B := by decide +kernel

theorem witness_EncodeOfDecode : 0x0022900B < 2 ^ 32 ∧ decode 0x0022900B = .ok (.loopSet 5 3) :=
  ⟨by decide, decode_of_decodesTo _ _ (by decide +kernel)⟩

theorem witness_StepRunsDecodedInstruction :
    trial.agenda = [] ∧ nextIssue trial = some (0, 0) ∧ targetReached (trial.atIssue 0 0) 0 0 = false ∧
      breakpointHit (trial.atIssue 0 0) 0 0 = none ∧ (fetch (trial.pastPoints 0 0) 0 0).1 = .word 0x00500293 ∧
      decode 0x00500293 = .ok (.standardInstruction (.opImm .addi 5 0 5)) :=
  ⟨by decide +kernel, by decide +kernel, by decide +kernel, by decide +kernel, by decide +kernel,
    decode_of_decodesTo _ _ (by decide +kernel)⟩

/-- The step runs the word it fetches: x5 becomes 5 and the pc falls through. -/
theorem test_step_runs_addi : ((nextOf (step trial)).map fun t => (t.rx 5, t.me.r.pc, t.me.r.instret)) = some (5, 0x10004, 1) := by
  decide +kernel

/-- The same page, with the word `e` as its last-level entry. -/
def remapped (e : Nat) : State := { trial with mem := memSet trial.mem (dramKey 0 0xA008) (leBytes 8 e) }

theorem witness_FetchReadsExecutablePages :
    codeLine trial 0 1 0x10000 = none ∧ resolve trial 0 1 .fetch 0x10000 4 .accepted = .ok (.dram 0 0x10000) ∧
      poisoned trial (.dram 0 0x10000) 64 = false ∧
      resolve (remapped 0) 0 1 .fetch 0x10000 4 .accepted = .xlat ∧
      resolve (remapped 0x4000003) 0 1 .fetch 0x10000 4 .accepted = .access := by decide +kernel

/-- R28: a fetch from a page that is not executable traps ACCESS with the fetch address in tepc and tval. -/
theorem test_fetch_access_traps :
    ((nextOf (step ((remapped 0x4000003).modSeqAt 0 0 fun q => { q with r := { q.r with ttvec := 0x10040 } }))).map fun t =>
      (t.me.r.tcause, t.me.r.tepc, t.me.r.tval, t.me.r.pc)) = some (0x03, 0x10000, 0x10000, 0x10040) := by decide +kernel

theorem witness_StepKeepsInvariant : State.reset.Inv ∧ (nextOf (step State.reset)).isSome = true ∧
    trial.Inv ∧ (nextOf (step trial)).isSome = true := by decide +kernel

/-! ### Retirement, traps and return -/

theorem witness_RetirementCountsAndAdvances : (stateX []).me.r.pc + 4 ≠ (stateX []).me.exitAddr ∧
    (stateOf { seqOf (regsOf []) with exitAddr := 0x10004 } id).me.r.pc + 4 = 0x10004 := by decide +kernel

/-- Registers with a handler at 0x10040. -/
def handled : Regs := { regsOf [(5, 3), (6, 5)] with ttvec := 0x10040 }

theorem witness_CallsTakeTheirTraps : (stateOf (seqOf handled) id).me.r.act = false ∧
    (stateOf (seqOf handled) id).me.r.ttvec ≠ 0 ∧ (stateOf (seqOf handled) id).me.r.ttvec ≠ (stateOf (seqOf handled) id).me.exitAddr := by
  decide +kernel

theorem test_ebreak : ((nextOf (exec .ebreak (stateOf (seqOf handled) id))).map fun t =>
    (t.me.r.pc, t.me.r.tepc, t.me.r.tcause, t.me.r.act)) = some (0x10040, 0x10000, 0x0f, true) := by decide +kernel

theorem witness_TrapWithoutHandlerEndsFaulted : ((stateX []).seqAt 0 0).r.ttvec = 0 ∧
    ((stateOf (seqOf { handled with act := true }) id).seqAt 0 0).r.act = true ∧ ((stateX []).nodeOf 0).isSome = true := by
  decide +kernel

theorem witness_TrapReturnRestores : (stateX []).me.r.tepc ≠ (stateX []).me.exitAddr ∧
    (0xFE00F00B#32).extractLsb' 0 7 = 0b0001011#7 ∧ (0xFE00F00B#32).extractLsb' 12 3 = 0b111#3 ∧
    (0xFE00F00B#32).extractLsb' 25 7 = 0b1111111#7 := by decide +kernel

/-! ### Scalar words -/

theorem witness_BaseArithmeticResults : XReady (stateX []) [0, 5, 31] ∧ (stateX []).rx 5 = 0 := by decide +kernel

/-- R4 (RISC-V M): the most negative number divided by -1 overflows to itself, with remainder 0. -/
theorem test_div_overflow : opFn .div 0x8000000000000000 (-1) = 0x8000000000000000 ∧
    opFn .rem 0x8000000000000000 (-1) = 0 := by decide +kernel

theorem witness_JumpsAndBranches : XReady (stateX [(5, 0x10005), (6, 0x10006)]) [1, 5, 6] ∧
    branchTaken .bne ((stateX [(5, 0x10005), (6, 0x10006)]).rx 5) ((stateX [(5, 0x10005), (6, 0x10006)]).rx 6) = true ∧
    branchTaken .beq ((stateX [(5, 0x10005), (6, 0x10006)]).rx 5) ((stateX [(5, 0x10005), (6, 0x10006)]).rx 6) = false ∧
    (((stateX [(5, 0x10005)]).rx 5 + ofSigned 0) &&& ~~~1#64).getLsbD 1 = false ∧
    (((stateX [(6, 0x10006)]).rx 6 + ofSigned 0) &&& ~~~1#64).getLsbD 1 = true := by decide +kernel

theorem witness_ScalarFloatResults : FReady (stateX []) [0, 1, 31, 15] ∧ XReady (stateX []) [0, 1] := by decide +kernel

/-- R9: 1.0 + 2^-24 under RNE is a tie that goes to the even 1.0, and raises NX. -/
theorem test_fadd_ties_to_even : (fArith .add .rne 0x3F800000 0x33800000) = ⟨0x3F800000, 1⟩ := by decide +kernel

theorem witness_OrderingWords : Room (stateX []) 1 1 ∧
    queueRoom (stateOf { seqOf (regsOf []) with queue := List.replicate 16 { op := .load .ld 5 } } id).me 1 1 = false ∧
    (∃ e ∈ (stateOf { seqOf (regsOf []) with queue := [{ op := .load .ld 5 }] } id).me.queue,
      (1 : Fin 4).val % 2 = 1 ∧ e.isLoad = true ∧ e.performed = false) ∧
    (∀ e ∈ (stateOf { seqOf (regsOf []) with queue := [{ op := .load .ld 5, performed := true }, { op := .store, performed := true }] }
      id).me.queue, ((3 : Fin 4).val % 2 = 1 → e.isLoad = true → e.performed = true) ∧
        ((3 : Fin 4).val / 2 = 1 → e.isStore = true → e.performed = true ∧ e.acked = true)) := by
  refine ⟨by decide +kernel, by decide +kernel, ⟨{ op := .load .ld 5 }, ?_⟩, ?_⟩ <;> decide +kernel

theorem witness_CsrAccessReadsAndWrites : XReady (stateX []) [31, 5] ∧ csrWrites .rs 0 = false ∧ csrWrites .rs 5 = true := by
  decide +kernel

/-- R9: a write of 7 to frm stores 0. -/
theorem test_frm_write : ((nextOf (exec (.csrAccess .rwi 5 0x002 7) (stateX []))).map fun t => (t.me.r.frm, t.rx 5)) = some (0, 0) := by
  decide +kernel

theorem witness_ScalarAccessesWaitForTheirOwner : XReady (stateX [(10, 0x10100)]) [5, 10, 6] ∧ FReady (stateX []) [5, 6] ∧
    Room (stateX [(10, 0x10100)]) 3 3 ∧ (stateX [(10, 0x10100)]).inRegion = false ∧
    isAperture (effAddr (stateX [(10, 0x10100)]) 10 0) = false ∧ (effAddr (stateX [(10, 0x10100)]) 10 0).toNat % loadBytes .ld = 0 ∧
    (effAddr (stateX [(10, 0x10100)]) 10 4).toNat % loadBytes .ld ≠ 0 ∧
    isAperture (effAddr (stateX [(10, 0x3FFFF00000000)]) 10 8) = true ∧
    apertureForm (effAddr (stateX [(10, 0x3FFFF00000000)]) 10 8) = true := by decide +kernel

/-- R6: a misaligned load traps MISALIGN with its address and leaves its destination full. -/
theorem test_misaligned_load : ((nextOf (exec (.scalarLoad .lw 5 10 1) (stateOf (seqOf { handled with x := (regsOf [(10, 0x10100)]).x })
    id))).map fun t => (t.me.r.tcause, t.me.r.tval, t.me.r.xIsFull 5)) = some (0x02, 0x10101, true) := by decide +kernel

/-- An aligned access of 8 bytes at 0x10100 that waits for its owner. -/
def pendingAt (op : EntryOp) (a : Word) : State :=
  stateOf { seqOf (regsOf []) with status := .blocked, pending := some ⟨[], { op := op, va := true, elems := [issued a 8 7] }, []⟩ } id

theorem witness_AcceptanceRetiresOrTraps : verdictAt ⟨[], []⟩ 0 = .accepted ∧
    ((pendingAt (.load .ld 5) 0x10100).seqAt 0 0).pending =
      some ⟨[], { op := .load .ld 5, va := true, elems := [issued 0x10100 8 7] }, []⟩ ∧
    resolve (pendingAt (.load .ld 5) 0x10100) 0 1 (EntryOp.load .ld 5).accKind 0x10100 8 .accepted = .ok (.dram 0 0x10100) ∧
    poisoned (pendingAt (.load .ld 5) 0x10100) (.dram 0 0x10100) 8 = false ∧
    resolve (pendingAt (.load .ld 5) 0x20100) 0 1 (EntryOp.load .ld 5).accKind 0x20100 8 .accepted = .xlat ∧
    resolve (remapped 0x4000007) 0 1 (EntryOp.store).accKind 0x10100 8 .accepted = .ok (.dram 0 0x10100) ∧
    resolve (remapped 0x4000003) 0 1 (EntryOp.store).accKind 0x10100 8 .accepted = .access ∧
    resolve (pendingAt (.load .ld 5) 0x10000000010100) 0 1 (EntryOp.load .ld 5).accKind 0x10000000010100 8 .accepted = .absent ∧
    trapsOnAbsent (.load .ld 5) = true ∧
    resolve (pendingAt .store 0x10000000010100) 0 1 (EntryOp.store).accKind 0x10000000010100 8 .accepted = .absent := by
  decide +kernel

/-- An accepted element at 0x10100 of the DRAM, alone in its queue. -/
def acceptedAt (op : EntryOp) (acked : Bool) (resv : Option Loc) : State :=
  stateOf { seqOf (regsOf []) with
    resv := resv, queue := [{ op := op, va := true, elems := [{ issued 0x10100 8 7 with loc := .dram 0 0x10100 }], acked := acked }] } id

theorem witness_LoadsReturnTheirBytes :
    AloneInDram (acceptedAt (.load .ld 5) true none) 0 0
      { op := .load .ld 5, va := true, elems := [{ issued 0x10100 8 7 with loc := .dram 0 0x10100 }] }
      { issued 0x10100 8 7 with loc := .dram 0 0x10100 } 0 0x10100 ∧
    AloneInDram (acceptedAt (.load .flw 5) true none) 0 0
      { op := .load .flw 5, va := true, elems := [{ issued 0x10100 8 7 with loc := .dram 0 0x10100 }] }
      { issued 0x10100 8 7 with loc := .dram 0 0x10100 } 0 0x10100 ∧
    AloneInDram (acceptedAt (.lr .dword 5) true none) 0 0
      { op := .lr .dword 5, va := true, elems := [{ issued 0x10100 8 7 with loc := .dram 0 0x10100 }] }
      { issued 0x10100 8 7 with loc := .dram 0 0x10100 } 0 0x10100 ∧
    AloneInDram (acceptedAt (.load .flw 0) true none) 0 0
      { op := .load .flw 0, va := true, elems := [{ issued 0x10100 8 7 with loc := .dram 0 0x10100 }] }
      { issued 0x10100 8 7 with loc := .dram 0 0x10100 } 0 0x10100 ∧
    -- a line of its own in the data cache
    AloneInDram ((acceptedAt (.load .ld 5) true none).modCore 0 fun c => { c with dcache := [⟨dramKey 0 0x10100 / 64, leBytes 64 9⟩] }) 0 0
      { op := .load .ld 5, va := true, elems := [{ issued 0x10100 8 7 with loc := .dram 0 0x10100 }] }
      { issued 0x10100 8 7 with loc := .dram 0 0x10100 } 0 0x10100 ∧
    cacheable ((acceptedAt (.load .ld 5) true none).modCore 0 fun c => { c with dcache := [⟨dramKey 0 0x10100 / 64, leBytes 64 9⟩] }) 0
      { issued 0x10100 8 7 with loc := .dram 0 0x10100 } = true ∧
    (cachedLine (((acceptedAt (.load .ld 5) true none).modCore 0 fun c =>
      { c with dcache := [⟨dramKey 0 0x10100 / 64, leBytes 64 9⟩] }).core 0) (dramKey 0 0x10100 / 64)).isSome = true := by
  and_intros <;> decide +kernel

theorem witness_StoresWriteTheirBytes :
    AloneInDram (acceptedAt .store false none) 0 0
      { op := .store, va := true, elems := [{ issued 0x10100 8 7 with loc := .dram 0 0x10100 }], acked := false }
      { issued 0x10100 8 7 with loc := .dram 0 0x10100 } 0 0x10100 ∧ (acceptedAt .store false none).Inv ∧
    AloneInDram (acceptedAt (.amo (.int .add .dword) 5) true none) 0 0
      { op := .amo (.int .add .dword) 5, va := true, elems := [{ issued 0x10100 8 7 with loc := .dram 0 0x10100 }] }
      { issued 0x10100 8 7 with loc := .dram 0 0x10100 } 0 0x10100 ∧
    AloneInDram (acceptedAt (.sc .dword 5) true (some (.dram 0 0x10100))) 0 0
      { op := .sc .dword 5, va := true, elems := [{ issued 0x10100 8 7 with loc := .dram 0 0x10100 }] }
      { issued 0x10100 8 7 with loc := .dram 0 0x10100 } 0 0x10100 ∧
    ((acceptedAt (.sc .dword 5) true (some (.dram 0 0x10100))).seqAt 0 0).resv = some (.dram 0 0x10100) ∧
    ((acceptedAt (.sc .dword 5) true none).seqAt 0 0).resv = none ∧
    -- posted, and with reservations at another address of the line and on another line
    AloneInDram (acceptedAt (.amo (.int .add .dword) 0) false none) 0 0
      { op := .amo (.int .add .dword) 0, va := true, elems := [{ issued 0x10100 8 7 with loc := .dram 0 0x10100 }], acked := false }
      { issued 0x10100 8 7 with loc := .dram 0 0x10100 } 0 0x10100 ∧
    locationKey (.dram 0 0x10138) = some (dramKey 0 0x10138) ∧ dramKey 0 0x10138 / 64 = dramKey 0 0x10100 / 64 ∧
    locationKey (.dram 0 0x10140) = some (dramKey 0 0x10140) ∧ dramKey 0 0x10140 / 64 ≠ dramKey 0 0x10100 / 64 := by
  and_intros <;> decide +kernel

/-- That element may perform behind a load that has performed and is to return. -/
theorem witness_MayPerformInDram :
    let q (op : EntryOp) : State := (acceptedAt op false none).modSeqAt 0 0 fun q => { q with queue := { op := .load .ld 6, performed := true } :: q.queue }
    let e (op : EntryOp) : Entry := { op := op, va := true, elems := [{ issued 0x10100 8 7 with loc := .dram 0 0x10100 }], acked := false }
    MayPerformInDram (q (.load .ld 5)) 0 0 1 (e (.load .ld 5)) { issued 0x10100 8 7 with loc := .dram 0 0x10100 } 0 0x10100 ∧
    MayPerformInDram (q .store) 0 0 1 (e .store) { issued 0x10100 8 7 with loc := .dram 0 0x10100 } 0 0x10100 ∧ (q .store).Inv ∧
    ({ op := .load .ld 6, performed := true } : Entry).returns = some (6, 0) ∧
    (∀ x ∈ ({ op := .load .ld 6, performed := true } : Entry).elems, lostOwner (q .store) { op := .load .ld 6, performed := true } x = false) := by
  decide +kernel

/-- R8: an `sc` without its reservation writes nothing. -/
theorem test_sc_without_reservation :
    ((nextOf (exec (.accessPerform 0 0 0 0 ⟨false, [], []⟩) (acceptedAt (.sc .dword 5) true none))).map fun t =>
      memNat t.mem (dramKey 0 0x10100) 8) = some 0 := by decide +kernel

/-! ### Loops, predicates, allocator -/

/-- Registers with these loop levels. -/
def loopRegs (l : List LoopLevel) : Regs := { regsOf [(5, 3), (6, 0x100000000)] with loops := l }

theorem witness_HardwareLoops : XReady (stateX [(5, 3)]) [5, 6] ∧ (stateX [(5, 3)]).me.r.loops.length < 6 ∧
    ((stateX [(5, 3)]).rx 5).toNat < 2 ^ 32 ∧ 2 ^ 32 ≤ ((stateOf (seqOf (loopRegs [])) id).rx 6).toNat ∧
    6 ≤ (stateOf (seqOf (loopRegs (List.replicate 6 ⟨2, 1, 0⟩))) id).me.r.loops.length ∧
    (stateOf (seqOf (loopRegs [⟨4, 3, 4⟩])) id).me.r.loops = [⟨4, 3, 4⟩] ∧ 4 + 1 < 4 + 3 - 1 ∧ ¬ 5 + 1 < 4 + 3 - 1 ∧
    (stateX []).me.r.loops[0]? = none ∧ (stateX []).me.stopReq = false ∧
    (stateOf { seqOf (loopRegs [⟨4, 3, 4⟩]) with stopReq := true } id).me.stopReq = true ∧
    (stateX []).myCore.prof = none := by
  and_intros <;> decide +kernel

/-- R77's worked example, its last two rows: `loop.end` at t = 4 branches, and at t = 5 it pops and falls through. -/
theorem test_loop_end_of_r77 :
    ((nextOf (exec (.loopEnd (-16)) (stateOf (seqOf (loopRegs [⟨4, 3, 4⟩])) id))).map fun t => (t.me.r.loops, t.me.r.pc, t.me.r.rp 8)) =
      some ([⟨4, 3, 5⟩], 0xFFF0, 0) ∧
    ((nextOf (exec (.loopEnd (-16)) (stateOf (seqOf (loopRegs [⟨4, 3, 5⟩])) id))).map fun t => (t.me.r.loops, t.me.r.pc)) =
      some ([], 0x10004) := by decide +kernel

theorem witness_PredicateLogic : XReady (stateX [(5, 3), (6, 5)]) [5, 6, 7] := by
  and_intros <;> decide +kernel

/-- R78: `pwhile` from 3 below 5 sets two elements. -/
theorem test_pwhile : ((nextOf (exec (.pwhile 9 5 6) (stateX [(5, 3), (6, 5)]))).map fun t => t.me.r.rp 9) = some 3 := by
  decide +kernel

/-- Registers with an allocator. -/
def allocRegs (a : Alloc) (x : Nat) : Regs := { regsOf [(5, BitVec.ofNat 64 x)] with alloc := a }

/-- Ring 0 of R84's worked example. -/
def ring84 (h u : Nat) (l : List (Nat × Nat)) : Alloc :=
  { bb := 0x1000, bl := 0x2000, bp := 0x1040, rings := (Vector.replicate 4 {}).set 0 ⟨0x8000, 256, h, u, l⟩ }

/-- R84's worked example, step by step. -/
theorem test_rings_of_r84 :
    ((nextOf (exec (.spaRingGet 6 5 0) (stateOf (seqOf (allocRegs (ring84 0 0 []) 100)) id))).map fun t => (t.rx 6, t.me.r.alloc.rings[0])) =
      some (0x8000, ⟨0x8000, 256, 128, 128, [(0, 128)]⟩) ∧
    ((nextOf (exec (.spaRingGet 6 5 0) (stateOf (seqOf (allocRegs (ring84 128 128 [(0, 128)]) 100)) id))).map fun t =>
      (t.rx 6, t.me.r.alloc.rings[0])) = some (0x8080, ⟨0x8000, 256, 0, 256, [(0, 128), (128, 128)]⟩) ∧
    ((nextOf (exec (.spaRingGet 6 5 0) (stateOf (seqOf { allocRegs (ring84 0 256 [(0, 128), (128, 128)]) 64 with ttvec := 0x10040 })
      id))).map fun t => (t.me.r.tcause, t.me.r.tval)) = some (0x07, 64) := by decide +kernel

theorem test_ring_puts_of_r84 :
    ((nextOf (exec (.spaRingPut 5 0) (stateOf (seqOf (allocRegs (ring84 0 256 [(0, 128), (128, 128)]) 0x8000)) id))).map fun t =>
      t.me.r.alloc.rings[0]) = some ⟨0x8000, 256, 0, 128, [(128, 128)]⟩ ∧
    ((nextOf (exec (.spaRingPut 5 0) (stateOf (seqOf { allocRegs (ring84 64 192 [(128, 128), (0, 64)]) 0x8000 with ttvec := 0x10040 })
      id))).map fun t => (t.me.r.tcause, t.me.r.tval)) = some (0x03, 0x8000) := by decide +kernel

theorem witness_AllocatorWords :
    XReady (stateOf (seqOf (allocRegs (ring84 0 0 []) 100)) id) [6, 5] ∧
    (ring84 0 0 []).bp + roundUp 4032 64 ≤ (ring84 0 0 []).bl ∧ (ring84 0 0 []).bl < (ring84 0 0 []).bp + roundUp 4033 64 ∧
    (ring84 0 0 []).bb ≤ 0x1040 ∧ 0x1040 ≤ (ring84 0 0 []).bp ∧ 0x1040 % 64 = 0 ∧ 0xFC0 < (ring84 0 0 []).bb ∧
    (ring84 0 0 []).bp < 0x1080 ∧ 0x1001 % 64 ≠ 0 ∧
    -- a get that fits, at the edge of the ring; one that skips the tail end; one that does not fit
    (0 < roundUp 100 64 ∧ roundUp 100 64 ≤ 256 ∧ 128 + roundUp 100 64 ≤ 256 ∧ 128 + roundUp 100 64 ≤ 256) ∧
    (256 < 192 + roundUp 100 64 ∧ 64 + (256 - 192 + roundUp 100 64) ≤ 256) ∧ 256 < 256 + roundUp 64 64 ∧ roundUp 0 64 = 0 ∧
    (ring84 0 128 [(0, 128)]).rings[0].fifo = (0, 128) :: [] ∧ 0x8000 = (ring84 0 128 [(0, 128)]).rings[0].rb + 0 ∧
    (ring84 0 0 []).rings[0].fifo = [] ∧ (ring84 0 0 []).rings[3].rs = 0 := by
  and_intros <;> decide +kernel

/-! ### Barriers, mailboxes, tokens -/

/-- The trial state with a barrier k of its node. -/
def barred (r : Regs) (k : Fin 16) (b : Barrier) : State :=
  let s := stateOf (seqOf r) id
  { s with nodes := [{ trialNode State.reset with barriers := (Vector.replicate 16 {}).set k.val b }] }

/-- The same state with a load of the sequencer still to perform. -/
def loading (k : Fin 16) : State :=
  (barred (regsOf []) k {}).modSeqAt 0 0 fun q =>
    { q with queue := [{ op := .load .ld 5, va := true, elems := [{ issued 0x3FFFF00000100 8 7 with loc := .win 0 0x100 }] }] }

theorem witness_BarrierWords :
    ((barred (regsOf [(5, 8192)]) 3 ⟨2, 0, false⟩).nodeOf 0).map (·.barriers[3]) = some ⟨2, 0, false⟩ ∧
    XReady (barred (regsOf [(5, 8192)]) 3 {}) [5] ∧ Room (barred (regsOf [(5, 8192)]) 3 {}) 1 1 ∧
    releaseWaits (barred (regsOf []) 3 {}) (barrierScope (barred (regsOf []) 3 {}).myCore) = false ∧
    releaseWaits (loading 3) (barrierScope (loading 3).myCore) = true ∧ (loading 3).me.r.armed[3] = false ∧ Room (loading 3) 1 1 ∧
    arrivalQueued (barred { regsOf [] with armed := (Vector.replicate 16 false).set 3 true } 3 ⟨2, 1, true⟩).me 3 = false ∧
    1 ≤ ((barred (regsOf [(5, 8192)]) 3 {}).rx 5).toNat ∧ ((barred (regsOf [(5, 8192)]) 3 {}).rx 5).toNat ≤ 8192 ∧
    8192 < ((barred (regsOf [(5, 8193)]) 3 {}).rx 5).toNat ∧ (barred (regsOf []) 3 {}).rx 5 = 0 ∧
    (barred (regsOf []) 3 {}).me.r.armed[3] = false ∧
    (barred { regsOf [] with armed := (Vector.replicate 16 false).set 3 true } 3 ⟨2, 1, true⟩).me.r.armed[3] = true ∧
    (barred { regsOf [] with armed := (Vector.replicate 16 false).set 3 true } 3 ⟨2, 1, true⟩).me.r.aphase[3] = false ∧
    (⟨2, 1, true⟩ : Barrier).phase ≠ (barred (regsOf []) 3 {}).me.r.aphase[3] ∧
    (⟨2, 0, false⟩ : Barrier).phase = (barred (regsOf []) 3 {}).me.r.aphase[3] := by
  and_intros <;> decide +kernel

/-- R86: the last arrival flips the phase and empties the count. -/
theorem test_last_arrival : ((nextOf (exec (.barArrive 3) (barred (regsOf []) 3 ⟨2, 1, false⟩))).map fun t => t.barrier 3) =
    some ⟨2, 0, true⟩ := by decide +kernel

theorem witness_MailboxAndTokenWords :
    XReady (stateX [(5, 255), (6, 0x0FFF1FFF), (7, 0x2000), (8, 256)]) [5, 6, 7, 8] ∧ (stateX []).me.queue = [] ∧
    (stateX []).inRegion = false ∧
    bitsOf 0x0FFF1FFF 63 28 = 0 ∧ bitsOf 0x0FFF1FFF 15 13 = 0 ∧ bitsOf 0x2000 15 13 ≠ 0 ∧ bitsOf 0x10000000 63 28 ≠ 0 ∧
    ((stateX [(5, 255)]).rx 5).toNat < 256 ∧ 256 ≤ ((stateX [(8, 256)]).rx 8).toNat ∧ Room (stateX []) 1 2 ∧
    (∀ e ∈ (stateX []).me.queue, ∀ r, e.op ≠ .mboxRecv r 2) ∧
    (∃ e ∈ (stateOf { seqOf (regsOf []) with queue := [{ op := .mboxRecv 5 2 }] } id).me.queue, ∃ r, e.op = .mboxRecv r 2) ∧
    (stateOf { seqOf (regsOf []) with region := some { image := regsOf [] } } id).inRegion = true := by
  refine ⟨?_, ?_, ?_, ?_, ?_, ?_, ?_, ?_, ?_, ?_, ?_, ⟨_, List.Mem.head _, 5, rfl⟩, ?_⟩ <;> first | decide +kernel | exact fun _ h => nomatch h

/-- A send to mailbox 3 of the sequencer's own core that waits for its target, and one to core 4, held by a node of its address space. -/
def sending (g : Nat) : State :=
  let s := stateOf { seqOf (regsOf []) with status := .blocked, pending := some ⟨[], { op := .mboxSend, va := true, elems :=
    [{ addr := mailAddr 0 g 3, n := 8, data := 7 }] }, []⟩ } id
  { s with cores := s.cores ++ [(4, { node := some (0, 0), asid := 1 })] }

theorem witness_MailboxAndTokenWords_accepted :
    [0, 4].all (fun g =>
      decide (((sending g).seqAt 0 0).pending = some ⟨[], { op := .mboxSend, va := true, elems :=
        [{ addr := mailAddr 0 g 3, n := 8, data := 7 }] }, []⟩) &&
      localCheck (mailAddr 0 g 3) 8 == none && ownerPkg (mailAddr 0 g 3) == (sending g).pkgid &&
      !ownerAbsent (sending g) (sending g).pkgid (ownerDie (mailAddr 0 g 3)) && apertureCore (mailAddr 0 g 3) == g) = true ∧
    ((sending 4).core 4).node.isSome = true ∧ ((sending 4).core 4).asid = ((sending 4).seqAt 0 0).asid := by
  and_intros <;> decide +kernel

/-! ### Configuration, fibres and streams, queues, regions and the lease -/

theorem witness_ConfigurationMoves :
    XReady (stateX [(5, 0x40017)]) [4, 5, 6] ∧ (7 : Fin 8).val < (stateX []).myCore.tiles ∧
    -- tag 7, 2 rows, 128 columns; tag 14; 129 columns; a tile outside a partition of 2
    (bitsOf 0x40017 3 0 = 7 ∧ 1 ≤ bitsOf 0x40017 21 11 ∧ bitsOf 0x40017 21 11 ≤ elemsOf 7) ∧ bitsOf 0x4001E 3 0 = 14 ∧
    elemsOf 7 < bitsOf 0x40817 21 11 ∧ bitsOf 0x17 21 11 = 0 ∧
    (stateOf (seqOf (regsOf [])) fun c => { c with tiles := 2 }).myCore.tiles ≤ (2 : Fin 8).val ∧
    (stateX []).me.r.vctx = true ∧ (stateOf (seqOf { regsOf [] with vctx := false }) id).me.r.vctx = false := by
  and_intros <;> decide +kernel

/-- A fibre descriptor at scratchpad 0x40: base 0x100, two elements of 4 bytes. -/
def withFibre : State :=
  let s := stateX [(5, 0x40)]
  { s with mem := memSet s.mem (winKey 0 0x40) (leBytes 32 (0x100 + 2 * 2 ^ 64 + 2 * 2 ^ 128)) }

/-- Fibre 0 open at a position of its two elements. -/
def fibreAt (pos : Nat) : State :=
  let f : Stream := { isOpen := true, width := 4, stride := 4, count := 2, base := 0x100, pos := pos }
  stateOf (seqOf { regsOf [] with fb := (Vector.replicate 8 {}).set 0 f }) id

/-- The same in mode 1. -/
def virtualFibre : State :=
  stateOf (seqOf { (fibreAt 1).me.r with fb := (fibreAt 1).me.r.fb.set 0 { getStream (fibreAt 1).me.r true 0 with va := true } }) id

theorem witness_FibreAndStreamWords :
    XReady withFibre [5, 6] ∧ Room (fibreAt 1) 1 0 ∧ (withFibre.rx 5).toNat % 32 = 0 ∧ (withFibre.rx 5).toNat + 32 ≤ 2 ^ 20 ∧
    poisoned withFibre (.win 0 0x40) 32 = false ∧ spadWaits withFibre 0x40 32 = none ∧
    descriptorOk true (ownSpad withFibre 0x40 32) = true ∧ descriptorOk false (ownSpad withFibre 0x40 32) = true ∧
    (streamOf true (ownSpad withFibre 0x40 32)).base.toNat % (streamOf true (ownSpad withFibre 0x40 32)).width = 0 ∧
    (getStream (fibreAt 1).me.r true 0).isOpen = true ∧ (getStream (fibreAt 1).me.r true 0).pos ≠ (getStream (fibreAt 1).me.r true 0).count ∧
    (getStream (fibreAt 1).me.r true 0).va = false ∧ (getStream virtualFibre.me.r true 0).va = true ∧
    isAperture (getStream virtualFibre.me.r true 0).elemAddr = false ∧ (getStream (fibreAt 1).me.r true 0).elemAddr = 0x104 ∧
    poisoned (fibreAt 1) (.win 0 0x104) 4 = false ∧
    (getStream (fibreAt 2).me.r true 0).pos = (getStream (fibreAt 2).me.r true 0).count ∧
    (getStream (fibreAt 1).me.r false 0).isOpen = false := by
  and_intros <;> decide +kernel

/-- The trial state with queue 0 bound to 4 slots at 0x1000, two numbers assigned and one completed. -/
def queued (x : Nat) : State := stateOf (seqOf (regsOf [(5, BitVec.ofNat 64 x)])) fun c =>
  { c with queues := (Vector.replicate 16 {}).set 0 { kind := 2, n := 4, base := 0x1000, last := 2, comp := 1 } }

/-- The trial state whose cluster's lease has a holder. -/
def leased (h : Option (Nat × Nat)) : State :=
  let s := stateX []
  { s with clusters := [(0, { holder := h })] }

/-- The trial state with queue 0 bound, an open region, and a word of this opcode at scratchpad 0x40. -/
def regional (op : Nat) : State :=
  let s := (queued 0x40).setMe { (queued 0x40).me with region := some { image := regsOf [] } }
  { s with mem := memSet s.mem (winKey 0 0x40) (leBytes 32 op) }

theorem witness_QueueRegionAndLeaseWords_region :
    ((regional 0x24).myCore.queue 0).kind ≠ 0 ∧ (regional 0x24).inRegion = true ∧ ((regional 0x24).rx 5).toNat % 32 = 0 ∧
    ((regional 0x24).rx 5).toNat + 32 ≤ 2 ^ 20 ∧ spadWaits (regional 0x24) 0x40 32 = none ∧
    regionForbids (ownSpad (regional 0x24) 0x40 32) = true ∧ regionForbids (ownSpad (regional 0xc2) 0x40 32) = false ∧
    headerOf (ownSpad (regional 0xc2) 0x40 32) = none ∧ poisoned (regional 0xc2) (.win 0 0x40) 32 = false ∧ Room (regional 0xc2) 1 2 := by
  and_intros <;> decide +kernel

theorem witness_QueueRegionAndLeaseWords :
    XReady (queued 0x40) [5, 6] ∧ Room (queued 0x40) 1 2 ∧ (queued 0x40).inRegion = false ∧ ((queued 0x40).myCore.queue 0).kind ≠ 0 ∧
    ((queued 0xFFFE0).rx 5).toNat % 32 = 0 ∧ ((queued 0xFFFE0).rx 5).toNat + 32 ≤ 2 ^ 20 ∧
    poisoned (queued 0xFFFE0) (.win 0 0xFFFE0) 32 = false ∧ ((queued 3).rx 5).toNat < ((queued 3).myCore.queue 0).n ∧
    ((queued 1).rx 5).toNat ≤ ((queued 1).myCore.queue 0).comp ∧ ((queued 1).myCore.queue 0).comp ≤ ((queued 1).myCore.queue 0).last ∧
    ((queued 2).myCore.queue 0).comp < ((queued 2).rx 5).toNat ∧ ((queued 2).rx 5).toNat ≤ ((queued 2).myCore.queue 0).last ∧
    ((queued 3).myCore.queue 0).last < ((queued 3).rx 5).toNat ∧ ((queued 3).myCore.queue 1).kind = 0 ∧
    commandsDone (stateX []) = true ∧ registersFull (stateX []).me = true ∧ (stateX []).me.r.pc + 4 ≠ (stateX []).me.exitAddr ∧
    registersFull (stateOf (seqOf { regsOf [] with vfull := (Vector.replicate 32 true).set 4 false }) id).me = false ∧
    ((leased (some (0, 0))).cluster (clusterOfCore 0)).holder = some (leased (some (0, 0))).cur ∧
    ((leased none).cluster (clusterOfCore 0)).holder ≠ some (leased none).cur ∧
    ((leased none).cluster (clusterOfCore 0)).waiters = [] := by
  and_intros <;> decide +kernel

/-! ### Vector words -/

/-- A value from the elements of a tag's width, the first lowest. -/
def packed (bits : Nat) : List Nat → Nat
  | [] => 0
  | x :: t => x % 2 ^ bits + 2 ^ bits * packed bits t

/-- Vector registers 1, 2 and 3 with these tags and bits. -/
def vecRegs (t1 t2 t3 b1 b2 b3 : Nat) (xs : List (Nat × Word)) : Regs :=
  { regsOf xs with
    v := (((Vector.replicate 32 0).set 1 (BitVec.ofNat 4096 b1)).set 2 (BitVec.ofNat 4096 b2)).set 3 (BitVec.ofNat 4096 b3),
    vtag := (((Vector.replicate 32 0).set 1 t1).set 2 t2).set 3 t3 }

/-- A state with those registers. -/
def vec (t1 t2 t3 b1 b2 b3 : Nat) : State := stateOf (seqOf (vecRegs t1 t2 t3 b1 b2 b3 [(5, 2), (6, 4)])) id

/-- The same with elements 0 and 1 active under p1. -/
def vmemPart (t : Nat) : State :=
  let r := vecRegs t t t 0 0 0 []
  stateOf (seqOf { r with p := r.p.set 1 3 }) id

/-- v3 := v1 op v2 on all elements. -/
abbrev va312 : VA := ⟨3, 1, 2, 0, false, false⟩

theorem witness_VectorResultsWriteActiveElements : 13 ≤ 13 ∧ (vec 0 0 0 0 0 0).active 0 511 = true ∧
    (vmemPart 13).active 1 2 = false ∧ (4 : Fin 32) ≠ (vec 0 0 0 0 0 0).vphys 3 := by and_intros <;> decide +kernel

theorem witness_VectorIntegerResults : Ready2 (vec 7 7 7 0 0 0) va312 7 ∧ Ready2 (vec 12 12 0 0 0 0) va312 12 ∧
    Ready3 (vec 8 8 8 0 0 0) va312 8 ∧ Ready1 (vec 12 0 12 0 0 0) va312 12 12 ∧
    ReadyX (vec 0 7 0 0 0 0) ⟨3, 5, 2, 0, false, false⟩ 7 := by and_intros <;> decide +kernel

theorem witness_VectorLogicResults : Ready2 (vec 0 0 0 0 0 0) va312 0 ∧ Ready2 (vec 13 13 13 0 0 0) va312 13 ∧
    Ready1 (vec 13 0 0 0 0 0) va312 13 13 := by and_intros <;> decide +kernel

theorem witness_VectorFloatResults : Ready2 (vec 1 1 0 0 0 0) va312 1 ∧ Ready2 (vec 4 4 4 0 0 0) va312 4 ∧
    Ready3 (vec 1 1 1 0 0 0) va312 1 ∧ Ready1 (vec 4 0 0 0 0 0) va312 4 4 := by and_intros <;> decide +kernel

theorem witness_VectorSignClassAndScalarForms : Ready2 (vec 4 4 4 0 0 0) va312 4 ∧ Ready1 (vec 1 0 0 0 0 0) va312 1 1 ∧
    Ready1 (vec 1 0 7 0 0 0) va312 1 7 ∧ Ready1 (vec 3 0 0 0 0 0) va312 3 8 ∧
    ReadyX (vec 0 4 4 0 0 0) ⟨3, 5, 2, 0, false, false⟩ 4 ∧ (vec 0 4 4 0 0 0).vtagOf 3 = 4 := by and_intros <;> decide +kernel

/-- R119: INT8 addition wraps and `vsadd` clamps. -/
theorem test_int8_add : ((nextOf (exec (.vadd va312) (vec 9 9 0 127 1 0))).map fun t => (t.el 9 3 0, t.vtagOf 3)) = some (0x80, 9) ∧
    ((nextOf (exec (.vsadd va312) (vec 9 9 0 127 1 0))).map fun t => t.el 9 3 0) = some 127 := by decide +kernel

/-- R122, R126: 1 + 1 in FP32; 1 is less than 2 under the scaling of `vscale`. -/
theorem test_fp32_add : ((nextOf (exec (.vfadd va312) (vec 1 1 0 0x3F800000 0x3F800000 0))).map fun t => t.el 1 3 0) = some 0x40000000 := by
  decide +kernel

theorem witness_EmulatedWordsAreServed : Ready2 (vec 5 5 5 0 0 0) va312 5 ∧ Ready2 (vec 6 6 0 0 0 0) va312 6 ∧
    (vec 5 5 5 0 0 0).me.emul = none ∧ decode ((vec 5 5 5 0 0 0).setMe { (vec 5 5 5 0 0 0).me with word := 0x0041025B }).me.word =
      .ok (.vfadd ⟨4, 1, 2, 0, false, false⟩) :=
  ⟨by decide +kernel, by decide +kernel, by decide +kernel, decode_of_decodesTo _ _ (by decide +kernel)⟩

/-- v1 with a register marked empty. -/
def emptied (t1 t2 p : Nat) (h : p < 32) : State :=
  stateOf (seqOf { vecRegs t1 t2 0 0 0 0 [] with vfull := (Vector.replicate 32 true).set p false h }) id

theorem witness_VectorWordsCheckTheirOperands :
    (stateOf (seqOf { regsOf [] with vctx := false }) id).me.r.vctx = false ∧
    (emptied 7 7 1 (by decide)).me.r.vctx = true ∧
    (emptied 7 7 1 (by decide)).me.r.vfull[(emptied 7 7 1 (by decide)).vphys 1] = false ∧
    VReady (emptied 7 7 3 (by decide)) [1, 2] ∧ (emptied 7 7 3 (by decide)).me.vReady ((emptied 7 7 3 (by decide)).vphys 3) = false ∧
    VReady (vec 6 7 0 0 0 0) [1, 2, 3] ∧ (vec 6 7 0 0 0 0).vtagOf 1 ≤ 6 ∧ (vec 7 8 0 0 0 0).vtagOf 1 = 7 ∧
    (vec 7 8 0 0 0 0).vtagOf 2 ≠ 7 := by
  and_intros <;> decide +kernel

/-- R33, R58: an empty source that is checked traps EMPTY with its register; a tag outside the word's traps FORMAT. -/
theorem test_empty_and_format_traps :
    ((nextOf (exec (.vadd ⟨3, 1, 2, 0, true, false⟩) ((emptied 7 7 1 (by decide)).modSeqAt 0 0 fun q =>
      { q with r := { q.r with ttvec := 0x10040 } }))).map fun t => (t.me.r.tcause, t.me.r.tval)) = some (0x06, 33) ∧
    ((nextOf (exec (.vadd va312) ((vec 1 1 0 0 0 0).modSeqAt 0 0 fun q => { q with r := { q.r with ttvec := 0x10040 } }))).map fun t =>
      t.me.r.tcause) = some 0x09 := by decide +kernel

theorem witness_CompareWordsWritePairs : XReady (vec 7 7 0 0 0 0) [5, 6] ∧ VReady (vec 7 7 0 0 0 0) [1, 2] ∧
    (vec 7 7 0 0 0 0).vtagOf 1 = 7 ∧ (vec 4 4 0 0 0 0).vtagOf 2 = 4 ∧ VReady (vec 4 4 0 0 0 0) [1, 2] ∧ (2 : PReg).val / 2 ≠ 0 ∧
    (6 : Fin 8) ≠ 7 := by
  and_intros <;> decide +kernel

/-- R36: `xcmp.lt` of 2 and 4 fills p2 and clears p3. -/
theorem test_xcmp_lt : ((nextOf (exec (.xcmpLt ⟨0, 6, 5, 0, 2⟩) (vec 0 0 0 0 0 0))).map fun t => (t.me.r.rp 2, t.me.r.rp 3)) =
    some (BitVec.allOnes 1024, 0) := by decide +kernel

theorem witness_ConversionResults :
    VReady (vec 1 0 0 0 0 0) [1, 3] ∧ (vec 1 0 0 0 0 0).vtagOf 1 = 1 ∧ tagBits 1 = tagBits 7 ∧ DestReady (vec 1 0 0 0 0 0) 0 128 7 3 ∧
    -- vwiden from tag 3 into a pair of tag 1, vnarrow from a pair of tag 1 into tag 2
    (widenSources 1).contains 3 = true ∧ 2 = tagBits 1 / tagBits 3 ∧ (4 : Fin 32).val % 2 = 0 ∧
    VReady (vec 3 0 0 0 0 0) (1 :: groupNames 4 2) ∧ (∀ j ∈ groupNames 4 2, DestReady (vec 3 0 0 0 0 0) 0 (elemsOf 3) 1 j) ∧
    tagBits 1 = 2 * tagBits 2 ∧ VReady (vec 0 1 1 0 0 0) (4 :: groupNames 2 2) ∧ (∀ j ∈ groupNames 2 2, (vec 0 1 1 0 0 0).vtagOf j = 1) ∧
    DestReady (vec 0 1 1 0 0 0) 0 (elemsOf 2) 2 4 := by
  and_intros <;> decide +kernel

/-- R127: FP32 1.5 converts to INT32 2 under RNE and to 1 under RTZ. -/
theorem test_vcvt : ((nextOf (exec (.vcvt ⟨3, 1, 7, false, 0, false⟩) (vec 1 0 0 0x3FC00000 0 0))).map fun t => t.el 7 3 0) = some 2 ∧
    ((nextOf (exec (.vcvtRz ⟨3, 1, 7, false, 0, false⟩) (vec 1 0 0 0x3FC00000 0 0))).map fun t => t.el 7 3 0) = some 1 := by
  decide +kernel

theorem witness_ReductionResults : VReady (vec 7 0 0 0 0 0) [1, 3] ∧ (vec 12 0 7 0 0 0).vtagOf 1 = 12 ∧ VReady (vec 12 0 7 0 0 0) [1, 3] ∧
    (vec 12 0 7 0 0 0).vtagOf 3 = 7 ∧ DestReady (vec 7 0 7 0 0 0) 0 (elemsOf 7) 7 3 ∧
    VReady (vec 4 0 0 0 0 0) [1, 3] ∧ (vec 4 0 0 0 0 0).vtagOf 1 = 4 ∧ (vec 4 0 0 0 0 0).vtagOf 3 = 0 ∧
    DestReady (vec 4 0 4 0 0 0) 0 (elemsOf 4) 4 3 := by
  and_intros <;> decide +kernel

theorem test_vredsum : ((nextOf (exec (.vredsum va312) (vec 7 0 0 (packed 32 [5, 6, 0xFFFFFFFF]) 0 0))).map fun t => t.el 7 3 0) = some 10 := by
  decide +kernel

/-- Registers 1 and 3 of tag 9, the others of tag 7; x10 is 0x100. -/
def bytes : State :=
  let r := vecRegs 9 7 9 0 0 0 [(10, 0x100)]
  stateOf (seqOf { r with vtag := ((Vector.replicate 32 7).set 1 9).set 3 9, p := ((Vector.replicate 16 0).set 0 (BitVec.allOnes 1024)).set 1 3 }) id

theorem witness_PermuteSlideAndIdentifierWords : Ready1 (vec 7 7 0 0 0 0) va312 7 7 ∧ tagBits 1 = 32 ∧
    VReady (vec 1 7 0 0 0 0) [1, 2, 3] ∧ (vec 1 7 0 0 0 0).vtagOf 1 = 1 ∧ (vec 1 7 0 0 0 0).vtagOf 2 = 7 ∧
    DestReady (vec 1 7 0 0 0 0) 0 (elemsOf 1) 1 3 ∧ XReady (vec 7 7 7 0 0 0) [5, 3] ∧ VReady (vec 7 7 7 0 0 0) [2, 3] ∧
    DestReady (vec 7 7 7 0 0 0) 0 (elemsOf 7) 7 3 ∧ (vec 7 7 7 0 0 0).vtagOf 3 = 7 ∧ ((vec 7 7 7 0 0 0).rx 5).toNat ≤ 127 ∧
    ((vec 7 7 7 0 0 0).rx 5).toNat < elemsOf 7 ∧
    -- bytes taken by a group of four index registers
    elemsOf 9 / 128 = 4 ∧ VReady bytes (1 :: 3 :: groupNames 4 4) ∧ bytes.vtagOf 1 = 9 ∧ (∀ j ∈ groupNames 4 4, bytes.vtagOf j = 7) ∧
    DestReady bytes 0 (elemsOf 9) 9 3 := by
  and_intros <;> decide +kernel

theorem test_vslide_down : ((nextOf (exec (.vslideDown ⟨3, 5, 2, 0, false⟩) (vec 0 7 7 0 (packed 32 [1, 2, 3, 4]) 0))).map fun t =>
    (t.el 7 3 0, t.el 7 3 1, t.el 7 3 2)) = some (3, 4, 0) := by decide +kernel

/-- A vector memory word: v3 at x10, its offsets or stride in register 2. -/
abbrev vm310 : VM := ⟨3, 10, 2, 1, false⟩

/-- A state for vector memory words: two elements active, x10 an address, x2 a stride. -/
def vmem (t : Nat) (a : Word) : State :=
  stateOf (seqOf { vecRegs 0 7 t 0 0 0 [(10, a), (2, 8)] with p := ((Vector.replicate 16 0).set 0 (BitVec.allOnes 1024)).set 1 3 }) id

theorem witness_VectorAccessesEnterTheirQueues :
    Room (vmem 7 0x100) 1 1 ∧ (vmem 7 0x100).inRegion = false ∧ VReady (vmem 7 0x100) [3, 2] ∧ (vmem 7 0x100).vtagOf 3 = 7 ∧
    XReady (vmem 7 0x100) [10, 2] ∧ (vmem 7 0x100).vtagOf 2 = 7 ∧
    InScratchpad (vmem 7 0xFFFF8) (vmElems (vmem 7 0xFFFF8) 1 7 (fun i => 0xFFFF8 + BitVec.ofNat 64 (tagBits 7 * i / 8)) fun _ => 0) ∧
    InScratchpad (vmem 7 0xFFFF0) (vmElems (vmem 7 0xFFFF0) 1 7 (fun i => 0xFFFF0 + BitVec.ofNat 64 i * 8) fun _ => 0) ∧
    InScratchpad (vmem 9 0xFFFFE) (vmElems (vmem 9 0xFFFFE) 1 9 (fun i => 0xFFFFE + BitVec.ofNat 64 (tagBits 9 * i / 8)) fun _ => 0) ∧
    -- bytes indexed by a group of four registers
    VReady bytes (3 :: groupNames 4 4) ∧ (∀ j ∈ groupNames 4 4, bytes.vtagOf j = 7) ∧
    InScratchpad bytes (vmElems bytes 1 9 (fun i => 0x100 + ofSigned ((elemBytes 9 : Nat) * sextN 32 (bytes.groupElem 4 4 7 i))) fun _ => 0) := by
  and_intros <;> decide +kernel

theorem witness_RowProbeAndAppendWords :
    Room (vmem 7 0x80) 1 1 ∧ (vmem 7 0x80).inRegion = false ∧ VReady (vmem 7 0x80) [3, 2] ∧ XReady (vmem 7 0x80) [10] ∧
    (vmem 7 0x80).vtagOf 3 = 7 ∧ ((vmem 7 0x3FF).rx 10).toNat = 128 * 7 + 127 ∧
    (stateOf (vmem 7 0x80).me fun c => { c with tcfg := Vector.replicate 8 ⟨7, 128, 128⟩ }).myCore.tcfg[7].tag = 7 ∧
    (vmem 7 0x80).actives 1 (elemsOf 7) ≠ [] ∧ poisoned (vmem 7 0x3FF) (.win 0 (0x100000 + 0x10000 * 7 + 512 * 127)) 512 = false ∧
    (stateOf (seqOf (regsOf [])) fun c => { c with tiles := 2 }).myCore.tiles ≤ 2 ∧ (vmem 7 0x82).myCore.tcfg[1].rows ≤ 2 ∧
    parkCheck (vmem 7 0x100) ((vmem 7 0x100).rx 10) = none ∧ poisoned (vmem 7 0x100) (.win 0 (parkOff 0x100)) 512 = false ∧
    rowTagSeen (stateOf (vmem 7 0x100).me fun c => { c with park := [(parkRow (parkOff 0x100), 7)] }) 0 (parkOff 0x100) true [] = 7 ∧
    0x100040 = 0x40 + 1 * 2 ^ 20 ∧ 0x40 % 64 = 0 ∧ 0x40 + 8 * 2 ^ 1 ≤ 2 ^ 20 ∧ (vmem 7 0x40).poison = [] ∧
    (stateOf (seqOf { vecRegs 0 7 7 0 0 0 [(10, 0x40)] with p := Vector.replicate 16 0 }) id).actives 1 128 = [] ∧
    spadWaits (vmem 7 0x40) 0x40 64 = none ∧ poisoned (vmem 7 0x40) (.win 0 0x40) 64 = false := by
  and_intros <;> decide +kernel


/-! ### Appends, elements and frames -/

/-- A bin header at 0x40: one bin of 4 records at 0x100, shift 8, tail 3; v2 the indexes, v3 the values, elements 0 and 1 active. -/
def binned : State :=
  let r := vecRegs 0 7 7 0 (packed 32 [9, 8]) (packed 32 [1, 2]) [(10, 0x40)]
  let s := stateOf (seqOf { r with p := r.p.set 1 3 }) id
  let m := memSet s.mem (winKey 0 0x40) (leBytes 64 (0x100 + 4 * 2 ^ 64 + 8 * 2 ^ 96 + 2 ^ 104))
  { s with mem := memSet m (winKey 0 0x80) (leBytes 4 3) }

/-- The header passes its checks: one record is below cap. -/
theorem witness_RowProbeAndAppendWords_append :
    (match planAppend binned 0 1 false false 0x40 (ownSpad binned 0x40 64) (appendPairs binned vm310) [] [] with
      | .go _ recs => decide (InScratchpad binned recs) && recs.length == 2
      | .trap .. => false) = true := by decide +kernel

/-- An element of an entry on scratchpad word 0xFFFFC. -/
def elementAt (op : EntryOp) : State :=
  stateOf { seqOf (vecRegs 0 0 7 0 0 0 []) with
    queue := [{ op := op, elems := [{ idx := 127, addr := 0xFFFFC, n := 4, data := 5, loc := .win 0 0xFFFFC }] }] } id

theorem witness_VectorElementsPerform :
    ((elementAt (.vload 3 7 true false 0)).seqAt 0 0).queue.length = 1 ∧ winOf 0xFFFFC = some .spad ∧ 4 = elemBytes 7 ∧
    (elementAt (.vload 3 7 true false 0)).replaying 0 = false ∧ (elementAt (.vload 3 7 true false 0)).poison = [] ∧
    canPerform (elementAt (.vload 3 7 true false 0)) 0 0 0 0 = true ∧ spillAt (elementAt (.vload 3 7 true false 0)) 0 0xFFFFC 4 = false ∧
    (elementAt (.vload 3 7 true false 0)).Inv ∧ canPerform (elementAt .vstore) 0 0 0 0 = true ∧ 127 < elemsOf 7 ∧
    0xFFFFC + 4 ≤ 0x100000 := by and_intros <;> decide +kernel

theorem test_vector_store_element : ((nextOf (exec (.accessPerform 0 0 0 0 ⟨false, [], []⟩) (elementAt .vstore))).map fun t =>
    memNat t.mem (winKey 0 0xFFFFC) 4) = some 5 := by decide +kernel

theorem witness_WordsKeepOtherXRegisters : IsWordOf (.shpRd 5 0) ∧ (nextOf (exec (.shpRd 5 0) (stateX []))).isSome = true ∧
    xDest (.shpRd 5 0) ≠ some 6 := by and_intros <;> decide +kernel

theorem witness_WordsKeepOtherFloatState : IsWordOf (.scalarFpOp (.mvWX 1 5)) ∧
    (nextOf (exec (.scalarFpOp (.mvWX 1 5)) (stateX []))).isSome = true ∧ fDest (.scalarFpOp (.mvWX 1 5)) ≠ some 2 ∧
    isCsr (.pand 8 8 6) = false ∧ raisesFlags (.pand 8 8 6) = false ∧ raisesFlags (.vfadd va312) = true := by
  and_intros <;> decide +kernel

theorem witness_WordsKeepOtherVectorState : IsWordOf (.vadd va312) ∧ NoSnapshot (.loopEnd (-16)) (stateX []) ∧
    (nextOf (exec (.vadd va312) (vec 7 7 0 0 0 0))).isSome = true ∧
    (∀ j ∈ vDests (.vadd va312) (vec 7 7 0 0 0 0), (vec 7 7 0 0 0 0).vphys j ≠ 4) :=
  ⟨by decide +kernel, by show (stateX []).myCore.prof = none; decide +kernel, by decide +kernel, by decide +kernel⟩

theorem witness_WordsKeepOtherSpecialRegisters : IsWordOf .ecall ∧
    (nextOf (exec .ecall (stateOf (seqOf handled) id))).isSome = true ∧ isLoop .ecall = false ∧ isAlloc .ecall = false ∧
    isStream .ecall = false := by and_intros <;> decide +kernel

theorem witness_WordsLeaveMemoryAtIssue : IsWordOf (.scalarStore .sd 5 10 0) ∧
    (nextOf (exec (.scalarStore .sd 5 10 0) (stateX [(10, 0x10100)]))).isSome = true := by and_intros <;> decide +kernel

/-! ### Windows, mailboxes and flags -/

/-- A store of n bytes to an aperture offset of core 0, alone in its queue. -/
def storeToWindow (off n data : Nat) (f : Core → Core) : State :=
  stateOf { seqOf (regsOf []) with queue := [{ op := .store, va := true, acked := false, elems :=
    [{ addr := BitVec.ofNat 64 (0x3FFFF00000000 + off), n := n, data := data, loc := .win 0 off }] }] } f

/-- That store as the statement names it. -/
def windowStore (off n data : Nat) : Elem :=
  { addr := BitVec.ofNat 64 (0x3FFFF00000000 + off), n := n, data := data, loc := .win 0 off }

theorem witness_WindowEventsTakeEffect_places :
    winOf 0x1D8000 = some .mbox ∧ winOf 0x1D90FF = some .tok ∧ winOf 0x1DA008 = some .flag ∧ winOf 0x200000 = some .iacc ∧
    winOf 0x3FFFFC = some .facc ∧ winOf 0x1D0000 = some .vreg ∧ spillAt (storeToWindow 0x200000 4 1 id) 0 0 4 = false ∧
    (storeToWindow 0x200000 4 1 id).Inv ∧ (0x1DA008 - 0x1DA000) % 16 = 8 ∧ (0x1DA010 - 0x1DA000) % 16 ≠ 8 ∧
    0x3FFFFC % 4 = 0 := by
  and_intros <;> decide +kernel

theorem witness_WindowEventsTakeEffect_alone :
    StoresToWindow (storeToWindow 0x1D8000 8 5 id) 0 0 0 { op := .store, va := true, acked := false, elems := [windowStore 0x1D8000 8 5] }
      (windowStore 0x1D8000 8 5) 0 0x1D8000 ∧
    StoresToWindow (storeToWindow 0x1D90FF 1 1 id) 0 0 0 { op := .store, va := true, acked := false, elems := [windowStore 0x1D90FF 1 1] }
      (windowStore 0x1D90FF 1 1) 0 0x1D90FF ∧
    StoresToWindow (storeToWindow 0x1DA008 8 5 id) 0 0 0 { op := .store, va := true, acked := false, elems := [windowStore 0x1DA008 8 5] }
      (windowStore 0x1DA008 8 5) 0 0x1DA008 ∧
    StoresToWindow (storeToWindow 0x200000 4 5 id) 0 0 0 { op := .store, va := true, acked := false, elems := [windowStore 0x200000 4 5] }
      (windowStore 0x200000 4 5) 0 0x200000 ∧
    StoresToWindow (storeToWindow 0x1D0000 4 5 id) 0 0 0 { op := .store, va := true, acked := false, elems := [windowStore 0x1D0000 4 5] }
      (windowStore 0x1D0000 4 5) 0 0x1D0000 := by and_intros <;> decide +kernel

/-- A flag that has reached its count, and a claimed message. -/
def flagged : State := stateOf { seqOf (regsOf []) with queue := [{ op := .mboxRecv 5 2 }] } fun c =>
  { c with flags := [(3, { expected := 1, arrived := 1, pending := true, crossed := true })],
           mbox := (Vector.replicate 8 {}).set 2 ⟨[7], [0], []⟩ }

theorem witness_WindowEventsTakeEffect_events :
    (tabGet {} (flagged.core 0).flags 3).pending = true ∧ (tabGet {} (flagged.core 0).flags 3).crossed = true ∧ (flagged.core 0).arms = [] ∧ flagged.replaying 0 = false ∧
    (flagged.core 0).mbox[2] = ⟨7 :: [], 0 :: [], []⟩ ∧ claimReady flagged 0 0 2 = true ∧ ((flagged.seqAt 0 0).queue.find? fun y => y.claims 2) = some { op := .mboxRecv 5 2 } := by
  and_intros <;> decide +kernel

theorem test_mailbox_claim_served : ((nextOf (exec (.mboxClaimServed 0 2) flagged)).map fun t => (t.rx 5, (t.core 0).mbox[2])) =
    some (7, ⟨[], [], []⟩) := by decide +kernel

/-! ### Commands -/

/-- A command word: opcode, variant, lane 3, with no token, footprint or status. -/
def wordOf3 (op variant l3 : Nat) : Nat :=
  op + variant * 2 ^ 8 + 0x6000000060000000 * 2 ^ 64 + 0x0000000060000000 * 2 ^ 128 + l3 * 2 ^ 192

/-- The `cmd.fence` of R47's worked example. -/
def fence47 : Nat := 0x02090000060500C0 + 0x6000000060000000 * 2 ^ 64 + 0x800003F060000000 * 2 ^ 128

/-- A published command with this word. -/
def cmdOf (word : Option Nat) (st : Option Status) : Cmd :=
  { num := 1, slot := 0x1000, by_ := 0, asid := 1, sh := (Vector.replicate 32 0).set 1 1, ly := Vector.replicate 16 0,
    tcfg := Vector.replicate 8 ⟨3, 128, 256⟩, word := word.map (BitVec.ofNat 256), fired := st.isSome, st := st }

/-- Queue 0 of core 0 with that command at its fetch point, the tokens 5 and 6 set, the lease held and a Ride token. -/
def commanded (kind : Nat) (c : Cmd) (error : Bool) : State :=
  let s := stateOf (seqOf (regsOf [])) fun k =>
    { k with queues := (Vector.replicate 16 {}).set 0 { kind := kind, n := 4, base := 0x1000, last := 1, cmds := [c] },
             tcfg := Vector.replicate 8 ⟨3, 128, 256⟩ }
  { s with clusters := [(0, { tokens := [(5, ⟨true, error⟩), (6, ⟨true, false⟩)], holder := some (0, 0), ride := true })] }

/-- R47's worked example decodes into its fields, and completes with its token fired and its status written. -/
theorem test_fence_of_r47 : cwWaits fence47 = [5, 6, 0, 0] ∧ cwSignal fence47 = 9 ∧ cwEprop fence47 = true ∧
    cwStatus fence47 = 0x800003F0 ∧ malformed 2 false fence47 = false ∧
    ((nextOf (exec (.cmdFence 0 0) (commanded 2 (cmdOf (some fence47) none) false))).bind fun t =>
      ((nextOf (exec (.commandCompletion 0 0) t)).map fun u =>
        (tabGet {} (u.cluster 0).tokens 9, ((u.core 0).queue 0).comp, memNat u.mem (winKey 0 0x3F00) 16))) =
      some (⟨true, false⟩, 1, 2 ^ 64) := by decide +kernel

/-- A publication of one command by `cmd.put` from scratchpad 0x40. -/
def publishing : State :=
  let e : Entry :=
    { op := .publish 0 1 1 (some 0x40) (Vector.replicate 32 0) (Vector.replicate 16 0) (Vector.replicate 8 ⟨3, 128, 256⟩), elems := [{ loc := .win 0 0x1000 }] }
  let s := stateOf { seqOf (regsOf []) with queue := [e] } fun c =>
    { c with queues := (Vector.replicate 16 {}).set 0 { kind := 2, n := 4, base := 0x1000, last := 1 } }
  { s with mem := memSet s.mem (winKey 0 0x40) (leBytes 32 fence47) }

theorem witness_CommandsArePublishedFetchedAndCompleted :
    canPerform publishing 0 0 0 0 = true ∧ ((publishing.core 0).queue 0).cmds.length + 1 + 1 ≤ ((publishing.core 0).queue 0).n ∧
    1 = ((publishing.core 0).queue 0).comp + ((publishing.core 0).queue 0).cmds.length + 1 ∧ publishing.Inv ∧ spillAt publishing 0 0x40 32 = false ∧
    (headCmd (((commanded 2 (cmdOf none none) false).core 0).queue 0)).map (·.word) = some none ∧
    poisoned (commanded 2 (cmdOf none none) false) (.win 0 0x1000) 32 = false ∧ poisoned publishing (.win 0 0x40) 32 = false ∧
    (commanded 2 (cmdOf (some fence47) (some stOk)) false).owes 0 (0, 1) = false ∧
    (((commanded 2 (cmdOf (some fence47) (some stOk)) false).core 0).queue 0).cmds = [cmdOf (some fence47) (some stOk)] ∧
    bitOf (cwStatus fence47) 31 = true ∧ cwSignal fence47 ≠ 0 ∧ cwRsig fence47 = false ∧
    bitOf (cwStatus (wordOf3 0xc2 0 0)) 31 = false ∧
    { trial with remoteSignals := [(0, 9, true)] : State }.remoteSignals[0]? = some (0, 9, true) := by
  and_intros <;> decide +kernel

/-- Whether an engine command of the table fires at its queue's fetch point, and with which answer of its checks. -/
def firesAs (i : Instr) (s : State) (c : Cmd) : Option (Bool × Option Nat) :=
  match commandRow i s, c.word with
  | some r, some w =>
    if r.ready && mayFire s r.g r.q [r.op] (r.use c w.toNat) == some (c, w.toNat) then
      some (r.upstream s w.toNat, (firstFail (r.run c w.toNat).checks).map (·.code))
    else none
  | _, _ => none

theorem fires_of_firesAs (i : Instr) (s : State) (c : Cmd) (x : Bool × Option Nat) (h : firesAs i s c = some x) :
    ∃ r w, commandRow i s = some r ∧ r.Fires s c w ∧ r.upstream s w = x.1 ∧ (firstFail (r.run c w).checks).map (·.code) = x.2 := by
  unfold firesAs at h
  split at h
  · next r w hr hw =>
    split at h
    · next hc =>
      obtain ⟨h1, h2⟩ := Bool.and_eq_true_iff.mp hc
      cases h
      exact ⟨r, w.toNat, hr, ⟨h1, eq_of_beq h2⟩, rfl, rfl⟩
    · cases h
  · cases h

/-- A footprint: window, base and length in units (R45). -/
def fp (window base len : Nat) : Nat := 2 ^ 31 + window * 2 ^ 29 + len * 2 ^ 14 + base

/-- A command word with footprints. -/
def wordFp (op variant r0 r1 w l3 : Nat) : Nat :=
  op + variant * 2 ^ 8 + r0 * 2 ^ 64 + r1 * 2 ^ 96 + w * 2 ^ 128 + 0 * 2 ^ 160 + l3 * 2 ^ 192

/-- M, N and K from shape register 1, A tile 0, B tile 1, accumulator 0; for `mma.bs`, scales in tile 2. -/
def l3mnk : Nat := 1 * 2 ^ 3 + 1 * 2 ^ 8 + 1 * 2 ^ 13 + 1 * 2 ^ 18 + 2 * 2 ^ 23

/-- The same command in a core whose tiles have these tags. -/
def commandedTags (t0 t1 t2 : Nat) (c : Cmd) : State :=
  let tc : Vector TileCfg 8 := ((Vector.replicate 8 ⟨t0, 128, 256⟩).set 1 ⟨t1, 128, 256⟩).set 2 ⟨t2, 128, 128⟩
  (commanded 1 c false).modCore 0 fun k => { k with tcfg := tc }

theorem witness_MatrixCommandsWriteTheirAccumulator :
    firesAs (.mma 0 0) (commandedTags 3 3 1 (cmdOf (some (wordFp 0x00 0 (fp 1 0 8) (fp 1 1024 8) (fp 2 0 10) (l3mnk - 2 * 2 ^ 23))) none))
      (cmdOf (some (wordFp 0x00 0 (fp 1 0 8) (fp 1 1024 8) (fp 2 0 10) (l3mnk - 2 * 2 ^ 23))) none) = some (false, none) ∧
    firesAs (.mmaBs 0 0) (commandedTags 13 13 1 (cmdOf (some (wordFp 0x01 0 (fp 1 0 1032) (fp 1 2048 8) (fp 2 0 10) l3mnk)) none))
      (cmdOf (some (wordFp 0x01 0 (fp 1 0 1032) (fp 1 2048 8) (fp 2 0 10) l3mnk)) none) = some (false, none) ∧
    firesAs (.accZero 0 0) (commandedTags 3 3 1 (cmdOf (some (wordFp 0x08 0 0x60000000 0x60000000 (fp 2 0 1280) 0)) none))
      (cmdOf (some (wordFp 0x08 0 0x60000000 0x60000000 (fp 2 0 1280) 0)) none) = some (false, none) ∧
    (commandedTags 3 3 1 (cmdOf (some (wordFp 0x08 0 0x60000000 0x60000000 (fp 2 0 1280) 0)) none)).Inv ∧
    (commandedTags 3 3 1 (cmdOf (some (wordFp 0x08 0 0x60000000 0x60000000 (fp 2 0 1280) 0)) none)).upset = false ∧
    mxM (cmdOf none none) (wordFp 0 0 0 0 0 l3mnk) = 1 ∧ mxN (cmdOf none none) (wordFp 0 0 0 0 0 l3mnk) = 1 ∧
    mxK (cmdOf none none) (wordFp 0 0 0 0 0 l3mnk) = 1 := by and_intros <;> decide +kernel

/-- `acc.rd` of one element of accumulator 0 as FP32 into the scratchpad at 0x200. -/
def rdWord : Nat := wordFp 0x09 0 (fp 2 0 10) 0x60000000 (fp 0 8 1) (1 * 2 ^ 8 + 1 * 2 ^ 13 + 1 * 2 ^ 23 + 8 * 2 ^ 27) + 2 ^ 59
/-- `acc.epi` of that element with the block at 0x300. -/
def epiWord : Nat := wordFp 0x0a 0 (fp 2 0 10) 0x60000000 (fp 0 16 2) (1 * 2 ^ 8 + 1 * 2 ^ 13 + 1 * 2 ^ 18 + 12 * 2 ^ 23) + 2 ^ 60
/-- Accumulator 0 holds 1.0 at its first place; an epilogue block at 0x300 scales by 1 into FP32 at 0x440, its row record at 0x400. -/
def reading (w : Nat) : State :=
  let s := commanded 1 (cmdOf (some w) none) false
  let m := memSet s.mem (winKey 0 0x180000) (leBytes 5 0x3F80000000)
  { s with mem := memSet m (winKey 0 0x300) (leBytes 64 (0x3F800000 + 0x3F800000 * 2 ^ 32 + 16 * 2 ^ 96 + 17 * 2 ^ 128 + 1 * 2 ^ 144)) }

theorem witness_MatrixCommandsWriteTheirAccumulator_edge :
    firesAs (.accRd 0 0) (reading rdWord) (cmdOf (some rdWord) none) = some (false, none) ∧ (reading rdWord).Inv ∧ PlainReads (reading rdWord) 0 ∧
    firesAs (.accEpi 0 0) (reading epiWord) (cmdOf (some epiWord) none) = some (false, none) ∧ (reading epiWord).Inv ∧
    PlainReads (reading epiWord) 0 ∧ bitOf epiWord 60 = true ∧
    (epiBlock (memNat (reading epiWord).mem (winKey 0 0x300) 64)).rows + 32 ≤ (epiBlock (memNat (reading epiWord).mem (winKey 0 0x300) 64)).dst := by
  and_intros <;> decide +kernel

/-- R161: 1.0 in an accumulator reads as the FP32 1.0. -/
theorem test_acc_rd : ((nextOf (exec (.accRd 0 0) (reading rdWord))).map fun t => memNat t.mem (winKey 0 0x200) 4) = some 0x3F800000 := by
  decide +kernel

/-- The fence of R47's worked example goes upstream with token 5 in error; `acc.zero` without its footprint is turned away; a
plain `sig` has its effect. -/
theorem witness_CommandsRunTheirEffect :
    firesAs (.cmdFence 0 0) (commanded 2 (cmdOf (some fence47) none) true) (cmdOf (some fence47) none) = some (true, none) ∧
    firesAs (.accZero 0 0) (commanded 1 (cmdOf (some (wordOf3 0x08 0 0)) none) false) (cmdOf (some (wordOf3 0x08 0 0)) none) =
      some (false, some stUndeclared) ∧
    firesAs (.sig 0 0) (commanded 2 (cmdOf (some (wordOf3 0xc2 0 0)) none) false) (cmdOf (some (wordOf3 0xc2 0 0)) none) =
      some (false, none) := by and_intros <;> decide +kernel

/-- Every engine command of the table fires from the fetch point of its queue. -/
theorem witness_CommandsRunTheirEffect_each :
    ([(.mma 0 0, 0x00, 0), (.mmaBs 0 0, 0x01, 0), (.mmaSeg 0 0, 0x02, 0), (.mmaGrp 0 0, 0x03, 0), (.smma 0 0 ⟨[], []⟩, 0x04, 0),
      (.accZero 0 0, 0x08, 0), (.accRd 0 0, 0x09, 0), (.accEpi 0 0, 0x0a, 0), (.copy 0 0 ⟨[], []⟩, 0x20, 0),
      (.gather 0 0 ⟨[], []⟩, 0x21, 0), (.scatterBin 0 0 ⟨[], []⟩, 0x22, 0), (.binReplay 0 0 ⟨[], []⟩, 0x23, 0),
      (.halo 0 0 ⟨[], []⟩, 0x24, 0), (.bcast 0 0 ⟨[], []⟩, 0x25, 0), (.patLoad 0 0 true ⟨[], []⟩, 0x40, 0), (.patDrop 0 0, 0x41, 0),
      (.collEnd 0 0, 0x6f, 0), (.rselHistCoarse 0 0 ⟨[], []⟩, 0x80, 0), (.rselHistFull 0 0 ⟨[], []⟩, 0x80, 1),
      (.rselCut 0 0 ⟨[], []⟩, 0x81, 0), (.sampDraw 0 0 ⟨[], []⟩, 0x82, 0), (.sampDrawGum 0 0, 0x82, 1),
      (.specAccept 0 0 ⟨[], []⟩, 0x83, 0), (.pdaStep 0 0 ⟨[], []⟩, 0xa0, 0), (.pdaAdv 0 0 ⟨[], []⟩, 0xa1, 0), (.pdaFork 0 0, 0xa2, 0),
      (.pdaCommit 0 0, 0xa3, 0), (.pdaRoll 0 0, 0xa4, 0), (.pdaSave 0 0, 0xa5, 0), (.pdaLoad 0 0 ⟨[], []⟩, 0xa6, 0), (.cmdFence 0 0, 0xc0, 0),
      (.chainLink 0 0, 0xc1, 0), (.sig 0 0, 0xc2, 0)] : List (Instr × Nat × Nat)).all (fun x =>
        (firesAs x.1 (commanded 1 (cmdOf (some (wordOf3 x.2.1 x.2.2 0)) none) false) (cmdOf (some (wordOf3 x.2.1 x.2.2 0)) none)).isSome) =
      true := by decide +kernel

/-- M, N and K one, tiles 0 and 1, the structure of layout record 4. -/
def smmaWord : Nat := wordFp 0x04 0 (fp 1 0 8) (fp 1 1024 8) (fp 2 0 10) (l3mnk + 2 * 2 ^ 23)

/-- An `smma` whose structure is one FP16 element at scratchpad 0x100. -/
def smmaCmd (program : Option (List (List Nat))) : Cmd :=
  { cmdOf (some smmaWord) none with
    ly := (Vector.replicate 16 0).set 4 (BitVec.ofNat 128 (0x100 * 2 ^ 64 + 3 * 2 ^ 60 + 2 ^ 56 + 2 ^ 39 + 2 ^ 34)),
    fired := program.isSome, program := program }

/-- That command with its structure held in the Coppice, compiling or complete, with the stamp 5. -/
def structured (compiling : Bool) : State :=
  let s := commandedTags 3 3 1 (smmaCmd none)
  let l := layOf (smmaCmd none) 4
  s.modCluster 0 fun c => { c with coppice := [⟨1, l.idBase s 0, l.digest, false, 1, compiling, [], 0, 5, 0, [[0]]⟩] }

theorem witness_CommandsRunTheirEffect_smma :
    firesAs (.smma 0 0 ⟨[], []⟩) (structured false) (smmaCmd none) = some (false, none) ∧
    -- it waits for its compilation
    mayFire (structured true) 0 0 [0x04] (smmaUse (structured true) 0 0 ⟨[], []⟩) = some (smmaCmd none, smmaWord) ∧
    smmaWaits (structured true) 0 ⟨[], []⟩ (smmaCmd none) smmaWord = some 5 ∧
    -- it goes on with its program
    (commandedTags 3 3 1 (smmaCmd (some [[0]]))).halted = false ∧
    waitingSmma (((commandedTags 3 3 1 (smmaCmd (some [[0]]))).core 0).queue 0) = some (smmaCmd (some [[0]])) ∧
    productPoison (commandedTags 3 3 1 (smmaCmd (some [[0]]))) 0 (useMNK (smmaCmd (some [[0]])) smmaWord) (mxZc smmaWord)
      (mmaRanges (smmaCmd (some [[0]])) smmaWord) = none := by and_intros <;> decide +kernel

/-! ### Collectives and tile tables -/

/-- Layout records 0 to 3: FP32 elements of the scratchpad, one at 0x100, one at 0x200, two at 0x100, two at 0x200. -/
def collLys : Vector (BitVec 128) 16 :=
  let rec_ := fun (base ext : Nat) => BitVec.ofNat 128 (base * 2 ^ 64 + 2 ^ 60 + ext * 2 ^ 34)
  (((Vector.replicate 16 0).set 0 (rec_ 0x100 1)).set 1 (rec_ 0x200 1)).set 2 (rec_ 0x100 2) |>.set 3 (rec_ 0x200 2)

/-- A command with those records, shape register 1 one and shape register 2 two. -/
def collCmd (w : Nat) : Cmd := { cmdOf (some w) none with ly := collLys, sh := ((Vector.replicate 32 0).set 1 1).set 2 2 }

/-- An operation on identifier 1: its opcode, count register and layouts. -/
def opWord (op n dest from_ : Nat) : Nat :=
  wordFp op 0 (fp 0 4 1) 0x60000000 (fp 0 8 2) (2 ^ 40 + 9 * 2 ^ 26 + n * 2 ^ 8 + dest * 2 ^ 4 + from_)

/-- A set-up of identifier 1 for packages 0 and 1. -/
def setupWord : Nat := wordFp 0x60 0 0x60000000 0x60000000 0x60000000 (2 ^ 40 + 1 * 2 ^ 24 + 1 * 2 ^ 19 + 1 * 2 ^ 9)

/-- The collective of that set-up. -/
def coll1 (stage : CollStage) (fresh : Bool) (op : Option CollOp) : Coll :=
  let one := stage == .agreed || stage == .ready
  { g := 0, q := 0, num := 1, base := 0, lg := 1, tmax := 1, cs := 1, stage := stage, fresh := fresh,
    edges := if one then [⟨3, 0, 5, 1⟩] else [], trees := if one then [[(0, 1)]] else [], most := if one then 1 else 0, op := op }

/-- A member of it: the package, the command at the fetch point, the collective. -/
def collective (pkg : Nat) (w : Nat) (l : List Coll) : State :=
  { commanded 5 (collCmd w) false with
    pkgid := pkg, peers := [1 - pkg], links := [(3, { state := 2, peer := 1, plink := 5 })], colls := l.map fun c => (1, c) }

/-- The peer's set-up, and its operation. -/
def peerSetup : PeerCommand := ⟨1, 0x60, 1, 0, 1, 1, 1, 0, 0, 0, 0, []⟩
def peerOp : PeerCommand := ⟨1, 0x61, 1, 0, 1, 1, 1, 0, 1, 1, 1, []⟩

theorem witness_CollectivesAreSetUpAndMatched_setup :
    mayFire (collective 0 setupWord []) 0 0 [0x60] .neither = some (collCmd setupWord, setupWord) ∧
    (cwEprop setupWord && tokensError ((collective 0 setupWord []).cluster (clusterOfCore 0)) setupWord) = false ∧
    setupCheck (collective 0 setupWord []) setupWord = none ∧
    collOpAt (collective 0 setupWord [coll1 .published false none]) 0 0 = none ∧
    endedStatus (coll1 .published false none) [peerSetup] = none ∧
    coversGroup (collective 0 setupWord [coll1 .published false none]) (coll1 .published false none) [peerSetup] = true ∧
    [peerSetup].all (setupAgrees 1 (coll1 .published false none)) = true := by and_intros <;> decide +kernel

theorem witness_CollectivesAreSetUpAndMatched_agreement :
    edgesAgree (collective 0 setupWord [coll1 .matched false none]) (coll1 .matched false none) [⟨3, 0, 5, 1⟩] = true ∧
    deriveTrees 2 1 [⟨3, 0, 5, 1⟩] ≠ [] ∧ (coll1 .ready false none).fresh = false ∧
    (∀ m < 2, reserveUnits (coll1 .agreed true none).trees 1 m ≤ clearingUnits) ∧
    ((collective 0 setupWord [coll1 .agreed true none]).colls.map fun e => e.2.reserved).sum / 64 +
      reserveUnits (coll1 .agreed true none).trees 1 0 ≤ clearingUnits ∧
    ((collective 0 setupWord [coll1 .agreed true none]).colls.any fun e => e.1 < 1 && e.2.stage == .agreed) = false := by
  and_intros <;> decide +kernel

theorem witness_CollectivesAreSetUpAndMatched_match :
    collOpAt (collective 0 (opWord 0x61 1 1 0) [coll1 .ready true (some ⟨0, 0, 1, false, [], 0⟩)]) 0 0 =
      some (1, coll1 .ready true (some ⟨0, 0, 1, false, [], 0⟩), ⟨0, 0, 1, false, [], 0⟩) ∧
    cmdAt (collective 0 (opWord 0x61 1 1 0) []) 0 0 1 = some (collCmd (opWord 0x61 1 1 0)) ∧
    opAgrees (collCmd (opWord 0x61 1 1 0)) (opWord 0x61 1 1 0) 1 peerOp = true ∧
    0 < chunkCount 0x61 (clN (collCmd (opWord 0x61 1 1 0)) (opWord 0x61 1 1 0)) 2 1
      (layOf (collCmd (opWord 0x61 1 1 0)) (mvFrom (opWord 0x61 1 1 0))) := by and_intros <;> decide +kernel

/-- Each operation passes its checks: counts 1, 2, 1 and 1 in a group of two. -/
theorem witness_CollectiveOperationsMoveChunks_start :
    ([(0x61, 1, 1, 0), (0x62, 2, 1, 2), (0x63, 1, 3, 0), (0x64, 1, 3, 2)] : List (Nat × Nat × Nat × Nat)).all (fun x =>
      let w := opWord x.1 x.2.1 x.2.2.1 x.2.2.2
      let s := collective 0 w [coll1 .ready true none]
      mayFire s 0 0 [x.1] .neither == some (collCmd w, w) && (Coll.absent s (coll1 .ready true none)).isNone &&
        findColl s 1 == some (coll1 .ready true none) && clId w == 1 &&
        (collCheck s 0 (collCmd w) w).isNone) = true := by decide +kernel

/-- An operation of one chunk in a state of its life. -/
def inFlight (k : Chunk) : CollOp := ⟨0, 0, 1, true, [k], 0⟩

/-- The operation of `opWord 0x61 1 1 0` in flight with one chunk, at a member. -/
def moving (pkg : Nat) (k : Chunk) : State := collective pkg (opWord 0x61 1 1 0) [coll1 .ready true (some (inFlight k))]

theorem witness_CollectiveOperationsMoveChunks_sweep :
    -- a chunk at the root with the child's value in
    collOpAt (moving 0 {}) 0 0 = some (1, coll1 .ready true (some (inFlight {})), inFlight {}) ∧
    cmdAt (moving 0 {}) 0 0 1 = some (collCmd (opWord 0x61 1 1 0)) ∧ (coll1 .ready true (some (inFlight {}))).trees ≠ [] ∧
    (coll1 .ready true none).inTurn (inFlight {}) 0 0 3 = true ∧ (coll1 .ready true none).inTurn (inFlight {}) 0 0 1 = true ∧
    (chunkIdx 0x61 1 2 1 (layOf (collCmd (opWord 0x61 1 1 0)) 0) 0).length = 1 ∧
    kidsFit ((coll1 .ready true none).tree 0) 2 0 1 0 true [[0x40000000]] = true ∧ (coll1 .ready true none).twoSlots 0 0 = true ∧
    ({ coll1 .ready true none with reserved := 192 } : Coll).twoSlots 0 0 = false ∧
    (({} : Chunk).arriveAll true true 0 [] [[0x40000000]]).1.got = (childrenOf ((coll1 .ready true none).tree 0) 0).length ∧
    (({} : Chunk).arriveAll false true 0 [] [[0x40000000]]).1.got = (childrenOf ((coll1 .ready true none).tree 0) 0).length ∧
    -- and with none in yet
    (({} : Chunk).arriveAll false true 0 [] []).1.got < (childrenOf ((coll1 .ready true none).tree 0) 0).length ∧
    (ownChunk (moving 0 {}) 0 (collCmd (opWord 0x61 1 1 0)) (opWord 0x61 1 1 0) (coll1 .ready true (some (inFlight {}))) ⟨[], []⟩ 0).stop =
      none ∧
    -- the same at the other member, a leaf, which has a parent
    Coll.me (moving 1 {}) (coll1 .ready true none) = 1 ∧ kidsFit ((coll1 .ready true none).tree 0) 2 1 1 0 true [] = true ∧
    parentOf ((coll1 .ready true none).tree 0) 1 = some 0 := by and_intros <;> decide +kernel

/-- The writes of a chunk of one word at that member. -/
def chunkWord : List (Place × Nat) := chunkWrites (moving 1 { st := 1 }) 0 (collCmd (opWord 0x61 1 1 0)) (opWord 0x61 1 1 0) [0] [7]

/-- What they come to. -/
def chunkWritten : WriteResult :=
  writePlaces (moving 1 { st := 1 }) 0 3 1 (layOf (collCmd (opWord 0x61 1 1 0)) (mvTo (opWord 0x61 1 1 0))).win ⟨[], []⟩ chunkWord

/-- Element i of a destination of one word is written without a stop, and the chunk is the last. -/
theorem witness_CollectiveOperationsMoveChunks_distribute :
    -- the result at a member
    Coll.me (moving 1 { st := 1 }) (coll1 .ready true none) ≠ 0 ∧ 0 < (coll1 .ready true none).most ∧
    (coll1 .ready true none).inTurn (inFlight { st := 1 }) 0 0 3 = true ∧ chunkWord.length = 1 ∧ chunkWritten.stop = none ∧
    chunkWritten.piecewise (chunkWord.map (·.1)) = true ∧ chunkWritten.locs.length = 1 ∧
    ((inFlight { st := 1 }).setChunk 0 { st := 3 }).chunks.all (fun y => y.st == 3) = true ∧
    cmdAt chunkWritten.s 0 0 1 = some (collCmd (opWord 0x61 1 1 0)) ∧
    -- at the root, of the value formed there, with a chunk left
    Coll.me (moving 0 { st := 2, val := [7] }) (coll1 .ready true none) = 0 ∧
    (coll1 .ready true none).inTurn (inFlight { st := 2, val := [7] }) 0 0 3 = true ∧
    ((⟨0, 0, 1, true, [{ st := 2, val := [7] }, {}], 0⟩ : CollOp).setChunk 0 { st := 3 }).chunks.all (fun y => y.st == 3) = false := by
  and_intros <;> decide +kernel

/-- A chunk of which two words, and one of which one word, is still to be written. -/
def landing (l : List (Loc × List Byte)) : Chunk := { st := 2, val := [7], held := l }

/-- R272: further elements of a result are written; the last one ends the chunk whatever the number that a free value picks. -/
theorem witness_CollectiveOperationsMoveChunks_land :
    ([[(.win 0 0x200, [1]), (.win 0 0x204, [2])], [(.win 0 0x200, [1])]] : List (List (Loc × List Byte))).all (fun l =>
      let s := moving 0 (landing l)
      (collOpAt s 0 0).any (fun x => x.2.1.fresh && (x.2.2.chunks.findIdx? fun y => !y.held.isEmpty) == some 0 &&
        x.2.2.chunks[0]? == some (landing l)) && (cmdAt s 0 0 1).isSome &&
      (cmdAt (writeRuns { s with free := s.free + 1 } 0 3 l) 0 0 1).isSome) = true ∧
    cutRuns 1 1 [(.win 0 0x200, [1]), (.win 0 0x204, [2])] = 1 ∧
    cutRuns 6 1 [(.win 0 0x200, [1]), (.win 0 0x201, [2]), (.win 0 0x240, [2])] = 2 ∧
    (∀ n, cutRuns 1 (n + 1) [(.win 0 0x200, [1])] = n + 1) :=
  ⟨by decide +kernel, by decide +kernel, by decide +kernel, fun _ => rfl⟩

/-- R177: at the root a sum of 1 and 2 is 3, and its place in the destination is written. -/
theorem test_root_sums : (nodeValue 0 true [[0x40000000]] [0x3F800000]).map (·.1) = [0x40400000] := by decide +kernel

/-- A tile table of one entry at 0x400 that stores 64 bytes of the scratchpad at 0x500 when flag 3 rises; lane 3 of its command. -/
def armed (pending : Bool) (arms : List TtabArm) : State :=
  let w := wordFp 0x68 0 (fp 0 0 1) (fp 0 0x14 1) 0x60000000 (0x10 * 2 ^ 14 + 1)
  let s := (commanded 5 (cmdOf (some w) none) false).modCore 0 fun c =>
    { c with flags := [(3, { expected := 1, arrived := 1, pending := pending })], arms := arms }
  { s with mem := memSet s.mem (winKey 0 0x400) (leBytes 32 (0x10000 * 2 ^ 192 + 3 * 2 ^ 160 + 1 * 2 ^ 146 + 0x14 * 2 ^ 132)) }

/-- The word of that command, and its entry. -/
def armWord : Nat := wordFp 0x68 0 (fp 0 0 1) (fp 0 0x14 1) 0x60000000 (0x10 * 2 ^ 14 + 1)
def entry3 : TtabEntry := ttabOf (ttabBits (armed false []) 0 0x400 0)

theorem witness_TileTablesArmAndFire :
    mayFire (armed false []) 0 0 [0x68] .neither = some (cmdOf (some armWord) none, armWord) ∧ ttabCheck (armed false []) 0 armWord = none ∧
    (∀ i < bitsOf armWord 205 192, (tabGet {} ((armed false []).core 0).flags
      (ttabOf (ttabBits (armed false []) 0 (64 * bitsOf armWord 219 206) i)).flag).ready = false) ∧
    (tabGet {} ((armed true [⟨0, 1, 0, 1, [entry3], 0, 0, 0⟩]).core 0).flags 3).pending = true ∧ entry3.flag = 3 ∧
    (({ trial with clusters := [(0, { coppice := [⟨1, 0, 0, false, 1, true, [], 0, 0, 0, []⟩] })] : State }).cluster 0).coppice[0]? =
      some ⟨1, 0, 0, false, 1, true, [], 0, 0, 0, []⟩ := by and_intros <;> decide +kernel

/-! ### Lease, Ride and handlers -/

/-- Cluster 0 of the trial state. -/
def inCluster (c : Cluster) (cycle : Nat) : State := { stateX [] with clusters := [(0, c)], cycle := cycle }

/-- A stopped sequencer of a node that is pre-empted. -/
def preemptedHolder : State :=
  { stateOf { seqOf (regsOf []) with stopped := true } id with nodes := [{ trialNode State.reset with st := .running, preemptAt := some 0 }] }

theorem witness_LeaseRideAndHandlersRun_lease :
    nextHolder 0 { waiters := [(0, 0)] } = some (0, 0) ∧ leaseRunning (inCluster { holder := some (0, 0) } 0) (0, 0) = false ∧
    ((inCluster { holder := some (0, 0), giveUp := true } 0).cluster 0).giveUp = true ∧
    (16 ≤ ((inCluster { holder := some (0, 0), termCmds := 16, waiters := [(0, 1)] } 0).cluster 0).termCmds) ∧
    4096 ≤ ((inCluster { holder := some (0, 0), termCycles := 4096 } 0).cluster 0).termCycles ∧
    (((inCluster { holder := some (0, 0), termCycles := 4096 } 0).cluster 0).implicitLease &&
      !leaseWaiting (inCluster { holder := some (0, 0), termCycles := 4096 } 0) (0, 0)) = false ∧
    leaseRunning (inCluster { holder := some (0, 0), termCycles := 4096 } 0) (0, 0) = false ∧
    (inCluster { waiters := [(0, 0)] } 0).replaying 0 = false ∧
    stoppedHolder (inCluster { holder := some (0, 0), termCycles := 4096 } 0) (0, 0) = false ∧
    stoppedHolder { preemptedHolder with clusters := [(0, { holder := some (0, 0) })] } (0, 0) = true := by and_intros <;> decide +kernel

/-- An array command at the fetch point of a queue of core g whose cluster waits for a Ride token. -/
def riding (ride : Bool) (cycle : Nat) : State :=
  let w := wordFp 0x00 0 (fp 1 0 8) (fp 1 1024 8) (fp 2 0 10) (l3mnk - 2 * 2 ^ 23)
  { commandedTags 3 3 1 (cmdOf (some w) none) with
    clusters := [(0, { holder := some (0, 0), ride := ride })], cycle := cycle }

/-- The same in cluster 1, while cluster 0 has held a token for 4,096 array cycles. -/
def ridingElsewhere : State :=
  let s := riding false 0
  { s with cores := s.cores.map fun c => (2, c.2), clusters := [(0, { ride := true, rideCycles := 4096 }), (1, { holder := some (2, 0) })] }

theorem witness_LeaseRideAndHandlersRun_ride :
    rideWanted (riding false 0) 0 = true ∧
    (((riding false 0).die 0).ride.any fun t => t.at_ 0 == 0 && !(t.freedBy == some 0 && 0 - t.since < 64)) = true ∧
    rideRunning (inCluster { ride := true } 0) 0 = false ∧ rideWanted (inCluster { ride := true } 0) 0 = false ∧
    clusterOfCore 2 = 1 ∧ rideRunning ridingElsewhere 0 = false ∧
    4096 ≤ (ridingElsewhere.cluster 0).rideCycles ∧
    ((List.range 64).any fun i => 64 * 0 + i != 0 && rideWanted ridingElsewhere (64 * 0 + i)) = true := by
  and_intros <;> decide +kernel

/-- An arrival that waits in core 0 beside a dormant sequencer 1. -/
def arrived : State := (stateX []).modCore 0 fun c => { c with handlers := [⟨8, 0x100, 64⟩], seqs := c.seqs ++ [(1, {})] }

theorem witness_LeaseRideAndHandlersRun_handlers :
    arrived.replaying 0 = false ∧ (arrived.core 0).handlers = ⟨8, 0x100, 64⟩ :: [] ∧ (handlerSeq (arrived.core 0)).isSome = true ∧
    ((arrived.nodeOf 0).map fun n => (n.st, n.preemptAt, n.teardown)) = some (.running, none, false) ∧ arrived.halted = false := by
  and_intros <;> decide +kernel

/-! ### Launch and pre-emption -/

/-- A pool of 4 records at 0x10800 for identifier 1, its doorbell page at 0x30000. -/
def pool0 (closing : Bool) : Pool := { base := 0x10800, cap := 4, asid := 1, page := 0x30000, closing := closing }

/-- The trial state with that pool, these doorbells and these nodes, and core 0 free. -/
def launching (l : List (Nat × Nat × Word)) (ns : List Node) : State :=
  { trial with pools := [(0, pool0 false)], doorbells := l, nodes := ns, cores := [] }

/-- A node of one core, placed and dispatched as said. -/
def node1 (placed dispatched : Bool) (st : NodeState) : Node :=
  { trialNode State.reset with st := st, placed := placed, dispatched := dispatched, plane := 0x40000,
                               origin := if placed then some 0 else none, power := 1 }

theorem witness_NodesAreLaunchedAndRetire_doorbell :
    (launching [(0, 1, 0x10000)] []).doorbells = (0, 1, 0x10000) :: [] ∧ bitsOf (0x10000 : Word).toNat 63 38 = 0 ∧
    tabHas (launching [(0, 1, 0x10000)] []).pools (bitsOf (0x10000 : Word).toNat 37 32) = true ∧
    ((launching [] []).pool 0).closing = false ∧ ((launching [] []).pool 0).asid = 1 ∧ ((launching [] []).pool 0).asid ≠ 2 ∧
    (({ trial with pools := [(0, pool0 true)] : State }).pool 0).closing = true ∧ tabHas (launching [] []).pools (bitsOf (0x3F00000000 : Word).toNat 37 32) = false ∧
    bitsOf (0x4000000000 : Word).toNat 63 38 ≠ 0 := by and_intros <;> decide +kernel

theorem witness_NodesAreLaunchedAndRetire_round :
    roundDue { launching [] [node1 false false .ready] with sched := { due := true } } = true ∧
    ((launching [] [node1 false false .ready]).nodes.filter fun m => m.pooled) = [node1 false false .ready] ∧
    (launching [] [node1 false false .ready]).findNode (node1 false false .ready).id = some (node1 false false .ready) ∧
    (candidates (node1 false false .ready)).find? (fits (launching [] [node1 false false .ready]) (node1 false false .ready)) = some 0 := by
  and_intros <;> decide +kernel

/-! ### What engine commands write -/

/-- Layout records of FP32 elements of the scratchpad: 0 one element at 0x100, 1 one at 0x200, 2 two at 0x100, 3 two at 0x200, and 4 a
table of two rows of one element at 0x100, 64 bytes apart; shape registers 1 to 3 one, two and 64. -/
def moveCmd (w : Nat) : Cmd :=
  { cmdOf (some w) none with
    ly := collLys.set 4 (BitVec.ofNat 128 (0x100 * 2 ^ 64 + 2 ^ 60 + 2 ^ 56 + 2 * 2 ^ 39 + 2 ^ 34 + 3 * 2 ^ 19)),
    sh := (((Vector.replicate 32 0).set 1 1).set 2 2).set 3 64 }

/-- That command at its fetch point, with bytes put into the scratchpad. -/
def moving0 (w : Nat) (l : List (Nat × List Byte)) : State :=
  let s := commanded 1 (moveCmd w) false
  { s with mem := l.foldl (fun m x => memSet m (winKey 0 x.1) x.2) s.mem }

/-- One element from record 0 to record 1. -/
def copyWord : Nat := wordFp 0x20 0 (fp 0 4 1) 0x60000000 (fp 0 8 1) (1 * 2 ^ 4)
def copying : State := moving0 copyWord [(0x100, leBytes 4 0x12345678)]

/-- Rows 1 and 5 of record 4 to record 3. -/
def gatherWord : Nat := wordFp 0x21 0 (fp 0 4 2) (fp 0 12 1) (fp 0 8 1) (4 + 3 * 2 ^ 4 + 2 * 2 ^ 8 + 12 * 2 ^ 13)
def gathering : State := moving0 gatherWord [(0x140, leBytes 4 0x12345678), (0x200, leBytes 8 0xFFFFFFFFFFFFFFFF), (0x300, leBytes 8 (1 + 5 * 2 ^ 32))]

/-- One row: its epilogue record at 0x400, its sampling record at 0x500. -/
def gumWord : Nat := wordFp 0x82 1 0x60000000 0x60000000 0x60000000 (1 * 2 ^ 8 + 1 * 2 ^ 13 + 20 * 2 ^ 22 + 16 * 2 ^ 36)
def gumming : State := moving0 gumWord [(0x41C, leBytes 4 7), (0x514, leBytes 4 0x3F800000)]

/-- One draft of one token: targets of record 2, drafts of record 1. -/
def acceptWord : Nat := wordFp 0x83 0 (fp 0 4 1) (fp 0 8 1) (fp 0 20 2) (2 + 1 * 2 ^ 4 + 1 * 2 ^ 8 + 1 * 2 ^ 13 + 20 * 2 ^ 22 + 16 * 2 ^ 36)
def accepting : State := moving0 acceptWord [(0x100, leBytes 8 0x3F8000003F800000), (0x200, leBytes 4 0x3F800000), (0x500, leBytes 4 0), (0x520, leBytes 8 0x3F8000003F800000)]

/-- Context 0, branch 0, one token, its mask at 0x200. -/
def stepWord : Nat := wordFp 0xa0 0 0x60000000 0x60000000 (fp 0 8 1) (8 * 2 ^ 13 + 1 * 2 ^ 27)
/-- Grammar context 0 with branch 0 live in state 0, over tables at 0x10100 of one state, one class and one token. -/
def stepping : State :=
  let s := moving0 stepWord []
  let m := memSet s.mem (dramKey 0 0x10100) (leBytes 32 (1 + 1 * 2 ^ 64 + 1 * 2 ^ 96 + 0x10180 * 2 ^ 128 + 0x101C0 * 2 ^ 192))
  { s with mem := memSet m (dramKey 0 0x10180) [1],
           clusters := s.clusters.map fun c => (c.1, { c.2 with grammars := [(0, ⟨0, 0, 0x100, 0, 0x10100, [(0, ⟨1, 0, []⟩)]⟩)] }) }


theorem witness_CommandsRunTheirEffect_moves :
    firesAs (.copy 0 0 ⟨[], []⟩) copying (moveCmd copyWord) = some (false, none) ∧ bitsOf copyWord 255 224 = 0 ∧
    copying.Inv ∧ PlainReads copying 0 ∧ ApartInSpad (Lay.soundPlaces copying 0 (layOf (moveCmd copyWord) 1)) ∧
    (∀ p ∈ Lay.soundPlaces copying 0 (layOf (moveCmd copyWord) 0), p.nib = 0) ∧
    firesAs (.gather 0 0 ⟨[], []⟩) gathering (moveCmd gatherWord) = some (false, none) ∧ gathering.Inv ∧ PlainReads gathering 0 ∧
    ApartInSpad (Lay.soundPlaces gathering 0 (layOf (moveCmd gatherWord) 3)) ∧
    (layOf (moveCmd gatherWord) 4).win = 0 ∧ (layOf (moveCmd gatherWord) 4).e 0 = 1 ∧ (layOf (moveCmd gatherWord) 4).nibs = 8 ∧
    (Lay.soundPlaces gathering 0 (layOf (moveCmd gatherWord) 3)).length = 2 := by and_intros <;> decide +kernel

theorem witness_CommandsRunTheirEffect_writes :
    firesAs (.sampDrawGum 0 0) gumming (moveCmd gumWord) = some (false, none) ∧ gumming.Inv ∧ PlainReads gumming 0 ∧
    firesAs (.specAccept 0 0 ⟨[], []⟩) accepting (moveCmd acceptWord) = some (false, none) ∧ accepting.Inv ∧ PlainReads accepting 0 ∧
    firesAs (.pdaStep 0 0 ⟨[], []⟩) stepping (moveCmd stepWord) = some (false, none) ∧ stepping.Inv ∧ stepping.upset = false ∧
    stepping.replaying 0 = false ∧ (ctxOf stepping 0 stepWord).isSome = true ∧
    (match readHeader stepping 0 1 ⟨[], []⟩ 0x10100 with
      | .ok (t, _) => t.vt == 1 && (({ status := 1 } : Branch).judged t).status == 1 && (({ status := 1, state := 1 } : Branch).judged t).status == 2
      | .error _ => false) = true := by and_intros <;> decide +kernel

/-- R165: index 1 takes row 1, and index 5 names no row and reads as 0. -/
theorem test_gather : ((nextOf (exec (.gather 0 0 ⟨[], []⟩) gathering)).map fun t =>
    (memNat t.mem (winKey 0 0x200) 4, memNat t.mem (winKey 0 0x204) 4)) = some (0x12345678, 0) := by decide +kernel


/-- A node placed on core 0 with one tile and one accumulator, whose plane no program has written since it was submitted. -/
def placedNode : Node := { node1 true false .ready with plane := 0x10400, tiles := 1, accs := 1, origin := some 0 }

/-- The scheduler's state with that node and its plane: tile 0 of tag 7 with 128 rows and columns, accumulator 0 floating point,
its CRC. -/
def dispatching : State :=
  let m := memSet trial.mem (dramKey 0 0x10580) (leBytes 4 (7 + 127 * 2 ^ 4 + 128 * 2 ^ 11))
  { launching [] [placedNode] with mem := memSet (memSet m (dramKey 0 0x105A0) [14]) (dramKey 0 0x107FC) (leBytes 4 1913715495) }

/-- The lines of a plane as they stand. -/
def planeNow (s : State) (n : Node) : Option (List Byte) :=
  (List.range 16).foldl (fun acc i => acc.bind fun b =>
    (schedRead s n.asid (n.plane + BitVec.ofNat 64 (64 * i)) 64).map fun l => b ++ l) (some [])

theorem readPlane_of_unwritten (s : State) (n : Node) (h : n.image = []) : readPlane s n = planeNow s n := by
  simp [readPlane, planeNow, planeLine, h]

set_option maxRecDepth 100000 in
theorem test_planeNow : (planeNow dispatching placedNode).map (fun b => (planeFault b placedNode, b.length)) = some (none, 1024) := by
  decide +kernel

theorem witness_NodesAreLaunchedAndRetire_dispatch :
    dispatching.findNode (0, 0) = some placedNode ∧ placedNode.placed = true ∧ placedNode.dispatched = false ∧ placedNode.st = .ready ∧
    exitOk dispatching placedNode 0x40000000 = true ∧ zerosOk placedNode [(0, 64)] = true ∧ dispatching.halted = false ∧
    (dispatching.core 0).lastAsid ≠ some 1 ∧
    (readPlane dispatching placedNode).map (fun b => (planeFault b placedNode, b.length)) = some (none, 1024) := by
  rw [readPlane_of_unwritten _ _ rfl]
  refine ⟨?_, ?_, ?_, ?_, ?_, ?_, ?_, ?_, test_planeNow⟩ <;> decide +kernel

/-- CRC-32C of "123456789", the check value of the code (R206). -/
theorem test_crc32c : crc32c [0x31, 0x32, 0x33, 0x34, 0x35, 0x36, 0x37, 0x38, 0x39] = 0xE3069283 := by decide +kernel

/-- The trial state with its node as said. -/
def withNode (n : Node) (q : Seq) (f : State → State) : State := f { stateOf q id with nodes := [n] }

theorem witness_NodesAreLaunchedAndRetire_gang :
    ((withNode (node1 true true .ready) {} id).findNode (0, 0)) = some (node1 true true .ready) ∧
    (node1 true true .ready).dispatched = true ∧ (node1 true true .ready).st = .ready ∧ (withNode (node1 true true .ready) {} id).halted = false := by
  and_intros <;> decide +kernel

/-- A node whose sequencer has ended. -/
def ended : State := withNode (node1 true true .running) { status := .ended } id

theorem witness_NodesAreLaunchedAndRetire_retire :
    (ended.findNode (0, 0)) = some (node1 true true .running) ∧
    ((node1 true true .running).live.all fun g => allSeqs ended g Seq.drained && coreCommandsDone ended g && (ended.core g).handlers.isEmpty) =
      true ∧ ((node1 true true .running).live.all fun g => allSeqs ended g Seq.gone) = true ∧
    ((node1 true true .running).live.all fun g => allSeqs ended g Seq.still) = true ∧
    (node1 true true .running).live.any (hasUnfired ended) = false ∧ sentDone ended (node1 true true .running).live = true := by and_intros <;> decide +kernel

/-- A node that is torn down with a blocked sequencer. -/
theorem witness_NodesAreLaunchedAndRetire_stop :
    ((withNode { node1 true true .running with teardown := true } { status := .blocked } id).nodeOf 0).map (·.teardown) = some true ∧
    ((withNode { node1 true true .running with teardown := true } { status := .blocked } id).seqAt 0 0).still = false := by
  and_intros <;> decide +kernel

/-- A node that is to be pre-empted; its sequencer has stopped, and is saved or not. -/
def preempting (saves : List Save) (stopped : Bool) : State :=
  withNode { node1 true true .running with preemptAt := some 0, saves := saves } { seqOf (regsOf []) with stopped := stopped } id

/-- A sequencer with an open region and an unfinished `pat.drop`. -/
def thrown : State :=
  (withNode { node1 true true .running with preemptAt := some 0 }
    { seqOf (regsOf []) with stopped := true, region := some { image := regsOf [] } } id).modCore 0 fun c =>
      { c with queues := (Vector.replicate 16 {}).set 0
                { kind := 4, n := 4, base := 0x1000, last := 1, cmds := [cmdOf (some (wordOf3 0x41 0 0)) none] } }

theorem witness_NodesArePreemptedResumedAndRecorded_save :
    ((preempting [] true).nodeOf 0).isSome = true ∧
    (((preempting [] true).nodeOf 0).map fun n => (n.preemptAt.isSome, n.teardown, stoppedInTime (preempting [] true) n, stoppedEntirely (preempting [] true) n, n.saved 0 0)) =
      some (true, false, true, true, false) ∧
    ((preempting [] true).nodeOf 0).map (fun n => n.live.any (intervalOver (preempting [] true))) = some false ∧
    (thrown.nodeOf 0).map (fun n => n.live.any (intervalOver thrown)) = some false ∧
    ((preempting [] true).seqAt 0 0).gone = false ∧ mustThrowBack (preempting [] true) 0 0 = false ∧
    mustThrowBack thrown 0 0 = true ∧ (thrown.nodeOf 0).map (fun n => (stoppedInTime thrown n, stoppedEntirely thrown n)) = some (true, true) := by and_intros <;> decide +kernel

/-- The save of that sequencer. -/
def save0 : Save := ⟨0, 0, { seqOf (regsOf []) with stopped := true }, false, false, []⟩

theorem witness_NodesArePreemptedResumedAndRecorded_spill :
    ((preempting [save0] true).findNode (0, 0)).map (fun n => (n.st, n.preemptAt.isSome, n.teardown,
      allStill (preempting [save0] true) n, n.live.all (canSpill (preempting [save0] true) n))) = some (.running, true, false, true, true) ∧
    -- a stop that W cycles have not brought
    (({ preempting [] false with cycle := 2 ^ 28 } : State).findNode (0, 0)).map (fun n => (n.preemptAt, n.teardown,
      n.inTime)) = some (some 0, false, false) ∧
    0 + ({ preempting [] false with cycle := 2 ^ 28 } : State).sched.w ≤ ({ preempting [] false with cycle := 2 ^ 28 } : State).cycle := by
  and_intros <;> decide +kernel

/-- The node spilled and placed again. -/
def spilled : Node :=
  { node1 true false .preempted with saves := [save0], spill := [⟨0, { trialCore State.reset with seqs := [(0, save0.seq)] }, [], {}⟩] }

theorem witness_NodesArePreemptedResumedAndRecorded_resume :
    (launching [] [spilled]).findNode (0, 0) = some spilled ∧ spilled.st = .preempted ∧ spilled.placed = true ∧
    contextsFree (launching [] [spilled]) spilled = true ∧ save0.g = 0 ∧ save0.seq.gone = false := by and_intros <;> decide +kernel

/-- A recorded node whose sequencer has made 2^16 counts, running or stopped. -/
def interval (ending : Option Nat) (stopped : Bool) : State :=
  (withNode { node1 true true .running with ivl := some 16, recording := true }
    { seqOf (regsOf []) with rwcount := 2 ^ 16, stopped := stopped } id).setGroup 0 { ending := ending }

theorem witness_NodesArePreemptedResumedAndRecorded_interval :
    intervalLength (interval none false) 0 = some (2 ^ 16) ∧
    (((interval none false).core 0).seqs.any fun q => decide (2 ^ 16 ≤ q.2.rwcount)) = true ∧
    (((interval none false).nodeOf 0).any fun n => n.preemptAt.isSome || n.teardown) = false ∧
    ((interval none false).group 0).ending = none ∧ ((interval (some 5) true).group 0).ending = some 5 ∧
    allStopped (interval (some 5) true) 0 = true ∧ ((interval none false).findNode (0, 0)).isSome = true ∧
    64 * ({ node1 true true .running with scratch := 14528 } : Node).scratch + 1856 * 64 ≤ 2 ^ 20 := by and_intros <;> decide +kernel

/-! ### Links, errors and power -/

/-- A flit of kind 1 to package 0 with this sequence number, its CRC right or wrong. -/
def flit (seq : Nat) (good : Bool) : BitVec 1024 :=
  let f := 1 * 2 ^ 36 + seq * 2 ^ 24
  BitVec.ofNat 1024 (f + (crc32c (leBytes 124 f) + (if good then 0 else 1)) % 2 ^ 32 * 2 ^ 992)

/-- The trial state with link 3. -/
def linked (l : Link) : State := { trial with links := [(3, l)], peers := [7] }

theorem witness_LinksErrorsAndPowerEventsTakeEffect_links :
    ((linked { state := 2, peer := 7 }).link 3).state = 2 ∧ flitGood (flit 0 false).toNat = false ∧ flitGood (flit 0 true).toNat = true ∧
    flitSeq (flit 0 true).toNat = ((linked { state := 2, peer := 7 }).link 3).expect ∧
    flitSeq (flit 4095 true).toNat ≠ ((linked { state := 2, peer := 7 }).link 3).expect ∧ flitKind (flit 0 true).toNat ≠ 0 ∧
    flitDst (flit 0 true).toNat = (linked {}).pkgid ∧
    downAllowed { state := 2, replays := 8 } .replays = true ∧ downAllowed { state := 1 } .training = true ∧
    downAllowed { state := 2 } .farEnd = true ∧ ({ linked { state := 1 } with host := { booted := true } } : State).inPod = true ∧
    ((linked { state := 1 }).link 3).state = 1 := by and_intros <;> decide +kernel

theorem witness_LinksErrorsAndPowerEventsTakeEffect_requests :
    ({ trial with remoteDone := [(7, 5)] } : State).remoteDone.contains (7, 5) = true ∧ trial.remoteDone.contains (7, 5) = false ∧
    ({ trial with host := { booted := true } } : State).inPod = true ∧
    requestFits trial (.load 1 false 0x10100 8) = true ∧ requestFits trial (.store 1 false 0x10100 [1, 2, 3, 4] 0) = true := by
  and_intros <;> decide +kernel

theorem witness_LinksErrorsAndPowerEventsTakeEffect_errors :
    scrubbed (.dram 0 0x1000) = true ∧ ((stateX []).seqAt 0 0).gone = false ∧ ((stateX []).core 0).node.isSome = true ∧
    lineOwner { stateX [] with owners := [(winKey 0 0x400 / 64, 0)] } 0 0x400 = some 0 ∧ (stateX []).halted = false := by and_intros <;> decide +kernel

theorem witness_LinksErrorsAndPowerEventsTakeEffect_power :
    ((List.range 4).all fun i => decide (1 ≤ [1, 63, 63, 2].getD i 0) && (decide ([1, 63, 63, 2].getD i 0 < (budgetsOf trial).getD i 0) ||
      ([1, 63, 63, 2].getD i 0 == 1 && (budgetsOf trial).getD i 0 == 1))) = true ∧ 63 ∉ trial.gated ∧ residentOf { trial with cores := [] } 1023 = none := by and_intros <;> decide +kernel

/-! ### The host, debug and the test port -/

/-- A request of the ring. -/
def req (code a0 a1 a2 a3 : Nat) : BitVec 512 :=
  BitVec.ofNat 512 (code * 2 ^ 8 + a0 * 2 ^ 256 + a1 * 2 ^ 320 + a2 * 2 ^ 384 + a3 * 2 ^ 448)

/-- A booted package with these requests, identifier 1 live and region 5 granted to the host. -/
def hosted (l : List (BitVec 512)) : State :=
  { trial with
    cores := [], nodes := [], host := { booted := true, attest := true, rlog := 2, entries := l, rtail := l.length, asids := [1], grants := [5] } }

/-- A minimal image: one code word, a plane and a record in its data, one kernel. -/
def image1 : List Byte :=
  leBytes 4 0x4D494C47 ++ leBytes 2 1 ++ leBytes 2 0 ++
    [64, 4, 128, 1088, 0x10000, 0x20000, 0, 0, 96, 1].flatMap (leBytes 4) ++ List.replicate 16 0 ++
    leBytes 4 0x00500293 ++ List.replicate 28 0 ++ leBytes 32 (0x10000 * 2 ^ 128 + 0x10400 * 2 ^ 64) ++ List.replicate 1088 0

/-- The host has written that image at the start of its window. -/
def imaged : State :=
  let m := memSet trial.mem (dramKey 0 (5 * 2 ^ 30)) (image1.take 48)
  let m := memSet m (dramKey 0 (5 * 2 ^ 30 + 64)) (leBytes 4 0x00500293)
  { hosted [req 3 1 0 1216 0] with
    mem := memSet m (dramKey 0 (5 * 2 ^ 30 + 96)) (leBytes 32 (0x10000 * 2 ^ 128 + 0x10400 * 2 ^ 64)) }

/-- A package whose host has set up a ring and that has not booted. -/
def unbooted : State := { hosted [] with held := true, host := { rlog := 2 } }

theorem witness_HostRequestsAreServed_ring :
    unbooted.host.bfail = 0 ∧ 1 ≤ unbooted.host.rlog ∧ unbooted.host.rlog ≤ 12 ∧
    (1 : BitVec 64).toNat % 4096 < 2 ^ unbooted.host.rlog ∧
    ((1 : BitVec 64).toNat % 4096 + 2 ^ unbooted.host.rlog - unbooted.host.rtail % 2 ^ unbooted.host.rlog) % 2 ^ unbooted.host.rlog =
      [req 1 0 0 0 0].length ∧ serving unbooted = false ∧ unbooted.host.rhead = unbooted.host.rtail := by
  and_intros <;> decide +kernel

theorem witness_HostRequestsAreServed_requests :
    RequestAtHead (hosted [req 1 0 0 0 0]) 1 (req 1 0 0 0 0) ∧
    ((List.range 256).find? fun a => !(hosted []).host.asids.contains a) = some 0 ∧
    RequestAtHead (hosted [req 2 1 0 0 0]) 2 (req 2 1 0 0 0) ∧ (hosted []).host.asids.contains (reqArg (req 2 1 0 0 0).toNat 0) = true ∧
    ((hosted []).pools.any fun p => p.2.asid == 1 && !poolIdle (hosted []) p.1) = false ∧
    RequestAtHead (hosted [req 4 1 0x10000 0x10000 0]) 4 (req 4 1 0x10000 0x10000 0) ∧
    ownerPkg (BitVec.ofNat 64 (reqArg (req 4 1 0x10000 0x10000 0).toNat 1)) = (hosted []).pkgid ∧
    isAperture (BitVec.ofNat 64 (reqArg (req 4 1 0x10000 0x10000 0).toNat 1)) = false ∧
    RequestAtHead (hosted [req 5 63 1 0x10800 65535]) 5 (req 5 63 1 0x10800 65535) ∧ pageFree (hosted []) 1 63 0x30000 = true ∧
    tabHas (hosted []).pools 63 = false ∧ reqArg (req 5 63 1 0x10800 65535).toNat 3 = 65535 := by and_intros <;> decide +kernel

theorem witness_HostRequestsAreServed_more :
    RequestAtHead ({ hosted [req 6 0 0 0 0] with pools := [(0, pool0 false)] }) 6 (req 6 0 0 0 0) ∧
    poolIdle { hosted [req 6 0 0 0 0] with pools := [(0, pool0 true)] } 0 = true ∧
    RequestAtHead (hosted [req 7 500 0 0 0]) 7 (req 7 500 0 0 0) ∧ RequestAtHead (hosted [req 7 3000 0 0 0]) 7 (req 7 3000 0 0 0) ∧
    budgetsOk (hosted []) 3000 (budgetsOf (hosted [])) = true ∧
    RequestAtHead (hosted [req 8 0 0 0 0]) 8 (req 8 0 0 0 0) ∧ State.reset.held = true ∧
    hostBytes (hosted []) 0 16 = some (List.replicate 16 0) ∧ hostLoc (hosted []) 0 = some (.dram 0 (5 * 2 ^ 30)) ∧
    hostLoc (hosted []) (2 ^ 30) = none ∧ (leafFor trial 0 1 (vaOffset 0x10000)).isSome = true ∧ trial.Inv := by
  and_intros <;> decide +kernel

set_option maxRecDepth 100000 in
theorem witness_HostRequestsAreServed_load :
    RequestAtHead imaged 3 (req 3 1 0 1216 0) ∧ hostBytes imaged 0 1216 = some image1 ∧
    (match planLoad image1 0x100000 with
      | .go _ x entry => entry == 0 && x.span == 0x20000 && x.dstart == 0x10000
      | _ => false) = true := by and_intros <;> decide +kernel

set_option maxRecDepth 100000 in
/-- Frames in region 6 and tables in region 7 are Derdengo's to choose while the dump lies in neither. -/
theorem placeOk_six (h : dumpRegion ≠ 6) (h' : dumpRegion ≠ 7) :
    placeOk imaged 1 0 0x100000 (6 * 2 ^ 30) (7 * 2 ^ 30) 0x20000 0x10000 = true := by
  have a : regionsOf 0 (6 * 2 ^ 30) 0x20000 = [6] := by decide +kernel
  have b : regionsOf 0 (6 * 2 ^ 30) 0x10000 = [6] := by decide +kernel
  have c : regionsOf 0 (7 * 2 ^ 30) (tableEnd imaged 1 0 0x100000 (6 * 2 ^ 30) (7 * 2 ^ 30) 0x20000 - 7 * 2 ^ 30) = [7] := by decide +kernel
  simp only [placeOk, framesFree, derdengosOwn, a, b, c, Bool.and_eq_true, List.all_cons, List.all_nil, List.contains_cons, List.contains_nil]
  and_intros <;> first | decide +kernel | simp [h, Ne.symm h']

set_option maxRecDepth 100000 in
/-- The same with regions 8 and 9. -/
theorem placeOk_eight (h : dumpRegion ≠ 8) (h' : dumpRegion ≠ 9) :
    placeOk imaged 1 0 0x100000 (8 * 2 ^ 30) (9 * 2 ^ 30) 0x20000 0x10000 = true := by
  have a : regionsOf 0 (8 * 2 ^ 30) 0x20000 = [8] := by decide +kernel
  have b : regionsOf 0 (8 * 2 ^ 30) 0x10000 = [8] := by decide +kernel
  have c : regionsOf 0 (9 * 2 ^ 30) (tableEnd imaged 1 0 0x100000 (8 * 2 ^ 30) (9 * 2 ^ 30) 0x20000 - 9 * 2 ^ 30) = [9] := by decide +kernel
  simp only [placeOk, framesFree, derdengosOwn, a, b, c, Bool.and_eq_true, List.all_cons, List.all_nil, List.contains_cons, List.contains_nil]
  and_intros <;> first | decide +kernel | simp [h, Ne.symm h']

/-- Wherever the dump region lies, there is a placement, and a region that the host may be granted. -/
theorem witness_HostRequestsAreServed_place :
    (∃ frame tables, placeOk imaged 1 0 0x100000 frame tables 0x20000 0x10000 = true) ∧ ∃ r, r < 2 ^ 20 ∧ r ≠ dumpRegion := by
  by_cases h : dumpRegion = 6 ∨ dumpRegion = 7
  · exact ⟨⟨_, _, placeOk_eight (by omega) (by omega)⟩, 8, by decide, by omega⟩
  · exact ⟨⟨_, _, placeOk_six (by omega) (by omega)⟩, 6, by decide, by omega⟩

/-- A debug request to sequencer 0 of core 0. -/
def at0 (pkg : Nat) : DebugTarget := ⟨pkg, 0, 1⟩

theorem witness_DebugAttestationAndTestPort :
    TargetHere (stateX []) (at0 0) ∧ namedSeqs (at0 0) = [0] ∧
    ((namedSeqs (at0 0)).all fun k => ((stateX []).seqAt 0 k).gone || ((stateX []).seqAt 0 k).drained) = true ∧
    (∀ k ∈ namedSeqs (at0 0), ((stateOf { seqOf (regsOf []) with halted := true } id).seqAt 0 k).halted = true ∧
      fillsX ((stateOf { seqOf (regsOf []) with halted := true } id).seqAt 0 k) 5 = false) ∧
    (∃ k ∈ namedSeqs (at0 0), ((stateX []).seqAt 0 k).halted = false) ∧ ((stateX []).group 0).whole 0 = none ∧
    (at0 9).pkg ≠ (stateX []).pkgid ∧ (stateX []).peers.contains 9 = false ∧ (hosted []).host.attest = true ∧ State.reset.held = true ∧
    trial.held = false ∧ (stateX []).host.bfail = 0 ∧ (stateX []).debugIn = [] ∧ ((stateX []).group 0).target = none ∧
    ((stateX []).group 0).interval ≤ 0 ∧ (stateX []).host.master = (stateX []).pkgid ∧ ({ stateX [] with peers := [9] } : State).peers.contains 9 = true ∧
    -- a queue that is not drained, a halted sequencer with a vector context, and a boundary scan of two pins
    ((namedSeqs (at0 0)).all fun k => ((loading 3).seqAt 0 k).gone || ((loading 3).seqAt 0 k).drained) = false ∧
    (∀ k ∈ namedSeqs (at0 0), ((stateOf { seqOf (regsOf []) with halted := true } id).seqAt 0 k).r.vctx = true ∧
      fillsV ((stateOf { seqOf (regsOf []) with halted := true } id).seqAt 0 k) 5 = false) ∧
    (⟨[(.hostLink 0, true), (.wealdLane 31 3, false)], [false, true]⟩ : BoundaryScan).tdi.length = 2 := by and_intros <;> decide +kernel

end Sys2Proof.Tests
end

section
/-! SUPPORT. Proofs of the family of 00_scope.md: `ecall` and `ebreak` (O9), and the ordering words (O15), with the laws they
rest on: a trap that a handler takes (R23), entries joining a queue (R18, R79) and the wait of `qwait` (R80). -/
namespace Sys2Proof.Machine

/-! ### A trap that a handler takes (R23) -/

/-- A trap outside a handler, with a vector in place, goes to the vector from the saved registers. -/
theorem State.takeTrap_of_handler (s : State) (g k cause : Nat) (tval : Word) (ha : (s.seqAt g k).r.act = false)
    (hv : (s.seqAt g k).r.ttvec ≠ 0) :
    s.takeTrap g k cause tval =
      (s.setSeqAt g k { s.seqAt g k with status := .ready, r := (s.seqAt g k).r.enterTrap cause tval }).goTo g k
        (s.seqAt g k).r.ttvec := by
  have enters : ¬((s.seqAt g k).r.act || (s.seqAt g k).r.ttvec == 0) = true := by
    rw [ha, Bool.false_or, beq_iff_eq]; exact hv
  exact if_neg enters

/-- The current sequencer at its handler: ready, with the trap registers set and everything else as before. -/
theorem State.me_takeTrap (s : State) (cause : Nat) (tval : Word) (ha : s.me.r.act = false) (hv : s.me.r.ttvec ≠ 0)
    (hx : s.me.r.ttvec ≠ s.me.exitAddr) :
    (s.takeTrap s.cur.1 s.cur.2 cause tval).me =
      { s.me with
        status := .ready,
        r := { s.me.r with
          pc := s.me.r.ttvec, tepc := s.me.r.pc, tcause := BitVec.ofNat 8 cause, tval := tval, act := true } } := by
  have hcur : (s.takeTrap s.cur.1 s.cur.2 cause tval).cur = s.cur := by
    rw [s.takeTrap_of_handler _ _ _ _ ha hv, State.cur_goTo]; rfl
  unfold State.me at *
  rw [hcur, s.takeTrap_of_handler _ _ _ _ ha hv, State.seqAt_goTo, State.seqAt_setSeqAt_same, if_neg hx]
  rfl

/-- An instruction that traps with tval 0 leaves the handler's registers, and memory as it was. -/
theorem Res.finish_trap_handler (s : State) (cause : Nat) (ha : s.me.r.act = false) (hv : s.me.r.ttvec ≠ 0)
    (hx : s.me.r.ttvec ≠ s.me.exitAddr) :
    ∃ t, (Res.trap cause 0).finish s = .next t ∧
      t.me.r = { s.me.r with
        pc := s.me.r.ttvec, tepc := s.me.r.pc, tcause := BitVec.ofNat 8 cause, tval := 0, act := true } ∧
      t.me.status = .ready ∧ t.mem = s.mem := by
  have hme := s.me_takeTrap cause 0 ha hv hx
  exact ⟨_, Res.finish_trap .., by rw [hme], by rw [hme], State.takeTrap_mem ..⟩

theorem exec_ecall (s : State) : exec .ecall s = (Res.trap causeEcall 0).finish s := rfl

theorem exec_ebreak (s : State) : exec .ebreak s = (Res.trap causeBreak 0).finish s := rfl

/-- Settles O9: both words are a trap with tval 0, and a trap with a handler in place enters the handler. -/
theorem callsTakeTheirTraps : Obligations.CallsTakeTheirTraps := by
  intro s
  rw [exec_ecall, exec_ebreak]
  exact ⟨rfl, rfl, fun ha hv hx =>
    ⟨Res.finish_trap_handler s causeEcall ha hv hx, Res.finish_trap_handler s causeBreak ha hv hx⟩⟩

/-! ### Entries joining a queue (R18, R79) -/

/-- Settling drops what is over from the queue, and may empty the core's scalar data cache. -/
theorem State.settleQueue_cases (s : State) (g k : Nat) :
    let t := s.modSeqAt g k fun q => { q with queue := (settle false (s.seqAt g k).queue).1 }
    s.settleQueue g k = t ∨ s.settleQueue g k = t.modCore g fun c => { c with dcache := [] } := by
  unfold State.settleQueue
  dsimp only
  split
  · exact .inr rfl
  · exact .inl rfl

@[simp] theorem State.settleQueue_mem (s : State) (g k : Nat) : (s.settleQueue g k).mem = s.mem := by
  rcases s.settleQueue_cases g k with h | h <;> rw [h] <;> rfl

@[simp] theorem State.settleQueue_cur (s : State) (g k : Nat) : (s.settleQueue g k).cur = s.cur := by
  rcases s.settleQueue_cases g k with h | h <;> rw [h] <;> rfl

/-- A change of a core that keeps its sequencers is not seen by any of them. -/
theorem State.seqAt_modCore_of_seqs (s : State) (g k : Nat) (f : Core → Core) (h : (f (s.core g)).seqs = (s.core g).seqs) :
    (s.modCore g f).seqAt g k = s.seqAt g k := by
  simp [State.seqAt, Core.sq, h]

theorem State.seqAt_settleQueue (s : State) (g k : Nat) :
    (s.settleQueue g k).seqAt g k = { s.seqAt g k with queue := (settle false (s.seqAt g k).queue).1 } := by
  rcases s.settleQueue_cases g k with h | h <;> rw [h]
  · exact State.seqAt_modSeqAt_same ..
  · rw [State.seqAt_modCore_of_seqs _ _ _ _ rfl, State.seqAt_modSeqAt_same]

@[simp] theorem State.enqueue_mem (s : State) (g k : Nat) (l : List Entry) : (s.enqueue g k l).mem = s.mem :=
  State.settleQueue_mem ..

@[simp] theorem State.enqueue_cur (s : State) (g k : Nat) (l : List Entry) : (s.enqueue g k l).cur = s.cur :=
  State.settleQueue_cur ..

/-- Entries that join a queue change nothing of their sequencer but the queue, which they leave settled. -/
theorem State.seqAt_enqueue (s : State) (g k : Nat) (l : List Entry) :
    (s.enqueue g k l).seqAt g k = { s.seqAt g k with queue := (settle false ((s.seqAt g k).queue ++ l)).1 } := by
  rw [State.enqueue, State.seqAt_settleQueue, State.seqAt_modSeqAt_same]

theorem State.me_enqueue (s : State) (l : List Entry) :
    (s.enqueue s.cur.1 s.cur.2 l).me = { s.me with queue := (settle false (s.me.queue ++ l)).1 } := by
  unfold State.me
  rw [State.enqueue_cur, State.seqAt_enqueue]

/-! ### Markers (R79) -/

theorem exec_qmark (sc : Scope) (k : MarkKind) (s : State) : exec (.qmark sc k) s = (markRes sc k s).finish s := rfl

theorem exec_fence (rd rs1 : XReg) (fm pred succ : Fin 16) (s : State) :
    exec (.fence rd rs1 fm pred succ) s = exec (.qmark .pod .full) s := rfl

theorem exec_fenceTso (rd rs1 : XReg) (s : State) : exec (.fenceTso rd rs1) s = exec (.qmark .pod .full) s := rfl

theorem exec_fenceI (rd rs1 : XReg) (imm : Nat) (s : State) : exec (.fenceI rd rs1 imm) s = exec (.qmark .pod .full) s := rfl

theorem markRes_of_room (sc : Scope) (k : MarkKind) (s : State) (h : Room s 1 1) :
    markRes sc k s = .done (s.enqueue s.cur.1 s.cur.2 [{ op := .marker sc k }]) := by
  simp [markRes, needRoom, h]

theorem markRes_of_full (sc : Scope) (k : MarkKind) (s : State) (h : queueRoom s.me 1 1 = false) :
    markRes sc k s = .block := by
  simp [markRes, needRoom, h]

/-- With room in both queues a marker joins them and its instruction retires, with no x register and no byte of memory changed. -/
theorem exec_qmark_of_room (sc : Scope) (k : MarkKind) (s : State) (h : Room s 1 1) :
    ∃ t, exec (.qmark sc k) s = .next t ∧ t.me.r.pc = s.me.r.pc + 4 ∧ (∀ i, t.rx i = s.rx i) ∧
      t.me.queue = (settle false (s.me.queue ++ [{ op := .marker sc k }])).1 ∧ t.mem = s.mem := by
  let u := s.enqueue s.cur.1 s.cur.2 [{ op := .marker sc k }]
  have hme : u.me = { s.me with queue := (settle false (s.me.queue ++ [{ op := .marker sc k }])).1 } := s.me_enqueue _
  have hcur : u.cur = s.cur := s.enqueue_cur ..
  have hr : (retire u s).me.r = { s.me.r with pc := s.me.r.pc + 4, instret := s.me.r.instret + 1 } := by
    rw [retire_r u s hcur, hme]
  refine ⟨retire u s, ?_, by rw [hr], fun i => ?_, ?_, ?_⟩
  · rw [exec_qmark, markRes_of_room sc k s h, Res.finish_done_retire]
  · simp only [State.rx, Regs.rx, hr]
  · obtain ⟨hqueue, -⟩ := retireAt_keeps u s (u.me.r.pc + 4) hcur
    rw [retire_eq, hqueue, hme]
  · rw [retire_mem]; exact s.enqueue_mem ..

/-! ### Waiting for the queues (R80) -/

/-- An entry of a named queue holds a `qwait` up unless what is awaited of it has come. -/
theorem not_heldUp_iff (named inQueue done : Bool) :
    (!(named && inQueue && !done)) = true ↔ (named = true → inQueue = true → done = true) := by
  revert named inQueue done
  decide

/-- The named queues are drained when their loads have performed, and their stores have performed and are acknowledged. -/
theorem queuesDrained_iff (q : Seq) (loads stores : Bool) :
    queuesDrained q loads stores = true ↔
      ∀ e ∈ q.queue, (loads = true → e.isLoad = true → e.performed = true) ∧
        (stores = true → e.isStore = true → e.performed = true ∧ e.acked = true) := by
  simp only [queuesDrained, List.all_eq_true, Bool.not_or, Bool.and_eq_true, not_heldUp_iff]

theorem exec_qwait (m : Fin 4) (s : State) : exec (.qwait m) s = (qwaitRes m s).finish s := rfl

/-- `qwait` retires, changing nothing else, when the queues it names are drained. -/
theorem exec_qwait_of_drained (m : Fin 4) (s : State)
    (h : queuesDrained s.me (m.val % 2 == 1) (m.val / 2 == 1) = true) : exec (.qwait m) s = .next (retire s s) := by
  simp only [exec_qwait, qwaitRes, h, Bool.not_true, blockIf_false, Res.checked_none, Res.checked_nil, Res.finish_done_retire]

/-- `qwait` blocks while something that it waits for, a load or a store, is outstanding. -/
theorem exec_qwait_of_not_drained (m : Fin 4) (s : State)
    (h : queuesDrained s.me (m.val % 2 == 1) (m.val / 2 == 1) = false) : exec (.qwait m) s = .next (waiting s s) := by
  simp only [exec_qwait, qwaitRes, h, Bool.not_false, blockIf_true, Res.checked_some, Res.finish_block_waiting]

/-- Settles O15: the fences are qmark.pod.full, a marker joins a queue with room, and `qwait` waits for its queues to drain. -/
theorem orderingWords : Obligations.OrderingWords := by
  intro s rd rs1 fm pred succ imm sc k m
  have drained := queuesDrained_iff s.me (m.val % 2 == 1) (m.val / 2 == 1)
  simp only [beq_iff_eq] at drained
  rw [exec_fence, exec_fenceTso, exec_fenceI]
  refine ⟨rfl, rfl, rfl, fun room => ?_, fun full => ?_, fun h => exec_qwait_of_drained m s (drained.mpr h), ?_⟩
  · have fence := exec_qmark_of_room .pod .full s room
    exact ⟨exec_qmark_of_room sc k s room, fence, fence, fence⟩
  · rw [exec_qmark, markRes_of_full sc k s full, Res.finish_block_waiting]
  · rintro ⟨e, he, hloads, hload, hperformed⟩
    refine exec_qwait_of_not_drained m s (Bool.eq_false_iff.mpr fun h => ?_)
    exact Bool.eq_false_iff.mp hperformed ((drained.mp h e he).1 hloads hload)

end Sys2Proof.Machine
end

section
/-! SUPPORT. Proofs of the family of 02_control_core.md: `tret` (O11), with the laws it rests on: the word that the decoder reads
back from its bytes, the fields of the R layout (R31) and what `tret` does (R25). -/
namespace Sys2Proof.Machine

/-! ### Words and their fields (R4, R31) -/

/-- The bytes of a 32-bit word, put together again, are the word. -/
theorem wordOfBytes_bytesOfWord (w : Nat) (h : w < 2 ^ 32) :
    wordOfBytes (BitVec.ofNat 8 w) (BitVec.ofNat 8 (w / 256)) (BitVec.ofNat 8 (w / 65536)) (BitVec.ofNat 8 (w / 16777216)) = w := by
  simp only [wordOfBytes, BitVec.toNat_ofNat]
  omega

/-- The decoder reads the word at the head of the bytes. `decode` stands as a variable while the definition is open: the kernel
would otherwise run it on a word of variables, and recurse too deep. -/
theorem decodeBytes_cons (b0 b1 b2 b3 : Byte) (rest : List Byte) :
    decodeBytes (b0 :: b1 :: b2 :: b3 :: rest) = (decode (wordOfBytes b0 b1 b2 b3)).map fun i => (i, rest) := by
  generalize opened : decodeBytes = bytes
  delta decodeBytes at opened
  obtain ⟨d, decode_eq⟩ : ∃ d, decode = d := ⟨decode, rfl⟩
  rw [decode_eq] at opened ⊢
  subst opened
  dsimp only
  cases d (wordOfBytes b0 b1 b2 b3) <;> rfl

/-- The table's decoder answers the instruction at the head of the word's bytes. Its definition is opened as in
`decodeBytes_cons`. -/
theorem decodeTableWord_eq_map (nbits w : Nat) :
    decodeTableWord nbits w = (decodeBytes (bytesOfWord (w % 2 ^ nbits))).toOption.map Prod.fst := by
  generalize opened : decodeTableWord = table
  delta decodeTableWord at opened
  generalize decodeBytes = bytes at opened ⊢
  subst opened
  dsimp only
  rcases bytes (bytesOfWord (w % 2 ^ nbits)) with _ | ⟨i, rest⟩ <;> rfl

/-- The table's decoder on a 32-bit word is `decode`, its reason for a refusal forgotten. -/
theorem decodeTableWord_eq (w : Nat) (h : w < 2 ^ 32) : decodeTableWord 32 w = (decode w).toOption := by
  rw [decodeTableWord_eq_map, Nat.mod_eq_of_lt h, bytesOfWord, decodeBytes_cons, wordOfBytes_bytesOfWord w h]
  cases decode w <;> rfl

/-- A field of a word is the number that its bits write. -/
theorem fld_toNat (w : BitVec 32) (lo len : Nat) : fld w.toNat lo len = (w.extractLsb' lo len).toNat := by
  rw [fld, BitVec.extractLsb'_toNat, Nat.shiftRight_eq_div_pow]

/-- A 32-bit word is the R-layout word of its six fields. -/
theorem encR_fields (w : Nat) (h : w < 2 ^ 32) :
    encR (fld w 25 7) (fld w 20 5) (fld w 15 5) (fld w 12 3) (fld w 7 5) (fld w 0 7) = w := by
  simp only [encR, fld]
  omega

/-! ### The words of `tret`'s funct3 and funct7 (R25, R37) -/

/-- In major SX, under funct3 0b111 and funct7 0b1111111, the decoder only asks whether the register fields are zero. -/
theorem decode_tretFields (w : Nat) (hop : fld w 0 7 = 0x0B) (h3 : fld w 12 3 = 7) (h7 : fld w 25 7 = 127) :
    decode w = zero (fld w 7 5 == 0 && fld w 15 5 == 0 && fld w 20 5 == 0) (.ok .tret) := by
  simp only [decode, hop, decodeSx, h3, decodeSx7, h7]

/-- Among these words, the one with zero register fields is 0xFE00_700B. -/
theorem tretFields_zero_iff (w : Nat) (h : w < 2 ^ 32) (hop : fld w 0 7 = 0x0B) (h3 : fld w 12 3 = 7) (h7 : fld w 25 7 = 127) :
    (fld w 7 5 == 0 && fld w 15 5 == 0 && fld w 20 5 == 0) = true ↔ w = 0xFE00700B := by
  have fields := encR_fields w h
  simp only [encR, hop, h3, h7] at fields
  simp only [Bool.and_eq_true, beq_iff_eq]
  omega

/-- R25: of the words with `tret`'s major, funct3 and funct7 the decoder accepts 0xFE00_700B alone. -/
theorem decodeTableWord_tretFields (w : BitVec 32) (hop : w.extractLsb' 0 7 = 0b0001011#7) (h3 : w.extractLsb' 12 3 = 0b111#3)
    (h7 : w.extractLsb' 25 7 = 0b1111111#7) :
    decodeTableWord 32 w.toNat = if w = 0xFE00700B#32 then some .tret else none := by
  have fop : fld w.toNat 0 7 = 0x0B := by rw [fld_toNat, hop]; rfl
  have f3 : fld w.toNat 12 3 = 7 := by rw [fld_toNat, h3]; rfl
  have f7 : fld w.toNat 25 7 = 127 := by rw [fld_toNat, h7]; rfl
  have accepted := (tretFields_zero_iff w.toNat w.isLt fop f3 f7).trans (BitVec.toNat_inj (y := 0xFE00700B#32))
  simp only [decodeTableWord_eq w.toNat w.isLt, decode_tretFields w.toNat fop f3 f7, zero, guardD, accepted]
  split <;> rfl

/-! ### What `tret` does (R25) -/

theorem exec_tret (s : State) : exec .tret s = .next (retireAt (s.modRegs Regs.leaveTrap) s s.me.r.tepc) := rfl

/-- `tret` retires at tepc with act clear. Nothing here asks for act: a handler and its outside are one case. -/
theorem exec_tret_returns (s : State) :
    ∃ t, exec .tret s = .next t ∧
      t.me.r = { s.me.r with pc := s.me.r.tepc, act := false, instret := s.me.r.instret + 1 } ∧
      (s.me.r.tepc ≠ s.me.exitAddr → t.me.status = .ready) ∧ t.me.rwcount = s.me.rwcount + 1 ∧ t.mem = s.mem := by
  let u := s.modRegs Regs.leaveTrap
  have hme : u.me = { s.me with r := { s.me.r with act := false } } := s.me_modRegs Regs.leaveTrap
  refine ⟨retireAt u s s.me.r.tepc, exec_tret s, ?_, fun hx => ?_, ?_, retireAt_mem ..⟩
  · rw [retireAt_r u s _ rfl, hme]
  · have hexit : s.me.r.tepc ≠ u.me.exitAddr := by rw [hme]; exact hx
    rw [retireAt_me u s _ rfl hexit]
  · obtain ⟨-, -, -, -, -, hrwcount⟩ := retireAt_keeps u s s.me.r.tepc rfl
    rw [hrwcount, hme]

/-- Settles O11: `tret` retires at tepc from any state, and its word is the only one of its fields that decodes. -/
theorem trapReturnRestores : Obligations.TrapReturnRestores := ⟨exec_tret_returns, decodeTableWord_tretFields⟩

end Sys2Proof.Machine
end

section
/-! SUPPORT. Laws for the families of words that change the current sequencer's own state: a change of a sequencer that replaces an
earlier one, checks that ready registers pass, and what a word that retires, or goes to an edge (R72), leaves. -/
namespace Sys2Proof.Machine

/-! ### Changes that replace one another -/

theorem tabPut_tabPut {α : Type} (t : Tab α) (n : Nat) (x y : α) : tabPut (tabPut t n x) n y = tabPut t n y := by
  induction t with
  | nil => simp [tabPut]
  | cons e t ih =>
    obtain ⟨k, v⟩ := e
    rcases Nat.lt_trichotomy n k with h | h | h
    · simp [tabPut, h]
    · simp [tabPut, h]
    · simp only [tabPut, if_neg (Nat.lt_asymm h), if_neg (Nat.ne_of_gt h), ih]

theorem State.setSeqAt_setSeqAt (s : State) (g k : Nat) (q q' : Seq) :
    (s.setSeqAt g k q).setSeqAt g k q' = s.setSeqAt g k q' := by
  simp [State.setSeqAt, State.setCore, Core.setSq, State.core, tabPut_tabPut]

/-- A sequencer that has just been put in its place may be put there again. -/
theorem State.setSeqAt_modSeqAt_fixed (s : State) (g k : Nat) (q : Seq) (f : Seq → Seq) (h : f q = q) :
    (s.setSeqAt g k q).modSeqAt g k f = s.setSeqAt g k q := by
  rw [State.modSeqAt, State.setSeqAt_setSeqAt, State.seqAt_setSeqAt_same, h]

/-- Going to an address ends by putting the sequencer in its place. -/
theorem State.goTo_eq_setSeqAt (s : State) (g k : Nat) (pc : Word) :
    ∃ u : State, s.goTo g k pc = u.setSeqAt g k ((s.goTo g k pc).seqAt g k) := by
  rcases s.goTo_cases g k pc with h | h <;> rw [h]
  · exact ⟨_, by rw [State.endSeq, State.seqAt_modSeqAt_same]; rfl⟩
  · exact ⟨s, by rw [State.seqAt_modSeqAt_same]; rfl⟩

/-- A word that writes back the sequencer as it was retires as one that writes nothing. -/
theorem retire_modRegs_of_fixed (s : State) (f : Regs → Regs) (h : f s.me.r = s.me.r) : retire (s.modRegs f) s = retire s s := by
  have counted : (s.modRegs f).countRetired s.cur.1 s.cur.2 = s.countRetired s.cur.1 s.cur.2 := by
    rw [State.modRegs, h, State.countRetired, State.countRetired, State.modSeqAt, State.modSeqAt, State.setMe,
      State.setSeqAt_setSeqAt, State.seqAt_setSeqAt_same]
    rfl
  rw [retire, retire, counted, State.me_modRegs, h]

/-! ### Checks that ready registers pass (R33, R34) -/

theorem XReady.mono {s : State} {l l' : List XReg} (h : XReady s l) (hl : l' ⊆ l) : XReady s l' := fun i hi => h i (hl hi)

theorem needX_of_ready {s : State} {l l' : List XReg} (h : XReady s l) (hl : l' ⊆ l) : needX s l' = none :=
  needX_full s l' (h.mono hl)

/-- A check that traps comes before the rest of its word. -/
theorem Res.finish_checked_trapIf (c : Bool) (cause : Nat) (tval : Word) (l : List Check) (r : Res) (s : State) :
    (Res.checked (trapIf c cause tval :: l) r).finish s =
      if c = true then .next (s.takeTrap s.cur.1 s.cur.2 cause tval) else (Res.checked l r).finish s := by
  cases c <;> rfl

/-! ### What a word that retires leaves (R9, R22) -/

/-- Registers after a word that changed registers and retired. -/
theorem retire_modRegs_r (s : State) (f : Regs → Regs) :
    (retire (s.modRegs f) s).me.r = { f s.me.r with pc := (f s.me.r).pc + 4, instret := (f s.me.r).instret + 1 } := by
  have hr := retire_r (s.modRegs f) s rfl
  rw [State.me_modRegs] at hr
  exact hr

/-- Predicates by name after a word that changed registers and retired. -/
theorem retire_modRegs_rp (s : State) (f : Regs → Regs) (j : PReg) : (retire (s.modRegs f) s).me.r.rp j = (f s.me.r).rp j := by
  rw [retire_modRegs_r]; rfl

/-- Registers after a word that wrote an x register and retired. -/
theorem retire_wx_rx (u s : State) (h : u.cur = s.cur) (rd : XReg) (w : Word) :
    (retire (u.wx rd w) s).rx rd = if rd = 0 then 0 else w := by
  have hr : (retire (u.wx rd w) s).rx rd = (u.me.r.wx rd w).rx rd := by
    have hcur : (u.wx rd w).cur = s.cur := h
    rw [State.rx, retire_r _ s hcur, State.wx, State.me_modRegs]; rfl
  rw [hr]
  split
  · next h0 => rw [h0, Regs.rx_zero]
  · next h0 => exact Regs.rx_wx_same _ _ _ h0

/-- Registers after an iteration boundary: a stop that takes hold there changes none. -/
theorem retireEdge_r (t s : State) (pc : Word) (h : t.cur = s.cur) :
    (retireEdge t s pc).me.r = { t.me.r with pc := pc, instret := t.me.r.instret + 1 } := by
  rw [← retireAt_r t s pc h]
  unfold State.me retireEdge
  rw [State.boundary_cur, retireAt_cur, h, State.seqAt_boundary]
  split <;> rfl

@[simp] theorem retireEdge_mem (t s : State) (pc : Word) : (retireEdge t s pc).mem = t.mem := by
  rw [retireEdge, State.boundary_mem, retireAt_mem]

/-- An iteration boundary at which no stop is requested is like any other retirement. -/
theorem retireEdge_of_noStop (t s : State) (pc : Word) (h : t.cur = s.cur) (hs : t.me.stopReq = false) :
    retireEdge t s pc = retireAt t s pc := by
  have noStop : ((retireAt t s pc).seqAt s.cur.1 s.cur.2).stopReq = false := by
    rw [State.me, h] at hs
    rw [retireAt, State.seqAt_goTo, State.seqAt_countRetired]
    split
    · rfl
    · exact hs
  obtain ⟨u, hu⟩ := State.goTo_eq_setSeqAt (t.countRetired s.cur.1 s.cur.2) s.cur.1 s.cur.2 pc
  change retireAt t s pc = u.setSeqAt s.cur.1 s.cur.2 ((retireAt t s pc).seqAt s.cur.1 s.cur.2) at hu
  rw [retireEdge, State.boundary, hu]
  exact State.setSeqAt_modSeqAt_fixed _ _ _ _ _ (by simp [noStop])

/-- A requested stop takes hold at an iteration boundary that does not end the sequencer (R72). -/
theorem retireEdge_stops (t s : State) (pc : Word) (h : t.cur = s.cur) (hs : t.me.stopReq = true) (hx : pc ≠ t.me.exitAddr) :
    (retireEdge t s pc).me.stopped = true := by
  have hme := retireAt_me t s pc h hx
  rw [State.me, retireAt_cur, h] at hme
  rw [State.me, retireEdge, State.boundary_cur, retireAt_cur, h, State.seqAt_boundary, hme]
  simp [hs]

end Sys2Proof.Machine
end

section
/-! SUPPORT. Proofs of the family of 05_scalar_extensions.md: predicate logic (O22), with the laws of the rotating predicate
names (R73) and of the bits that `pfirst` and `pwhile` write (R78). -/
namespace Sys2Proof.Machine

/-! ### Predicate names (R35, R73) -/

/-- Two names never stand for one physical predicate register. -/
theorem rotP_injective (prb : Fin 8) : Function.Injective (rotP prb) := by
  intro i j h
  have hval : (rotP prb i).val = (rotP prb j).val := congrArg Fin.val h
  apply Fin.ext
  unfold rotP at hval
  split at hval <;> split at hval
  · exact hval
  all_goals simp only at hval; omega

theorem Regs.rp_wp_same (r : Regs) (j : PReg) (b : PBits) : (r.wp j b).rp j = if j = 0 then BitVec.allOnes 1024 else b := by
  unfold Regs.rp Regs.wp
  split
  · rfl
  · exact vput_same ..

theorem Regs.rp_wp_of_ne_zero (r : Regs) (j : PReg) (b : PBits) (h : j ≠ 0) : (r.wp j b).rp j = b := by
  rw [Regs.rp_wp_same, if_neg h]

theorem Regs.rp_wp_other (r : Regs) (i j : PReg) (b : PBits) (h : i ≠ j) : (r.wp j b).rp i = r.rp i := by
  rcases r.wp_cases j b with hw | hw <;> rw [hw]
  unfold Regs.rp
  split
  · rfl
  · exact vput_other _ _ _ _ ((rotP_injective r.prb).ne h)

/-! ### Bits that the words write (R78) -/

/-- `pfirst`: the one bit that is set and has none set below it. -/
theorem getLsbD_firstOne (b : PBits) (i : Nat) (hi : i < 1024) :
    (firstOne b).getLsbD i = (b.getLsbD i && (List.range i).all fun j => !b.getLsbD j) := by
  unfold firstOne
  rw [Bool.eq_iff_iff, Bool.and_eq_true, List.all_eq_true]
  simp only [List.mem_range, Bool.not_eq_true']
  split
  next none_set =>
    have unset : b.getLsbD i = false := by
      simpa using List.find?_eq_none.mp none_set i (List.mem_range.mpr hi)
    simp [unset]
  next f first =>
    obtain ⟨hf, hmem, hbelow⟩ := List.find?_range_eq_some.mp first
    have bit : (BitVec.ofNat 1024 (2 ^ f)).getLsbD i = true ↔ f = i := by
      rw [BitVec.getLsbD_ofNat, decide_eq_true hi, Bool.true_and, Nat.testBit_two_pow, decide_eq_true_iff]
    rw [bit]
    constructor
    · rintro rfl
      exact ⟨hf, fun j hj => by simpa using hbelow j hj⟩
    · rintro ⟨hset, hnone⟩
      rcases Nat.lt_trichotomy f i with h | h | h
      · exact absurd hf (by simp [hnone f h])
      · exact h
      · exact absurd hset (by simpa using hbelow i h)

/-- `pwhile`: the bits whose place, added to the first operand, stays below the second. -/
theorem getLsbD_whileBits (a b i : Nat) (hi : i < 1024) : (whileBits a b).getLsbD i = decide (a + i < b) := by
  rw [whileBits, BitVec.getLsbD_ofNat, Nat.testBit_two_pow_sub_one, decide_eq_true hi, Bool.true_and]
  congr 1
  rw [eq_iff_iff]
  omega

/-! ### The words (R78) -/

/-- A predicate result stands in the named register, unless that is p0. -/
theorem predRes_finish (pd : PReg) (b : PBits) (s : State) :
    ∃ t, (predRes pd b s).finish s = .next t ∧ t.me.r.rp pd = if pd = 0 then BitVec.allOnes 1024 else b := by
  refine ⟨_, Res.finish_done_retire .., ?_⟩
  rw [retire_modRegs_rp, Regs.rp_wp_same]

/-- A write to p0 is discarded. -/
theorem predRes_zero_finish (b : PBits) (s : State) : (predRes 0 b s).finish s = .next (retire s s) := by
  rw [predRes, Res.finish_done_retire, retire_modRegs_of_fixed s _ (Regs.wp_zero _ _)]

theorem exec_pand (pd pa pb : PReg) (s : State) :
    exec (.pand pd pa pb) s = (predRes pd (s.me.r.rp pa &&& s.me.r.rp pb) s).finish s := rfl

theorem exec_por (pd pa pb : PReg) (s : State) :
    exec (.por pd pa pb) s = (predRes pd (s.me.r.rp pa ||| s.me.r.rp pb) s).finish s := rfl

theorem exec_pnot (pd pa : PReg) (s : State) : exec (.pnot pd pa) s = (predRes pd (~~~(s.me.r.rp pa)) s).finish s := rfl

theorem exec_pmov (pd pa : PReg) (s : State) : exec (.pmov pd pa) s = (predRes pd (s.me.r.rp pa) s).finish s := rfl

theorem exec_pfirst (pd pa : PReg) (s : State) : exec (.pfirst pd pa) s = (predRes pd (firstOne (s.me.r.rp pa)) s).finish s := rfl

theorem exec_ppop {s : State} {rd : XReg} (pa : PReg) (h : XReady s [rd]) :
    exec (.ppop rd pa) s = .next (retire (s.wx rd (BitVec.ofNat 64 (countOnes (s.me.r.rp pa) 1024))) s) := by
  change (ppopRes rd pa s).finish s = _
  rw [ppopRes, needX_full s _ h, Res.checked_none, Res.checked_nil, Res.finish_done_retire]

theorem exec_pwhile {s : State} {xs1 xs2 : XReg} (pd : PReg) (h : XReady s [xs1, xs2]) :
    exec (.pwhile pd xs1 xs2) s = (predRes pd (whileBits (s.rx xs1).toNat (s.rx xs2).toNat) s).finish s := by
  change (pwhileRes pd xs1 xs2 s).finish s = _
  rw [pwhileRes, needX_full s _ h, Res.checked_none, Res.checked_nil]

/-- Settles O22: every word writes its 1,024 bits to the named register, and p0 takes none of them. -/
theorem predicateLogic : Obligations.PredicateLogic := by
  intro s pd pa pb rd xs1 xs2 ready
  have readyRd : XReady s [rd] := XReady.mono ready (by simp)
  have readySources : XReady s [xs1, xs2] := XReady.mono ready (by simp)
  refine ⟨?_, ?_, ?_, ?_, ?_, fun hpd => ?_, fun hpd => ?_, ?_, ?_, ?_, rfl, rfl, rfl, rfl, rfl, rfl, rfl⟩
  · rw [exec_pand]; exact predRes_finish ..
  · rw [exec_por]; exact predRes_finish ..
  · rw [exec_pnot]; exact predRes_finish ..
  · rw [exec_pmov]; exact predRes_finish ..
  · exact ⟨_, exec_ppop pa readyRd, retire_wx_rx s s rfl rd _⟩
  · obtain ⟨t, ht, hp⟩ := predRes_finish pd (firstOne (s.me.r.rp pa)) s
    rw [if_neg hpd] at hp
    exact ⟨t, ht, fun i hi => by rw [hp]; exact getLsbD_firstOne _ i hi⟩
  · obtain ⟨t, ht, hp⟩ := predRes_finish pd (whileBits (s.rx xs1).toNat (s.rx xs2).toNat) s
    rw [if_neg hpd] at hp
    exact ⟨t, (exec_pwhile pd readySources).trans ht, fun i hi => by rw [hp]; exact getLsbD_whileBits _ _ i hi⟩
  · rw [exec_pand, predRes_zero_finish]
  · rw [exec_pfirst, predRes_zero_finish]
  · rw [exec_pwhile 0 readySources, predRes_zero_finish]

end Sys2Proof.Machine
end

section
/-! SUPPORT. Proofs of the family of 05_scalar_extensions.md: the scratchpad allocator (O25), with what each of its words does when its
registers are full (R83, R84). -/
namespace Sys2Proof.Machine

/-! ### The bump allocator (R83) -/

theorem exec_spaBump {s : State} {rd xs1 : XReg} (hx : XReady s [rd, xs1]) :
    exec (.spaBump rd xs1) s =
      if s.me.r.alloc.bl < s.me.r.alloc.bp + roundUp (s.rx xs1).toNat 64 then
        .next (s.takeTrap s.cur.1 s.cur.2 causeAlloc (s.rx xs1))
      else
        .next (retire ((s.setAlloc { s.me.r.alloc with
          bp := s.me.r.alloc.bp + roundUp (s.rx xs1).toNat 64 }).wx rd (BitVec.ofNat 64 s.me.r.alloc.bp)) s) := by
  change (spaBumpRes rd xs1 s).finish s = _
  rw [spaBumpRes, needX_of_ready hx (by simp), Res.checked_none, Res.finish_checked_trapIf]
  simp only [decide_eq_true_eq]
  rfl

theorem exec_spaMark {s : State} {rd : XReg} (hx : XReady s [rd]) :
    exec (.spaMark rd) s = .next (retire (s.wx rd (BitVec.ofNat 64 s.me.r.alloc.bp)) s) := by
  change (spaMarkRes rd s).finish s = _
  rw [spaMarkRes, needX_full s _ hx]
  rfl

theorem exec_spaRel {s : State} {xs1 : XReg} (hx : XReady s [xs1]) :
    exec (.spaRel xs1) s =
      if (s.rx xs1).toNat < s.me.r.alloc.bb ∨ s.me.r.alloc.bp < (s.rx xs1).toNat ∨ (s.rx xs1).toNat % 64 ≠ 0 then
        .next (s.takeTrap s.cur.1 s.cur.2 causeAccess (s.rx xs1))
      else .next (retire (s.setAlloc { s.me.r.alloc with bp := (s.rx xs1).toNat }) s) := by
  change (spaRelRes xs1 s).finish s = _
  rw [spaRelRes, needX_full s _ hx, Res.checked_none, Res.finish_checked_trapIf]
  simp only [Bool.or_eq_true, decide_eq_true_eq, bne_iff_ne, or_assoc]
  rfl

/-! ### The rings (R84) -/

/-- Whether a ring can give n bytes: a request that is not 0, within the ring's size, room in its list, and room for the cost. -/
def Ring.Gives (r : Ring) (n : Nat) : Prop := 0 < n ∧ n ≤ r.rs ∧ r.fifo.length < 16 ∧ r.u + (r.take n).2 ≤ r.rs

theorem Ring.take_before_end {r : Ring} {n : Nat} (h : r.h + n ≤ r.rs) : r.take n = (r.h, n) := if_pos h

theorem Ring.take_past_end {r : Ring} {n : Nat} (h : r.rs < r.h + n) : r.take n = (0, r.rs - r.h + n) := if_neg (by omega)

/-- The allocator after a ring has changed. -/
def Alloc.setRing (a : Alloc) (k : Fin 4) (r : Ring) : Alloc := { a with rings := vput a.rings k r }

theorem exec_spaRingGet_gives {s : State} {rd xs1 : XReg} {k : Fin 4} (hx : XReady s [rd, xs1]) {n : Nat}
    (hn : n = roundUp (s.rx xs1).toNat 64) (h : (s.me.r.alloc.rings[k]).Gives n) :
    exec (.spaRingGet rd xs1 k) s =
      .next (retire ((s.setAlloc (s.me.r.alloc.setRing k ((s.me.r.alloc.rings[k]).put n))).wx rd
        (BitVec.ofNat 64 ((s.me.r.alloc.rings[k]).rb + ((s.me.r.alloc.rings[k]).take n).1))) s) := by
  obtain ⟨hpos, hsize, hlist, hcost⟩ := h
  change (spaRingGetRes rd xs1 k s).finish s = _
  rw [spaRingGetRes, needX_of_ready hx (by simp), Res.checked_none, Res.finish_checked_trapIf, Res.finish_checked_trapIf, ← hn,
    if_neg, if_neg]
  · rfl
  · simpa using hcost
  · simp only [Bool.or_eq_true, decide_eq_true_eq, beq_iff_eq]
    omega

theorem exec_spaRingGet_refuses {s : State} {rd xs1 : XReg} {k : Fin 4} (hx : XReady s [rd, xs1]) {n : Nat}
    (hn : n = roundUp (s.rx xs1).toNat 64) (h : ¬ (s.me.r.alloc.rings[k]).Gives n) :
    exec (.spaRingGet rd xs1 k) s = .next (s.takeTrap s.cur.1 s.cur.2 causeAlloc (s.rx xs1)) := by
  change (spaRingGetRes rd xs1 k s).finish s = _
  rw [spaRingGetRes, needX_of_ready hx (by simp), Res.checked_none, Res.finish_checked_trapIf, Res.finish_checked_trapIf, ← hn]
  split
  · rfl
  · next basic =>
    simp only [Bool.or_eq_true, decide_eq_true_eq, beq_iff_eq] at basic
    unfold Ring.Gives at h
    exact if_pos (decide_eq_true (by omega))

theorem exec_spaRingPut_empty {s : State} {xs1 : XReg} {k : Fin 4} (hx : XReady s [xs1]) (h : (s.me.r.alloc.rings[k]).fifo = []) :
    exec (.spaRingPut xs1 k) s = .next (s.takeTrap s.cur.1 s.cur.2 causeAccess (s.rx xs1)) := by
  change (spaRingPutRes xs1 k s).finish s = _
  rw [spaRingPutRes, h, needX_full s _ hx]
  rfl

theorem exec_spaRingPut_oldest {s : State} {xs1 : XReg} {k : Fin 4} {o c : Nat} {rest : List (Nat × Nat)} (hx : XReady s [xs1])
    (h : (s.me.r.alloc.rings[k]).fifo = (o, c) :: rest) :
    exec (.spaRingPut xs1 k) s =
      if (s.rx xs1).toNat ≠ (s.me.r.alloc.rings[k]).rb + o then .next (s.takeTrap s.cur.1 s.cur.2 causeAccess (s.rx xs1))
      else .next (retire (s.setAlloc (s.me.r.alloc.setRing k { s.me.r.alloc.rings[k] with
        u := (s.me.r.alloc.rings[k]).u - c, fifo := rest })) s) := by
  change (spaRingPutRes xs1 k s).finish s = _
  rw [spaRingPutRes, h]
  dsimp only
  rw [needX_full s _ hx, Res.checked_none, Res.finish_checked_trapIf]
  simp only [bne_iff_ne]
  rfl

/-! ### The allocator after a word has retired -/

theorem retire_setAlloc_alloc (s : State) (a : Alloc) : (retire (s.setAlloc a) s).me.r.alloc = a := by
  rw [State.setAlloc, retire_modRegs_r]

theorem retire_setAlloc_wx_alloc (s : State) (a : Alloc) (rd : XReg) (w : Word) :
    (retire ((s.setAlloc a).wx rd w) s).me.r.alloc = a := by
  rw [retire_r ((s.setAlloc a).wx rd w) s rfl, State.wx, State.me_modRegs, State.setAlloc, State.me_modRegs]
  exact Regs.wx_alloc ..

theorem Alloc.setRing_same (a : Alloc) (k : Fin 4) (r : Ring) : (a.setRing k r).rings[k] = r := vput_same ..

/-- A ring that gives the request has taken it, and rd holds its address. -/
theorem exec_spaRingGet_takes {s : State} {rd xs1 : XReg} {k : Fin 4} (hx : XReady s [rd, xs1]) {n : Nat}
    (hn : n = roundUp (s.rx xs1).toNat 64) (h : (s.me.r.alloc.rings[k]).Gives n) :
    ∃ t, exec (.spaRingGet rd xs1 k) s = .next t ∧ t.me.r.alloc.rings[k] = (s.me.r.alloc.rings[k]).put n ∧
      (rd ≠ 0 → t.rx rd = BitVec.ofNat 64 ((s.me.r.alloc.rings[k]).rb + ((s.me.r.alloc.rings[k]).take n).1)) := by
  refine ⟨_, exec_spaRingGet_gives hx hn h, ?_, fun hrd => ?_⟩
  · rw [retire_setAlloc_wx_alloc, Alloc.setRing_same]
  · rw [retire_wx_rx (s.setAlloc _) s rfl, if_neg hrd]

/-- Settles O25: the bump words compare with the limits of their range, and a ring gives exactly what `Ring.Gives` allows. -/
theorem allocatorWords : Obligations.AllocatorWords := by
  intro s rd xs1 k ready
  have readyRd : XReady s [rd] := XReady.mono ready (by simp)
  have readySource : XReady s [xs1] := XReady.mono ready (by simp)
  refine ⟨fun fits => ?_, fun beyond => ?_, exec_spaMark readyRd, fun hlo hhi haligned => ?_, fun outside => ?_, ?_, ?_, ?_, ?_, ?_,
    rfl, rfl, rfl, rfl, rfl⟩
  · rw [exec_spaBump ready, if_neg (Nat.not_lt.mpr fits)]
  · rw [exec_spaBump ready, if_pos beyond]
  · rw [exec_spaRel readySource, if_neg (by omega)]
  · rw [exec_spaRel readySource, if_pos outside]
  · rintro r n rfl hn hpos hsize hlist
    constructor
    · intro hend hroom
      have taken := Ring.take_before_end hend
      have takes := exec_spaRingGet_takes ready hn ⟨hpos, hsize, hlist, by rw [taken]; exact hroom⟩
      rwa [Ring.put, taken] at takes
    · intro hend hroom
      have taken := Ring.take_past_end hend
      have takes := exec_spaRingGet_takes ready hn ⟨hpos, hsize, hlist, by rw [taken]; exact hroom⟩
      rw [Ring.put, taken] at takes
      simpa only [Nat.zero_add, Nat.add_zero] using takes
  · rintro r n rfl hn hcases
    refine exec_spaRingGet_refuses ready hn fun ⟨hpos, hsize, hlist, hcost⟩ => ?_
    rcases Nat.lt_or_ge (s.me.r.alloc.rings[k]).rs ((s.me.r.alloc.rings[k]).h + n) with hend | hend
    · rw [Ring.take_past_end hend] at hcost; omega
    · rw [Ring.take_before_end hend] at hcost; omega
  · intro o c rest hfifo hother
    rw [exec_spaRingPut_oldest readySource hfifo, if_pos hother]
  · intro o c rest hfifo hoffset
    refine ⟨_, (exec_spaRingPut_oldest readySource hfifo).trans (if_neg fun other => other hoffset), ?_⟩
    rw [retire_setAlloc_alloc, Alloc.setRing_same]
  · exact exec_spaRingPut_empty readySource

end Sys2Proof.Machine
end

section
/-! SUPPORT. Proofs of the family of 05_scalar_extensions.md: shape registers, layout records, tile configurations and the full/empty
checks (O26), with what each of their words does when its registers are full (R94, R95, R101). -/
namespace Sys2Proof.Machine

/-! ### Shape registers and layout records (R94) -/

theorem exec_shpWr {s : State} {xs1 : XReg} (sh : Fin 32) (hx : XReady s [xs1]) :
    exec (.shpWr sh xs1) s =
      .next (retire (s.modRegs fun r => { r with sh := vput r.sh sh ((s.rx xs1).setWidth 32) }) s) := by
  change (shpWrRes sh xs1 s).finish s = _
  rw [shpWrRes, needX_full s _ hx]
  rfl

theorem exec_shpRd {s : State} {rd : XReg} (sh : Fin 32) (hx : XReady s [rd]) :
    exec (.shpRd rd sh) s = .next (retire (s.wx rd ((s.me.r.sh[sh]).setWidth 64)) s) := by
  change (shpRdRes rd sh s).finish s = _
  rw [shpRdRes, needX_full s _ hx]
  rfl

theorem exec_lyWr {s : State} {xs1 xs2 : XReg} (ly : Fin 16) (hx : XReady s [xs1, xs2]) :
    exec (.lyWr ly xs1 xs2) s =
      .next (retire (s.modRegs fun r => { r with ly := vput r.ly ly (s.rx xs2 ++ s.rx xs1) }) s) := by
  change (lyWrRes ly xs1 xs2 s).finish s = _
  rw [lyWrRes, needX_full s _ hx]
  rfl

theorem exec_lyRd {s : State} {rd : XReg} (ly : Fin 16) (hi : Bool) (hx : XReady s [rd]) :
    exec (.lyRd rd ly hi) s = .next (retire (s.wx rd (s.me.r.ly[ly].extractLsb' (if hi then 64 else 0) 64)) s) := by
  change (lyRdRes rd ly hi s).finish s = _
  rw [lyRdRes, needX_full s _ hx]
  cases hi <;> rfl

/-! ### Tile configurations (R95) -/

/-- Outside the partition the words on a tile trap ACCESS with 64 + k. -/
theorem exec_tile_outside {s : State} {rd xs1 : XReg} {tl : Fin 8} (hx : XReady s [rd, xs1]) (h : s.myCore.tiles ≤ tl.val) :
    exec (.tcfgWr tl xs1) s = .next (s.takeTrap s.cur.1 s.cur.2 causeAccess (BitVec.ofNat 64 (64 + tl.val))) ∧
      exec (.tcfgRd rd tl) s = .next (s.takeTrap s.cur.1 s.cur.2 causeAccess (BitVec.ofNat 64 (64 + tl.val))) := by
  change (tcfgWrRes tl xs1 s).finish s = _ ∧ (tcfgRdRes rd tl s).finish s = _
  rw [tcfgWrRes, tcfgRdRes, needX_of_ready hx (by simp), needX_of_ready hx (by simp), needTile, decide_eq_true h]
  exact ⟨rfl, rfl⟩

/-- A write to a tile of the partition: its tag is judged first, then its columns. -/
theorem exec_tcfgWr {s : State} {xs1 : XReg} {tl : Fin 8} (hx : XReady s [xs1]) (h : tl.val < s.myCore.tiles) :
    exec (.tcfgWr tl xs1) s =
      if (tileCfgOf (s.rx xs1).toNat).tag = 14 ∨ (tileCfgOf (s.rx xs1).toNat).tag = 15 then
        .next (s.takeTrap s.cur.1 s.cur.2 causeFormat (formatVal 0 (tileCfgOf (s.rx xs1).toNat).tag (64 + tl.val)))
      else if (tileCfgOf (s.rx xs1).toNat).cols = 0 ∨
          elemsOf (tileCfgOf (s.rx xs1).toNat).tag < (tileCfgOf (s.rx xs1).toNat).cols then
        .next (s.takeTrap s.cur.1 s.cur.2 causeAccess (s.rx xs1))
      else
        .next (retire (s.modCore s.cur.1 fun c => { c with tcfg := vput c.tcfg tl (tileCfgOf (s.rx xs1).toNat) }) s) := by
  change (tcfgWrRes tl xs1 s).finish s = _
  rw [tcfgWrRes, needX_full s _ hx, needTile, decide_eq_false (Nat.not_le.mpr h), trapIf_false, Res.checked_none, Res.checked_none,
    Res.finish_checked_trapIf, Res.finish_checked_trapIf]
  simp only [Bool.or_eq_true, beq_iff_eq, decide_eq_true_eq]
  rfl

theorem exec_tcfgRd {s : State} {rd : XReg} {tl : Fin 8} (hx : XReady s [rd]) (h : tl.val < s.myCore.tiles) :
    exec (.tcfgRd rd tl) s = .next (retire (s.wx rd (BitVec.ofNat 64 (s.myCore.tcfg[tl]).word)) s) := by
  change (tcfgRdRes rd tl s).finish s = _
  rw [tcfgRdRes, needX_full s _ hx, needTile, decide_eq_false (Nat.not_le.mpr h)]
  rfl

/-- A retired word that changed records of its core, but no sequencer. -/
theorem retire_modCore_keeps (s : State) (f : Core → Core) (h : (f s.myCore).seqs = s.myCore.seqs) :
    (retire (s.modCore s.cur.1 f) s).myCore.tcfg = (f s.myCore).tcfg ∧
      (retire (s.modCore s.cur.1 f) s).me.r.pc = s.me.r.pc + 4 := by
  have hme : (s.modCore s.cur.1 f).me = s.me := State.seqAt_modCore_of_seqs s s.cur.1 s.cur.2 f h
  constructor
  · rw [State.myCore, retire_cur, State.modCore_cur, retire_core, State.core_modCore_same]
    rfl
  · rw [retire_r (s.modCore s.cur.1 f) s rfl, hme]

/-! ### Full/empty checks (R101) -/

theorem exec_feChkX {s : State} {rd : XReg} (k : Fin 32) (hx : XReady s [rd]) :
    exec (.feChkX rd k) s = .next (retire (s.wx rd (if s.me.r.xIsFull k = true then 1 else 0)) s) := by
  change (feChkXRes rd k s).finish s = _
  rw [feChkXRes, needX_full s _ hx]
  rfl

/-- Without a vector context the check of a vector register traps ACCESS (R16). -/
theorem exec_feChkV {s : State} {rd : XReg} (k : Fin 32) (hx : XReady s [rd]) :
    exec (.feChkV rd k) s =
      if s.me.r.vctx = true then .next (retire (s.wx rd (if s.me.r.vfull[s.vphys k] = true then 1 else 0)) s)
      else .next (s.takeTrap s.cur.1 s.cur.2 causeAccess (wordOf (.feChkV rd k))) := by
  change (feChkVRes rd k s).finish s = _
  rw [feChkVRes, needX_full s _ hx, needCtx, Res.finish_checked_trapIf]
  cases s.me.r.vctx <;> rfl

/-- Settles O26: what each word writes is read back, and its checks come in the order that R95 and R101 give. -/
theorem configurationMoves : Obligations.ConfigurationMoves := by
  intro s rd xs1 xs2 sh k ly tl ready
  have readyRd : XReady s [rd] := XReady.mono ready (by simp)
  have readySource : XReady s [xs1] := XReady.mono ready (by simp)
  have readySources : XReady s [xs1, xs2] := XReady.mono ready (by simp)
  have readyBoth : XReady s [rd, xs1] := XReady.mono ready (by simp)
  refine ⟨⟨_, exec_shpWr sh readySource, ?_⟩, exec_shpRd sh readyRd, ⟨_, exec_lyWr ly readySources, ?_⟩,
    fun hi => exec_lyRd ly hi readyRd, fun htile htag hlo hhi => ?_, exec_tcfgRd readyRd, fun htile htag => ?_,
    fun htile htag hcols => ?_, exec_tile_outside readyBoth, exec_feChkX k readyRd, fun hctx => ?_, fun hctx => ?_, rfl, rfl⟩
  · rw [retire_modRegs_r]
    exact ⟨vput_same .., fun j hj => vput_other _ _ _ _ hj, rfl⟩
  · rw [retire_modRegs_r]
    exact ⟨vput_same .., fun j hj => vput_other _ _ _ _ hj⟩
  · have accepted : ¬ (bitsOf (s.rx xs1).toNat 21 11 = 0 ∨
        elemsOf (bitsOf (s.rx xs1).toNat 3 0) < bitsOf (s.rx xs1).toNat 21 11) := by omega
    obtain ⟨htcfg, hpc⟩ := retire_modCore_keeps s (fun c => { c with tcfg := vput c.tcfg tl (tileCfgOf (s.rx xs1).toNat) }) rfl
    refine ⟨_, ((exec_tcfgWr readySource htile).trans (if_neg (not_or.mpr htag))).trans (if_neg accepted), ?_, ?_, hpc⟩
    · rw [htcfg]; exact vput_same ..
    · rw [retire_mem]; rfl
  · refine ((exec_tcfgWr readySource htile).trans (if_pos htag)).trans ?_
    rw [formatVal, Nat.zero_mul, Nat.zero_add]
    rfl
  · exact ((exec_tcfgWr readySource htile).trans (if_neg (not_or.mpr htag))).trans (if_pos hcols)
  · rw [exec_feChkV k readyRd, if_pos hctx]
  · rw [exec_feChkV k readyRd, if_neg (by simp [hctx])]

end Sys2Proof.Machine
end

section
/-! SUPPORT. What a write into a core's window (R231 to R233, R241, R242) leaves of every sequencer's registers: everything but the bytes
of vector registers, whoever writes, and so does a profiling snapshot (R330). -/
namespace Sys2Proof.Machine

/-! ### Registers but for the bytes of vector registers -/

/-- The registers, the bytes of the vector registers left out. -/
def Regs.butV (r : Regs) : Regs := { r with v := Vector.replicate 32 0 }

/-- Registers that agree but for those bytes agree in what loops use. -/
theorem Regs.eq_of_butV {r r' : Regs} (h : r.butV = r'.butV) :
    r.loops = r'.loops ∧ r.prb = r'.prb ∧ r.vrb = r'.vrb ∧ r.p = r'.p :=
  ⟨show r.butV.loops = r'.butV.loops by rw [h], show r.butV.prb = r'.butV.prb by rw [h], show r.butV.vrb = r'.butV.vrb by rw [h],
    show r.butV.p = r'.butV.p by rw [h]⟩

/-- The second state has every sequencer's registers as the first, but for the bytes of vector registers, and the same sequencer current. -/
structure SameRegsButV (s t : State) : Prop where
  cur : t.cur = s.cur
  regs : ∀ g k, (t.seqAt g k).r.butV = (s.seqAt g k).r.butV

namespace SameRegsButV

theorem refl (s : State) : SameRegsButV s s := ⟨rfl, fun _ _ => rfl⟩

theorem trans {s t u : State} (h : SameRegsButV s t) (h' : SameRegsButV t u) : SameRegsButV s u :=
  ⟨h'.cur.trans h.cur, fun g k => (h'.regs g k).trans (h.regs g k)⟩

theorem me {s t : State} (h : SameRegsButV s t) : t.me.r.butV = s.me.r.butV := by
  rw [State.me, h.cur]
  exact h.regs ..

/-- Registers stand in the cores alone. -/
theorem of_cores {s t : State} (hcur : t.cur = s.cur) (h : t.cores = s.cores) : SameRegsButV s t :=
  ⟨hcur, fun g k => by rw [State.seqAt, State.seqAt, State.core, State.core, h]⟩

/-- What leaves the cores as they are leaves the registers as they are. -/
theorem of_cores_right {s t u : State} (h : SameRegsButV s t) (hcur : u.cur = t.cur) (hcores : u.cores = t.cores) :
    SameRegsButV s u :=
  h.trans (of_cores hcur hcores)

theorem modCore (s : State) (g : Nat) (f : Core → Core) (h : ∀ k, ((f (s.core g)).sq k).r.butV = ((s.core g).sq k).r.butV) :
    SameRegsButV s (s.modCore g f) := by
  refine ⟨rfl, fun g' k => ?_⟩
  by_cases hg : g' = g
  · rw [hg, State.seqAt, State.core_modCore_same]; exact h k
  · rw [State.seqAt, State.core_modCore_other _ _ _ _ hg]; rfl

theorem modCore_of_seqs (s : State) (g : Nat) (f : Core → Core) (h : (f (s.core g)).seqs = (s.core g).seqs) :
    SameRegsButV s (s.modCore g f) :=
  modCore s g f fun k => by rw [Core.sq, h]; rfl

end SameRegsButV

/-! ### Changes of every sequencer -/

/-- What a change of every entry leaves of each, it leaves of the default too. -/
theorem tabGet_map_of_fixed {α β : Type} (d : α) (t : Tab α) (n : Nat) (f : α → α) (p : α → β) (h : ∀ x, p (f x) = p x) :
    p (tabGet d (t.map fun e => (e.1, f e.2)) n) = p (tabGet d t n) := by
  induction t with
  | nil => rfl
  | cons e t ih =>
    simp only [List.map_cons, tabGet]
    split
    · exact h _
    · exact ih

theorem SameRegsButV.mapSeqs (s : State) (f : Seq → Seq) (h : ∀ q, (f q).r.butV = q.r.butV) : SameRegsButV s (s.mapSeqs f) :=
  ⟨rfl, fun g k =>
    tabGet_map_of_fixed ({} : Core) s.cores g (fun c => { c with seqs := c.seqs.map fun q => (q.1, f q.2) }) (fun c => (c.sq k).r.butV)
      fun c => tabGet_map_of_fixed ({} : Seq) c.seqs k f (fun q => q.r.butV) h⟩

/-! ### What comes about with a write -/

/-- Reservations that a write takes: those of some places, held by sequencers here and by other packages. -/
theorem State.loseReservations_eq (s : State) (l : Loc) (n : Nat) :
    ∃ hit : Loc → Bool, s.loseReservations l n =
      { s.mapSeqs (fun q => if q.resv.any hit then { q with resv := none } else q) with
        remoteResv := s.remoteResv.filter fun r => !hit r.loc } :=
  ⟨_, rfl⟩

theorem State.loseReservations_sameRegsButV (s : State) (l : Loc) (n : Nat) : SameRegsButV s (s.loseReservations l n) := by
  obtain ⟨hit, heq⟩ := s.loseReservations_eq l n
  have mapped := SameRegsButV.mapSeqs s (fun q => if q.resv.any hit then { q with resv := none } else q) fun q => by
    split <;> rfl
  rw [heq]
  exact mapped.of_cores_right rfl rfl

theorem State.noteWrite_sameRegsButV (s : State) (l : Loc) (key n : Nat) : SameRegsButV s (s.noteWrite l key n) :=
  (SameRegsButV.of_cores (s := s) (t := (s.clearPoison key n).invalidateWatches key n) rfl rfl).trans
    (State.loseReservations_sameRegsButV _ l n)

/-- Bytes of memory that a write changes, with what comes about with it. -/
theorem State.putMem_noteWrite_sameRegsButV (s : State) (key : Nat) (b : List Byte) (l : Loc) (n : Nat) :
    SameRegsButV s ((s.putMem key b).noteWrite l key n) :=
  (SameRegsButV.of_cores (s := s) (t := s.putMem key b) rfl rfl).trans (State.noteWrite_sameRegsButV ..)

theorem State.writeSpill_sameRegsButV (s : State) (g off : Nat) (b : List Byte) : SameRegsButV s (s.writeSpill g off b) := by
  unfold State.writeSpill State.noteSpill
  split
  · split <;> exact SameRegsButV.of_cores rfl rfl
  · exact SameRegsButV.refl s

theorem State.setOwner_sameRegsButV (s : State) (key n : Nat) (o : Option Nat) : SameRegsButV s (s.setOwner key n o) :=
  SameRegsButV.of_cores rfl rfl

/-! ### The windows -/

theorem State.writeSpad_sameRegsButV (s : State) (w : Writer) (g off : Nat) (b : List Byte) :
    SameRegsButV s (s.writeSpad w g off b) := by
  have spill : SameRegsButV s (if w == .unit then s else s.writeSpill g off b) := by
    split
    · exact SameRegsButV.refl s
    · exact s.writeSpill_sameRegsButV g off b
  have written := (spill.trans (State.putMem_noteWrite_sameRegsButV _ (winKey g off) b (.win g off) b.length)).trans
    (State.setOwner_sameRegsButV _ (winKey g off) b.length (w.owner g))
  unfold State.writeSpad
  dsimp only
  split
  · exact written.trans (SameRegsButV.modCore_of_seqs _ _ _ rfl)
  · exact written

theorem State.accumulate_sameRegsButV (s : State) (w : Writer) (g off : Nat) (fp : Bool) (b : List Byte) (n : Nat) :
    SameRegsButV s (s.accumulate w g off fp b n) := by
  induction n generalizing s off b with
  | zero => exact SameRegsButV.refl s
  | succ n ih => exact (s.writeSpad_sameRegsButV ..).trans (ih ..)

theorem Core.writeVreg_butV (c : Core) (o : Nat) (b : List Byte) (k : Nat) : ((c.writeVreg o b).sq k).r.butV = (c.sq k).r.butV := by
  by_cases hk : k = o / 0x4000
  · rw [hk, Core.writeVreg, Core.sq_setSq_same]; rfl
  · rw [Core.writeVreg, Core.sq_setSq_other _ _ _ _ hk]

theorem State.record_sameRegsButV (s : State) (g kind k addr n data : Nat) : SameRegsButV s (s.record g kind k addr n data) := by
  unfold State.record
  split
  · exact SameRegsButV.refl s
  · exact SameRegsButV.of_cores rfl rfl

theorem State.foldl_record_sameRegsButV (s : State) (cores : List Nat) (kind k addr n data : Nat) :
    SameRegsButV s (cores.foldl (fun t g => t.record g kind k addr n data) s) := by
  induction cores generalizing s with
  | nil => exact SameRegsButV.refl s
  | cons g cores ih => exact (s.record_sameRegsButV ..).trans (ih _)

theorem State.putToken_sameRegsButV (s : State) (cl slot : Nat) (present error : Bool) (by_ : Option Nat) :
    SameRegsButV s (s.putToken cl slot present error by_) :=
  (s.foldl_record_sameRegsButV (((List.range 4).map (coreOfCluster cl)).filter fun g => by_ != some g) 3 0 slot 1
    ((if present then 1 else 0) + if error then 2 else 0)).of_cores_right rfl rfl

/-- Whatever window a write reaches, it leaves every register but the bytes of vector registers. -/
theorem State.writeWin_sameRegsButV (s : State) (w : Writer) (g off : Nat) (b : List Byte) : SameRegsButV s (s.writeWin w g off b) := by
  unfold State.writeWin
  split
  · exact s.writeSpad_sameRegsButV ..
  · exact (s.putMem_noteWrite_sameRegsButV ..).trans (SameRegsButV.modCore_of_seqs _ _ _ rfl)
  · exact (s.putMem_noteWrite_sameRegsButV ..).trans (SameRegsButV.modCore_of_seqs _ _ _ rfl)
  · exact SameRegsButV.modCore _ _ _ fun k => Core.writeVreg_butV ..
  · exact SameRegsButV.modCore_of_seqs _ _ _ rfl
  · exact s.putToken_sameRegsButV ..
  · exact SameRegsButV.modCore_of_seqs _ _ _ rfl
  · exact s.accumulate_sameRegsButV ..
  · exact s.accumulate_sameRegsButV ..
  · exact SameRegsButV.refl s

/-! ### Snapshots (R330) -/

theorem State.snapshot_sameRegsButV (s : State) (g k depth : Nat) : SameRegsButV s (s.snapshot g k depth) := by
  unfold State.snapshot
  split
  · exact SameRegsButV.refl s
  · split
    · exact SameRegsButV.modCore_of_seqs _ _ _ rfl
    · exact (s.writeWin_sameRegsButV ..).trans (SameRegsButV.modCore_of_seqs _ _ _ rfl)

/-- Without profiling there is no snapshot. -/
theorem State.snapshot_of_unarmed (s : State) (g k depth : Nat) (h : (s.core g).prof = none) : s.snapshot g k depth = s := by
  rw [State.snapshot, h]

end Sys2Proof.Machine
end

section
/-! SUPPORT. Proofs of the family of 05_scalar_extensions.md: hardware loops (O21), with what `loop.set` and `loop.end` leave of the
predicates (R74, R75), what an edge of a loop leaves (R72, R330), and what each word does. -/
namespace Sys2Proof.Machine

/-! ### Stage predicates (R73, R74, R75) -/

/-- Clearing predicates by name leaves everything but the predicates. -/
theorem Regs.foldl_wp_keeps (r : Regs) (name : Nat → PReg) (l : List Nat) :
    ∃ p, l.foldl (fun (a : Regs) j => a.wp (name j) 0) r = { r with p := p } := by
  induction l generalizing r with
  | nil => exact ⟨r.p, rfl⟩
  | cons j l ih =>
    obtain ⟨p, hp⟩ := ih (r.wp (name j) 0)
    refine ⟨p, hp.trans ?_⟩
    rcases r.wp_cases (name j) 0 with h | h <;> rw [h]

/-- Clearing predicates by name clears those that are named, and no other. -/
theorem Regs.rp_foldl_wp (r : Regs) (name : Nat → PReg) (l : List Nat) (i : PReg) (hi : i ≠ 0) :
    (l.foldl (fun (a : Regs) j => a.wp (name j) 0) r).rp i = if i ∈ l.map name then 0 else r.rp i := by
  induction l generalizing r with
  | nil => rfl
  | cons j l ih =>
    rw [List.foldl_cons, ih, List.map_cons]
    by_cases hj : i = name j
    · subst hj
      rw [Regs.rp_wp_of_ne_zero _ _ _ hi, ite_self, if_pos List.mem_cons_self]
    · rw [Regs.rp_wp_other _ _ _ _ hj]
      simp only [List.mem_cons, hj, false_or]

theorem Regs.rp_setLoops (r : Regs) (loops : List LoopLevel) (j : PReg) : ({ r with loops := loops } : Regs).rp j = r.rp j := rfl

/-- R74: the registers with the eight stage predicates cleared. -/
def Regs.clearStages (r : Regs) : Regs :=
  (List.range 8).foldl (fun (a : Regs) j => a.wp ⟨(8 + j) % 16, Nat.mod_lt _ (by decide)⟩ 0) r

theorem Regs.clearStages_keeps (r : Regs) : ∃ p, r.clearStages = { r with p := p } := r.foldl_wp_keeps ..

theorem Regs.rp_clearStages (r : Regs) (j : PReg) (h : j ≠ 0) : r.clearStages.rp j = if 8 ≤ j.val then 0 else r.rp j := by
  have named : j ∈ (List.range 8).map (fun i => (⟨(8 + i) % 16, Nat.mod_lt _ (by decide)⟩ : PReg)) ↔ 8 ≤ j.val := by
    revert j; decide
  rw [Regs.clearStages, Regs.rp_foldl_wp _ _ _ _ h]
  simp only [named]

/-- R74: the registers once `loop.set` has pushed a level of n iterations and its stage count. -/
def Regs.loopSet (r : Regs) (n stages : Nat) : Regs :=
  { r.clearStages.wp 8 (if n = 0 then 0 else onesP) with loops := ⟨n, stages, 0⟩ :: r.clearStages.loops }

theorem Regs.loopSet_keeps (r : Regs) (n stages : Nat) :
    (r.loopSet n stages).loops = ⟨n, stages, 0⟩ :: r.loops ∧ (r.loopSet n stages).pc = r.pc := by
  obtain ⟨p, hp⟩ := r.clearStages_keeps
  refine ⟨?_, (Regs.wp_pc ..).trans ?_⟩
  · rw [Regs.loopSet, hp]
  · rw [hp]

theorem Regs.rp_loopSet (r : Regs) (n stages : Nat) (j : PReg) :
    (r.loopSet n stages).rp j = (r.clearStages.wp 8 (if n = 0 then 0 else onesP)).rp j :=
  Regs.rp_setLoops ..

theorem Regs.rp_loopSet_first (r : Regs) (n stages : Nat) : (r.loopSet n stages).rp 8 = if n = 0 then 0 else onesP := by
  rw [Regs.rp_loopSet, Regs.rp_wp_of_ne_zero _ _ _ (by decide)]

/-- The predicates from p8 on are cleared, and the lower ones keep what they hold. -/
theorem Regs.rp_loopSet_other (r : Regs) (n stages : Nat) (j : PReg) (hj : j ≠ 8) :
    (r.loopSet n stages).rp j = if 8 ≤ j.val then 0 else r.rp j := by
  by_cases h0 : j = 0
  · subst h0
    rw [Regs.rp_zero, Regs.rp_zero]; rfl
  · rw [Regs.rp_loopSet, Regs.rp_wp_other _ _ _ _ hj, Regs.rp_clearStages _ _ h0]

/-- R73, R75: a rotation gives each stage predicate from p9 on what its predecessor held. -/
theorem rotP_succ (prb : Fin 8) (j : PReg) (hj : 9 ≤ j.val) : rotP (prb + 1) j = rotP prb ⟨j.val - 1, by omega⟩ := by
  apply Fin.ext
  have hsucc : (prb + 1).val = (prb.val + 1) % 8 := Fin.val_add ..
  simp only [rotP, if_neg (show ¬ j.val < 8 by omega), if_neg (show ¬ j.val - 1 < 8 by omega), hsucc]
  omega

/-- R75: after `loop.end` the innermost level has gone on or is popped. -/
theorem Regs.loopEnd_loops (r : Regs) (l : LoopLevel) (rest : List LoopLevel) :
    (r.loopEnd l rest).loops = if l.t + 1 < l.total then { l with t := l.t + 1 } :: rest else rest := rfl

/-- R75: `loop.end` rotates, and p8 tells whether the source has another iteration. -/
theorem Regs.loopEnd_rotates (r : Regs) (l : LoopLevel) (rest : List LoopLevel) :
    (r.loopEnd l rest).prb = r.prb + 1 ∧ (r.loopEnd l rest).vrb = r.vrb + 1 ∧
      (r.loopEnd l rest).rp 8 = (if l.t + 1 < l.n then onesP else 0) ∧
      ∀ j : PReg, (hj : 9 ≤ j.val) → (r.loopEnd l rest).rp j = r.rp ⟨j.val - 1, by omega⟩ := by
  refine ⟨Regs.wp_prb .., Regs.wp_vrb .., Regs.rp_wp_of_ne_zero _ 8 _ (by decide), fun j hj => ?_⟩
  have hne8 : j ≠ 8 := Fin.ne_of_val_ne (show j.val ≠ 8 by omega)
  have hne0 : j ≠ 0 := Fin.ne_of_val_ne (show j.val ≠ 0 by omega)
  have hpred : (⟨j.val - 1, by omega⟩ : PReg) ≠ 0 := Fin.ne_of_val_ne (show j.val - 1 ≠ 0 by omega)
  refine (Regs.rp_wp_other _ j 8 _ hne8).trans ?_
  simp only [Regs.rp, if_neg hne0, if_neg hpred, rotP_succ r.prb j hj]

/-! ### Edges of a loop (R72, R330) -/

theorem Regs.rp_congr {r r' : Regs} (hp : r.p = r'.p) (hprb : r.prb = r'.prb) (j : PReg) : r.rp j = r'.rp j := by
  simp only [Regs.rp, hp, hprb]

/-- The loop levels, the rotation and the predicates after a word that changed registers and went to an edge, whatever its snapshot
wrote. -/
theorem retireEdge_keeps {s u : State} {f : Regs → Regs} (h : SameRegsButV (s.modRegs f) u) (pc : Word) :
    (retireEdge u s pc).me.r.loops = (f s.me.r).loops ∧ (retireEdge u s pc).me.r.prb = (f s.me.r).prb ∧
      (retireEdge u s pc).me.r.vrb = (f s.me.r).vrb ∧ (retireEdge u s pc).me.r.p = (f s.me.r).p ∧
      (retireEdge u s pc).me.r.pc = pc := by
  have hregs : u.me.r.butV = (f s.me.r).butV := h.me.trans (by rw [State.me_modRegs])
  obtain ⟨hloops, hprb, hvrb, hp⟩ := Regs.eq_of_butV hregs
  rw [retireEdge_r u s pc h.cur]
  exact ⟨hloops, hprb, hvrb, hp, rfl⟩

/-- The same of predicates by name, where the word was `loop.end`. -/
theorem retireEdge_rotates {s u : State} {l : LoopLevel} {rest : List LoopLevel}
    (h : SameRegsButV (s.modRegs fun r => r.loopEnd l rest) u) (pc : Word) :
    (retireEdge u s pc).me.r.prb = s.me.r.prb + 1 ∧ (retireEdge u s pc).me.r.vrb = s.me.r.vrb + 1 ∧
      (retireEdge u s pc).me.r.rp 8 = (if l.t + 1 < l.n then onesP else 0) ∧
      ∀ j : PReg, (hj : 9 ≤ j.val) → (retireEdge u s pc).me.r.rp j = s.me.r.rp ⟨j.val - 1, by omega⟩ := by
  obtain ⟨-, hprb, hvrb, hp, -⟩ := retireEdge_keeps h pc
  obtain ⟨rprb, rvrb, rfirst, rothers⟩ := s.me.r.loopEnd_rotates l rest
  exact ⟨hprb.trans rprb, hvrb.trans rvrb, (Regs.rp_congr hp hprb 8).trans rfirst,
    fun j hj => (Regs.rp_congr hp hprb j).trans (rothers j hj)⟩

/-- Where profiling is not armed, the exit of a level writes no memory. -/
theorem retireEdge_snapshot_mem (s : State) (f : Regs → Regs) (depth : Nat) (pc : Word) (h : s.myCore.prof = none) :
    (retireEdge ((s.modRegs f).snapshot s.cur.1 s.cur.2 depth) s pc).mem = s.mem := by
  have unarmed : ((s.modRegs f).core s.cur.1).prof = none := by
    rw [State.modRegs, State.setMe, State.core_setSeqAt]; exact h
  rw [retireEdge_mem, State.snapshot_of_unarmed _ _ _ _ unarmed, State.modRegs_mem]

/-! ### The words (R74 to R77, R99) -/

/-- R74: six levels are the most, and the count is a 32-bit number. -/
theorem exec_loopSet {s : State} {xs1 : XReg} (stages : Nat) (hx : XReady s [xs1]) :
    exec (.loopSet xs1 stages) s =
      if 6 ≤ s.me.r.loops.length then .next (s.takeTrap s.cur.1 s.cur.2 causeLoop (wordOf (.loopSet xs1 stages)))
      else if 2 ^ 32 ≤ (s.rx xs1).toNat then .next (s.takeTrap s.cur.1 s.cur.2 causeLoop (s.rx xs1))
      else .next (retire (s.modRegs fun r => r.loopSet (s.rx xs1).toNat stages) s) := by
  change (loopSetRes xs1 stages s).finish s = _
  rw [loopSetRes, needX_full s _ hx, Res.checked_none, Res.finish_checked_trapIf, Res.finish_checked_trapIf]
  simp only [decide_eq_true_eq]
  rfl

theorem exec_loopSet_pushes {s : State} {xs1 : XReg} (stages : Nat) (hx : XReady s [xs1]) (hroom : s.me.r.loops.length < 6)
    (hcount : (s.rx xs1).toNat < 2 ^ 32) :
    exec (.loopSet xs1 stages) s = .next (retire (s.modRegs fun r => r.loopSet (s.rx xs1).toNat stages) s) := by
  rw [exec_loopSet stages hx, if_neg (Nat.not_le.mpr hroom), if_neg (Nat.not_le.mpr hcount)]

theorem exec_loopEnd_nil {s : State} (off : Int) (h : s.me.r.loops = []) :
    exec (.loopEnd off) s = .next (s.takeTrap s.cur.1 s.cur.2 causeLoop (wordOf (.loopEnd off))) := by
  change (loopEndRes off s).finish s = _
  rw [loopEndRes, h]
  rfl

/-- R75: `loop.end` branches back while its level has kernel iterations left, and else pops it. -/
theorem exec_loopEnd_cons {s : State} {l : LoopLevel} {rest : List LoopLevel} (off : Int) (h : s.me.r.loops = l :: rest) :
    exec (.loopEnd off) s =
      if l.t + 1 < l.total then .next (retireEdge (s.modRegs fun r => r.loopEnd l rest) s (s.pc + ofSigned off))
      else .next (retireEdge ((s.modRegs fun r => r.loopEnd l rest).snapshot s.cur.1 s.cur.2 rest.length) s (s.pc + 4)) := by
  change (loopEndRes off s).finish s = _
  rw [loopEndRes, h]
  dsimp only
  split <;> rfl

theorem exec_loopBrk_nil {s : State} (off : Int) (h : s.me.r.loops = []) :
    exec (.loopBrk off) s = .next (s.takeTrap s.cur.1 s.cur.2 causeLoop (wordOf (.loopBrk off))) := by
  change (loopBrkRes off s).finish s = _
  rw [loopBrkRes, h]
  rfl

theorem exec_loopBrk_cons {s : State} {l : LoopLevel} {rest : List LoopLevel} (off : Int) (h : s.me.r.loops = l :: rest) :
    exec (.loopBrk off) s =
      .next (retireEdge ((s.modRegs fun r => { r with loops := rest }).snapshot s.cur.1 s.cur.2 rest.length) s
        (s.pc + ofSigned off)) := by
  change (loopBrkRes off s).finish s = _
  rw [loopBrkRes, h]
  rfl

theorem exec_loopIdx {s : State} {rd : XReg} (k : Nat) (hx : XReady s [rd]) :
    exec (.loopIdx rd k) s =
      match s.me.r.loops[k]? with
      | none => .next (s.takeTrap s.cur.1 s.cur.2 causeLoop (wordOf (.loopIdx rd k)))
      | some l => .next (retire (s.wx rd (BitVec.ofNat 64 l.t)) s) := by
  change (loopIdxRes rd k s).finish s = _
  rw [loopIdxRes]
  cases s.me.r.loops[k]? <;> dsimp only <;> rw [needX_full s _ hx] <;> rfl

theorem exec_yield (s : State) : exec .yield s = .next (retireEdge s s (s.pc + 4)) := rfl

/-- Settles O21: the words act on the innermost level as R74 to R77 say, and where a level is left its snapshot changes neither levels
nor predicates. -/
theorem hardwareLoops : Obligations.HardwareLoops := by
  intro s xs1 rd n k off ready
  have readySource : XReady s [xs1] := XReady.mono ready (by simp)
  have readyRd : XReady s [rd] := XReady.mono ready (by simp)
  refine ⟨fun hroom hcount => ?_, fun hfull => ?_, fun hroom hcount => ?_, fun l rest hloops => ⟨fun hmore => ?_, fun hlast => ?_, ?_⟩,
    fun hempty => ⟨exec_loopEnd_nil off hempty, exec_loopBrk_nil off hempty⟩, fun l hl => ?_, fun hnone => ?_, fun hstop => ?_,
    fun hstop hexit => ?_, rfl, rfl, rfl, rfl⟩
  · obtain ⟨hlevels, hpc⟩ := s.me.r.loopSet_keeps (s.rx xs1).toNat n
    refine ⟨_, exec_loopSet_pushes n readySource hroom hcount, ?_, ?_, fun j hj => ?_, fun j hj => ?_, ?_⟩
    · rw [retire_modRegs_r]; exact hlevels
    · have zero_iff : (s.rx xs1).toNat = 0 ↔ s.rx xs1 = 0 := BitVec.toNat_inj (y := 0)
      rw [retire_modRegs_rp, Regs.rp_loopSet_first]
      simp only [zero_iff]
      rfl
    · rw [retire_modRegs_rp, Regs.rp_loopSet_other _ _ _ _ (Fin.ne_of_val_ne (show j.val ≠ 8 by omega)), if_pos (by omega)]
    · rw [retire_modRegs_rp, Regs.rp_loopSet_other _ _ _ _ (Fin.ne_of_val_ne (show j.val ≠ 8 by omega)), if_neg (by omega)]
    · rw [retire_modRegs_r]; exact congrArg (· + 4) hpc
  · rw [exec_loopSet n readySource, if_pos hfull]
  · rw [exec_loopSet n readySource, if_neg (Nat.not_le.mpr hroom), if_pos hcount]
  · have same := SameRegsButV.refl (s.modRegs fun r => r.loopEnd l rest)
    obtain ⟨hlevels, -, -, -, hpc⟩ := retireEdge_keeps same (s.pc + ofSigned off)
    obtain ⟨hprb, hvrb, hfirst, hothers⟩ := retireEdge_rotates same (s.pc + ofSigned off)
    exact ⟨_, (exec_loopEnd_cons off hloops).trans (if_pos hmore), hlevels.trans (if_pos hmore), hprb, hvrb, hfirst, hothers, hpc⟩
  · have same := State.snapshot_sameRegsButV (s.modRegs fun r => r.loopEnd l rest) s.cur.1 s.cur.2 rest.length
    obtain ⟨hlevels, -, -, -, hpc⟩ := retireEdge_keeps same (s.pc + 4)
    obtain ⟨hprb, hvrb, hfirst, hothers⟩ := retireEdge_rotates same (s.pc + 4)
    exact ⟨_, (exec_loopEnd_cons off hloops).trans (if_neg hlast), hlevels.trans (if_neg hlast), hprb, hvrb, hfirst, hothers, hpc,
      retireEdge_snapshot_mem s _ _ _⟩
  · have same := State.snapshot_sameRegsButV (s.modRegs fun r => { r with loops := rest }) s.cur.1 s.cur.2 rest.length
    obtain ⟨hlevels, hprb, hvrb, hp, hpc⟩ := retireEdge_keeps same (s.pc + ofSigned off)
    exact ⟨_, exec_loopBrk_cons off hloops, hlevels, hprb, hvrb, hp, hpc, retireEdge_snapshot_mem s _ _ _⟩
  · rw [exec_loopIdx k readyRd, hl]
  · rw [exec_loopIdx k readyRd, hnone]
  · rw [exec_yield, retireEdge_of_noStop s s _ rfl hstop]
    rfl
  · exact ⟨_, exec_yield s, retireEdge_stops s s _ rfl hstop hexit⟩

end Sys2Proof.Machine
end
